-- ==== Sys2Proof/Word.lean ====
section
/-! DEFINITION. The bit-vector types of the Isaja K640 and their plainest arithmetic (R9, R11, R193). -/
namespace Sys2Proof

/-- An 8-bit byte, the smallest addressable unit (R9). -/
abbrev Byte := BitVec 8
/-- A 64-bit scalar register's contents (R193). -/
abbrev Word := BitVec 64
/-- One 96-bit instruction word (R11). -/
abbrev IWord := BitVec 96
/-- A scalar register name s0–s63 (R193). -/
abbrev SReg := BitVec 6
/-- A vector register name v0–v1023 (R147). -/
abbrev VReg := BitVec 10
/-- A vector register's 1536 bytes; byte k is bits 8k+7:8k (R9, R147). -/
abbrev VBits := BitVec 12288
/-- A 384-bit lane mask (R151). -/
abbrev Mask := BitVec 384

/-- Bits `lo .. lo+len-1` of `w`, as a number: the field `w<lo+len-1:lo>` of the manual (R399's conventions). -/
def fld {n : Nat} (w : BitVec n) (lo len : Nat) : Nat := (w.toNat >>> lo) % 2 ^ len

/-- One bit of `w`. -/
def bit {n : Nat} (w : BitVec n) (k : Nat) : Bool := w.getLsbD k

/-- Bits `lo .. lo+len-1` of a natural number. -/
def nfld (w lo len : Nat) : Nat := (w >>> lo) % 2 ^ len

/-- The low `bits` bits of `w` read as two's complement. -/
def signed (bits w : Nat) : Int :=
  let m := w % 2 ^ bits
  if 2 * m < 2 ^ bits then (m : Int) else (m : Int) - (2 : Int) ^ bits

/-- `x` reduced modulo `2^bits`, as a natural number. -/
def wrap (bits : Nat) (x : Int) : Nat := (x % (2 : Int) ^ bits).toNat

/-- `SignExtend64` of a 32-bit immediate (R196). -/
def sext64 (x : BitVec 32) : Word := x.signExtend 64

/-- `w` with the `len` bits from `lo` up replaced by the low bits of `v`. -/
def setFld {n : Nat} (w : BitVec n) (lo len v : Nat) : BitVec n :=
  let m : BitVec n := BitVec.ofNat n ((2 ^ len - 1) <<< lo)
  (w &&& ~~~ m) ||| BitVec.ofNat n ((v % 2 ^ len) <<< lo)

/-- A natural number's little-endian bytes, `n` of them, the lowest address first (R9). -/
def leBytes : Nat → Nat → List Byte
  | 0, _ => []
  | n + 1, w => BitVec.ofNat 8 w :: leBytes n (w / 256)

/-- The number whose little-endian bytes are given (R9). -/
def ofLeBytes : List Byte → Nat
  | [] => 0
  | b :: bs => b.toNat + 256 * ofLeBytes bs

end Sys2Proof
end

