-- ==== Sys2Proof/Syntax.lean ====
section
/-! DEFINITION. The instructions and steps of the Isaja K640: one constructor of `Instr` per row of the table of
operations and events (R11–R21, R92, R105, R117–R122, R154–R168, R175–R191, R196–R214, R231, R244–R267, R295, R310,
R335, R352, R353, R381). -/
namespace Sys2Proof

/-- The engines of a core that have queues (R16). -/
inductive Eng where
  | vl | vx | vs | mx
  deriving DecidableEq, Repr

/-- The number formats by code (R123). -/
inductive Fmt where
  | f32 | bf16 | f16 | e4m3 | e5m2 | d8 | a48 | i32 | n32 | i16 | n16 | i8 | n8 | e8m0
  deriving DecidableEq, Repr

/-- Rounding modes of the RM field; `dyn` takes the mode from FPCR (R20, R135). -/
inductive Rm where
  | rne | rtz | rdn | rup | rna | dyn
  deriving DecidableEq, Repr

/-- Memory order of a PMEM instruction (R19). -/
inductive Ord where
  | rlx | acq | rel | ar
  deriving DecidableEq, Repr

/-- Conditions of PSET and WAITA (R198, R236). -/
inductive PCond where
  | eq | ne | lt | ge | ltn | gen | tst | ntst
  deriving DecidableEq, Repr

/-- Operations of PLOG (R198). -/
inductive PLop where
  | pand | por | pxor | pandn | porn | pnand | pnor | pxnor
  deriving DecidableEq, Repr

/-- Conditions of VCMP (R159). -/
inductive VCond where
  | eq | ne | lt | le | gt | ge | un
  deriving DecidableEq, Repr

/-- Width codes of scalar loads (R208); stores take the first four. -/
inductive Width where
  | n8 | n16 | n32 | d64 | i8 | i16 | i32
  deriving DecidableEq, Repr

/-- Host-cache hints of ST (R210). -/
inductive Hint where
  | none | nc | ncp | own
  deriving DecidableEq, Repr

/-- Atomic operations (R233). -/
inductive AOp where
  | swap | add | and | or | xor | min | max | minn | maxn | fadd | fmin | fmax
  deriving DecidableEq, Repr

/-- Type of the word an atomic works on: SZ and TYP of R233. -/
inductive ATyp where
  | w32 | w64 | f32 | a48
  deriving DecidableEq, Repr

/-- The operation of CSRX (R214). -/
inductive CsrOp where
  | swap | set | clr
  deriving DecidableEq, Repr

/-- The source of VOQ (R165). -/
inductive VoqSrc where
  | any | all | lane0
  deriving DecidableEq, Repr

/-- The operation of VRED and VSCAN (R164). -/
inductive RedOp where
  | sum | max | min
  deriving DecidableEq, Repr

/-- The operation of QOP (R117). -/
inductive QopOp where
  | add | sub | mul | min | max | scal | cpy
  deriving DecidableEq, Repr

/-- The operation of QRED (R118). -/
inductive QredOp where
  | sum | linf | l2 | max
  deriving DecidableEq, Repr

/-- Annotations of a pacer, copy or quay word: binding time and predicate (R11, R14, R15). -/
structure Ann where
  bt : Bool
  pr : BitVec 3
  deriving DecidableEq, Repr

/-- Annotations of an engine word: those of `Ann` and the four token bits (R11, R26). -/
structure EAnn where
  bt : Bool
  pr : BitVec 3
  pa : Bool
  pb : Bool
  sa : Bool
  sb : Bool
  deriving DecidableEq, Repr

/-- Operand b of the INT class: a register (I = 0) or the immediate (I = 1) (R19, R196). -/
inductive SrcB where
  | reg (r : SReg)
  | imm (x : BitVec 32)
  deriving DecidableEq, Repr

/-- Two-source INT operands (R196). -/
structure IntOp where
  w : Bool
  d : SReg
  a : SReg
  b : SrcB
  deriving DecidableEq, Repr

/-- One-source INT operands (R196: CLZ, CTZ, POPC). -/
structure IntOp1 where
  w : Bool
  d : SReg
  a : SReg
  deriving DecidableEq, Repr

/-- VF-class operands with one source (R154). -/
structure Vf1 where
  fmt : Fmt
  rm : Rm
  sat : Bool
  d : VReg
  a : VReg
  deriving DecidableEq, Repr

/-- VF-class operands with two sources (R154). -/
structure Vf2 where
  fmt : Fmt
  rm : Rm
  sat : Bool
  d : VReg
  a : VReg
  b : VReg
  deriving DecidableEq, Repr

/-- VF-class operands with three sources (R154). -/
structure Vf3 where
  fmt : Fmt
  rm : Rm
  sat : Bool
  d : VReg
  a : VReg
  b : VReg
  c : VReg
  deriving DecidableEq, Repr

/-- VI-class operands with one source (R157). -/
structure Vi1 where
  fmt : Fmt
  d : VReg
  a : VReg
  deriving DecidableEq, Repr

/-- VI-class operands with two sources (R157). -/
structure Vi2 where
  fmt : Fmt
  sat : Bool
  d : VReg
  a : VReg
  b : VReg
  deriving DecidableEq, Repr

/-- VI-class operands with three sources (R157: VIMAD). -/
structure Vi3 where
  fmt : Fmt
  sat : Bool
  d : VReg
  a : VReg
  b : VReg
  c : VReg
  deriving DecidableEq, Repr

/-- Operands of VRED and VSCAN (R164). -/
structure VRedOp where
  op : RedOp
  fmt : Fmt
  rm : Rm
  sat : Bool
  d : VReg
  a : VReg
  deriving DecidableEq, Repr

/-- The slot set of SCLAIM and SRLS: one slot, or a mask in a scalar (R181). -/
inductive SlotSet where
  | one (q : BitVec 5)
  | mask (s : SReg)
  deriving DecidableEq, Repr

/-- A section header as its fields (R22). -/
structure Header where
  magic : BitVec 4
  sec : BitVec 12
  len : BitVec 12
  afterVl : BitVec 6
  afterVx : BitVec 6
  afterVs : BitVec 6
  afterMx : BitVec 6
  afterCp : BitVec 6
  flags : BitVec 6
  deriving DecidableEq, Repr

/-- Why an access could not be completed by its home or its path (R74, R397). -/
inductive Err where
  | none      -- it completed
  | ecc       -- an uncorrectable memory error
  | peer      -- the peer failed or refused it, or the path was lost
  deriving DecidableEq, Repr

/-- The target of a REGISTER_WRITE (R214): a CSR of a core, or a BAR0 register of the module. -/
inductive RegTarget where
  | csr (core num : Nat)
  | bar0 (off : Nat)
  deriving DecidableEq, Repr

/-- The instructions and the machine's own steps, one constructor per row of the opcode table.
Words of the stream carry their annotations first.  Event rows name the core, die, unit or entry that they are
about, and, where the outside world or a device fault decides something, that decision. -/
inductive Instr where
  -- integer (R196–R198)
  | add (n : Ann) (o : IntOp)
  | sub (n : Ann) (o : IntOp)
  | mul (n : Ann) (o : IntOp)
  | mulh (n : Ann) (o : IntOp)
  | mulhn (n : Ann) (o : IntOp)
  | div (n : Ann) (o : IntOp)
  | divn (n : Ann) (o : IntOp)
  | rem (n : Ann) (o : IntOp)
  | remn (n : Ann) (o : IntOp)
  | and (n : Ann) (o : IntOp)
  | or (n : Ann) (o : IntOp)
  | xor (n : Ann) (o : IntOp)
  | andn (n : Ann) (o : IntOp)
  | shl (n : Ann) (o : IntOp)
  | shr (n : Ann) (o : IntOp)
  | sar (n : Ann) (o : IntOp)
  | rot (n : Ann) (o : IntOp)
  | min (n : Ann) (o : IntOp)
  | max (n : Ann) (o : IntOp)
  | minn (n : Ann) (o : IntOp)
  | maxn (n : Ann) (o : IntOp)
  | sel (n : Ann) (k : BitVec 3) (o : IntOp)
  | li (n : Ann) (w : Bool) (d a : SReg) (imm : BitVec 32)
  | lea (n : Ann) (w : Bool) (d : SReg) (b : SrcB)
  | bfx (n : Ann) (sx : Bool) (o : IntOp)
  | bfi (n : Ann) (o : IntOp)
  | clz (n : Ann) (o : IntOp1)
  | ctz (n : Ann) (o : IntOp1)
  | popc (n : Ann) (o : IntOp1)
  | pset (n : Ann) (c : PCond) (w : Bool) (pd : BitVec 3) (a : SReg) (b : SrcB)
  | plog (n : Ann) (op : PLop) (pd pa pb : BitVec 3)
  -- control (R199–R207)
  | br (n : Ann) (hdr : Bool) (imm : BitVec 32)
  | jmp (n : Ann) (a : SReg) (imm : BitVec 32)
  | jmpr (n : Ann) (a : SReg) (imm : BitVec 32)
  | call (n : Ann) (d : SReg) (imm : BitVec 32)
  | ret (n : Ann) (a : SReg)
  | loop (n : Ann) (hdr init : Bool) (s1 : BitVec 2) (d a : SReg) (imm : BitVec 32)
  | brq (n : Ann) (hdr z : Bool) (imm : BitVec 32)
  | squash (n : Ann) (imm : BitVec 32)
  | mcall (n : Ann) (num : BitVec 8) (d a b c : BitVec 10) (imm : BitVec 32)
  | exit (n : Ann)
  | instanceEnd (core : Nat)
  -- scalar memory and synchronisation (R208–R213, R231–R236)
  | ld (n : Ann) (spec : Bool) (wd : Width) (d a : SReg) (imm : BitVec 32)
  | st (n : Ann) (h : Hint) (wd : Width) (a b : SReg) (imm : BitVec 32)
  | chkd (n : Ann) (a : SReg)
  | lda (n : Ann) (ord : Ord) (sc : BitVec 4) (wd : Width) (d a : SReg) (imm : BitVec 32)
  | str (n : Ann) (ord : Ord) (sc : BitVec 4) (wd : Width) (a b : SReg) (imm : BitVec 32)
  | atom (n : Ann) (op : AOp) (ty : ATyp) (ord : Ord) (sc : BitVec 4) (d a b : SReg)
  | cas (n : Ann) (w32 facq : Bool) (ord : Ord) (sc : BitVec 4) (d a b c : SReg)
  | fence (n : Ann) (ord : Ord) (sc : BitVec 4)
  | waita (n : Ann) (c : PCond) (w32 : Bool) (ord : Ord) (sc : BitVec 4) (psel : BitVec 3) (bk : BitVec 4)
      (d a b dl : SReg)
  | waitaPoll (core : Nat)
  | bufuse (n : Ann) (buf : BitVec 6)
  | bufrel (n : Ann) (buf : BitVec 6)
  -- control and status registers, traps, system (R214, R143–R145, R175, R352–R355)
  | csrr (n : Ann) (d : SReg) (num : BitVec 12)
  | csrw (n : Ann) (a : SReg) (num : BitVec 12)
  | csrx (n : Ann) (op : CsrOp) (d a : SReg) (num : BitVec 12)
  | registerWrite (t : RegTarget) (v : Word)
  | ptbaseWrite (core : Nat) (v : Word)
  | tickcfgWrite (core : Nat) (v : Word)
  | fpsrAccess (core : Nat) (v : Option Word)
  | watchctlWrite (core k : Nat) (v : Word)
  | tlogWrite (core : Nat) (v : Word)
  | trap (n : Ann) (num : BitVec 16)
  | eret (n : Ann)
  | bkpt (n : Ann) (num : BitVec 16)
  | fmt (n : Ann) (a : SReg)
  -- launches, feeds, barriers, ticks (R244–R267)
  | launch (n : Ann) (det : Bool) (d a : SReg)
  | waitch (n : Ann) (t : Bool) (d a : SReg)
  | waitchReturn (core : Nat)
  | feed (n : Ann) (d a b : SReg)
  | popw (n : Ann) (d a c : SReg)
  | popwRetry (core : Nat)
  | ackw (n : Ann) (a b : SReg)
  | bar (n : Ann) (legs : Bool)
  | barRelease (core : Nat)
  | tickw (n : Ann) (next : Bool) (d a c : SReg)
  | tick (die : Nat)
  -- relays (R335–R342)
  | rlyOpen (n : Ann) (d a : SReg)
  | rlyTake (n : Ann) (d a c : SReg)
  | rlyTakeRetry (core : Nat)
  | rlyPost (n : Ann) (d a b c : SReg)
  | rlyGtake (n : Ann) (d a c : SReg)
  | rlyGpost (n : Ann) (d a b : SReg)
  | rlyStat (n : Ann) (d a : SReg)
  | rlyWait (n : Ann) (d a c : SReg)
  | rlyWaitReturn (core : Nat)
  | rlyClose (n : Ann) (a : SReg)
  -- heats (R295–R302) and collectives (R310–R314)
  | heatJoin (n : Ann) (d a b : SReg)
  | heatGive (n : Ann) (d a b c : SReg)
  | heatDeadline (home : Nat)
  | heatWait (n : Ann) (d a b c : SReg)
  | heatWaitReturn (core : Nat)
  | heatClose (n : Ann) (a : SReg)
  | collLoad (n : Ann) (d a : SReg)
  | collLoadDrop (n : Ann) (a : SReg)
  | collRun (n : Ann) (d a b c : SReg)
  | collWait (n : Ann) (d a c : SReg)
  | collWaitReturn (core : Nat)
  | collClaim (n : Ann) (d a b c : SReg)
  | collClaimSeal (n : Ann) (a b : SReg)
  | collStepBegin (graph run rank stepNo : Nat)
  | collStepComplete (graph run rank stepNo : Nat)
  -- vector load and store (R104–R112)
  | vld (n : EAnn) (p : Bool) (d : VReg) (a : SReg) (imm : BitVec 32)
  | vldg (n : EAnn) (f : Fmt) (clamp : Bool) (d a : VReg) (b : SReg)
  | vldb (n : EAnn) (f : Fmt) (d : VReg) (a : SReg) (imm : BitVec 32)
  | sld (n : EAnn) (sideband : Bool) (q : BitVec 5) (a b : SReg) (imm : BitVec 32)
  | vst (n : EAnn) (p : Bool) (a : SReg) (b : VReg) (imm : BitVec 32)
  | vsts (n : EAnn) (f : Fmt) (a b : VReg) (c : SReg)
  | vstm (n : EAnn) (f : Fmt) (a : SReg) (b c : VReg) (imm : BitVec 32)
  -- vector execute (R154–R168)
  | vadd (n : EAnn) (o : Vf2)
  | vsub (n : EAnn) (o : Vf2)
  | vmul (n : EAnn) (o : Vf2)
  | vfma (n : EAnn) (o : Vf3)
  | vfms (n : EAnn) (o : Vf3)
  | vfnma (n : EAnn) (o : Vf3)
  | vmin (n : EAnn) (o : Vf2)
  | vmax (n : EAnn) (o : Vf2)
  | vabs (n : EAnn) (o : Vf1)
  | vneg (n : EAnn) (o : Vf1)
  | vdiv (n : EAnn) (o : Vf2)
  | vsqrt (n : EAnn) (o : Vf1)
  | vrsq (n : EAnn) (o : Vf1)
  | vrcp (n : EAnn) (o : Vf1)
  | vexp2 (n : EAnn) (o : Vf1)
  | vlog2 (n : EAnn) (o : Vf1)
  | viadd (n : EAnn) (o : Vi2)
  | visub (n : EAnn) (o : Vi2)
  | vimul (n : EAnn) (o : Vi2)
  | vimad (n : EAnn) (o : Vi3)
  | vimin (n : EAnn) (o : Vi2)
  | vimax (n : EAnn) (o : Vi2)
  | vand (n : EAnn) (o : Vi2)
  | vor (n : EAnn) (o : Vi2)
  | vxor (n : EAnn) (o : Vi2)
  | vshl (n : EAnn) (o : Vi2)
  | vshr (n : EAnn) (o : Vi2)
  | vsar (n : EAnn) (o : Vi2)
  | vclz (n : EAnn) (o : Vi1)
  | vpopc (n : EAnn) (o : Vi1)
  | vcmp (n : EAnn) (c : VCond) (f : Fmt) (nest : Bool) (a b : VReg)
  | vsel (n : EAnn) (d a b : VReg)
  | vcvt (n : EAnn) (dst : Fmt) (rm : Rm) (sat : Bool) (d a : VReg) (src : Fmt) (part : BitVec 2)
  | vmov (n : EAnn) (d a : VReg)
  | vbcast (n : EAnn) (f : Fmt) (d : VReg) (b : SrcB)
  | vperm (n : EAnn) (f : Fmt) (d a b c : VReg)
  | vrot (n : EAnn) (f : Fmt) (d a : VReg) (imm : BitVec 32)
  | vsort (n : EAnn) (f : Fmt) (desc kv : Bool) (d a c : VReg)
  | vred (n : EAnn) (o : VRedOp)
  | vscan (n : EAnn) (o : VRedOp)
  | minv (n : EAnn)
  | mpop (n : EAnn)
  | mskip (n : EAnn) (imm : BitVec 32)
  | voq (n : EAnn) (src : VoqSrc) (a : VReg)
  | vacr (n : EAnn) (dst : Fmt) (rm : Rm) (sat clr : Bool) (d : VReg) (a : BitVec 3) (b : SReg)
  | vacw (n : EAnn) (src : Fmt) (acc : Bool) (d : BitVec 3) (a : VReg) (b : SReg)
  -- team array (R175–R192)
  | mma (n : EAnn) (d : BitVec 3) (a b : BitVec 5) (cyc : BitVec 8)
  | mmag (n : EAnn) (d : BitVec 3) (a : BitVec 5) (c : SReg) (cyc : BitVec 8)
  | sclaim (n : EAnn) (set : SlotSet)
  | srls (n : EAnn) (set : SlotSet)
  | fzero (n : EAnn) (d : BitVec 3)
  | lrel (n : EAnn)
  -- copy engine (R92–R98)
  | cpgo (n : Ann) (d : SReg) (ch : BitVec 3) (b c : SReg)
  | cpone (n : Ann) (p g : Bool) (sc : BitVec 4) (d : SReg) (ch : BitVec 3) (b c : SReg) (imm : BitVec 32)
  | cpcan (n : Ann) (d a : SReg)
  | cphint (n : Ann) (ev : Bool) (a b : SReg) (tag : BitVec 32)
  | cpwait (n : Ann) (t : Bool) (d : SReg) (ch : BitVec 3)
  -- quay unit (R117–R119)
  | qop (n : Ann) (op : QopOp) (f : Fmt) (sat : Bool) (d a b : SReg) (cnt : BitVec 24)
  | qred (n : Ann) (op : QredOp) (f : Fmt) (o32 : Bool) (d a : SReg) (cnt : BitVec 24)
  | qfill (n : Ann) (w : BitVec 2) (d a : SReg) (cnt : BitVec 24)
  | quayElementStep (die n : Nat) (e : Err)
  | quayInstructionComplete (die n : Nat)
  -- firmware cores (R381)
  | wxGtc (rd : BitVec 5)
  | wxSend (rd rs1 rs2 : BitVec 5)
  | wxFence (rs1 : BitVec 5)
  | wxReady (rs1 rs2 : BitVec 5)
  -- the pacer's sections and the engines' entries (R22–R27, R171–R173, R216–R217)
  | sectionHeader (h : Header)
  | partBegin (core : Nat)
  | engineEntryBegin (core : Nat) (e : Eng)
  | engineEntryWriteback (core : Nat) (e : Eng)
  | leaseRequest (core : Nat)
  | leaseEnd (core : Nat)
  -- copy channels (R75–R91)
  | chainStart (core ch : Nat)
  | recordFetch (core ch : Nat) (e : Err)
  | notbeforeExpiry (core ch : Nat)
  | granuleLanding (core ch : Nat) (e : Err)
  | recordComplete (core ch : Nat)
  -- homes, translation, fabric (R67–R74, R222, R239–R242, R356, R379, R387, R397)
  | homeStep (n : Nat) (e : Err)
  | rowRepair (stack row : Nat)
  | tableWalk (die : Nat) (e : Err)
  | writeAcknowledgement (n : Nat)
  | writeRefused (n : Nat)
  | operandLogReissue (n : Nat)
  | flitCrcFail (link : Nat)
  -- traps, containment, pre-emption (R345–R364)
  | trapHandlerEntry (core : Nat)
  | sectionEndTrap (core : Nat)
  | asyncTrap (core : Nat)
  | containment (core cause : Nat)
  | preemptTake (core : Nat)
  | crewResume (crew : Nat)
  -- launch unit (R253–R256, R269)
  | replicaStart (crew leg : Nat)
  | classPromotion (crew : Nat)
  | crewEnd (crew : Nat)
  | specialise (crew : Nat)
  -- relay units (R322–R333)
  | relaySeed (u leg : Nat)
  | relaySweepBegin (u : Nat)
  | relayStep (u : Nat)
  | relayEndStateWrite (u : Nat)
  | relayRetire (u leg : Nat)
  | relayDeadline (u : Nat)
  | relayOwedFeed (u leg : Nat)
  -- host command ring (R374–R378, R382, R385, R388, R389)
  | launchCommand
  | preempt
  | kill
  | setvec
  | setroot
  | bias
  | specflush
  | fwstage
  | fwactivate
  | firmwareRollback
  | retire
  | logread
  | setsave
  | door (v : Word)
  -- host, fabric, boot (R372–R390)
  | hostMemoryAccess (write : Bool) (addr : Nat) (v : Byte)
  | spdmRequest (nonce : Nat)
  | linkTraining (lanes : Nat)
  | portStateChange (port lanes : Nat) (up : Bool)
  | fabricDiscovery (hops : List (Nat × Nat)) (rootGtc : Nat)
  | boot
  -- completions seen by a stalled pacer or unit (R195, R267, R387, R72)
  | tickwDeadline (core : Nat)
  | loadDataReturn (core : Nat) (e : Err)
  | rowRepairComplete (stack row : Nat)
  | hostSnoopResponse (n : Nat)
  deriving DecidableEq, Repr

end Sys2Proof
end

