-- ==== Sys2Proof/Config.lean ====
section
/-! DEFINITION. What an implementation fixes and what the manual leaves open (R7, R390, R399). The `opaque` constants
have no value that a proof could see: a claim holds whatever they are. -/
namespace Sys2Proof.Config

/-- The number of active cores (R2). -/
def cores : Nat := 640
/-- The device's own 12-bit number in the fabric (R8). -/
def deviceNo : Nat := 0
/-- The bulk tier's size: 1024 GiB (R2, R61). -/
def bulkSize : Nat := 2 ^ 40
/-- The size of the save area (R362). -/
def saveSize : Nat := 0x6A0000

/-- The `n`-th open choice of a run: which of the values an ordinary load may return (R225), and every other value the
manual leaves open. -/
opaque freeNat : Nat → Nat
/-- Which agent moves at the `n`-th step: 0 the clock, `k+1` an index into the agents (R390: no rule orders them). -/
opaque schedule : Nat → Nat
/-- The event that may happen at the `n`-th step when the environment moves (R390, R399). -/
opaque environment : Nat → Option Instr
/-- The reading of the GTC differs from place to place by at most 2 ns (R7): the skew of the `n`-th reading. -/
opaque gtcSkew : Nat → Nat
/-- The public key in the boot ROM (R382): its root and its seed. -/
opaque xmssRoot : Nat
opaque xmssSeed : Nat
/-- The bytes of a configuration record that its signature covers, from its fields (R383): the manual gives no layout. -/
opaque recordBytes : List Nat → List (BitVec 8)
/-- What a configuration record or a certificate chain in flash holds at first, by place (R383, R385): the manual gives no values. -/
opaque flash : Nat → Nat
/-- The signature of a configuration record that the firmware writes, over the bytes it covers (R383, R388): the manual gives none. -/
opaque recordSignature : List (BitVec 8) → List (BitVec 8)
/-- The device secret of the physically unclonable function, and the identity key derived from it (R385). -/
opaque deviceSecret : Nat
opaque identityKey : Nat → Nat
/-- The core that firmware looks at in the `n`-th step, and the errors that it has counted of it (R388). -/
opaque coreErrors : Nat → Nat × Nat
/-- The link-state adverts that a device has when a discovery runs at the `n`-th step: devices and hop distances; and the GTC of the
discovery root (R7, R380). -/
opaque adverts : Nat → List (Nat × Nat)
opaque rootGtc : Nat → Nat
/-- The lines of storage whose homes do not answer the accesses that units and walks make in the `n`-th step, and how: an uncorrectable
error, or a peer or host that fails or refuses them (R74, R397). -/
opaque trouble : Nat → List (Nat × Err)
/-- Does an access at a home meet an error that its controller corrects, at the `n`-th step (R74, R387)? -/
opaque correctedError : Nat → Bool
/-- The row of a memory stack or channel group that holds a byte (R387): the manual gives no row layout. -/
opaque rowOf : Nat → Nat
/-- How a plan combines an element's partial sums: which of those left are taken next, by plan, element and round (R309). -/
opaque planPick : Nat → Nat → Nat → Nat
/-- The bytes of chunk buffers that a part of a collective step with so many source bytes needs (R304): the manual gives no number. -/
opaque chunkNeed : Nat → Nat
/-- Is a unit able to take a message now (R381)? -/
opaque unitBusy : Nat → Bool
/-- The digest of what an attestation measures (R385): the manual gives no digest algorithm. -/
opaque measure : List (BitVec 8) → Nat
/-- An attestation's signature over its measurements, under the identity key (R385): the manual gives neither the message's layout nor
the arithmetic of ECDSA P-384. -/
opaque attestSignature : Nat → List Nat → Nat

end Sys2Proof.Config
end

