-- ==== Sys2Proof/WellFormed.lean ====
section
/-! DEFINITION. Which instructions are well formed: the value checks of R18 and R20 that the fields' types do not already
make, each naming its rule. A word of the stream that fails one traps ILLOP. -/
namespace Sys2Proof

/-- The formats of VF instructions with no list of their own: FP32, BF16, FP16 (R153). -/
def Fmt.isVf : Fmt → Bool
  | .f32 | .bf16 | .f16 => true
  | _ => false

/-- The integer formats, codes 7–12 (R123, R157). -/
def Fmt.isInt : Fmt → Bool
  | .i32 | .n32 | .i16 | .n16 | .i8 | .n8 => true
  | _ => false

/-- A format that gives a 1, 2 or 4-byte element: any code but 6 and 13 (R104). -/
def Fmt.isElem : Fmt → Bool
  | .a48 | .e8m0 => false
  | _ => true

/-- The element width in bytes that a format code gives (R104, R147); A48 elements take 8 bytes. -/
def Fmt.bytes : Fmt → Nat
  | .f32 | .i32 | .n32 => 4
  | .bf16 | .f16 | .i16 | .n16 => 2
  | .e4m3 | .e5m2 | .d8 | .i8 | .n8 | .e8m0 => 1
  | .a48 => 8

/-- Stores take widths 0–3 only (R208). -/
def Width.isStore : Width → Bool
  | .n8 | .n16 | .n32 | .d64 => true
  | _ => false

/-- A VF operand set: the format is one of R153's. -/
def Vf1.wf (o : Vf1) : Bool := o.fmt.isVf
/-- A VF operand set: the format is one of R153's. -/
def Vf2.wf (o : Vf2) : Bool := o.fmt.isVf
/-- A VF operand set: the format is one of R153's. -/
def Vf3.wf (o : Vf3) : Bool := o.fmt.isVf

/-- VRED and VSCAN: FMT 0–2 or 7–12, and RM 0 with an integer format (R164). -/
def VRedOp.wf (o : VRedOp) : Bool := o.fmt.isVf || (o.fmt.isInt && o.rm == .rne)

/-- SAT is allowed on VIADD, VISUB, VIMUL and VIMAD only (R157). -/
def Vi2.wf (o : Vi2) (satOk : Bool) : Bool := o.fmt.isInt && (satOk || !o.sat)

/-- The width field of a BFX or BFI immediate descriptor must be legal (R197). -/
def bfLegal (n : Nat) (b : Word) : Bool :=
  let pos := fld b 0 6
  let width := fld b 8 7
  1 ≤ width && width ≤ n && pos + width ≤ n && fld b 6 2 == 0 && fld b 15 49 == 0

/-- The immediate form of a bit-field descriptor is part of the encoding (R197). -/
def bfWf (w : Bool) : SrcB → Bool
  | .reg _ => true
  | .imm x => bfLegal (if w then 32 else 64) (sext64 x)

/-- LI requires its immediate and has no register form, CLZ and the like no b: the types say so (R196).
A counter register of LOOP is s1–s47, and the back-edge form has A = 0 (R201). -/
def loopWf (init : Bool) (d a : SReg) : Bool :=
  d != 0 && d.toNat < 48 && (init || a == 0)

/-- Formats VACR may convert to (R168). -/
def Fmt.vacrTo : Fmt → Bool
  | .f32 | .bf16 | .f16 | .e4m3 | .e5m2 | .a48 | .i32 | .i16 | .i8 => true
  | _ => false

/-- Formats VACW may take (R168). -/
def Fmt.vacwFrom : Fmt → Bool
  | .f32 | .bf16 | .f16 | .a48 | .i32 => true
  | _ => false

/-- VCVT: FROM any code but 6, TO any of 0–12 but 5 and 6, no rounding mode between integers, PART in range (R161). -/
def vcvtWf (dst src : Fmt) (rm : Rm) (part : BitVec 2) : Bool :=
  let big := Nat.max src.bytes dst.bytes
  let small := Nat.min src.bytes dst.bytes
  src != .a48 && dst != .a48 && dst != .d8 && dst != .e8m0 &&
    (rm == .rne || !(src.isInt && dst.isInt)) && part.toNat < big / small

/-- VS takes no token with a second neighbour: PB and SB trap ILLOP on VS instructions (R26). -/
def vsTok (n : EAnn) : Bool := !n.pb && !n.sb

/-- The index registers of VLDG, VSTS and VPERM must not run past v1023 (R105, R162). -/
def idxWf (f : Fmt) (a : VReg) : Bool := a.toNat + 4 / f.bytes - 1 ≤ 1023

/-- The floating-point atomics: FADD, FMIN and FMAX, which take the types F32 and A48 (R233). -/
def aopFloat : AOp → Bool
  | .fadd | .fmin | .fmax => true
  | _ => false

/-- CSR numbers that are assigned (R214, R215, R347). -/
def csrAssigned (n : Nat) : Bool :=
  n ≤ 0x00F || (0x010 ≤ n && n ≤ 0x027) || (0x100 ≤ n && n ≤ 0x119 && n != 0x109)

/-- A core number of the package (R3). -/
def coreWf (c : Nat) : Bool := c < 640
/-- A C-die number (R1). -/
def dieWf (d : Nat) : Bool := d < 8
/-- A relay unit of the package: four on each C-die (R2). -/
def unitWf (u : Nat) : Bool := u < 32

/-- Well-formedness of an instruction or step (R18, R20, and each instruction's own entry). -/
def Instr.wf : Instr → Bool
  | .bfx _ _ o => bfWf o.w o.b
  | .bfi _ o => bfWf o.w o.b
  | .loop _ _ init _ d a _ => loopWf init d a
  | .st _ _ wd _ _ _ => wd.isStore
  | .lda _ ord _ _ _ _ _ => ord == .rlx || ord == .acq
  | .str _ ord _ wd _ _ _ => (ord == .rlx || ord == .rel) && wd.isStore
  | .fence _ ord _ => ord != .rlx
  | .atom _ op ty _ _ _ _ _ => aopFloat op == (ty == .f32 || ty == .a48)
  | .waita _ _ _ ord _ _ bk _ _ _ _ => (ord == .rlx || ord == .acq) && bk.toNat ≤ 12
  | .csrr _ _ num => csrAssigned num.toNat
  | .csrw _ _ num => csrAssigned num.toNat
  | .csrx _ _ _ _ num => csrAssigned num.toNat
  | .tickw _ next _ a _ => !next || a == 0
  | .vld _ p _ _ imm => !p || imm == 0
  | .vldg _ f _ _ a _ => f.isElem && idxWf f a
  | .vldb _ f _ _ _ => f.isElem
  | .vst n p _ _ imm => vsTok n && (!p || imm == 0)
  | .vsts n f a _ _ => vsTok n && f.isElem && idxWf f a
  | .vstm n f _ _ _ _ => vsTok n && f.isElem
  | .vadd _ o | .vsub _ o | .vmul _ o | .vmin _ o | .vmax _ o | .vdiv _ o => o.wf
  | .vfma _ o | .vfms _ o | .vfnma _ o => o.wf
  | .vabs _ o | .vneg _ o | .vsqrt _ o | .vrsq _ o | .vrcp _ o => o.wf
  | .vexp2 _ o | .vlog2 _ o => o.wf && o.rm == .rne
  | .viadd _ o | .visub _ o | .vimul _ o => o.wf true
  | .vimad _ o => o.fmt.isInt
  | .vimin _ o | .vimax _ o | .vand _ o | .vor _ o | .vxor _ o | .vshl _ o | .vshr _ o | .vsar _ o => o.wf false
  | .vclz _ o | .vpopc _ o => o.fmt.isInt
  | .vcmp _ c f _ _ _ => (f == .f32 || f == .i32 || f == .n32) && (c != .un || f == .f32)
  | .vcvt _ dst rm _ _ _ src part => vcvtWf dst src rm part
  | .vbcast _ f _ b => f != .e8m0 && (match b with | .reg _ => true | .imm _ => f != .a48)
  | .vperm _ f _ _ b _ => f != .e8m0 && b.toNat + 4 / f.bytes - 1 ≤ 1023
  | .vrot _ f _ _ _ => f != .e8m0
  | .vsort _ f _ kv d _ c =>
      (f.isVf || f.isInt) && (!kv || (f.bytes == 4 && d.toNat ≤ 1022)) && (kv || c == 0)
  | .vred _ o | .vscan _ o => o.wf
  | .mskip _ imm => 1 ≤ imm.toNat && imm.toNat ≤ 64
  | .voq _ src a => src == .lane0 || a == 0
  | .vacr _ dst _ _ _ _ _ _ => dst.vacrTo
  | .vacw _ src _ _ _ _ => src.vacwFrom
  | .mma _ _ _ _ cyc | .mmag _ _ _ _ cyc => 2 ≤ cyc.toNat && cyc.toNat ≤ 128
  | .cpone _ p _ _ _ _ _ _ imm => !p || imm == 0
  | .cphint _ ev a b _ => !ev || (a == 0 && b == 0)
  | .qop _ op f sat _ _ b _ =>
      (f.isVf || f == .a48 || f == .i32 || f == .n32) && (!sat || f == .i32 || f == .n32) &&
        (op != .scal || !(f == .i32 || f == .n32)) && (op != .cpy || b == 0)
  | .qred _ _ f _ _ _ _ => f.isVf || f == .a48
  | .instanceEnd c | .waitaPoll c | .ptbaseWrite c _ | .tickcfgWrite c _ | .fpsrAccess c _ | .tlogWrite c _
  | .waitchReturn c | .popwRetry c | .barRelease c | .rlyTakeRetry c | .rlyWaitReturn c | .heatWaitReturn c
  | .collWaitReturn c | .partBegin c | .engineEntryBegin c _ | .engineEntryWriteback c _ | .leaseRequest c
  | .leaseEnd c | .trapHandlerEntry c | .sectionEndTrap c | .asyncTrap c | .containment c _ | .preemptTake c
  | .tickwDeadline c | .loadDataReturn c _ => coreWf c
  | .watchctlWrite c k _ => coreWf c && k < 4
  | .registerWrite (.csr c n) _ => coreWf c && csrAssigned n
  | .chainStart c ch | .recordFetch c ch _ | .notbeforeExpiry c ch | .granuleLanding c ch _
  | .recordComplete c ch => coreWf c && ch < 8
  | .tick d | .tableWalk d _ | .quayElementStep d _ _ | .quayInstructionComplete d _ => dieWf d
  | .relaySeed u _ | .relaySweepBegin u | .relayStep u | .relayEndStateWrite u | .relayRetire u _
  | .relayDeadline u | .relayOwedFeed u _ => unitWf u
  | .wxGtc _ | .wxSend _ _ _ | .wxFence _ | .wxReady _ _ => true
  | .add _ _ | .sub _ _ | .mul _ _ | .mulh _ _ | .mulhn _ _ | .div _ _ | .divn _ _ | .rem _ _ | .remn _ _
  | .and _ _ | .or _ _ | .xor _ _ | .andn _ _ | .shl _ _ | .shr _ _ | .sar _ _ | .rot _ _ | .min _ _ | .max _ _
  | .minn _ _ | .maxn _ _ | .sel _ _ _ | .li _ _ _ _ _ | .lea _ _ _ _ | .clz _ _ | .ctz _ _ | .popc _ _
  | .pset _ _ _ _ _ _ | .plog _ _ _ _ _ => true
  | .br _ _ _ | .jmp _ _ _ | .jmpr _ _ _ | .call _ _ _ | .ret _ _ | .brq _ _ _ _ | .squash _ _
  | .mcall _ _ _ _ _ _ _ | .exit _ => true
  | .ld _ _ _ _ _ _ | .chkd _ _ | .cas _ _ _ _ _ _ _ _ _ | .bufuse _ _ | .bufrel _ _ => true
  | .registerWrite (.bar0 _) _ | .trap _ _ | .eret _ | .bkpt _ _ | .fmt _ _ => true
  | .launch _ _ _ _ | .waitch _ _ _ _ | .feed _ _ _ _ | .popw _ _ _ _ | .ackw _ _ _ | .bar _ _ => true
  | .rlyOpen _ _ _ | .rlyTake _ _ _ _ | .rlyPost _ _ _ _ _ | .rlyGtake _ _ _ _ | .rlyGpost _ _ _ _
  | .rlyStat _ _ _ | .rlyWait _ _ _ _ | .rlyClose _ _ => true
  | .heatJoin _ _ _ _ | .heatGive _ _ _ _ _ | .heatDeadline _ | .heatWait _ _ _ _ _ | .heatClose _ _ => true
  | .collLoad _ _ _ | .collLoadDrop _ _ | .collRun _ _ _ _ _ | .collWait _ _ _ _ | .collClaim _ _ _ _ _
  | .collClaimSeal _ _ _ | .collStepBegin _ _ _ _ | .collStepComplete _ _ _ _ => true
  | .sld _ _ _ _ _ _ | .vsel _ _ _ _ | .vmov _ _ _ | .minv _ | .mpop _ => true
  | .sclaim _ _ | .srls _ _ | .fzero _ _ | .lrel _ => true
  | .cpgo _ _ _ _ _ | .cpcan _ _ _ | .cpwait _ _ _ _ | .qfill _ _ _ _ _ => true
  | .sectionHeader _ => true
  | .homeStep _ _ | .rowRepair _ _ | .writeAcknowledgement _ | .writeRefused _ | .operandLogReissue _
  | .flitCrcFail _ | .crewResume _ | .replicaStart _ _ | .classPromotion _ | .crewEnd _ | .specialise _ => true
  | .launchCommand | .preempt | .kill | .setvec | .setroot | .bias | .specflush | .fwstage | .fwactivate
  | .firmwareRollback | .retire | .logread | .setsave | .door _ => true
  | .hostMemoryAccess _ _ _ | .spdmRequest _ | .linkTraining _ | .portStateChange _ _ _ | .fabricDiscovery _ _
  | .boot | .rowRepairComplete _ _ | .hostSnoopResponse _ => true

end Sys2Proof
end

