-- ==== Sys2Proof/Decode.lean ====
section
/-! DEFINITION. From words of the stream to instructions and back (R11–R22, R381). A word is first split into the fields of
R11; `extract` reads the instruction that OP and FN name; the word is accepted only if encoding that instruction gives the
same fields again (so that every unused bit is zero, R13, R18) and the instruction is well formed (R18, R20). -/
namespace Sys2Proof

/-- The fields of a 96-bit word (R11). -/
structure RawWord where
  op : BitVec 8
  fn : BitVec 8
  bt : Bool
  tk : BitVec 4
  pr : BitVec 3
  d : BitVec 10
  a : BitVec 10
  b : BitVec 10
  c : BitVec 10
  imm : BitVec 32
  deriving DecidableEq, Repr

/-- Why a word is no instruction; every case traps ILLOP (R18) or, for a firmware core, mcause 2 (R381). -/
inductive DecodeErr where
  /-- OP is one of R17's reserved values. -/
  | reservedOp
  /-- FN names no subform, format, order or mode of this OP (R18, R20). -/
  | reservedFn
  /-- A field that the entry does not use, or a bit above an operand's range, is nonzero (R13). -/
  | nonzeroField
  /-- A value lies outside the limits of the instruction's entry (R18, R20). -/
  | badOperand
  /-- Fewer bytes than one instruction. -/
  | short
  /-- Not one of R381's four words: another RV64GC instruction, or an illegal one. -/
  | notWx
  deriving DecidableEq, Repr

/-- Split a word into its fields (R11). -/
def RawWord.ofBits (w : IWord) : RawWord :=
  { op := w.extractLsb' 88 8, fn := w.extractLsb' 80 8, bt := w.getLsbD 79, tk := w.extractLsb' 75 4,
    pr := w.extractLsb' 72 3, d := w.extractLsb' 62 10, a := w.extractLsb' 52 10, b := w.extractLsb' 42 10,
    c := w.extractLsb' 32 10, imm := w.extractLsb' 0 32 }

/-- The word made of the given fields (R11). -/
def RawWord.bits (r : RawWord) : IWord :=
  r.op ++ r.fn ++ BitVec.ofBool r.bt ++ r.tk ++ r.pr ++ r.d ++ r.a ++ r.b ++ r.c ++ r.imm

-- Codes of the enumerated fields.

/-- Format codes (R123). -/
def Fmt.code : Fmt → BitVec 4
  | .f32 => 0 | .bf16 => 1 | .f16 => 2 | .e4m3 => 3 | .e5m2 => 4 | .d8 => 5 | .a48 => 6 | .i32 => 7 | .n32 => 8
  | .i16 => 9 | .n16 => 10 | .i8 => 11 | .n8 => 12 | .e8m0 => 13

/-- The format with a code; 14 and 15 are reserved (R123). -/
def Fmt.ofCode (x : BitVec 4) : Option Fmt :=
  match x.toNat with
  | 0 => some .f32 | 1 => some .bf16 | 2 => some .f16 | 3 => some .e4m3 | 4 => some .e5m2 | 5 => some .d8
  | 6 => some .a48 | 7 => some .i32 | 8 => some .n32 | 9 => some .i16 | 10 => some .n16 | 11 => some .i8
  | 12 => some .n8 | 13 => some .e8m0 | _ => none

/-- RM codes (R20). -/
def Rm.code : Rm → BitVec 3
  | .rne => 0 | .rtz => 1 | .rdn => 2 | .rup => 3 | .rna => 4 | .dyn => 5

/-- The rounding mode with a code; 6 and 7 trap ILLOP (R20). -/
def Rm.ofCode (x : BitVec 3) : Option Rm :=
  match x.toNat with
  | 0 => some .rne | 1 => some .rtz | 2 => some .rdn | 3 => some .rup | 4 => some .rna | 5 => some .dyn
  | _ => none

/-- ORD codes (R19). -/
def Ord.code : Ord → BitVec 2
  | .rlx => 0 | .acq => 1 | .rel => 2 | .ar => 3

/-- The order with a code (R19). -/
def Ord.ofCode (x : BitVec 2) : Ord :=
  match x.toNat with
  | 0 => .rlx | 1 => .acq | 2 => .rel | _ => .ar

/-- Condition codes of PSET and WAITA (R198). -/
def PCond.code : PCond → BitVec 3
  | .eq => 0 | .ne => 1 | .lt => 2 | .ge => 3 | .ltn => 4 | .gen => 5 | .tst => 6 | .ntst => 7

/-- The condition with a code (R198). -/
def PCond.ofCode (x : BitVec 3) : PCond :=
  match x.toNat with
  | 0 => .eq | 1 => .ne | 2 => .lt | 3 => .ge | 4 => .ltn | 5 => .gen | 6 => .tst | _ => .ntst

/-- Codes of PLOG's operations (R198). -/
def PLop.code : PLop → BitVec 3
  | .pand => 0 | .por => 1 | .pxor => 2 | .pandn => 3 | .porn => 4 | .pnand => 5 | .pnor => 6 | .pxnor => 7

/-- PLOG's operation with a code (R198). -/
def PLop.ofCode (x : BitVec 3) : PLop :=
  match x.toNat with
  | 0 => .pand | 1 => .por | 2 => .pxor | 3 => .pandn | 4 => .porn | 5 => .pnand | 6 => .pnor | _ => .pxnor

/-- COND codes of VCMP (R159). -/
def VCond.code : VCond → BitVec 3
  | .eq => 0 | .ne => 1 | .lt => 2 | .le => 3 | .gt => 4 | .ge => 5 | .un => 6

/-- The VCMP condition with a code; 7 traps ILLOP (R159). -/
def VCond.ofCode (x : BitVec 3) : Option VCond :=
  match x.toNat with
  | 0 => some .eq | 1 => some .ne | 2 => some .lt | 3 => some .le | 4 => some .gt | 5 => some .ge | 6 => some .un
  | _ => none

/-- Width codes in C<2:0> (R208). -/
def Width.code : Width → BitVec 3
  | .n8 => 0 | .n16 => 1 | .n32 => 2 | .d64 => 3 | .i8 => 4 | .i16 => 5 | .i32 => 6

/-- The width with a code; 7 traps ILLOP (R208). -/
def Width.ofCode (x : BitVec 3) : Option Width :=
  match x.toNat with
  | 0 => some .n8 | 1 => some .n16 | 2 => some .n32 | 3 => some .d64 | 4 => some .i8 | 5 => some .i16
  | 6 => some .i32 | _ => none

/-- HINT codes (R208). -/
def Hint.code : Hint → BitVec 2
  | .none => 0 | .nc => 1 | .ncp => 2 | .own => 3

/-- The hint with a code (R208). -/
def Hint.ofCode (x : BitVec 2) : Hint :=
  match x.toNat with
  | 0 => .none | 1 => .nc | 2 => .ncp | _ => .own

/-- AOP codes (R233). -/
def AOp.code : AOp → BitVec 4
  | .swap => 0 | .add => 1 | .and => 2 | .or => 3 | .xor => 4 | .min => 5 | .max => 6 | .minn => 7 | .maxn => 8
  | .fadd => 9 | .fmin => 10 | .fmax => 11

/-- The atomic operation with a code; 12–15 trap ILLOP (R233). -/
def AOp.ofCode (x : BitVec 4) : Option AOp :=
  match x.toNat with
  | 0 => some .swap | 1 => some .add | 2 => some .and | 3 => some .or | 4 => some .xor | 5 => some .min
  | 6 => some .max | 7 => some .minn | 8 => some .maxn | 9 => some .fadd | 10 => some .fmin | 11 => some .fmax
  | _ => none

/-- Is it one of the floating-point atomics (R233)? -/
abbrev AOp.isFloat : AOp → Bool := aopFloat

/-- The 12-bit IMM field of ATOM: TYP, zero, SZ (R233); AOP stands below it. -/
def ATyp.code : ATyp → BitVec 8
  | .w32 => 0x02 | .w64 => 0x03 | .f32 => 0x02 | .a48 => 0x63

/-- The word type with SZ and TYP codes, by the class of the operation (R233). -/
def ATyp.ofCode (float : Bool) (x : BitVec 8) : Option ATyp :=
  match float, x.toNat with
  | false, 0x02 => some .w32 | false, 0x03 => some .w64
  | true, 0x02 => some .f32 | true, 0x63 => some .a48
  | _, _ => none

/-- Codes of CSRX's operation (R214). -/
def CsrOp.code : CsrOp → BitVec 2
  | .swap => 0 | .set => 1 | .clr => 2

/-- CSRX's operation with a code; 3 traps ILLOP (R214). -/
def CsrOp.ofCode (x : BitVec 2) : Option CsrOp :=
  match x.toNat with
  | 0 => some .swap | 1 => some .set | 2 => some .clr | _ => none

/-- SRC codes of VOQ (R165). -/
def VoqSrc.code : VoqSrc → BitVec 2
  | .any => 0 | .all => 1 | .lane0 => 2

/-- VOQ's source with a code (R165). -/
def VoqSrc.ofCode (x : BitVec 2) : Option VoqSrc :=
  match x.toNat with
  | 0 => some .any | 1 => some .all | 2 => some .lane0 | _ => none

/-- Operation codes of VRED and VSCAN in IMM (R164). -/
def RedOp.code : RedOp → BitVec 2
  | .sum => 0 | .max => 1 | .min => 2

/-- The reduction with a code; 3 traps ILLOP (R164). -/
def RedOp.ofCode (x : BitVec 2) : Option RedOp :=
  match x.toNat with
  | 0 => some .sum | 1 => some .max | 2 => some .min | _ => none

/-- QOP operation codes (R117). -/
def QopOp.code : QopOp → BitVec 3
  | .add => 0 | .sub => 1 | .mul => 2 | .min => 3 | .max => 4 | .scal => 5 | .cpy => 6

/-- QOP's operation with a code; 7 traps ILLOP (R117). -/
def QopOp.ofCode (x : BitVec 3) : Option QopOp :=
  match x.toNat with
  | 0 => some .add | 1 => some .sub | 2 => some .mul | 3 => some .min | 4 => some .max | 5 => some .scal
  | 6 => some .cpy | _ => none

/-- QRED operation codes (R118). -/
def QredOp.code : QredOp → BitVec 2
  | .sum => 0 | .linf => 1 | .l2 => 2 | .max => 3

/-- QRED's operation with a code (R118). -/
def QredOp.ofCode (x : BitVec 2) : QredOp :=
  match x.toNat with
  | 0 => .sum | 1 => .linf | 2 => .l2 | _ => .max

-- Encoding.

/-- A word with OP and FN and the annotations of a pacer, copy or quay word; every operand field zero. -/
def Ann.raw (n : Ann) (op fn : BitVec 8) : RawWord :=
  { op, fn, bt := n.bt, tk := 0, pr := n.pr, d := 0, a := 0, b := 0, c := 0, imm := 0 }

/-- The TK field: PA, PB, SA, SB from the top (R11). -/
def EAnn.tk (n : EAnn) : BitVec 4 :=
  BitVec.ofBool n.pa ++ BitVec.ofBool n.pb ++ BitVec.ofBool n.sa ++ BitVec.ofBool n.sb

/-- A word with OP and FN and the annotations of an engine word; every operand field zero. -/
def EAnn.raw (n : EAnn) (op fn : BitVec 8) : RawWord :=
  { op, fn, bt := n.bt, tk := n.tk, pr := n.pr, d := 0, a := 0, b := 0, c := 0, imm := 0 }

/-- A scalar register in a 10-bit field (R13). -/
abbrev sfield (r : SReg) : BitVec 10 := 0#4 ++ r
/-- A 3-bit operand (frame, channel, predicate) in a 10-bit field (R13). -/
abbrev tfield (r : BitVec 3) : BitVec 10 := 0#7 ++ r
/-- A slot in a 10-bit field (R13). -/
abbrev qfield (r : BitVec 5) : BitVec 10 := 0#5 ++ r

/-- The B field of a SrcB operand. -/
def SrcB.field : SrcB → BitVec 10
  | .reg r => sfield r
  | .imm _ => 0
/-- The IMM field of a SrcB operand. -/
def SrcB.immField : SrcB → BitVec 32
  | .reg _ => 0
  | .imm x => x
/-- The I bit of a SrcB operand (R19). -/
def SrcB.isImm : SrcB → Bool
  | .reg _ => false
  | .imm _ => true

/-- A two-source INT word: FN<7:2> is `hi`, W bit 1, I bit 0 (R19). -/
def IntOp.raw (n : Ann) (op : BitVec 8) (hi : BitVec 6) (o : IntOp) : RawWord :=
  { n.raw op (hi ++ BitVec.ofBool o.w ++ BitVec.ofBool o.b.isImm) with
    d := sfield o.d, a := sfield o.a, b := o.b.field, imm := o.b.immField }

/-- A one-source INT word (R196). -/
def IntOp1.raw (n : Ann) (op : BitVec 8) (o : IntOp1) : RawWord :=
  { n.raw op (0#6 ++ BitVec.ofBool o.w ++ 0#1) with d := sfield o.d, a := sfield o.a }

/-- FN of the VF class: SAT, RM, FMT (R19). -/
def vfFn (f : Fmt) (rm : Rm) (sat : Bool) : BitVec 8 := BitVec.ofBool sat ++ rm.code ++ f.code

/-- A VF word with one source. -/
def Vf1.raw (n : EAnn) (op : BitVec 8) (o : Vf1) : RawWord :=
  { n.raw op (vfFn o.fmt o.rm o.sat) with d := o.d, a := o.a }
/-- A VF word with two sources. -/
def Vf2.raw (n : EAnn) (op : BitVec 8) (o : Vf2) : RawWord :=
  { n.raw op (vfFn o.fmt o.rm o.sat) with d := o.d, a := o.a, b := o.b }
/-- A VF word with three sources. -/
def Vf3.raw (n : EAnn) (op : BitVec 8) (o : Vf3) : RawWord :=
  { n.raw op (vfFn o.fmt o.rm o.sat) with d := o.d, a := o.a, b := o.b, c := o.c }
/-- A VI word with one source (R19). -/
def Vi1.raw (n : EAnn) (op : BitVec 8) (o : Vi1) : RawWord :=
  { n.raw op (0#4 ++ o.fmt.code) with d := o.d, a := o.a }
/-- A VI word with two sources (R19). -/
def Vi2.raw (n : EAnn) (op : BitVec 8) (o : Vi2) : RawWord :=
  { n.raw op (BitVec.ofBool o.sat ++ 0#3 ++ o.fmt.code) with d := o.d, a := o.a, b := o.b }
/-- A VI word with three sources (R19). -/
def Vi3.raw (n : EAnn) (op : BitVec 8) (o : Vi3) : RawWord :=
  { n.raw op (BitVec.ofBool o.sat ++ 0#3 ++ o.fmt.code) with d := o.d, a := o.a, b := o.b, c := o.c }
/-- A VRED or VSCAN word (R164). -/
def VRedOp.raw (n : EAnn) (op : BitVec 8) (o : VRedOp) : RawWord :=
  { n.raw op (vfFn o.fmt o.rm o.sat) with d := o.d, a := o.a, imm := 0#30 ++ o.op.code }

/-- FN of a PMEM word: two entry bits, ORD, SCOPE (R19). -/
def pmFn (hi : BitVec 2) (ord : Ord) (sc : BitVec 4) : BitVec 8 := hi ++ ord.code ++ sc

/-- The fields of an instruction's word (R11–R21 and each entry's own table). Event rows and firmware instructions have
no 96-bit word. -/
def encodeRaw : Instr → Option RawWord
  | .add n o => some (o.raw n 0x00 0)
  | .sub n o => some (o.raw n 0x01 0)
  | .mul n o => some (o.raw n 0x02 0)
  | .mulh n o => some (o.raw n 0x03 0)
  | .mulhn n o => some (o.raw n 0x04 0)
  | .div n o => some (o.raw n 0x05 0)
  | .divn n o => some (o.raw n 0x06 0)
  | .rem n o => some (o.raw n 0x07 0)
  | .remn n o => some (o.raw n 0x08 0)
  | .and n o => some (o.raw n 0x09 0)
  | .or n o => some (o.raw n 0x0A 0)
  | .xor n o => some (o.raw n 0x0B 0)
  | .andn n o => some (o.raw n 0x0C 0)
  | .shl n o => some (o.raw n 0x0D 0)
  | .shr n o => some (o.raw n 0x0E 0)
  | .sar n o => some (o.raw n 0x0F 0)
  | .rot n o => some (o.raw n 0x10 0)
  | .min n o => some (o.raw n 0x11 0)
  | .max n o => some (o.raw n 0x12 0)
  | .minn n o => some (o.raw n 0x13 0)
  | .maxn n o => some (o.raw n 0x14 0)
  | .sel n k o => some (o.raw n 0x15 (0#3 ++ k))
  | .li n w d a imm =>
      some { n.raw 0x16 (0#6 ++ BitVec.ofBool w ++ 1#1) with d := sfield d, a := sfield a, imm := imm }
  | .lea n w d b =>
      some { n.raw 0x17 (0#6 ++ BitVec.ofBool w ++ BitVec.ofBool b.isImm) with
        d := sfield d, b := b.field, imm := b.immField }
  | .bfx n sx o => some (o.raw n 0x18 (0#5 ++ BitVec.ofBool sx))
  | .bfi n o => some (o.raw n 0x19 0)
  | .clz n o => some (o.raw n 0x1A)
  | .ctz n o => some (o.raw n 0x1B)
  | .popc n o => some (o.raw n 0x1C)
  | .pset n c w pd a b =>
      some { n.raw 0x1D (0#3 ++ c.code ++ BitVec.ofBool w ++ BitVec.ofBool b.isImm) with
        d := tfield pd, a := sfield a, b := b.field, imm := b.immField }
  | .plog n op pd pa pb =>
      some { n.raw 0x1E (0#3 ++ op.code ++ 0#2) with d := tfield pd, a := tfield pa, b := tfield pb }
  | .br n h imm => some { n.raw 0x20 (BitVec.ofBool h ++ 0#7) with imm := imm }
  | .jmp n a imm => some { n.raw 0x21 0 with a := sfield a, imm := imm }
  | .jmpr n a imm => some { n.raw 0x22 0x80 with a := sfield a, imm := imm }
  | .call n d imm => some { n.raw 0x23 0x80 with d := sfield d, imm := imm }
  | .ret n a => some { n.raw 0x24 0 with a := sfield a }
  | .loop n h init s1 d a imm =>
      some { n.raw 0x25 (BitVec.ofBool h ++ 0#4 ++ BitVec.ofBool init ++ s1) with
        d := sfield d, a := sfield a, imm := imm }
  | .brq n h z imm => some { n.raw 0x26 (BitVec.ofBool h ++ 0#6 ++ BitVec.ofBool z) with imm := imm }
  | .squash n imm => some { n.raw 0x27 0x80 with imm := imm }
  | .mcall n num d a b c imm => some { n.raw 0x28 num with d := d, a := a, b := b, c := c, imm := imm }
  | .exit n => some (n.raw 0x29 0)
  | .ld n spec wd d a imm =>
      some { n.raw 0x30 (0#1 ++ BitVec.ofBool spec ++ 0#6) with
        d := sfield d, a := sfield a, c := tfield wd.code, imm := imm }
  | .st n h wd a b imm =>
      some { n.raw 0x31 (h.code ++ 0#6) with a := sfield a, b := sfield b, c := tfield wd.code, imm := imm }
  | .chkd n a => some { n.raw 0x32 0 with a := sfield a }
  | .lda n ord sc wd d a imm =>
      some { n.raw 0x33 (pmFn 0 ord sc) with d := sfield d, a := sfield a, c := tfield wd.code, imm := imm }
  | .str n ord sc wd a b imm =>
      some { n.raw 0x34 (pmFn 0 ord sc) with a := sfield a, b := sfield b, c := tfield wd.code, imm := imm }
  | .atom n op ty ord sc d a b =>
      some { n.raw 0x35 (pmFn 0 ord sc) with
        d := sfield d, a := sfield a, b := sfield b, imm := 0#20 ++ ty.code ++ op.code }
  | .cas n w32 facq ord sc d a b c =>
      some { n.raw 0x36 (pmFn (BitVec.ofBool w32 ++ BitVec.ofBool facq) ord sc) with
        d := sfield d, a := sfield a, b := sfield b, c := sfield c }
  | .fence n ord sc => some (n.raw 0x37 (pmFn 0 ord sc))
  | .waita n cd w32 ord sc psel bk d a b dl =>
      some { n.raw 0x38 (pmFn (0#1 ++ BitVec.ofBool w32) ord sc) with
        d := sfield d, a := sfield a, b := sfield b, c := sfield dl,
        imm := 0#20 ++ bk ++ 0#1 ++ psel ++ 0#1 ++ cd.code }
  | .bufuse n buf => some { n.raw 0x39 0 with imm := 0#26 ++ buf }
  | .bufrel n buf => some { n.raw 0x3A 0 with imm := 0#26 ++ buf }
  | .csrr n d num => some { n.raw 0x40 0 with d := sfield d, imm := 0#20 ++ num }
  | .csrw n a num => some { n.raw 0x41 0 with a := sfield a, imm := 0#20 ++ num }
  | .csrx n op d a num =>
      some { n.raw 0x42 (0#6 ++ op.code) with d := sfield d, a := sfield a, imm := 0#20 ++ num }
  | .trap n num => some { n.raw 0x43 0 with imm := 0#16 ++ num }
  | .eret n => some (n.raw 0x44 0)
  | .bkpt n num => some { n.raw 0x45 0 with imm := 0#16 ++ num }
  | .fmt n a => some { n.raw 0x46 0 with a := sfield a }
  | .launch n det d a => some { n.raw 0x47 (0#7 ++ BitVec.ofBool det) with d := sfield d, a := sfield a }
  | .waitch n t d a => some { n.raw 0x48 (0#7 ++ BitVec.ofBool t) with d := sfield d, a := sfield a }
  | .feed n d a b => some { n.raw 0x49 0 with d := sfield d, a := sfield a, b := sfield b }
  | .popw n d a c => some { n.raw 0x4A 0 with d := sfield d, a := sfield a, c := sfield c }
  | .ackw n a b => some { n.raw 0x4B 0 with a := sfield a, b := sfield b }
  | .bar n legs => some (n.raw 0x4C (0#7 ++ BitVec.ofBool legs))
  | .tickw n next d a c =>
      some { n.raw 0x4D (0#7 ++ BitVec.ofBool next) with d := sfield d, a := sfield a, c := sfield c }
  | .rlyOpen n d a => some { n.raw 0x50 0x00 with d := sfield d, a := sfield a }
  | .rlyTake n d a c => some { n.raw 0x50 0x01 with d := sfield d, a := sfield a, c := sfield c }
  | .rlyPost n d a b c =>
      some { n.raw 0x50 0x02 with d := sfield d, a := sfield a, b := sfield b, c := sfield c }
  | .rlyGtake n d a c => some { n.raw 0x50 0x03 with d := sfield d, a := sfield a, c := sfield c }
  | .rlyGpost n d a b => some { n.raw 0x50 0x04 with d := sfield d, a := sfield a, b := sfield b }
  | .rlyStat n d a => some { n.raw 0x50 0x05 with d := sfield d, a := sfield a }
  | .rlyWait n d a c => some { n.raw 0x50 0x06 with d := sfield d, a := sfield a, c := sfield c }
  | .rlyClose n a => some { n.raw 0x50 0x07 with a := sfield a }
  | .heatJoin n d a b => some { n.raw 0x51 0x00 with d := sfield d, a := sfield a, b := sfield b }
  | .heatGive n d a b c =>
      some { n.raw 0x51 0x01 with d := sfield d, a := sfield a, b := sfield b, c := sfield c }
  | .heatWait n d a b c =>
      some { n.raw 0x51 0x02 with d := sfield d, a := sfield a, b := sfield b, c := sfield c }
  | .heatClose n a => some { n.raw 0x51 0x03 with a := sfield a }
  | .collLoad n d a => some { n.raw 0x52 0x00 with d := sfield d, a := sfield a }
  | .collLoadDrop n a => some { n.raw 0x52 0x08 with a := sfield a }
  | .collRun n d a b c =>
      some { n.raw 0x52 0x01 with d := sfield d, a := sfield a, b := sfield b, c := sfield c }
  | .collWait n d a c => some { n.raw 0x52 0x02 with d := sfield d, a := sfield a, c := sfield c }
  | .collClaim n d a b c =>
      some { n.raw 0x52 0x03 with d := sfield d, a := sfield a, b := sfield b, c := sfield c }
  | .collClaimSeal n a b => some { n.raw 0x52 0x0B with a := sfield a, b := sfield b }
  | .vld n p d a imm => some { n.raw 0x60 (BitVec.ofBool p ++ 0#7) with d := d, a := sfield a, imm := imm }
  | .vldg n f clamp d a b =>
      some { n.raw 0x61 (0#3 ++ BitVec.ofBool clamp ++ f.code) with d := d, a := a, b := sfield b }
  | .vldb n f d a imm => some { n.raw 0x62 (0#4 ++ f.code) with d := d, a := sfield a, imm := imm }
  | .sld n sideband q a b imm =>
      some { n.raw 0x63 (0#7 ++ BitVec.ofBool sideband) with d := qfield q, a := sfield a, b := sfield b, imm := imm }
  | .vst n p a b imm => some { n.raw 0x68 (BitVec.ofBool p ++ 0#7) with a := sfield a, b := b, imm := imm }
  | .vsts n f a b c => some { n.raw 0x69 (0#4 ++ f.code) with a := a, b := b, c := sfield c }
  | .vstm n f a b c imm => some { n.raw 0x6A (0#4 ++ f.code) with a := sfield a, b := b, c := c, imm := imm }
  | .vadd n o => some (o.raw n 0x80)
  | .vsub n o => some (o.raw n 0x81)
  | .vmul n o => some (o.raw n 0x82)
  | .vfma n o => some (o.raw n 0x83)
  | .vfms n o => some (o.raw n 0x84)
  | .vfnma n o => some (o.raw n 0x85)
  | .vmin n o => some (o.raw n 0x86)
  | .vmax n o => some (o.raw n 0x87)
  | .vabs n o => some (o.raw n 0x88)
  | .vneg n o => some (o.raw n 0x89)
  | .vdiv n o => some (o.raw n 0x8A)
  | .vsqrt n o => some (o.raw n 0x8B)
  | .vrsq n o => some (o.raw n 0x8C)
  | .vrcp n o => some (o.raw n 0x8D)
  | .vexp2 n o => some (o.raw n 0x8E)
  | .vlog2 n o => some (o.raw n 0x8F)
  | .viadd n o => some (o.raw n 0x90)
  | .visub n o => some (o.raw n 0x91)
  | .vimul n o => some (o.raw n 0x92)
  | .vimad n o => some (o.raw n 0x93)
  | .vimin n o => some (o.raw n 0x94)
  | .vimax n o => some (o.raw n 0x95)
  | .vand n o => some (o.raw n 0x96)
  | .vor n o => some (o.raw n 0x97)
  | .vxor n o => some (o.raw n 0x98)
  | .vshl n o => some (o.raw n 0x99)
  | .vshr n o => some (o.raw n 0x9A)
  | .vsar n o => some (o.raw n 0x9B)
  | .vclz n o => some (o.raw n 0x9C)
  | .vpopc n o => some (o.raw n 0x9D)
  | .vcmp n c f nest a b => some { n.raw 0xA0 (BitVec.ofBool nest ++ c.code ++ f.code) with a := a, b := b }
  | .vsel n d a b => some { n.raw 0xA1 0 with d := d, a := a, b := b }
  | .vcvt n dst rm sat d a src part =>
      some { n.raw 0xA2 (vfFn dst rm sat) with d := d, a := a, imm := 0#26 ++ part ++ src.code }
  | .vmov n d a => some { n.raw 0xA3 0 with d := d, a := a }
  | .vbcast n f d b =>
      some { n.raw 0xA4 (BitVec.ofBool b.isImm ++ 0#3 ++ f.code) with
        d := d, a := b.field, imm := b.immField }
  | .vperm n f d a b c => some { n.raw 0xA5 (0#4 ++ f.code) with d := d, a := a, b := b, c := c }
  | .vrot n f d a imm => some { n.raw 0xA6 (0#4 ++ f.code) with d := d, a := a, imm := imm }
  | .vsort n f desc kv d a c =>
      some { n.raw 0xA7 (0#2 ++ BitVec.ofBool kv ++ BitVec.ofBool desc ++ f.code) with d := d, a := a, c := c }
  | .vred n o => some (o.raw n 0xA8)
  | .vscan n o => some (o.raw n 0xA9)
  | .minv n => some (n.raw 0xAA 0)
  | .mpop n => some (n.raw 0xAB 0)
  | .mskip n imm => some { n.raw 0xAC 0 with imm := imm }
  | .voq n src a => some { n.raw 0xAD (0#6 ++ src.code) with a := a }
  | .vacr n dst rm sat clr d a b =>
      some { n.raw 0xAE (vfFn dst rm sat) with
        d := d, a := tfield a, b := sfield b, imm := 0#31 ++ BitVec.ofBool clr }
  | .vacw n src acc d a b =>
      some { n.raw 0xAF (0#4 ++ src.code) with
        d := tfield d, a := a, b := sfield b, imm := 0#31 ++ BitVec.ofBool acc }
  | .mma n d a b cyc =>
      some { n.raw 0xC0 0 with d := tfield d, a := qfield a, b := qfield b, imm := 0#24 ++ cyc }
  | .mmag n d a c cyc =>
      some { n.raw 0xC1 0 with d := tfield d, a := qfield a, c := sfield c, imm := 0#24 ++ cyc }
  | .sclaim n (.one q) => some { n.raw 0xC2 0 with a := qfield q }
  | .sclaim n (.mask s) => some { n.raw 0xC2 1 with a := sfield s }
  | .srls n (.one q) => some { n.raw 0xC3 0 with a := qfield q }
  | .srls n (.mask s) => some { n.raw 0xC3 1 with a := sfield s }
  | .fzero n d => some { n.raw 0xC4 0 with d := tfield d }
  | .lrel n => some (n.raw 0xC5 0)
  | .cpgo n d ch b c => some { n.raw 0xC8 0 with d := sfield d, a := tfield ch, b := sfield b, c := sfield c }
  | .cpone n p g sc d ch b c imm =>
      some { n.raw 0xC9 (BitVec.ofBool p ++ 0#2 ++ sc ++ BitVec.ofBool g) with
        d := sfield d, a := tfield ch, b := sfield b, c := sfield c, imm := imm }
  | .cpcan n d a => some { n.raw 0xCA 0 with d := sfield d, a := sfield a }
  | .cphint n ev a b tag =>
      some { n.raw 0xCB (0#7 ++ BitVec.ofBool ev) with a := sfield a, b := sfield b, imm := tag }
  | .cpwait n t d ch => some { n.raw 0xCC (0#7 ++ BitVec.ofBool t) with d := sfield d, a := tfield ch }
  | .qop n op f sat d a b cnt =>
      some { n.raw 0xD0 (BitVec.ofBool sat ++ op.code ++ f.code) with
        d := sfield d, a := sfield a, b := sfield b, imm := 0#8 ++ cnt }
  | .qred n op f o32 d a cnt =>
      some { n.raw 0xD1 (0#1 ++ BitVec.ofBool o32 ++ op.code ++ f.code) with
        d := sfield d, a := sfield a, imm := 0#8 ++ cnt }
  | .qfill n w d a cnt => some { n.raw 0xD2 (0#6 ++ w) with d := sfield d, a := sfield a, imm := 0#8 ++ cnt }
  | .instanceEnd _ | .waitaPoll _ | .registerWrite _ _ | .ptbaseWrite _ _ | .tickcfgWrite _ _ | .fpsrAccess _ _
  | .watchctlWrite _ _ _ | .tlogWrite _ _ | .waitchReturn _ | .popwRetry _ | .barRelease _ | .tick _
  | .rlyTakeRetry _ | .rlyWaitReturn _ | .heatDeadline _ | .heatWaitReturn _ | .collWaitReturn _
  | .collStepBegin _ _ _ _ | .collStepComplete _ _ _ _ | .quayElementStep _ _ _ | .quayInstructionComplete _ _
  | .wxGtc _ | .wxSend _ _ _ | .wxFence _ | .wxReady _ _ | .sectionHeader _ | .partBegin _ | .engineEntryBegin _ _
  | .engineEntryWriteback _ _ | .leaseRequest _ | .leaseEnd _ | .chainStart _ _ | .recordFetch _ _ _
  | .notbeforeExpiry _ _ | .granuleLanding _ _ _ | .recordComplete _ _ | .homeStep _ _ | .rowRepair _ _
  | .tableWalk _ _ | .writeAcknowledgement _ | .writeRefused _ | .operandLogReissue _ | .flitCrcFail _
  | .trapHandlerEntry _ | .sectionEndTrap _ | .asyncTrap _ | .containment _ _ | .preemptTake _ | .crewResume _
  | .replicaStart _ _ | .classPromotion _ | .crewEnd _ | .specialise _ | .relaySeed _ _ | .relaySweepBegin _
  | .relayStep _ | .relayEndStateWrite _ | .relayRetire _ _ | .relayDeadline _ | .relayOwedFeed _ _
  | .launchCommand | .preempt | .kill | .setvec | .setroot | .bias | .specflush | .fwstage | .fwactivate
  | .firmwareRollback | .retire | .logread | .setsave | .door _ | .hostMemoryAccess _ _ _ | .spdmRequest _
  | .linkTraining _ | .portStateChange _ _ _ | .fabricDiscovery _ _ | .boot | .tickwDeadline _
  | .loadDataReturn _ _ | .rowRepairComplete _ _ | .hostSnoopResponse _ => none

/-- Encode: the 96-bit word of a stream instruction. -/
def encode (i : Instr) : Option IWord := (encodeRaw i).map RawWord.bits

-- Extraction: what OP and FN name, before the checks.

namespace RawWord

/-- The low 6 bits of D, A, B and C (R13). -/
def sd (r : RawWord) : SReg := r.d.extractLsb' 0 6
def sa (r : RawWord) : SReg := r.a.extractLsb' 0 6
def sb (r : RawWord) : SReg := r.b.extractLsb' 0 6
def sc (r : RawWord) : SReg := r.c.extractLsb' 0 6
/-- The low 3 bits of D, A, B and C (R13). -/
def td (r : RawWord) : BitVec 3 := r.d.extractLsb' 0 3
def ta (r : RawWord) : BitVec 3 := r.a.extractLsb' 0 3
def tb (r : RawWord) : BitVec 3 := r.b.extractLsb' 0 3
def tc (r : RawWord) : BitVec 3 := r.c.extractLsb' 0 3
/-- The low 5 bits of D, A and B (R13). -/
def qd (r : RawWord) : BitVec 5 := r.d.extractLsb' 0 5
def qa (r : RawWord) : BitVec 5 := r.a.extractLsb' 0 5
def qb (r : RawWord) : BitVec 5 := r.b.extractLsb' 0 5
/-- The annotations of a pacer, copy or quay word. -/
def ann (r : RawWord) : Ann := { bt := r.bt, pr := r.pr }
/-- The annotations of an engine word. -/
def eann (r : RawWord) : EAnn :=
  { bt := r.bt, pr := r.pr, pa := r.tk.getLsbD 3, pb := r.tk.getLsbD 2, sa := r.tk.getLsbD 1, sb := r.tk.getLsbD 0 }
/-- Operand b (R196). -/
def srcB (r : RawWord) : SrcB := if r.fn.getLsbD 0 then .imm r.imm else .reg r.sb
/-- INT operands (R196). -/
def intOp (r : RawWord) : IntOp := { w := r.fn.getLsbD 1, d := r.sd, a := r.sa, b := r.srcB }
def intOp1 (r : RawWord) : IntOp1 := { w := r.fn.getLsbD 1, d := r.sd, a := r.sa }
/-- The FMT code in FN bits 3:0. -/
def fmtCode (r : RawWord) : Option Fmt := Fmt.ofCode (r.fn.extractLsb' 0 4)
/-- The RM code in FN bits 6:4. -/
def rmCode (r : RawWord) : Option Rm := Rm.ofCode (r.fn.extractLsb' 4 3)
def vf1 (r : RawWord) : Option Vf1 :=
  match r.fmtCode, r.rmCode with
  | some f, some m => some { fmt := f, rm := m, sat := r.fn.getLsbD 7, d := r.d, a := r.a }
  | _, _ => none
def vf2 (r : RawWord) : Option Vf2 :=
  match r.fmtCode, r.rmCode with
  | some f, some m => some { fmt := f, rm := m, sat := r.fn.getLsbD 7, d := r.d, a := r.a, b := r.b }
  | _, _ => none
def vf3 (r : RawWord) : Option Vf3 :=
  match r.fmtCode, r.rmCode with
  | some f, some m => some { fmt := f, rm := m, sat := r.fn.getLsbD 7, d := r.d, a := r.a, b := r.b, c := r.c }
  | _, _ => none
def vi1 (r : RawWord) : Option Vi1 := r.fmtCode.map fun f => { fmt := f, d := r.d, a := r.a }
def vi2 (r : RawWord) : Option Vi2 :=
  r.fmtCode.map fun f => { fmt := f, sat := r.fn.getLsbD 7, d := r.d, a := r.a, b := r.b }
def vi3 (r : RawWord) : Option Vi3 :=
  r.fmtCode.map fun f => { fmt := f, sat := r.fn.getLsbD 7, d := r.d, a := r.a, b := r.b, c := r.c }
def vredOp (r : RawWord) : Option VRedOp :=
  match r.fmtCode, r.rmCode, RedOp.ofCode (r.imm.extractLsb' 0 2) with
  | some f, some m, some op => some { op := op, fmt := f, rm := m, sat := r.fn.getLsbD 7, d := r.d, a := r.a }
  | _, _, _ => none
/-- ORD and SCOPE of a PMEM word (R19). -/
def ord (r : RawWord) : Ord := Ord.ofCode (r.fn.extractLsb' 4 2)
def scope (r : RawWord) : BitVec 4 := r.fn.extractLsb' 0 4
def width (r : RawWord) : Option Width := Width.ofCode r.tc
/-- The CSR number in IMM bits 11:0 (R214). -/
def csr (r : RawWord) : BitVec 12 := r.imm.extractLsb' 0 12
/-- A quay instruction's element count (R117). -/
def cnt (r : RawWord) : BitVec 24 := r.imm.extractLsb' 0 24

end RawWord

/-- The instruction that OP and FN name, its operands taken from the fields (R16, R17); nothing is checked but that the
codes in FN and IMM exist. -/
def extract (r : RawWord) : Option Instr :=
  match r.op.toNat with
  | 0x00 => some (.add r.ann r.intOp)
  | 0x01 => some (.sub r.ann r.intOp)
  | 0x02 => some (.mul r.ann r.intOp)
  | 0x03 => some (.mulh r.ann r.intOp)
  | 0x04 => some (.mulhn r.ann r.intOp)
  | 0x05 => some (.div r.ann r.intOp)
  | 0x06 => some (.divn r.ann r.intOp)
  | 0x07 => some (.rem r.ann r.intOp)
  | 0x08 => some (.remn r.ann r.intOp)
  | 0x09 => some (.and r.ann r.intOp)
  | 0x0A => some (.or r.ann r.intOp)
  | 0x0B => some (.xor r.ann r.intOp)
  | 0x0C => some (.andn r.ann r.intOp)
  | 0x0D => some (.shl r.ann r.intOp)
  | 0x0E => some (.shr r.ann r.intOp)
  | 0x0F => some (.sar r.ann r.intOp)
  | 0x10 => some (.rot r.ann r.intOp)
  | 0x11 => some (.min r.ann r.intOp)
  | 0x12 => some (.max r.ann r.intOp)
  | 0x13 => some (.minn r.ann r.intOp)
  | 0x14 => some (.maxn r.ann r.intOp)
  | 0x15 => some (.sel r.ann (r.fn.extractLsb' 2 3) r.intOp)
  | 0x16 => some (.li r.ann (r.fn.getLsbD 1) r.sd r.sa r.imm)
  | 0x17 => some (.lea r.ann (r.fn.getLsbD 1) r.sd r.srcB)
  | 0x18 => some (.bfx r.ann (r.fn.getLsbD 2) r.intOp)
  | 0x19 => some (.bfi r.ann r.intOp)
  | 0x1A => some (.clz r.ann r.intOp1)
  | 0x1B => some (.ctz r.ann r.intOp1)
  | 0x1C => some (.popc r.ann r.intOp1)
  | 0x1D => some (.pset r.ann (PCond.ofCode (r.fn.extractLsb' 2 3)) (r.fn.getLsbD 1) r.td r.sa r.srcB)
  | 0x1E => some (.plog r.ann (PLop.ofCode (r.fn.extractLsb' 2 3)) r.td r.ta r.tb)
  | 0x20 => some (.br r.ann (r.fn.getLsbD 7) r.imm)
  | 0x21 => some (.jmp r.ann r.sa r.imm)
  | 0x22 => some (.jmpr r.ann r.sa r.imm)
  | 0x23 => some (.call r.ann r.sd r.imm)
  | 0x24 => some (.ret r.ann r.sa)
  | 0x25 => some (.loop r.ann (r.fn.getLsbD 7) (r.fn.getLsbD 2) (r.fn.extractLsb' 0 2) r.sd r.sa r.imm)
  | 0x26 => some (.brq r.ann (r.fn.getLsbD 7) (r.fn.getLsbD 0) r.imm)
  | 0x27 => some (.squash r.ann r.imm)
  | 0x28 => some (.mcall r.ann r.fn r.d r.a r.b r.c r.imm)
  | 0x29 => some (.exit r.ann)
  | 0x30 => r.width.map fun wd => .ld r.ann (r.fn.getLsbD 6) wd r.sd r.sa r.imm
  | 0x31 => r.width.map fun wd => .st r.ann (Hint.ofCode (r.fn.extractLsb' 6 2)) wd r.sa r.sb r.imm
  | 0x32 => some (.chkd r.ann r.sa)
  | 0x33 => r.width.map fun wd => .lda r.ann r.ord r.scope wd r.sd r.sa r.imm
  | 0x34 => r.width.map fun wd => .str r.ann r.ord r.scope wd r.sa r.sb r.imm
  | 0x35 =>
      match AOp.ofCode (r.imm.extractLsb' 0 4) with
      | some op => (ATyp.ofCode op.isFloat (r.imm.extractLsb' 4 8)).map fun ty =>
          .atom r.ann op ty r.ord r.scope r.sd r.sa r.sb
      | none => none
  | 0x36 => some (.cas r.ann (r.fn.getLsbD 7) (r.fn.getLsbD 6) r.ord r.scope r.sd r.sa r.sb r.sc)
  | 0x37 => some (.fence r.ann r.ord r.scope)
  | 0x38 => some (.waita r.ann (PCond.ofCode (r.imm.extractLsb' 0 3)) (r.fn.getLsbD 6) r.ord r.scope
      (r.imm.extractLsb' 4 3) (r.imm.extractLsb' 8 4) r.sd r.sa r.sb r.sc)
  | 0x39 => some (.bufuse r.ann (r.imm.extractLsb' 0 6))
  | 0x3A => some (.bufrel r.ann (r.imm.extractLsb' 0 6))
  | 0x40 => some (.csrr r.ann r.sd r.csr)
  | 0x41 => some (.csrw r.ann r.sa r.csr)
  | 0x42 => (CsrOp.ofCode (r.fn.extractLsb' 0 2)).map fun op => .csrx r.ann op r.sd r.sa r.csr
  | 0x43 => some (.trap r.ann (r.imm.extractLsb' 0 16))
  | 0x44 => some (.eret r.ann)
  | 0x45 => some (.bkpt r.ann (r.imm.extractLsb' 0 16))
  | 0x46 => some (.fmt r.ann r.sa)
  | 0x47 => some (.launch r.ann (r.fn.getLsbD 0) r.sd r.sa)
  | 0x48 => some (.waitch r.ann (r.fn.getLsbD 0) r.sd r.sa)
  | 0x49 => some (.feed r.ann r.sd r.sa r.sb)
  | 0x4A => some (.popw r.ann r.sd r.sa r.sc)
  | 0x4B => some (.ackw r.ann r.sa r.sb)
  | 0x4C => some (.bar r.ann (r.fn.getLsbD 0))
  | 0x4D => some (.tickw r.ann (r.fn.getLsbD 0) r.sd r.sa r.sc)
  | 0x50 =>
      match (r.fn.extractLsb' 0 3).toNat with
      | 0 => some (.rlyOpen r.ann r.sd r.sa)
      | 1 => some (.rlyTake r.ann r.sd r.sa r.sc)
      | 2 => some (.rlyPost r.ann r.sd r.sa r.sb r.sc)
      | 3 => some (.rlyGtake r.ann r.sd r.sa r.sc)
      | 4 => some (.rlyGpost r.ann r.sd r.sa r.sb)
      | 5 => some (.rlyStat r.ann r.sd r.sa)
      | 6 => some (.rlyWait r.ann r.sd r.sa r.sc)
      | _ => some (.rlyClose r.ann r.sa)
  | 0x51 =>
      match (r.fn.extractLsb' 0 3).toNat with
      | 0 => some (.heatJoin r.ann r.sd r.sa r.sb)
      | 1 => some (.heatGive r.ann r.sd r.sa r.sb r.sc)
      | 2 => some (.heatWait r.ann r.sd r.sa r.sb r.sc)
      | 3 => some (.heatClose r.ann r.sa)
      | _ => none
  | 0x52 =>
      match (r.fn.extractLsb' 0 4).toNat with
      | 0 => some (.collLoad r.ann r.sd r.sa)
      | 8 => some (.collLoadDrop r.ann r.sa)
      | 1 => some (.collRun r.ann r.sd r.sa r.sb r.sc)
      | 2 => some (.collWait r.ann r.sd r.sa r.sc)
      | 3 => some (.collClaim r.ann r.sd r.sa r.sb r.sc)
      | 11 => some (.collClaimSeal r.ann r.sa r.sb)
      | _ => none
  | 0x60 => some (.vld r.eann (r.fn.getLsbD 7) r.d r.sa r.imm)
  | 0x61 => r.fmtCode.map fun f => .vldg r.eann f (r.fn.getLsbD 4) r.d r.a r.sb
  | 0x62 => r.fmtCode.map fun f => .vldb r.eann f r.d r.sa r.imm
  | 0x63 => some (.sld r.eann (r.fn.getLsbD 0) r.qd r.sa r.sb r.imm)
  | 0x68 => some (.vst r.eann (r.fn.getLsbD 7) r.sa r.b r.imm)
  | 0x69 => r.fmtCode.map fun f => .vsts r.eann f r.a r.b r.sc
  | 0x6A => r.fmtCode.map fun f => .vstm r.eann f r.sa r.b r.c r.imm
  | 0x80 => r.vf2.map fun o => .vadd r.eann o
  | 0x81 => r.vf2.map fun o => .vsub r.eann o
  | 0x82 => r.vf2.map fun o => .vmul r.eann o
  | 0x83 => r.vf3.map fun o => .vfma r.eann o
  | 0x84 => r.vf3.map fun o => .vfms r.eann o
  | 0x85 => r.vf3.map fun o => .vfnma r.eann o
  | 0x86 => r.vf2.map fun o => .vmin r.eann o
  | 0x87 => r.vf2.map fun o => .vmax r.eann o
  | 0x88 => r.vf1.map fun o => .vabs r.eann o
  | 0x89 => r.vf1.map fun o => .vneg r.eann o
  | 0x8A => r.vf2.map fun o => .vdiv r.eann o
  | 0x8B => r.vf1.map fun o => .vsqrt r.eann o
  | 0x8C => r.vf1.map fun o => .vrsq r.eann o
  | 0x8D => r.vf1.map fun o => .vrcp r.eann o
  | 0x8E => r.vf1.map fun o => .vexp2 r.eann o
  | 0x8F => r.vf1.map fun o => .vlog2 r.eann o
  | 0x90 => r.vi2.map fun o => .viadd r.eann o
  | 0x91 => r.vi2.map fun o => .visub r.eann o
  | 0x92 => r.vi2.map fun o => .vimul r.eann o
  | 0x93 => r.vi3.map fun o => .vimad r.eann o
  | 0x94 => r.vi2.map fun o => .vimin r.eann o
  | 0x95 => r.vi2.map fun o => .vimax r.eann o
  | 0x96 => r.vi2.map fun o => .vand r.eann o
  | 0x97 => r.vi2.map fun o => .vor r.eann o
  | 0x98 => r.vi2.map fun o => .vxor r.eann o
  | 0x99 => r.vi2.map fun o => .vshl r.eann o
  | 0x9A => r.vi2.map fun o => .vshr r.eann o
  | 0x9B => r.vi2.map fun o => .vsar r.eann o
  | 0x9C => r.vi1.map fun o => .vclz r.eann o
  | 0x9D => r.vi1.map fun o => .vpopc r.eann o
  | 0xA0 =>
      match VCond.ofCode (r.fn.extractLsb' 4 3), r.fmtCode with
      | some c, some f => some (.vcmp r.eann c f (r.fn.getLsbD 7) r.a r.b)
      | _, _ => none
  | 0xA1 => some (.vsel r.eann r.d r.a r.b)
  | 0xA2 =>
      match r.fmtCode, r.rmCode, Fmt.ofCode (r.imm.extractLsb' 0 4) with
      | some dst, some m, some src =>
          some (.vcvt r.eann dst m (r.fn.getLsbD 7) r.d r.a src (r.imm.extractLsb' 4 2))
      | _, _, _ => none
  | 0xA3 => some (.vmov r.eann r.d r.a)
  | 0xA4 => r.fmtCode.map fun f =>
      .vbcast r.eann f r.d (if r.fn.getLsbD 7 then .imm r.imm else .reg r.sa)
  | 0xA5 => r.fmtCode.map fun f => .vperm r.eann f r.d r.a r.b r.c
  | 0xA6 => r.fmtCode.map fun f => .vrot r.eann f r.d r.a r.imm
  | 0xA7 => r.fmtCode.map fun f => .vsort r.eann f (r.fn.getLsbD 4) (r.fn.getLsbD 5) r.d r.a r.c
  | 0xA8 => r.vredOp.map fun o => .vred r.eann o
  | 0xA9 => r.vredOp.map fun o => .vscan r.eann o
  | 0xAA => some (.minv r.eann)
  | 0xAB => some (.mpop r.eann)
  | 0xAC => some (.mskip r.eann r.imm)
  | 0xAD => (VoqSrc.ofCode (r.fn.extractLsb' 0 2)).map fun s => .voq r.eann s r.a
  | 0xAE =>
      match r.fmtCode, r.rmCode with
      | some f, some m =>
          some (.vacr r.eann f m (r.fn.getLsbD 7) (r.imm.getLsbD 0) r.d r.ta r.sb)
      | _, _ => none
  | 0xAF => r.fmtCode.map fun f => .vacw r.eann f (r.imm.getLsbD 0) r.td r.a r.sb
  | 0xC0 => some (.mma r.eann r.td r.qa r.qb (r.imm.extractLsb' 0 8))
  | 0xC1 => some (.mmag r.eann r.td r.qa r.sc (r.imm.extractLsb' 0 8))
  | 0xC2 => some (.sclaim r.eann (if r.fn.getLsbD 0 then .mask r.sa else .one r.qa))
  | 0xC3 => some (.srls r.eann (if r.fn.getLsbD 0 then .mask r.sa else .one r.qa))
  | 0xC4 => some (.fzero r.eann r.td)
  | 0xC5 => some (.lrel r.eann)
  | 0xC8 => some (.cpgo r.ann r.sd r.ta r.sb r.sc)
  | 0xC9 => some (.cpone r.ann (r.fn.getLsbD 7) (r.fn.getLsbD 0) (r.fn.extractLsb' 1 4) r.sd r.ta r.sb r.sc r.imm)
  | 0xCA => some (.cpcan r.ann r.sd r.sa)
  | 0xCB => some (.cphint r.ann (r.fn.getLsbD 0) r.sa r.sb r.imm)
  | 0xCC => some (.cpwait r.ann (r.fn.getLsbD 0) r.sd r.ta)
  | 0xD0 =>
      match QopOp.ofCode (r.fn.extractLsb' 4 3), r.fmtCode with
      | some op, some f => some (.qop r.ann op f (r.fn.getLsbD 7) r.sd r.sa r.sb r.cnt)
      | _, _ => none
  | 0xD1 => r.fmtCode.map fun f =>
      .qred r.ann (QredOp.ofCode (r.fn.extractLsb' 4 2)) f (r.fn.getLsbD 6) r.sd r.sa r.cnt
  | 0xD2 => some (.qfill r.ann (r.fn.extractLsb' 0 2) r.sd r.sa r.cnt)
  | _ => none

/-- Is OP assigned (R17)? -/
def opAssigned (op : BitVec 8) : Bool :=
  let n := op.toNat
  n ≤ 0x1E || (0x20 ≤ n && n ≤ 0x29) || (0x30 ≤ n && n ≤ 0x3A) || (0x40 ≤ n && n ≤ 0x4D) ||
  (0x50 ≤ n && n ≤ 0x52) || (0x60 ≤ n && n ≤ 0x63) || (0x68 ≤ n && n ≤ 0x6A) || (0x80 ≤ n && n ≤ 0x9D) ||
  (0xA0 ≤ n && n ≤ 0xAF) || (0xC0 ≤ n && n ≤ 0xC5) || (0xC8 ≤ n && n ≤ 0xCC) || (0xD0 ≤ n && n ≤ 0xD2)

/-- Decode the fields of a word (R18): total, and every refusal has a name. -/
def decodeRaw (r : RawWord) : Except DecodeErr Instr :=
  match extract r with
  | none => .error (if opAssigned r.op then .reservedFn else .reservedOp)
  | some i =>
    if encodeRaw i = some r then
      if i.wf then .ok i else .error .badOperand
    else .error .nonzeroField

/-- Decode a 96-bit word. -/
def decodeWord (w : IWord) : Except DecodeErr Instr := decodeRaw (RawWord.ofBits w)

/-- Decode the first instruction of a stream's bytes and give the bytes that follow (R9, R12). -/
def decodeBytes (bs : List Byte) : Except DecodeErr (Instr × List Byte) :=
  if (bs.take 12).length = 12 then
    match decodeWord (BitVec.ofNat 96 (ofLeBytes (bs.take 12))) with
    | .ok i => .ok (i, bs.drop 12)
    | .error e => .error e
  else .error .short

-- Section headers (R22).

/-- Split a 64-bit section header into its fields. -/
def Header.ofBits (w : BitVec 64) : Header :=
  { magic := w.extractLsb' 60 4, sec := w.extractLsb' 48 12, len := w.extractLsb' 36 12,
    afterVl := w.extractLsb' 30 6, afterVx := w.extractLsb' 24 6, afterVs := w.extractLsb' 18 6,
    afterMx := w.extractLsb' 12 6, afterCp := w.extractLsb' 6 6, flags := w.extractLsb' 0 6 }

/-- The 64 bits of a section header. -/
def Header.bits (h : Header) : BitVec 64 :=
  h.magic ++ h.sec ++ h.len ++ h.afterVl ++ h.afterVx ++ h.afterVs ++ h.afterMx ++ h.afterCp ++ h.flags

/-- R23: MAGIC is 0b1010, LEN is not 0 and FLAGS bits 5:3 are zero. -/
def Header.legal (h : Header) : Bool :=
  h.magic == 0b1010 && h.len != 0 && h.flags.extractLsb' 3 3 == 0#3

/-- FLAGS bit 0: the section begins only while the core holds the team array (R22). -/
def Header.lease (h : Header) : Bool := h.flags.getLsbD 0
/-- FLAGS bit 1: specialiser output (R22). -/
def Header.resid (h : Header) : Bool := h.flags.getLsbD 1
/-- FLAGS bit 2: SQUASH may discard the section (R22). -/
def Header.sqok (h : Header) : Bool := h.flags.getLsbD 2

-- Firmware-core instructions (R381).

/-- A 32-bit word of the custom-0 opcode: the four WX instructions, their must-be-zero fields checked. -/
def decodeFirmware (w : BitVec 32) : Except DecodeErr Instr :=
  let funct7 := w.extractLsb' 25 7
  let rs2 := w.extractLsb' 20 5
  let rs1 := w.extractLsb' 15 5
  let rd := w.extractLsb' 7 5
  if w.extractLsb' 0 7 ≠ 0x0B#7 then .error .notWx else
  match (w.extractLsb' 12 3).toNat with
  | 0 => if funct7 = 0 ∧ rs1 = 0 ∧ rs2 = 0 then .ok (.wxGtc rd) else .error .nonzeroField
  | 1 => if funct7 = 0 then .ok (.wxSend rd rs1 rs2) else .error .nonzeroField
  | 2 => if funct7 = 0 ∧ rd = 0 ∧ rs2 = 0 then .ok (.wxFence rs1) else .error .nonzeroField
  | 3 => if funct7 = 0 ∧ rd = 0 then .ok (.wxReady rs1 rs2) else .error .nonzeroField
  | _ => .error .reservedFn

/-- The 32-bit word of a firmware instruction. -/
def encodeFirmware : Instr → Option (BitVec 32)
  | .wxGtc rd => some (0#17 ++ 0#3 ++ rd ++ 0x0B#7)
  | .wxSend rd rs1 rs2 => some (0#7 ++ rs2 ++ rs1 ++ 1#3 ++ rd ++ 0x0B#7)
  | .wxFence rs1 => some (0#7 ++ 0#5 ++ rs1 ++ 2#3 ++ 0#5 ++ 0x0B#7)
  | .wxReady rs1 rs2 => some (0#7 ++ rs2 ++ rs1 ++ 3#3 ++ 0#5 ++ 0x0B#7)
  | _ => none

/-- The instruction the decoder reads from bits numbered as the opcode table numbers them: a firmware word of 32 bits, a
section header of 64, or a word of the pacer's stream. Where the header is illegal the step is still SECTION_HEADER, which
traps SECT (R23). -/
def decodeTableWord (nbits w : Nat) : Option Instr :=
  if nbits ≤ 32 then (decodeFirmware (BitVec.ofNat 32 w)).toOption
  else if nbits ≤ 64 then some (.sectionHeader (Header.ofBits (BitVec.ofNat 64 w)))
  else (decodeWord (BitVec.ofNat 96 w)).toOption

end Sys2Proof
end

