-- ==== Sys2Proof/Machine/Store.lean ====
section
/-! DEFINITION. Sparse storage: maps from numbers to values, and the one byte memory in canonical form. Every map is a list
sorted by key. A byte of memory that nothing has written reads as 0 (log entry 2), and is not listed. -/
namespace Sys2Proof.Machine

/-- A sparse map by number, sorted by key, no key twice. -/
abbrev AMap (α : Type) := List (Nat × α)

/-- The value at a key, or `d` where the map lists none. -/
def AMap.get {α : Type} (d : α) : AMap α → Nat → α
  | [], _ => d
  | (k, v) :: m, j => if k = j then v else AMap.get d m j

/-- The value at a key, if listed. -/
def AMap.find {α : Type} : AMap α → Nat → Option α
  | [], _ => none
  | (k, v) :: m, j => if k = j then some v else AMap.find m j

/-- Set the value at a key. -/
def AMap.upd {α : Type} : AMap α → Nat → α → AMap α
  | [], j, w => [(j, w)]
  | (k, v) :: m, j, w =>
    if j < k then (j, w) :: (k, v) :: m
    else if j = k then (j, w) :: m
    else (k, v) :: AMap.upd m j w

/-- Remove a key. -/
def AMap.del {α : Type} (m : AMap α) (j : Nat) : AMap α := m.filter fun e => e.1 != j

/-- Memory: the bytes that differ from 0, by key, strictly rising. -/
abbrev Memory := List Host.Cell

namespace Memory

/-- What a byte that memory does not list reads as (log entry 2). -/
def unlisted : Byte := 0

/-- One byte. -/
def get : Memory → Nat → Byte
  | [], _ => unlisted
  | (k, v) :: m, a => if k = a then v else get m a

/-- Write one byte; writing what an unlisted byte reads as removes the entry. -/
def set : Memory → Nat → Byte → Memory
  | [], a, b => if b = unlisted then [] else [(a, b)]
  | (k, v) :: m, a, b =>
    if a < k then (if b = unlisted then (k, v) :: m else (a, b) :: (k, v) :: m)
    else if a = k then (if b = unlisted then m else (a, b) :: m)
    else (k, v) :: set m a b

/-- Keys above `lo` strictly rising, no entry equal to `unlisted`. -/
def wfFrom : Option Nat → Memory → Bool
  | _, [] => true
  | lo, (k, v) :: m =>
    (match lo with | none => true | some l => decide (l < k)) && v != unlisted && wfFrom (some k) m

/-- The canonical form: keys strictly rising, no listed byte equal to what an unlisted one reads as. -/
def wf (m : Memory) : Bool := wfFrom none m

/-- `n` bytes from `a` up. -/
def getBytes (m : Memory) (a : Nat) : Nat → List Byte
  | 0 => []
  | n + 1 => m.get a :: getBytes m (a + 1) n

/-- `n` bytes from `a` up as a little-endian number (R9). -/
def getNat (m : Memory) (a n : Nat) : Nat := ofLeBytes (m.getBytes a n)

/-- Write a list of bytes from `a` up. -/
def setBytes (m : Memory) (a : Nat) : List Byte → Memory
  | [] => m
  | b :: bs => setBytes (m.set a b) (a + 1) bs

/-- Write the low `n` bytes of a number, little-endian (R9). -/
def setNat (m : Memory) (a n v : Nat) : Memory := m.setBytes a (leBytes n v)

/-- Remove every listed byte of `lo ≤ key < hi`: the range reads as 0. -/
def clear (m : Memory) (lo hi : Nat) : Memory := m.filter fun e => e.1 < lo || hi ≤ e.1

end Memory

-- The one key space of the machine's byte storage: a space tag above 72 bits of address (R61, R99, R111).

/-- Size of one space. -/
def spaceSize : Nat := 2 ^ 72
/-- HBM byte at a local-view address (R61, R62). -/
def kHbm (pa : Nat) : Nat := pa
/-- Bulk-tier byte (R61). -/
def kBulk (pa : Nat) : Nat := spaceSize + pa
/-- Host byte (R61). -/
def kHost (pa : Nat) : Nat := 2 * spaceSize + pa
/-- A peer's byte: device number above the 52-bit physical address (R61). -/
def kPeer (dev pa : Nat) : Nat := 3 * spaceSize + dev * 2 ^ 52 + pa
/-- Quay byte: die above the 26-bit quay offset (R61, R113). -/
def kQuay (pa : Nat) : Nat := 4 * spaceSize + pa
/-- Team scratchpad byte (R99); teams are numbered over the package. -/
def kSpad (team off : Nat) : Nat := 5 * spaceSize + team * 2 ^ 23 + off
/-- Operand slot byte: 64 KiB of data, then 2 KiB of sideband (R111). -/
def kSlot (team q off : Nat) : Nat := 6 * spaceSize + (team * 32 + q) * 2 ^ 17 + off
/-- Sideband byte of a slot (R111). -/
def kSide (team q off : Nat) : Nat := kSlot team q (0x10000 + off)
/-- The space tag of a key. -/
def kSpace (k : Nat) : Nat := k / spaceSize
/-- The aligned 8-byte word a key lies in (R222). -/
def kWord (k : Nat) : Nat := k / 8

end Sys2Proof.Machine
end

