-- ==== Sys2Proof/Machine/State.lean ====
section
/-! DEFINITION. Everything the manual gives the machine to hold, as plain data, and its value at reset.
INVENTORY.md lists every field with its rule and its reset value. -/
namespace Sys2Proof.Machine

/-- How a run stops with a fault. -/
inductive Fault where
  /-- Raised by an access to a key outside every address space of R61 and R99 (the meanings check every address first,
  so only an ill-formed state can raise it). Safe: the machine stops. -/
  | noSuchAddress
  deriving DecidableEq, Repr

/-- How a run stops with a refusal. -/
inductive Refusal where
  /-- Raised by an arm of `exec` whose instruction has no meaning yet. Safe: the machine stops. -/
  | notModelled (mnemonic : String)
  deriving DecidableEq, Repr

/-- A trap code with its TADDR, TCAUSE.DETAIL, TENG and, where it is not the core's own, its extended source (R346, R347).
-/
structure TrapInfo where
  code : Nat
  addr : Nat
  detail : Nat
  eng : Nat
  src : Option Nat
  deriving DecidableEq, Repr

/-- What an access does at its address (R65). -/
inductive Acc where
  | rd | wr | atomic | fetch
  deriving DecidableEq, Repr

/-- A miss at a die's walker (R67): who asked, when, for what; the level of the leaf that the tables then held for it, which says what
page or block its walk is for; whether its walk holds one of the walker's slots; and how a walk that failed ended, for the access that
asked: the trap code, with the table lines that were read. -/
structure Walk where
  stamp : Nat
  src : Nat
  core : Nat
  asid : Nat
  va : Nat
  acc : Acc
  user : Bool
  level : Nat
  slot : Bool
  out : Option (Nat × List Nat)
  deriving DecidableEq, Repr

/-- Where an access goes: aperture, storage key, leaf. -/
structure Target where
  apt : Nat
  key : Nat
  leaf : BitVec 64
  deriving DecidableEq, Repr

/-- How a meaning ends other than with its effect. -/
inductive Stop where
  /-- It traps precisely (R345). -/
  | trap (t : TrapInfo)
  /-- It takes a channel's pending fault, which that clears (R82). -/
  | chan (ch : Nat) (t : TrapInfo)
  /-- It waits: its pacer takes the word again at its next turn (R195, R221). -/
  | wait
  /-- Its translation misses: a walk is asked for, and the pacer takes the word again (R67). -/
  | walk (w : Walk)
  /-- It is a release that waits: the fabric it has issued under stays its own until it is over (R223, R380). -/
  | relWait
  /-- An access of this agent is under host bias: the host is asked about these lines, and the word is taken again (R72). -/
  | snoop (agent : Nat) (lines : List Nat)
  /-- It reads these runs of bytes (VA, bytes, target): the accesses go in flight, and the pacer takes the word again (R356). -/
  | reads (l : List (Nat × Nat × Target))
  /-- It waits for a write that failed: it takes PEERLOST asynchronously (R241, R397). -/
  | peerLost (va src : Nat)
  /-- The machine stops. -/
  | fault (f : Fault)
  /-- The machine refuses. -/
  | refuse (r : Refusal)
  deriving DecidableEq, Repr

-- Memory and its ordering (R222–R230).

/-- A carried set or a set of floors: for each word, the position in its home sequence (R225, R228). -/
abbrev KMap := AMap Nat

/-- A release as it travels with the value it wrote: who made it, at what scope, and what it carries (R227, R228). -/
structure Msg where
  agent : Nat
  scope : Nat
  k : KMap
  deriving DecidableEq, Repr

/-- One step of a word's home sequence that wrote it: the word's value after it, the first byte written and how many, the writer,
whether it was an atomic, and the releases that a reader of the bytes written may synchronise with (R222, R227). -/
structure HWrite where
  val : Nat
  off : Nat
  size : Nat
  agent : Nat
  atomic : Bool
  msgs : List Msg
  deriving DecidableEq, Repr

/-- A word's home sequence: its value before the first write, and the writes, oldest first. -/
structure WordHist where
  init : Nat
  ws : List HWrite
  deriving DecidableEq, Repr

/-- What an agent is bound to see and what its releases carry (R225, R228, R235). -/
structure View where
  /-- floor of each word -/
  floor : KMap
  /-- words whose floor value an ordinary load has returned: it returns again until the floor rises (R225) -/
  pinned : List Nat
  /-- the carried set K -/
  k : KMap
  /-- release fences by scope, with the carried set of each: attached to every later scoped write (R235) -/
  fences : AMap KMap
  /-- releases whose values earlier scoped reads returned, for an acquire fence (R235) -/
  seen : List Msg
  deriving DecidableEq, Repr

/-- What an access does at its home. -/
inductive ReqKind where
  | read
  | write (v : Nat)
  /-- a write of some bytes of one aligned 64-byte line (R239): bit k of `mask` names byte k of the line, whose value is byte k of `v` -/
  | line (mask v : Nat)
  | atom (op : AOp) (ty : ATyp) (v : Nat)
  | cas (expected new : Nat)
  deriving DecidableEq, Repr

/-- Where an access in flight stands. -/
inductive ReqPhase where
  | sent        -- on its way to the home
  | snoop       -- under host bias, waiting for the host's answer to the back-invalidate snoop (R72)
  | held        -- at the home, held while a row is being repaired (R387)
  | partly      -- a write of a line, some of whose words have been performed (R222, R239)
  | performed   -- performed; its answer or acknowledgement is on its way back
  | acked       -- acknowledged, or answered
  | failed      -- refused, or its path lost (R241, R397)
  | dead        -- an uncorrectable error (R74)
  deriving DecidableEq, Repr

/-- One entry of an operand log: an access in flight (R356). -/
structure Req where
  id : Nat
  core : Nat
  agent : Nat
  kind : ReqKind
  key : Nat
  size : Nat
  va : Nat
  apt : Nat
  /-- an ordinary access (R225), not a scoped one -/
  ordinary : Bool
  /-- a posted write under CP 2 and APT 3 (R237) -/
  posted : Bool
  /-- the leaf's BIAS, and whether the host has answered the snoop of this access (R72) -/
  devBias : Bool
  snooped : Bool
  /-- the cache policy it is made under: the leaf's CP, or what a store's hint puts in its place (R73, R210) -/
  cp : Nat
  /-- an access of a copy channel: the channel and the chain's GEN, and whether the pacer has acquired the channel's bytes (R98, R239) -/
  chan : Option (Nat × Nat)
  acq : Bool
  /-- of a copy channel's access: the section start that issued the chain (R24, R103) -/
  sec : Nat
  /-- the tag: extended source and 32-bit sequence number (R242) -/
  tag : Nat
  /-- the releases this write makes (R227, R235) -/
  rels : List Msg
  /-- the scope at which an atomic or CAS that releases also acquires: its release then carries what its own read acquires (R228, R233) -/
  ar : Option Nat
  phase : ReqPhase
  /-- when its home held it, by the model's count of steps (R387) -/
  heldAt : Nat
  /-- the link whose CRC its flit last failed, and how often it has been retried there (R379) -/
  crc : Nat × Nat
  /-- re-issues so far (R356) -/
  tries : Nat
  /-- the value read, and the releases it may synchronise with -/
  old : Nat
  msgs : List Msg
  deriving DecidableEq, Repr

-- Translation (R58–R70).

/-- A cached translation: its context, the level of its leaf, its page or block number, the leaf, and the table lines that
its walk read (R67, R70). -/
structure Tlb where
  asid : Nat
  level : Nat
  vpn : Nat
  leaf : BitVec 64
  lines : List Nat
  deriving DecidableEq, Repr

-- Engines (R22–R34, R147–R192).

/-- A substituted parameter block (R28, R29). -/
structure Block where
  base : Nat
  efmt : BitVec 8
  edge : Nat
  ext : List Nat
  stride : List Int
  deriving DecidableEq, Repr

/-- An entry of an engine's queue: the instruction with everything it captured at its push (R13, R14, R20, R148, R363). -/
structure Entry where
  eng : Eng
  i : Instr
  /-- address of its word, and TITER<63:56> of an MCALL operation (R32) -/
  addr : Nat
  iter : Nat
  resid : Bool
  /-- section start and part it belongs to -/
  sec : Nat
  part : Nat
  pred : Bool
  rm : Rm
  en : Nat
  vb : Nat
  sb : Nat
  x0 : Word
  x1 : Word
  blk : Option Block
  /-- slots an SRLS still has to free when it begins, and those whose release a later SCLAIM has withdrawn (R182, R183) -/
  slots : Nat
  withdrawn : Nat
  /-- what its push released to its engine (R121, R230) -/
  rel : KMap
  deriving DecidableEq, Repr

/-- Bytes of a vector register to be written: `val` where `mask` has ones. -/
structure VWrite where
  reg : Nat
  mask : VBits
  val : VBits
  deriving DecidableEq, Repr

/-- A change of the mask stack that lands with its entry (R151). -/
inductive MaskOp where
  | push (m : Mask)
  /-- the new top, from the top and the mask below it at the begin cycle -/
  | minv (m : Mask)
  | mpop
  deriving DecidableEq, Repr

/-- An entry that has begun and not yet written its results. -/
structure Flight where
  e : Entry
  start : Nat
  land : Nat
  /-- its predicate holds, no MSKIP covers it and its pops found tokens: it reads and writes (R14, R27, R166) -/
  active : Bool
  /-- it performs its pushes (R27, R186) -/
  push : Bool
  vws : List VWrite
  sws : List (Nat × Byte)
  flags : Nat
  mop : Option MaskOp
  out : Option Bool
  /-- the format word popped (R175) -/
  fw : Option Word
  /-- operand elements and scales read so far, by k-step and operand (R188) -/
  samp : AMap (List Nat)
  /-- source register and mask of a VACW (R168) -/
  src : VBits
  msk : Mask
  /-- what its engine knew when it began, which its token pushes release (R26, R230) -/
  rel : KMap
  deriving DecidableEq, Repr

/-- A part of a section that the pacer has ended and that has not begun, or the part it is in (R216). -/
structure Part where
  id : Nat
  sec : Nat
  first : Bool
  hdr : Header
  hdrAddr : Nat
  /-- words executed since its end (R219) -/
  since : Nat
  /-- format words, masks and outcomes it pushed, for SQUASH (R204) -/
  fmts : Nat
  vcmps : Nat
  mpops : Nat
  voqs : Nat
  deriving DecidableEq, Repr

/-- The first engine fault of a section (R350). -/
structure SecFault where
  code : Nat
  eng : Nat
  addr : Nat
  iter : Nat
  sec : Nat
  detail : Nat
  start : Nat
  deriving DecidableEq, Repr

-- Copy engine (R75–R91).

/-- Where a channel's chain stands. -/
inductive ChPhase where
  | idle
  | awaiting    -- its section has not begun (R76)
  | fetch       -- about to fetch a record (R80)
  | notBefore   -- waiting for NOTBEFORE (R90)
  | moving      -- bytes are landing
  | ending      -- every byte landed or failed; STATUS and OWN are still to be written (R81)
  deriving DecidableEq, Repr

/-- The end of a record on its way: the STATUS it writes and the lost agent of a PEERLOST, whether STATUS is at its home so that OWN
follows, and the request in flight (R81, R82). -/
structure RecPut where
  st : Nat
  src : Option Nat
  own : Bool
  req : Option Nat
  deriving DecidableEq, Repr

/-- One transfer: a record or a CPONE, as the engine walks it (R77–R79, R95). -/
structure Xfer where
  /-- VA of the record; 0 for a CPONE -/
  recVa : Nat
  /-- the eight words of the record -/
  words : List (BitVec 64)
  srcSpace : Nat
  srcAddr : Nat
  dstSpace : Nat
  dstAddr : Nat
  /-- is the source the strided side (R79)? -/
  srcStrided : Bool
  ext : List Nat
  stride : List Int
  base : Nat
  elem : Nat
  total : Nat
  /-- bytes landed -/
  done : Nat
  scope : Nat
  notBefore : Nat
  mcast : Bool
  lchk : Bool
  hint : Bool
  adapter : Nat
  teams : List Nat
  /-- teams already checked for claims and landing (R88, R90), and those that failed -/
  checked : List Nat
  failed : List (Nat × Nat)
  status : Nat
  /-- TADDR of its fault (R82), and the lost agent of a PEERLOST (R347) -/
  taddr : Nat
  lost : Option Nat
  last : Bool
  next : Nat
  /-- bytes for lines of a peer that the transfer has not finished with, by VA line: key of the line, mask, value (R239); of a hint
  record, the runs of its source whose pages have passed, by number: key, bytes, 0 (R91) -/
  lines : AMap (Nat × Nat × Nat)
  /-- the end that is being written -/
  put : Option RecPut
  /-- the number of the read in flight for the next bytes, and how many they are -/
  rdReq : Option (Nat × Nat)
  deriving DecidableEq, Repr

/-- A copy channel (R75, R82–R84). -/
structure Chan where
  gen : Nat
  phase : ChPhase
  /-- guard: ACT, LO, HI, WM -/
  act : Bool
  lo : Nat
  hi : Nat
  wm : Nat
  /-- first record VA and guard word, as issued -/
  recVa : Nat
  guard : Nat
  one : Option Xfer
  cur : Option Xfer
  /-- records fetched in this chain (R80) -/
  nrec : Nat
  /-- next guarded destination byte (R85) -/
  gnext : Nat
  /-- section start and part that issued it; requests and quay instructions with lower numbers hold its start -/
  sec : Nat
  part : Nat
  quayBefore : Nat
  /-- the fabric as it stood when the release of the record that ends was issued (R223, R380) -/
  relFabric : Option (List (Nat × Nat))
  /-- it froze a VL entry of its section (R82) -/
  froze : Bool
  freezeSec : Nat
  /-- pending fault, as the trap it will be (R82) -/
  fault : Option TrapInfo
  /-- bytes its chains have written, acquired by CPWAIT (R98) -/
  wrote : KMap
  /-- what its chain carries: what its issue released to the copy engine, with the stores then on their way as they land and the quay
  work then pending, what its section start and its source reads acquired, and what it has written (R81, R94, R115) -/
  rel : KMap
  /-- the number of the read in flight of a record (R80) -/
  rdReq : Option Nat
  deriving DecidableEq, Repr

-- Quay unit (R115–R119).

/-- A quay instruction in progress: its operands' VAs, and for each 64 KiB page of them the key of its first byte. -/
structure QJob where
  id : Nat
  core : Nat
  i : Instr
  d : Nat
  a : Nat
  b : Nat
  fill : Word
  pages : AMap Nat
  n : Nat
  done : Nat
  /-- the operand-log entry of the element that is on its way: its tag, and its re-issues so far (R356) -/
  entry : Option (Nat × Nat)
  /-- QRED's accumulator -/
  acc : Nat
  flags : Nat
  deriving DecidableEq, Repr

-- What a pacer is stalled on (R195).

/-- The wait of a pacer. Register numbers are physical. -/
inductive Wait where
  | none
  /-- an access's answer: destination, width, request, acquire scope, and whether the load is speculative (R211) -/
  | data (d : Nat) (wd : Width) (req : Nat) (acq : Option Nat) (spec : Bool)
  /-- an atomic's or CAS's answer: 4-byte results are sign-extended -/
  | rmw (d : Nat) (w32 : Bool) (req : Nat) (acq : Option Nat) (facq : Bool) (exp : Nat) (sc : Nat)
  /-- a WAITA: its poll in flight, polls so far, time of the last poll, the word's home position then -/
  | waita (d : Nat) (c : PCond) (w32 acq : Bool) (sc : Nat) (psel : BitVec 3) (bk : Nat) (va : Nat) (t : Target)
      (cmp : Word) (dl : Nat) (req : Option Nat) (polls : Nat) (last : Nat) (pos : Nat)
  | waitch (d : Nat) (crew gen : Nat)
  | popw (d : Nat) (q dl stamp : Nat)
  | bar (k : Nat) (legs : Bool)
  | tickw (d : Nat) (target dl : Nat)
  | rlyTake (d : Nat) (u gen : Nat) (coarse : Bool) (dl stamp : Nat)
  | rlyWait (d : Nat) (u gen dl : Nat)
  | heatWait (d h member gen tag dl : Nat)
  | collWait (d g run rank dl : Nat)
  /-- the answer has come while the core is frozen: the word completes on the first cycle that is not (R221) -/
  | answered (d : Nat) (v : Word)
  | exit
  /-- its instance has ended by EXIT; the core is freed when its replica ends (R254) -/
  | ended
  /-- a trap has been recorded and its entries drain; `send` names the faulting section of a section-end trap (R345) -/
  | drain (send : Option Nat)
  /-- the channel fault of R82 point 4 waits for the entries that drain -/
  | chanFault (ch : Nat)
  /-- saving for a pre-emption (R361) -/
  | preempt
  deriving DecidableEq, Repr

/-- An event of a watchpoint on its way to its watcher (R238, R355). -/
structure WatchEv where
  stamp : Nat
  src : Nat
  wn : Nat
  rd : Bool
  wr : Bool
  addr : Nat
  value : Nat
  deriving DecidableEq, Repr

/-- An MCALL in progress (R32): microprogram entries left, the fields of its word. -/
structure MCall where
  start : Nat
  count : Nat
  idx : Nat
  d : BitVec 10
  a : BitVec 10
  b : BitVec 10
  c : BitVec 10
  imm : BitVec 32
  deriving DecidableEq, Repr

/-- The pacer's place in its section (R22, R199, R353). -/
structure SecCtx where
  hdr : Header
  hdrAddr : Nat
  ord : Nat
  /-- the pacer is at a header, not at a word of the section -/
  atHdr : Bool
  handler : Bool
  /-- tile commands pushed in the section, and whether an LREL was pushed (R171) -/
  tiles : Nat
  lrel : Bool
  deriving DecidableEq, Repr

/-- One core: its pacer, its engines and its copy channels. -/
structure Core where
  /-- crew (index into the pool) and leg it runs, if any; lowest core of its replica; contained (R358) -/
  crew : Option Nat
  leg : Nat
  origin : Nat
  contained : Bool
  -- pacer
  s : AMap Word
  defer : AMap (Nat × Width)
  p : BitVec 8
  pc : Nat
  ctx : SecCtx
  saved : SecCtx
  wait : Wait
  /-- the word at pc has already been counted and has ended its part (R216) -/
  retry : Bool
  mcall : Option MCall
  /-- an MCALL that a trap interrupted -/
  savedMcall : Option MCall
  /-- the operation at which an MCALL at the pc begins: 0, but after an ERET that goes on with one (R353) -/
  mcallFrom : Nat
  micro : AMap (BitVec 128)
  mdir : AMap (Nat × Nat)
  -- user CSRs
  mode : Bool
  fpcr : BitVec 64
  fpsr : BitVec 64
  slip : Nat
  rrb : BitVec 64
  mskdepth : Nat
  ccc : Nat
  specstat : BitVec 64
  livemap : BitVec 64
  livebits : BitVec 1024
  dlost : BitVec 64
  qstat : BitVec 64
  -- supervisor CSRs
  tvec : BitVec 64
  tcause : BitVec 64
  tpc : BitVec 64
  topc : BitVec 64
  titer : BitVec 64
  taddr : BitVec 64
  teng : BitVec 64
  tsrc : BitVec 64
  tstamp : BitVec 64
  asid : Nat
  mcsw : BitVec 64
  readyw : Nat
  watch : AMap (BitVec 64)
  watchctl : AMap (BitVec 64)
  saveptr : BitVec 64
  tlog : BitVec 64
  wseq : Nat
  /-- TPC or TADDR was written since the trap (R353) -/
  tpcWritten : Bool
  /-- no LOCAL hit on the first word after ERET (R353) -/
  wskip : Bool
  -- traps that are pending
  secFault : Option SecFault
  kept : Option SecFault
  asyncPeer : Option (Nat × Nat)
  asyncWatch : List WatchEv
  /-- containments elsewhere in the crew: PEERLOST owed once for each, with its source, the oldest first (R359) -/
  owed : List Nat
  -- parts and engines
  partNo : Nat
  secNo : Nat
  cur : Option Part
  parts : List Part
  begun : List (Nat × Nat)
  q : List Entry
  fly : List Flight
  busy : AMap Nat
  /-- the cycle on which an entry last began (R217) -/
  lastBegin : Nat
  tok : AMap Nat
  /-- the effects that each token brings, by queue, oldest first (R26, R230) -/
  tokRel : AMap (List KMap)
  fmtq : List Word
  outq : List Bool
  outcnt : Nat
  masks : List Mask
  mskip : Nat
  /-- the latest section start of which an LREL has begun (R192) -/
  lrelSec : Option Nat
  v : AMap VBits
  frames : AMap Nat
  view32 : BitVec 32
  /-- writes of the engines by section start, for the acquires of R103 -/
  engw : AMap KMap
  /-- chains' writes by section start, for R76 and AFTER_CP -/
  chans : AMap Chan
  /-- BARs executed with a true predicate (R262) -/
  bars : Nat
  /-- increments it made of its team's buffer counts (R358) -/
  bufs : AMap Nat
  tlb : List Tlb
  /-- the fabric as it stood when the release that the pacer waits at was issued (R223, R380) -/
  relFabric : Option (List (Nat × Nat))
  /-- the lines about which the host has answered the word that the pacer is at, by accessing agent (R72) -/
  answered : List (Nat × Nat)
  /-- its sleep on a queue has been ended by a FEED, and the retry has still to be made (R261) -/
  woken : Bool
  /-- it is contained, and has still to leave the units that its instance uses (R302, R313, R325) -/
  leaving : Bool
  /-- its cancelled chains' records that have still to be marked, by channel, since the host must answer first (R96, R358) -/
  marks : List (Nat × Nat)
  frozen : Bool
  deriving DecidableEq, Repr

/-- A team: claims, buffer counts, the array's lease, its translation cache (R67, R120, R172, R180). -/
structure Team where
  owner : AMap Nat
  counts : AMap Nat
  /-- landings in progress: core and channel, with the range (R90) -/
  landings : List (Nat × Nat × Nat × Nat)
  /-- words that landings with LCHK have written (R121) -/
  landed : KMap
  /-- the lease: core and section start; and whether an LREL has begun -/
  lease : Option (Nat × Nat)
  lrel : Bool
  /-- waiting requests: stamp, source, core, part (R172) -/
  reqs : List (Nat × Nat × Nat × Nat)
  tlb : List Tlb
  lastAsid : Option Nat
  deriving DecidableEq, Repr

/-- What is known of one leg of a crew. -/
inductive LegState where
  | waiting
  | running (origin : Nat)
  | saved (origin : Nat)
  | ended
  | faulted
  | killed
  deriving DecidableEq, Repr

/-- A pool entry: a crew from its acceptance on (R244–R257). -/
structure Crew where
  gen : Nat
  live : Bool
  rcd : BitVec 1024
  tbl : BitVec 1024
  hasTbl : Bool
  parent : Option Nat
  host : Bool
  det : Bool
  depth : Nat
  limit : Nat
  stamp : Nat
  cls : Nat
  /-- when it began to wait, and its class then (R256, R377) -/
  waitFrom : Nat
  cls0 : Nat
  /-- order of acceptance (R256) -/
  order : Nat
  /-- release made at acceptance (R247) -/
  msg : Msg
  legs : AMap LegState
  /-- end releases of its cores, the end status once ended (R254) -/
  endMsgs : List Msg
  status : Option Nat
  /-- control store and directory, as accepted (R30, R43) -/
  micro : AMap (BitVec 128)
  mdir : AMap (Nat × Nat)
  /-- the specialiser's result by die: first program counter, and SPECSTAT (R269, R284) -/
  spec : AMap (Nat × BitVec 64)
  preempt : Bool
  /-- cores that have saved, by leg × 1024 + core, as they stood (R361, R363) -/
  saved : AMap Core
  /-- the views of the three agents of each saved core, by 8 × that key + engine code; the save pool at its start (R378) -/
  savedViews : AMap View
  pool : Option Nat
  /-- the handler vector that its cores take (R367, R376) -/
  vec : Option (BitVec 64)
  /-- arrivals at barriers: with `.legs` or not, leg, number, core, release (R262–R264) -/
  arrivals : List (Bool × Nat × Nat × Nat × Msg)
  live_ : AMap (BitVec 1088)
  disc : List (BitVec 128)
  buf : AMap (Nat × Nat)
  /-- releases at EXIT, by leg × 1024 + core (R254, R264) -/
  exited : AMap Msg
  /-- contained cores: leg, core, BARs it had reached (R263) -/
  lost : List (Nat × Nat × Nat)
  /-- ended from outside (R254, R376) -/
  killed : Bool
  deriving DecidableEq, Repr

/-- A back-invalidate snoop of a line, asked for by an access that is no request of an operand log: the accessing agent, the core whose
word makes the access, if one does, and whether the host has answered (R72). -/
structure Snoop where
  id : Nat
  agent : Nat
  core : Option Nat
  line : Nat
  done : Bool
  deriving DecidableEq, Repr

/-- A C-die's units (R63, R67, R113, R250, R265). -/
structure Die where
  roots : AMap (BitVec 64)
  tickcfg : BitVec 64
  tickno : Nat
  walks : List Walk
  wtlb : List Tlb
  jobs : List QJob
  deriving DecidableEq, Repr

-- The specialiser (R281–R285).

/-- An entry of a die's specialisation cache: record, residual words, back-map (R282). -/
structure SpecEntry where
  key : Nat
  rid : Nat
  asid : Nat
  rcd : BitVec 512
  /-- the residual code's granules, and the back-map's entries, one for each granule -/
  code : List (BitVec 32)
  bmap : List (BitVec 64)
  /-- crews that run from it or hold a pre-empted context in it -/
  pins : List Nat
  used : Nat
  deriving DecidableEq, Repr

-- Relays (R315–R344).

/-- What holds a leg's STATE: it follows the leg's run, or is SETTLED, RETIRED or FAULTED (R320). -/
inductive LegFate where
  | live | settled | retired | faulted
  deriving DecidableEq, Repr

/-- A relay unit's own state of a leg: the fields of its baton (R318, R319). -/
structure Leg where
  leg : Nat
  st : LegFate
  run : Bool
  held : Bool
  exact : Bool
  iter : Nat
  ver : Nat
  fver : Nat
  gver : Nat
  gpver : Nat
  jump : Nat
  rver : Nat
  stamp : Nat
  crewSrc : Nat
  fsrc : Nat
  fcode : Nat
  hver : Nat
  fstamp : Nat
  /-- a fine record, a coarse record of the leg waits in its queue or is owed (R323) -/
  fineWait : Bool
  coarseWait : Bool
  /-- releases of the posts whose results stand in F of FVER, G of GVER and G of GPVER (R331, R339) -/
  fmsg : List Msg
  gmsg : List Msg
  gpmsg : List Msg
  /-- the release of its latest baton (R319, R341) -/
  bmsg : List Msg
  deriving DecidableEq, Repr

/-- Work taken from a relay and not yet posted (R324, R339). -/
structure RlyWork where
  core : Nat
  inst : Nat
  payload : Nat
  leg : Nat
  coarse : Bool
  ver : Nat
  cancelled : Bool
  deriving DecidableEq, Repr

/-- Where a relay stands (R340). -/
inductive RlyState where
  | free | running | done | faulted | stopped
  deriving DecidableEq, Repr

/-- A relay unit (R315). -/
structure Relay where
  gen : Nat
  st : RlyState
  asid : Nat
  user : Bool
  /-- the crew instance that opened it -/
  inst : Nat
  desc : BitVec 2048
  /-- the leaf of each page of its ranges, by VA page, as translated at OPEN (R337) -/
  pages : AMap (BitVec 64)
  /-- legs by slot; a slot not listed is EMPTY -/
  slots : AMap Leg
  sp : Nat
  top : Nat
  faultLeg : Nat
  /-- sweeps begun, whether one is in progress, its next leg and its end, the needed versions by leg, and the legs whose runs it
  has cancelled (R326) -/
  sweepNo : Nat
  sweepOn : Bool
  sweepAt : Nat
  sweepTop : Nat
  need : AMap Nat
  cancelled : List Nat
  /-- records issued and not yet fed: coarse or fine, leg (R323) -/
  owed : List (Bool × Nat)
  /-- what ACKED of the fine queue (0) and of the coarse queue (1) was, plus 1, when an owed record was last tried (R323) -/
  ackSeen : AMap Nat
  work : List RlyWork
  /-- the release of the latest output entry (R331) -/
  outMsg : List Msg
  deriving DecidableEq, Repr

-- Heats (R290–R302).

/-- A member of a heat: its number, the core and the crew instance that joined, the tags it has given (R296, R298, R302). -/
structure Member where
  no : Nat
  core : Nat
  inst : Nat
  left_ : Bool
  gave : List Nat
  deriving DecidableEq, Repr

/-- A contribution to the open heat: its lag, its elements in the contribution format, and its release (R298, R299). -/
structure Contrib where
  member : Nat
  tag : Nat
  lag : Nat
  vals : List Nat
  msg : Msg
  deriving DecidableEq, Repr

/-- A resident heat descriptor (R290): `pages` holds the leaf of each page of its rings, by VA page (R292). -/
structure Heat where
  gen : Nat
  live : Bool
  key : Nat
  desc : BitVec 1024
  pages : AMap (BitVec 64)
  openTag : Nat
  opened : Nat
  nrej : Nat
  members : List Member
  contribs : List Contrib
  deriving DecidableEq, Repr

-- Collectives (R304–R314).

/-- A part of a step at a rank: waiting on its counter, begun, or complete (R308). -/
inductive CollPhase where
  | waiting | begun | complete
  deriving DecidableEq, Repr

/-- One run of a graph at a rank (R308, R312): who issued it, its bases, its release; each step's counter, phase and the
source elements its part has read, with the chunk buffers they hold (R304); the flags of its writes; whether its rank has been
contained. -/
structure CollRun where
  run : Nat
  rank : Nat
  core : Nat
  inst : Nat
  base : List Nat
  asid : Nat
  user : Bool
  msg : Msg
  cnt : AMap Nat
  ph : AMap CollPhase
  src : AMap (List Nat)
  held : AMap Nat
  flags : Nat
  /-- the source of a pacer of its rank that has been contained (R313) -/
  lost : Option Nat
  done : Bool
  deriving DecidableEq, Repr

/-- A loaded graph (R304–R306, R309, R311). -/
structure Graph where
  gen : Nat
  live : Bool
  gkey : Nat
  asid : Nat
  /-- the crew instance that loaded it -/
  inst : Nat
  hdr : BitVec 512
  ranks : List (Nat × Nat)
  steps : List (BitVec 512)
  runs : List CollRun
  /-- runs started at each rank -/
  started : AMap Nat
  /-- A2A: (run, step, destination) with used rows and drops; (run, step, rank) with the release of each seal -/
  used : List (Nat × Nat × Nat × Nat × Nat)
  seals : List (Nat × Nat × Nat × Msg)
  /-- the plan of each run (R309) -/
  plan : AMap Nat
  /-- ranks whose pacer has been contained, with its source: a run that it has not issued there is lost to the others (R313) -/
  gone : AMap Nat
  deriving DecidableEq, Repr

-- Firmware, host, fabric (R372–R389).

/-- A firmware core (R381): RV64 integer and floating-point registers, pc, privilege, the machine-mode registers, the counters, and the
reservation of LR: key, bytes, and how many writes the word's home had then performed. -/
structure FwCore where
  x : AMap Word
  f : AMap Word
  fcsr : Nat
  mie : BitVec 64
  mscratch : Word
  mcounteren : BitVec 64
  mcycle : Word
  minstret : Word
  resv : Option (Nat × Nat × Nat)
  pc : Word
  machine : Bool
  mstatus : BitVec 64
  mepc : Word
  mcause : BitVec 64
  mtval : Word
  mtvec : Word
  deriving DecidableEq, Repr

/-- A firmware slot of the flash (R382). -/
structure FwSlot where
  version : Nat
  image : List Byte
  signature : List Byte
  deriving DecidableEq, Repr

/-- A configuration record of the flash (R383), with its XMSS signature. -/
structure CfgRecord where
  device : Nat
  minver : Nat
  /-- the spare map: for each spare that is in use (die × 4 + spare), the logical core whose place it has taken -/
  spares : AMap Nat
  /-- the thresholds of corrected errors of a memory row (R387), and of a core's errors (R388) -/
  threshold : Nat
  coreThreshold : Nat
  tickPeriod : Nat
  /-- regions kept in host bias (R72) -/
  hostBias : List Nat
  signature : List Byte
  deriving DecidableEq, Repr

/-- The answer to an SPDM request (R385): the nonce, the digests of the running slot and of the configuration record in force, the
spare map, the certificate chain, the signature. -/
structure SpdmAnswer where
  nonce : Nat
  slotDigest : Nat
  cfgDigest : Nat
  spares : AMap Nat
  certs : List Byte
  signature : Nat
  deriving DecidableEq, Repr

/-- An Aqlor port (R379, R380, R387). -/
structure Port where
  up : Bool
  lanes : Nat
  retries : Nat
  deriving DecidableEq, Repr

/-- The kind of agent that moves next. -/
inductive Turn where
  | clock
  | pacer (core : Nat)
  | firmware (k : Nat)
  | event (i : Instr)
  deriving DecidableEq, Repr

/-- The whole module. -/
structure State where
  -- time
  /-- time in sixths of a nanosecond: a core cycle is 10, a GTC nanosecond is 6 (R10) -/
  now : Nat
  /-- the last GTC reading given out (R7) -/
  gtc : Nat
  /-- GTC offset set at boot and by discovery (R7) -/
  gtcBase : Int
  -- the model's own fields: steps so far, open choices so far, what moves next, consequences still to happen, the core
  -- whose word is executed
  count : Nat
  free : Nat
  forced : Option Turn
  agenda : List Instr
  actor : Nat
  -- storage and its ordering
  mem : Memory
  hist : AMap WordHist
  views : AMap View
  reqs : List Req
  nextReq : Nat
  /-- how the homes answer the accesses that units and walks make in this step: the lines that do not answer, and why (R74, R397) -/
  trouble : List (Nat × Err)
  /-- while a step of a unit is being worked out: what it must wait for first, the host's answer to an agent about a line, or (none) the
  end of a repair (R72, R387); empty between steps -/
  held : List (Option (Nat × Nat))
  /-- the stamp and the extended source of the latest arrival at each unit that performs arrivals in (stamp, source) order (R8, R297, R315) -/
  arrived : AMap (Nat × Nat)
  /-- the next sequence number of each source's tags (R242) -/
  seqs : AMap Nat
  /-- the lines that the host-line cache holds, the latest used first (R73) -/
  hostLines : List Nat
  snoops : List Snoop
  /-- scratchpad and slot bytes that copy engines have written in this core cycle: source, key, bytes (R102) -/
  cpLanded : List (Nat × Nat × Nat)
  scopetab : AMap (BitVec 64)
  /-- table lines and the dies whose walkers have read them (R70) -/
  tdir : AMap (List Nat)
  bias : AMap Bool
  staging : List (Nat × Nat × Nat × Nat)
  watchers : List (Nat × Nat × Nat × Nat × BitVec 64)
  -- compute dies
  cores : AMap Core
  teams : AMap Team
  dies : AMap Die
  crews : AMap Crew
  spec : List (Nat × SpecEntry)
  specViol : AMap Nat
  nextRid : Nat
  relays : AMap Relay
  heats : AMap Heat
  graphs : AMap Graph
  /-- releases that FEED attached to the records of each queue: (queue word, record number) -/
  fed : List (Nat × Nat × Msg)
  -- host interface and firmware
  crbase : BitVec 64
  crsize : BitVec 64
  cpbase : BitVec 64
  doorv : Nat
  cdone : Nat
  barMode : Nat
  vecs : AMap (BitVec 64)
  pools : AMap Nat
  ready : BitVec 736
  fw : AMap FwCore
  fwMail : List (Nat × Nat)
  slots : AMap FwSlot
  runSlot : Nat
  fwChange : Option Nat
  booted : Bool
  doe : Option SpdmAnswer
  /-- the configuration records, the newest first; once booted, only those whose signature verifies -/
  cfgs : List CfgRecord
  /-- the spare map in force: for each spare in use (die × 4 + spare), the logical core whose place it has taken (R3, R388) -/
  spare : AMap Nat
  /-- the identity key, once the boot ROM has derived it; its certificate chain in flash (R385) -/
  identity : Option Nat
  certs : List Byte
  log : List (BitVec 512)
  linkLanes : Nat
  ports : AMap Port
  discovered : Bool
  fabric : List (Nat × Nat)
  /-- every device that discovery has found since boot: one that is no longer in the fabric has dropped out (R61, R380) -/
  peers : List Nat
  /-- when the oldest port change not yet discovered happened (R380) -/
  portAt : Option Nat
  repairs : List (Nat × Nat)
  /-- corrected errors by controller × 2^40 + row (R387) -/
  corrected : AMap Nat
  retiring : List Nat
  deriving DecidableEq, Repr

-- Reset.

/-- The header of no section: every field zero. -/
def Header.zero : Header :=
  { magic := 0, sec := 0, len := 0, afterVl := 0, afterVx := 0, afterVs := 0, afterMx := 0, afterCp := 0, flags := 0 }

/-- A pacer that is in no section. -/
def SecCtx.none : SecCtx :=
  { hdr := Header.zero, hdrAddr := 0, ord := 0, atHdr := true, handler := false, tiles := 0, lrel := false }

/-- A channel at crew start: idle, GEN 0, no guard (R75, R83). -/
def Chan.reset : Chan :=
  { gen := 0, phase := .idle, act := false, lo := 0, hi := 0, wm := 0, recVa := 0, guard := 0, one := none, cur := none,
    nrec := 0, gnext := 0, sec := 0, part := 0, quayBefore := 0, relFabric := none, froze := false, freezeSec := 0, fault := none,
    wrote := [], rel := [], rdReq := none }

/-- An idle core: no crew; every register at its reset value (R143, R144, R193, R194, R215, R347, R364, R365). -/
def Core.reset : Core :=
  { crew := none, leg := 0, origin := 0, contained := false,
    s := [], defer := [], p := 1, pc := 0, ctx := SecCtx.none, saved := SecCtx.none, wait := .none, retry := false,
    mcall := none, savedMcall := none, mcallFrom := 0, micro := [], mdir := [],
    mode := false, fpcr := 0, fpsr := 0, slip := 32, rrb := 0, mskdepth := 0, ccc := 0,
    specstat := 0xFFFFFFFF00000000, livemap := 0x400001000, livebits := BitVec.allOnes 1024, dlost := 0, qstat := 0,
    tvec := 0, tcause := 0, tpc := 0, topc := 0, titer := 0, taddr := 0, teng := 0, tsrc := 0, tstamp := 0, asid := 0,
    mcsw := 0, readyw := 0, watch := [], watchctl := [], saveptr := 0, tlog := 0, wseq := 0,
    tpcWritten := false, wskip := false,
    secFault := none, kept := none, asyncPeer := none, asyncWatch := [], owed := [],
    partNo := 0, secNo := 0, cur := none, parts := [], begun := [], q := [], fly := [], busy := [], lastBegin := 0, tok := [], tokRel := [],
    fmtq := [], outq := [], outcnt := 0, masks := [], mskip := 0, lrelSec := none, v := [], frames := [], view32 := 0, engw := [],
    chans := [], bars := 0, bufs := [], tlb := [], relFabric := none, answered := [], woken := false, leaving := false, marks := [], frozen := false }

/-- A team at reset: nothing claimed, no lease (R99, R120, R180). -/
def Team.reset : Team :=
  { owner := [], counts := [], landings := [], landed := [], lease := none, lrel := false, reqs := [], tlb := [], lastAsid := none }

/-- A die at reset: no root pointer enabled, ticks off (R63, R265). -/
def Die.reset : Die :=
  { roots := [], tickcfg := 0, tickno := 0, walks := [], wtlb := [], jobs := [] }

/-- An unused relay unit: GEN 0 at boot (R344). -/
def Relay.reset : Relay :=
  { gen := 0, st := .free, asid := 0, user := false, inst := 0, desc := 0, pages := [], slots := [], sp := 0, top := 0,
    faultLeg := 0, sweepNo := 0, sweepOn := false, sweepAt := 0, sweepTop := 0, need := [], cancelled := [], owed := [],
    ackSeen := [], work := [], outMsg := [] }

/-- An unused heat slot: GEN 0 at boot (R370). -/
def Heat.reset : Heat :=
  { gen := 0, live := false, key := 0, desc := 0, pages := [], openTag := 0, opened := 0, nrej := 0, members := [],
    contribs := [] }

/-- An unused graph slot. -/
def Graph.reset : Graph :=
  { gen := 0, live := false, gkey := 0, asid := 0, inst := 0, hdr := 0, ranks := [], steps := [], runs := [],
    started := [], used := [], seals := [], plan := [], gone := [] }

/-- No release. -/
def Msg.none : Msg := { agent := 0, scope := 0, k := [] }

/-- An unused pool entry (R250). -/
def Crew.reset : Crew :=
  { gen := 0, live := false, rcd := 0, tbl := 0, hasTbl := false, parent := none, host := false, det := false,
    depth := 0, limit := 8, stamp := 0, cls := 0, waitFrom := 0, cls0 := 0, order := 0, msg := Msg.none, legs := [], endMsgs := [],
    status := none, micro := [], mdir := [], spec := [], preempt := false, saved := [], savedViews := [], pool := none, vec := none, arrivals := [], live_ := [],
    disc := [], buf := [], exited := [], lost := [], killed := false }

/-- A firmware core at reset (log entry 4). -/
def FwCore.reset : FwCore :=
  { x := [], f := [], fcsr := 0, mie := 0, mscratch := 0, mcounteren := 0, mcycle := 0, minstret := 0, resv := none, pc := 0, machine := true, mstatus := 0, mepc := 0, mcause := 0, mtval := 0, mtvec := 0 }

/-- An agent's view at reset: nothing seen, nothing carried. -/
def View.reset : View := { floor := [], pinned := [], k := [], fences := [], seen := [] }

/-- A port at reset: not trained. -/
def Port.reset : Port := { up := false, lanes := 8, retries := 0 }

/-- An empty firmware slot (log entry 4). -/
def FwSlot.reset : FwSlot := { version := 0, image := [], signature := [] }

/-- SCOPETAB_n before discovery (R224): DEVS 1 everywhere; HOPS 255 and HOST at level 15. -/
def scopetabReset (n : Nat) : BitVec 64 :=
  if n = 15 then 0x1000001FF else 0x100

/-- The module right after reset: nothing in memory, no crew, every readiness bit 0, the boot event still to come
(R382, R384). -/
def State.reset : State :=
  { now := 0, gtc := 0, gtcBase := 0, count := 0, free := 0, forced := none, agenda := [], actor := 0,
    mem := [], hist := [], views := [], reqs := [], nextReq := 0, trouble := [], held := [], arrived := [], seqs := [], hostLines := [], snoops := [], cpLanded := [], scopetab := [], tdir := [], bias := [],
    staging := [], watchers := [],
    cores := [], teams := [], dies := [], crews := [], spec := [], specViol := [], nextRid := 0, relays := [],
    heats := [], graphs := [], fed := [],
    crbase := 0, crsize := 0, cpbase := 0, doorv := 0, cdone := 0, barMode := 0, vecs := [], pools := [], ready := 0,
    fw := [], fwMail := [], slots := [], runSlot := 0, fwChange := none, booted := false,
    doe := none, cfgs := [], spare := [], identity := none, certs := [], log := [],
    linkLanes := 0, ports := [], discovered := false, fabric := [], peers := [], portAt := some 0, repairs := [], corrected := [], retiring := [] }

end Sys2Proof.Machine
end

