-- ==== Sys2Proof/Machine/Ops.lean ====
section
/-! DEFINITION. The named operations on the state that every meaning is written with: accessors, the scalar registers and
predicates, time, source numbers, parts, the advance of the pacer, and taking an exception (R345–R348). -/
namespace Sys2Proof.Machine

/-- What a meaning computes in: a state, and a `Stop` that leaves the state as it was. -/
abbrev M := StateT State (Except Stop)

/-- A trap's code with TADDR, DETAIL and TENG. -/
def tr (code : Nat) (addr : Nat := 0) (detail : Nat := 0) (eng : Nat := 0) (src : Option Nat := none) : TrapInfo :=
  { code, addr, detail, eng, src }
/-- Stop with a precise trap (R35). -/
def trapM {α : Type} (code : Nat) (addr : Nat := 0) (detail : Nat := 0) (eng : Nat := 0) : M α :=
  fun _ => .error (.trap (tr code addr detail eng))
/-- Wait: the word is taken again. -/
def waitM {α : Type} : M α := fun _ => .error .wait
/-- Trap if a condition holds. -/
def trapIf (b : Bool) (code : Nat) (addr : Nat := 0) : M Unit := if b then trapM code addr else pure ()
/-- Wait unless a condition holds. -/
def waitUnless (b : Bool) : M Unit := if b then pure () else waitM

-- Trap codes (R346).
abbrev cILLOP : Nat := 0x01
abbrev cPRIV : Nat := 0x02
abbrev cALIGN : Nat := 0x03
abbrev cXLATE : Nat := 0x04
abbrev cPERM : Nat := 0x05
abbrev cATOMPERM : Nat := 0x06
abbrev cAPTBAD : Nat := 0x07
abbrev cQOVF : Nat := 0x08
abbrev cQUNF : Nat := 0x09
abbrev cTOKOVF : Nat := 0x0A
abbrev cTOKUNF : Nat := 0x0B
abbrev cFMTUNF : Nat := 0x0C
abbrev cFMTBAD : Nat := 0x0D
abbrev cSLOTFREE : Nat := 0x0E
abbrev cSLOTBUSY : Nat := 0x0F
abbrev cLEASELEN : Nat := 0x10
abbrev cSECFPE : Nat := 0x11
abbrev cDIVZ : Nat := 0x12
abbrev cDFUSE : Nat := 0x13
abbrev cLANDING : Nat := 0x14
abbrev cWATCH : Nat := 0x15
abbrev cBKPT : Nat := 0x16
abbrev cTRAPI : Nat := 0x17
abbrev cMSKOVF : Nat := 0x18
abbrev cMSKUNF : Nat := 0x19
abbrev cSECT : Nat := 0x1A
abbrev cLOOPBAD : Nat := 0x1B
abbrev cPEERLOST : Nat := 0x1C
abbrev cECCU : Nat := 0x1D
abbrev cPREEMPT : Nat := 0x1E
abbrev cRANGE : Nat := 0x1F

-- Accessors.

/-- Core `c`. -/
def State.core (s : State) (c : Nat) : Core := s.cores.get Core.reset c
/-- Replace core `c`. -/
def State.setCore (s : State) (c : Nat) (k : Core) : State := { s with cores := s.cores.upd c k }
/-- The core whose word is being executed. -/
def State.me (s : State) : Core := s.core s.actor
/-- Replace it. -/
def State.setMe (s : State) (k : Core) : State := s.setCore s.actor k
/-- Team `t` of the package. -/
def State.team (s : State) (t : Nat) : Team := s.teams.get Team.reset t
def State.setTeam (s : State) (t : Nat) (x : Team) : State := { s with teams := s.teams.upd t x }
/-- Die `d`. -/
def State.die (s : State) (d : Nat) : Die := s.dies.get Die.reset d
def State.setDie (s : State) (d : Nat) (x : Die) : State := { s with dies := s.dies.upd d x }
/-- Pool entry `e`: die × 256 + entry (R249, R250). -/
def State.crew (s : State) (e : Nat) : Crew := s.crews.get Crew.reset e
def State.setCrew (s : State) (e : Nat) (x : Crew) : State := { s with crews := s.crews.upd e x }
/-- Relay unit `u`: die × 4 + unit. -/
def State.relay (s : State) (u : Nat) : Relay := s.relays.get Relay.reset u
def State.setRelay (s : State) (u : Nat) (x : Relay) : State := { s with relays := s.relays.upd u x }
def State.heat (s : State) (h : Nat) : Heat := s.heats.get Heat.reset h
def State.setHeat (s : State) (h : Nat) (x : Heat) : State := { s with heats := s.heats.upd h x }
def State.graph (s : State) (g : Nat) : Graph := s.graphs.get Graph.reset g
def State.setGraph (s : State) (g : Nat) (x : Graph) : State := { s with graphs := s.graphs.upd g x }
def State.fwc (s : State) (k : Nat) : FwCore := s.fw.get FwCore.reset k
def State.setFwc (s : State) (k : Nat) (x : FwCore) : State := { s with fw := s.fw.upd k x }
/-- Channel `ch` of a core. -/
def Core.chan (c : Core) (ch : Nat) : Chan := c.chans.get Chan.reset ch
def Core.setChan (c : Core) (ch : Nat) (x : Chan) : Core := { c with chans := c.chans.upd ch x }
/-- Put steps on the agenda: they happen next, in this order. -/
def State.soon (s : State) (l : List Instr) : State := { s with agenda := s.agenda ++ l }

/-- Change the executing core. -/
def modMe (f : Core → Core) : M Unit := modify fun s => s.setMe (f s.me)
/-- The executing core. -/
def getMe : M Core := do return (← get).me

/-- An open choice (R390, R399): every call gives another value that nothing constrains. -/
def State.choice (s : State) : Nat × State := (Config.freeNat s.free, { s with free := s.free + 1 })

/-- `n` open values of `z` bytes. -/
def State.freeBytes (s : State) (n z : Nat) : List Nat × State :=
  ((List.range n).map fun i => Config.freeNat (s.free + i) % 2 ^ (8 * z), { s with free := s.free + n })

-- Coordinates and source numbers (R3, R5, R6).

def dieOf (c : Nat) : Nat := c / 80
def teamOf (c : Nat) : Nat := c / 4
/-- The source number of engine `e` of core `c`: 0 pacer, 1 VL, 2 VX, 3 VS, 4 MX, 5 CP (R5). -/
def srcOf (c e : Nat) : Nat := (c / 80) * 4096 + (c / 4 % 20) * 128 + (c % 4) * 32 + e * 4
/-- The source number of a die-level unit (R6). -/
def unitSrc (die team core eng : Nat) : Nat := die * 4096 + team * 128 + core * 32 + eng * 4
def quaySrc (d : Nat) : Nat := unitSrc d 31 0 6
def launchSrc (d : Nat) : Nat := unitSrc d 31 0 7
def walkerSrc (d : Nat) : Nat := unitSrc d 31 3 7
def heatSrc (d : Nat) : Nat := unitSrc d 30 0 6
def relaySrc (u : Nat) : Nat := unitSrc (u / 4) 29 (u % 4) 6
/-- The collective sequencer, 0x8200 (R290); firmware core k; the host. -/
def seqSrc : Nat := 0x8200
def fwSrc (k : Nat) : Nat := 0x8000 + k * 128
def hostSrc : Nat := 0xF000
/-- The core a pacer's or core engine's source number names. -/
def coreOfSrc (a : Nat) : Nat := (a / 4096 % 16) * 80 + (a / 128 % 32) * 4 + a / 32 % 4
/-- This device's number, from its configuration record (R383). -/
def State.dev (s : State) : Nat := match s.cfgs with | r :: _ => r.device | [] => Config.deviceNo
/-- The threshold of corrected errors of the configuration record in force (R383, R387). -/
def State.rowThreshold (s : State) : Nat := match s.cfgs with | r :: _ => r.threshold | [] => 0
/-- An extended source number (R8). -/
def State.ext (s : State) (src : Nat) : Nat := s.dev * 65536 + src

-- Arrivals at a unit (R8, R297, R315).

/-- May an arrival from an extended source be performed at a unit now? Arrivals with one stamp come by source: one that would come
after a higher source's reaches the unit later. -/
def State.mayArrive (s : State) (unit src : Nat) : Bool :=
  let l := s.arrived.get (0, 0) unit
  l.1 < s.gtc || (l.1 == s.gtc && l.2 ≤ src)
/-- An arrival is performed at a unit. -/
def State.arrive (s : State) (unit src : Nat) : State := { s with arrived := s.arrived.upd unit (s.gtc, src) }
/-- An event of the unit's own, at `stamp` or as soon after it as the unit's clock tells it from the arrivals before. -/
def State.ownArrival (s : State) (unit stamp : Nat) : State :=
  let l := s.arrived.get (0, 0) unit
  let at_ := if l.1 < stamp ∨ (l.1 = stamp ∧ l.2 ≤ unit) then stamp else if l.2 ≤ unit then l.1 else l.1 + 1
  { s with arrived := s.arrived.upd unit (at_, unit) }
/-- An arrival of a pacer's word at a unit: the word waits where another must come first. -/
def arriveM (unit : Nat) : M Unit := fun s =>
  let src := s.ext (srcOf s.actor 0)
  if s.mayArrive unit src then .ok ((), s.arrive unit src) else .error .wait

-- Scalar registers and predicates (R193, R194).

/-- The physical register that a name means under the window base SB of RRB. -/
def physS (rrb : BitVec 64) (r : SReg) : Nat :=
  if r.toNat < 48 then r.toNat else 48 + (r.toNat - 48 + fld rrb 8 4) % 16
/-- Read a physical register; s0 reads zero. -/
def Core.rdP (c : Core) (p : Nat) : Word := if p = 0 then 0 else c.s.get 0 p
/-- Read a named register. -/
def Core.rd (c : Core) (r : SReg) : Word := c.rdP (physS c.rrb r)
/-- Write a physical register: a write to s0 is discarded, any other clears the deferral. -/
def Core.wrP (c : Core) (p : Nat) (v : Word) : Core :=
  if p = 0 then c else { c with s := c.s.upd p v, defer := c.defer.del p }
/-- Write a named register. -/
def Core.wr (c : Core) (r : SReg) (v : Word) : Core := c.wrP (physS c.rrb r) v
/-- Does a physical register hold a deferred load (R193)? -/
def Core.isDef (c : Core) (p : Nat) : Bool := (c.defer.find p).isSome && p != 0
/-- A predicate; p0 reads 1. -/
def Core.pred (c : Core) (k : BitVec 3) : Bool := k == 0 || c.p.getLsbD k.toNat
/-- Write a predicate; a write to p0 is discarded. -/
def Core.setPred (c : Core) (k : BitVec 3) (b : Bool) : Core :=
  if k = 0 then c else { c with p := setFld c.p k.toNat 1 b.toNat }

-- Parts, words and the program counter (R12, R216, R219).

/-- The byte after the current section's last word. -/
def SecCtx.endAddr (x : SecCtx) : Nat := x.hdrAddr + 8 + 12 * x.hdr.len.toNat
/-- The word index of an address in the current section. -/
def SecCtx.index (x : SecCtx) (pc : Nat) : Nat := (pc - x.hdrAddr - 8) / 12
/-- The address of word `k` of the current section. -/
def SecCtx.wordAddr (x : SecCtx) (k : Nat) : Nat := x.hdrAddr + 8 + 12 * k

/-- Go to a word address; running past the section's last word reaches a header (R23). Where the parameter block of the last word runs
past the section's LEN words, the manual does not say where the next header stands: the model takes it directly after the block
(log entry 50). -/
def Core.goto (c : Core) (a : Nat) : Core :=
  { c with pc := a, ctx := { c.ctx with atHdr := decide (c.ctx.endAddr ≤ a) }, answered := [], mcallFrom := 0 }
/-- Go to a header. -/
def Core.gotoHdr (c : Core) (a : Nat) : Core := { c with pc := a, ctx := { c.ctx with atHdr := true }, answered := [], mcallFrom := 0 }

/-- Count one executed word toward slip (R219), a handler's too; a word that has ended its part was counted before that end (log
entry 12). -/
def Core.countWord (c : Core) : Core :=
  if c.retry then c else { c with parts := c.parts.map fun p => { p with since := p.since + 1 } }
/-- Is the pacer held by the slip limit (R219)? A handler runs beside the parts that are held until its ERET (R349, log entry 12). -/
def Core.slipHeld (c : Core) : Bool := !c.mode && c.parts.any fun p => c.slip ≤ p.since

/-- The part a word is in: opened by the first word after a part's end (R216). -/
def Core.openPart (c : Core) : Core :=
  match c.cur with
  | some _ => c
  | none =>
    let p : Part :=
      { id := c.partNo, sec := c.ctx.ord, first := false, hdr := c.ctx.hdr, hdrAddr := c.ctx.hdrAddr, since := 0,
        fmts := 0, vcmps := 0, mpops := 0, voqs := 0 }
    { c with cur := some p, partNo := c.partNo + 1 }
/-- End the current part, if one is open (R216). Handler sections have no parts that begin (R349). -/
def Core.endPart (c : Core) : Core :=
  match c.cur with
  | some p => { c with cur := none, parts := if c.ctx.handler then c.parts else c.parts ++ [p] }
  | none => c

/-- The length of an instruction's words in the stream: five with a parameter block, else one (R28). -/
def wordBytes : Instr → Nat
  | .vld _ true _ _ _ | .vst _ true _ _ _ | .cpone _ true _ _ _ _ _ _ _ => 60
  | _ => 12

/-- Move past the word just executed, or to the next operation of an MCALL (R32); count it. -/
def Core.advance (c : Core) (bytes : Nat) : Core :=
  let c := { c.countWord with retry := false, wskip := false, relFabric := none, answered := [] }
  match c.mcall with
  | some m =>
    if m.idx + 1 < m.count then { c with mcall := some { m with idx := m.idx + 1 } }
    else { c with mcall := none }.goto (c.pc + bytes)
  | none => c.goto (c.pc + bytes)

-- Taking an exception (R345–R348).

/-- TITER<63:56>: the MCALL operation that is being executed, or 0 (R32). -/
def Core.iter (c : Core) : Nat := match c.mcall with | some m => 0x80 + m.idx | none => 0

/-- The back-map entry of a residual program counter (R285, R286). -/
def State.backmap (s : State) (pc : Nat) : Option (Nat × BitVec 64) :=
  if pc < 2 ^ 63 then none else
  match s.spec.find? fun e => e.2.rid == nfld pc 32 31 with
  | some (_, e) => some (fld e.rcd 320 55, e.bmap.getD (nfld pc 0 32 / 4) 0)
  | none => none

/-- TOPC of a reported program counter (R286). -/
def State.topcOf (s : State) (pc : Nat) : BitVec 64 :=
  match s.backmap pc with
  | some (stream, b) => BitVec.ofNat 64 (stream + fld b 0 28)
  | none => BitVec.ofNat 64 pc

/-- TITER of a reported program counter (R286, R32). -/
def State.titerOf (s : State) (pc iter : Nat) : BitVec 64 :=
  match s.backmap pc with
  | some (_, b) =>
    BitVec.ofNat 64 (iter * 2 ^ 56 + (fld b 29 1) * 2 ^ 27 + (fld b 32 3) * 2 ^ 24 + (fld b 56 8) * 2 ^ 16 +
      (fld b 48 8) * 2 ^ 8 + fld b 40 8)
  | none => BitVec.ofNat 64 (iter * 2 ^ 56)

/-- Write the record CSRs (R347, R348): TCAUSE, TPC, TOPC, TITER, TADDR, TENG, TSRC, TSTAMP. -/
def State.record (s : State) (c : Nat) (t : TrapInfo) (tpc iter : Nat) (async : Bool) (stamp : Nat) : State :=
  let k := s.core c
  s.setCore c { k with
    tcause := BitVec.ofNat 64 (t.code + async.toNat * 256 + t.detail * 65536)
    tpc := BitVec.ofNat 64 tpc
    topc := s.topcOf tpc
    titer := s.titerOf tpc iter
    taddr := BitVec.ofNat 64 t.addr
    teng := BitVec.ofNat 64 t.eng
    tsrc := BitVec.ofNat 64 (t.src.getD (s.ext (srcOf c 0)))
    tstamp := BitVec.ofNat 64 stamp
    tpcWritten := false }

/-- Does a trap of core `c` go to a handler (R345)? -/
def Core.handles (c : Core) : Bool := c.tvec.getLsbD 0 && !c.mode

/-- Forget a cached translation whose checks failed (R69). -/
def dropTlb (asid va : Nat) (l : List Tlb) : List Tlb :=
  l.filter fun t => !(t.asid == asid && t.vpn == va / 2 ^ (16 + 13 * t.level))

/-- How many walks a die's walker runs at once (R67). -/
def walkSlots : Nat := 64

/-- The number of bytes below a level's index (R58). -/
def levelShift (level : Nat) : Nat := 16 + 13 * level

/-- Is a miss for the page, or the block, that a walk is for, in the same context (R67)? -/
def Walk.samePage (w x : Walk) : Bool := w.asid == x.asid && w.va / 2 ^ levelShift w.level == x.va / 2 ^ levelShift w.level

/-- Free slots go to the waiting misses in (stamp, source) order; a miss that a walk in progress matches joins that walk and takes
no slot (R67). The first argument bounds how many slots are given. -/
def grantSlots : Nat → List Walk → List Walk
  | 0, l => l
  | n + 1, l =>
    let held := l.filter fun w => w.slot
    let rest := l.filter fun w => !w.slot && w.out.isNone && !held.any w.samePage
    let before (x w : Walk) : Bool := x.stamp < w.stamp || (x.stamp == w.stamp && x.src < w.src)
    if walkSlots ≤ held.length then l
    else
      match rest.find? fun w => !rest.any fun x => before x w with
      | some w => grantSlots n (l.map fun x => if x = w then { x with slot := true } else x)
      | none => l

/-- Replace a die's misses, and give the slots that are free. -/
def State.setWalks (s : State) (d : Nat) (l : List Walk) : State :=
  s.setDie d { s.die d with walks := grantSlots walkSlots l }

/-- Is it the same access's miss? -/
def Walk.sameAsk (w x : Walk) : Bool :=
  w.src == x.src && w.asid == x.asid && w.va == x.va && w.acc == x.acc && w.user == x.user

/-- A miss reaches the die's walker, once (R67). -/
def State.askWalk (s : State) (w : Walk) : State :=
  let l := (s.die (dieOf w.core)).walks
  if l.any w.sameAsk then s else s.setWalks (dieOf w.core) (l ++ [w])

/-- The misses of one source are over: a retried access walks again (R69). -/
def State.endWalks (s : State) (c src : Nat) : State :=
  let l := (s.die (dieOf c)).walks
  if l.any fun w => w.src == src then s.setWalks (dieOf c) (l.filter fun w => w.src != src) else s

/-- Drop from the core, team and walker caches the translation that a failed check used, and end the pacer's misses (R69). -/
def State.dropFailed (s : State) (c va : Nat) : State :=
  let k := s.core c
  let s := s.setCore c { k with tlb := dropTlb k.asid va k.tlb }
  let t := s.team (teamOf c)
  let s := s.setTeam (teamOf c) { t with tlb := dropTlb k.asid va t.tlb }
  let d := s.die (dieOf c)
  (s.setDie (dieOf c) { d with wtlb := dropTlb k.asid va d.wtlb }).endWalks c (srcOf c 0)

/-- A read or an atomic of a pacer in flight: the word that the pacer is at waits for its answer. -/
def Req.asks (r : Req) (c : Nat) : Bool :=
  r.core == c && r.chan.isNone && (match r.kind with | .write _ | .line _ _ => false | _ => true)

-- Accesses in flight (R356).

/-- Quay elements of a core on their way, in its operand log (R115, R356). -/
def State.quayCount (s : State) (c : Nat) : Nat :=
  ((s.die (dieOf c)).jobs.filter fun j => j.core == c && j.entry.isSome).length
/-- Accesses of a core in its operand log. -/
def State.logCount (s : State) (c : Nat) : Nat := (s.reqs.filter fun r => r.core == c).length + s.quayCount c

/-- Put an access in flight, under the next tag of its source (R242); the request's number is `s.nextReq`. -/
def State.issue (s : State) (r : Req) : State :=
  let q := s.seqs.get 0 r.agent
  { s with
    reqs := s.reqs ++ [{ r with id := s.nextReq, tag := s.ext r.agent * 2 ^ 32 + q }], nextReq := s.nextReq + 1,
    seqs := s.seqs.upd r.agent ((q + 1) % 2 ^ 32) }

/-- A request, by number. -/
def State.req (s : State) (id : Nat) : Option Req := s.reqs.find? fun r => r.id == id
def State.setReq (s : State) (r : Req) : State :=
  { s with reqs := s.reqs.map fun x => if x.id = r.id then r else x }
def State.dropReq (s : State) (id : Nat) : State := { s with reqs := s.reqs.filter fun r => r.id != id }

/-- Has the request not yet been performed? -/
def Req.pending (r : Req) : Bool := r.phase == .sent || r.phase == .snoop || r.phase == .held || r.phase == .partly
/-- Does the request write? -/
def Req.writes (r : Req) : Bool := match r.kind with | .read => false | _ => true

/-- An access of agent `a` of core `c` at a target: not posted, of no copy channel, making no release. -/
def reqAt (c a : Nat) (kind : ReqKind) (t : Target) (size va : Nat) (ordinary : Bool) : Req :=
  { id := 0, core := c, agent := a, kind := kind, key := t.key, size := size, va := va, apt := t.apt, ordinary := ordinary,
    posted := false, devBias := bit t.leaf 11, snooped := false, cp := fld t.leaf 12 2, chan := none, acq := false, sec := 0, tag := 0,
    rels := [], ar := none, phase := .sent, heldAt := 0, crc := (0, 0), tries := 0, old := 0, msgs := [] }

/-- Accesses of a core that are still in flight: all but the reads whose answers have come. -/
def State.logBusy (s : State) (c : Nat) : Nat :=
  (s.reqs.filter fun r => r.core == c && (r.pending || r.writes)).length + s.quayCount c

/-- The ordinary reads of some runs of bytes go in flight as the operand log has room (R356). -/
def State.issueReads (s : State) (c : Nat) (l : List (Nat × Nat × Target)) : State :=
  l.foldl (fun s p =>
    if 256 ≤ s.logBusy c then s else s.issue (reqAt c (srcOf c 0) .read p.2.2 p.2.1 p.1 true)) s

/-- Ask the host about lines that agent `a` is to access, for a core's word or for a step of a unit, once for each (R72). -/
def State.askSnoops (s : State) (core : Option Nat) (a : Nat) (lines : List Nat) : State :=
  lines.foldl (fun s l =>
    if s.snoops.any fun x => x.agent == a && x.core == core && x.line == l then s
    else { s with
      snoops := s.snoops ++ [{ id := s.nextReq, agent := a, core := core, line := l, done := false }],
      nextReq := s.nextReq + 1 }) s

/-- The one way a trap is taken (R345): the record is written, MCSW.PMODE takes the mode and the mode becomes 1, the
current part ends, and the pacer waits for the entries that drain (TRAP_HANDLER_ENTRY then goes to TVEC). With TVEC.EN = 0
or MODE = 1 the pacer is contained instead. `send` names the faulting section of a section-end trap; a section-end fault that is
pending when another trap is taken is kept (R350). -/
def State.takeTrap (s : State) (c : Nat) (t : TrapInfo) (tpc iter : Nat) (async : Bool) (send : Option Nat)
    (stamp : Nat) : State :=
  let s := s.dropFailed c t.addr
  let k := s.core c
  if k.handles then
    let s := { s with reqs := s.reqs.filter fun r => !r.asks c, snoops := s.snoops.filter fun x => x.core != some c }
    let s := s.record c t tpc iter async stamp
    let k := s.core c
    s.setCore c { k.endPart with
      mcsw := setFld (setFld k.mcsw 0 1 k.mode.toNat) 1 1 send.isSome.toNat
      mode := true
      saved := k.ctx
      savedMcall := k.mcall
      mcall := none
      mcallFrom := 0
      secFault := if send.isSome then k.secFault else none
      kept := if send.isSome then k.kept else k.kept.or k.secFault
      retry := false
      relFabric := none
      answered := []
      woken := false
      wait := .drain send }
  else { s with agenda := .containment c t.code :: s.agenda }

/-- A precise trap at the pacer's current word (R348): TRAPI and BKPT report the word after, but in an MCALL's expansion the MCALL word
(R32, log entry 16). -/
def State.preciseTrap (s : State) (c : Nat) (t : TrapInfo) : State :=
  let k := s.core c
  let tpc := if (t.code = cTRAPI ∨ t.code = cBKPT) ∧ k.mcall.isNone then k.pc + 12 else k.pc
  s.takeTrap c t tpc k.iter false none s.gtc

/-- What a meaning's end means for the machine. -/
def State.finish (s0 : State) (c : Nat) : Except Stop (Unit × State) → Host.Outcome State Fault Refusal
  | .ok (_, s) => .next s
  | .error (.trap t) => .next (s0.preciseTrap c t)
  | .error (.chan ch t) =>
    let k := s0.core c
    .next ((s0.setCore c (k.setChan ch { k.chan ch with fault := none, froze := false })).preciseTrap c t)
  | .error .wait => .next s0
  | .error (.walk w) => .next (s0.askWalk w)
  | .error .relWait =>
    let k := s0.core c
    .next (s0.setCore c { k with relFabric := some (k.relFabric.getD s0.fabric) })
  | .error (.reads l) => .next (s0.issueReads c l)
  | .error (.snoop a lines) => .next (s0.askSnoops (some c) a lines)
  | .error (.peerLost va src) => .next (s0.setCore c { s0.core c with asyncPeer := some (va, src) })
  | .error (.fault f) => .fault f
  | .error (.refuse r) => .refused r

/-- Where a word leaves the pacer. -/
inductive Flow where
  /-- at the next word -/
  | seq
  /-- where the meaning has put it, or stalled on what the meaning has set -/
  | set
  deriving DecidableEq, Repr

/-- The first source register with a deferred load (R212), as a physical register number. -/
def Core.firstDef (c : Core) (srcs : List SReg) : Option Nat :=
  (srcs.map (physS c.rrb)).find? c.isDef

/-- The state in which a word's own effect happens: its part is open, or, for a word that waits on engines or channels, counted
and ended (R216, R219); a word taken again has been through this. -/
def State.entered (s : State) (ends : Bool) : State :=
  if s.me.retry then s
  else s.setMe (if ends then { s.me.openPart.countWord.endPart with retry := true } else s.me.openPart)

/-- A word whose predicate is false: it takes its place in its part and has no other effect (R14). -/
def State.skipped (s : State) (bytes : Nat) (ends : Bool) : State :=
  let k := (if s.me.retry then s.me else s.me.openPart).advance bytes
  s.setMe (if ends then { k.endPart with retry := false } else k)

/-- Execute one word of the pacer (R14, R18, R195, R202, R212, R219): the slip limit, the predicate, the end of the part
for a word that waits on engines or channels, deferred sources, then the word's own effect, and the advance. So DFUSE comes before a
channel's pending fault, which the effect itself takes (R94, log entry 51). -/
def pacerWord (n : Ann) (bytes : Nat) (srcs : List SReg) (ends : Bool) (body : M Flow) (s : State) :
    Host.Outcome State Fault Refusal :=
  if s.me.slipHeld && !s.me.retry then .next s
  else if !s.me.pred n.pr then .next (s.skipped bytes ends)
  else
    let s := s.entered ends
    match s.me.firstDef srcs with
    | some p => .next (s.preciseTrap s.actor (tr cDFUSE p))
    | none =>
      match body s with
      | .ok (.seq, s') => .next (s'.setMe (s'.me.advance bytes))
      | .ok (.set, s') => .next s'
      | .error e => s.finish s.actor (.error e)

/-- A step that is no word of a stream. -/
def event (body : M Unit) (s : State) : Host.Outcome State Fault Refusal :=
  match body s with
  | .ok (_, s') => .next s'
  | .error (.fault f) => .fault f
  | .error (.refuse r) => .refused r
  | .error _ => .next s

/-- The word a stalled pacer waited at is complete: `s[D] := v`, and the pacer goes on (R195). -/
def Core.complete (c : Core) (d : Nat) (v : Word) : Core := { c.wrP d v with wait := .none }.advance 12

-- The error and attestation log (R385).

/-- Records the log holds. -/
def logSize : Nat := 4096
/-- A log record. -/
def logRecord (stamp src type cause detail : Nat) : BitVec 512 :=
  BitVec.ofNat 512 (stamp + src % 2 ^ 28 * 2 ^ 64 + type * 2 ^ 92 + cause % 256 * 2 ^ 100 + detail % 2 ^ 128 * 2 ^ 128)
/-- Does a record come before another, or stand with it, by (stamp, source) (R8)? -/
def logBefore (x r : BitVec 512) : Bool := fld x 0 64 < fld r 0 64 || (fld x 0 64 == fld r 0 64 && fld x 64 28 ≤ fld r 64 28)
/-- Add a record in (stamp, source) order (R8); when the ring is full the oldest is overwritten. -/
def State.logPut (s : State) (r : BitVec 512) : State :=
  let l := s.log.takeWhile (logBefore · r) ++ r :: s.log.dropWhile (logBefore · r)
  { s with log := l.drop (l.length - logSize) }

end Sys2Proof.Machine
end

