-- ==== Sys2Proof/Machine/Operands.lean ====
section
/-! DEFINITION. The operand forms of pacer words (R13, R19, R25, R49, R196, R208): operand b, addresses, branch targets, and
the scalar registers each form reads. -/
namespace Sys2Proof.Machine

/-- Operand b: s[B], or IMM sign-extended (R196). -/
def Core.srcB (c : Core) : SrcB → Word
  | .reg r => c.rd r
  | .imm x => sext64 x
/-- The registers operand b reads. -/
def srcRegs : SrcB → List SReg
  | .reg r => [r]
  | .imm _ => []
/-- s[A] + SignExtend64(IMM), modulo 2^64 (R209). -/
def Core.effAddr (c : Core) (a : SReg) (imm : BitVec 32) : Word := c.rd a + sext64 imm

/-- Bytes of a width code (R208). -/
def widthBytes : Width → Nat
  | .n8 | .i8 => 1
  | .n16 | .i16 => 2
  | .n32 | .i32 => 4
  | .d64 => 8
/-- A loaded value extended as its width code says (R209). -/
def widthExtend (w : Width) (x : Nat) : Word :=
  match w with
  | .n8 | .n16 | .n32 | .d64 => BitVec.ofNat 64 x
  | .i8 => (BitVec.ofNat 8 x).signExtend 64
  | .i16 => (BitVec.ofNat 16 x).signExtend 64
  | .i32 => (BitVec.ofNat 32 x).signExtend 64

/-- A byte distance from the branch word to a header (R49), in the 64-bit program counter. -/
def Core.hdrTarget (c : Core) (imm : BitVec 32) : Nat := (BitVec.ofNat 64 c.pc + sext64 imm).toNat

/-- Go to word `k` of the current section, or trap SECT (R25). -/
def gotoWord (k : Int) : M Flow := fun s =>
  let c := s.me
  if k < 0 ∨ (c.ctx.hdr.len.toNat : Int) ≤ k then
    .error (.trap (tr cSECT (BitVec.ofInt 64 (c.ctx.hdrAddr + 8 + 12 * k)).toNat))
  else
    .ok (.set, s.setMe ({ c.countWord with mcall := none, retry := false, wskip := false }.goto
      (c.ctx.wordAddr k.toNat)))

/-- Leave the section for the header at `a` (R25, R216): the current part ends. The header is checked on arrival. -/
def gotoHeader (a : Nat) : M Flow := fun s =>
  let c := s.me
  .ok (.set, s.setMe ({ c.countWord.endPart with mcall := none, retry := false, wskip := false }.gotoHdr a))

/-- A branch form: word `imm` of the section, or the header at that byte distance (R25, R49, R199). -/
def branchTo (hdr : Bool) (imm : BitVec 32) : M Flow := fun s =>
  if hdr then gotoHeader (s.me.hdrTarget imm) s else gotoWord imm.toInt s

end Sys2Proof.Machine
end

