-- ==== Sys2Proof/Machine/Flags.lean ====
section
/-! DEFINITION. Conditions and flag sets: PSET's and WAITA's conditions (R198, R236), PLOG (R198), stage predicates (R201),
and the floating-point flags as a 5-bit set NV, DZ, OF, UF, NX from bit 0 (R144). -/
namespace Sys2Proof.Machine

/-- PSET's conditions on n-bit values (R198). -/
def condHolds {n : Nat} (c : PCond) (a b : BitVec n) : Bool :=
  match c with
  | .eq => a == b
  | .ne => a != b
  | .lt => a.slt b
  | .ge => !a.slt b
  | .ltn => a.ult b
  | .gen => !a.ult b
  | .tst => (a &&& b) != 0
  | .ntst => (a &&& b) == 0

/-- A condition under the W bit: 32-bit or 64-bit (R196, R198, R236). -/
def condW (w : Bool) (c : PCond) (a b : Word) : Bool :=
  if w then condHolds c (a.setWidth 32) (b.setWidth 32) else condHolds c a b

/-- PLOG's operations (R198). -/
def plogOp (op : PLop) (a b : Bool) : Bool :=
  match op with
  | .pand => a && b
  | .por => a || b
  | .pxor => a ^^ b
  | .pandn => a && !b
  | .porn => a || !b
  | .pnand => !(a && b)
  | .pnor => !(a || b)
  | .pxnor => !(a ^^ b)

/-- Stage predicates p4–p7 from the pass index and the trip count (R201). -/
def Core.stage (c : Core) (i t : Int) : Core :=
  let on (j : Int) : Bool := decide (0 ≤ i - (j - 1) ∧ i - (j - 1) < t)
  (((c.setPred 4 (on 1)).setPred 5 (on 2)).setPred 6 (on 3)).setPred 7 (on 4)

-- Floating-point flag sets (R144).
abbrev fNV : Nat := 1
abbrev fDZ : Nat := 2
abbrev fOF : Nat := 4
abbrev fUF : Nat := 8
abbrev fNX : Nat := 16

/-- A flag set as it stands in an accumulator entry or QSTAT: NV, OF, UF, NX from bit 0 (R116, R132). -/
def flags4 (f : Nat) : Nat := nfld f 0 1 + nfld f 2 3 * 2
/-- The enables of FPCR as a flag set (R143). -/
def enables (fpcr : BitVec 64) : Nat := fld fpcr 4 5
/-- A flag set as DETAIL holds it: NV lowest, as in FPSR (R144, R347, log entry 11). -/
def flags5 (f : Nat) : Nat := f % 2 ^ 5

end Sys2Proof.Machine
end

