-- ==== Sys2Proof/Machine/Mem.lean ====
section
/-! DEFINITION. Main memory: translation and its checks (R58–R72), home sequences, views, releases and acquires (R222–R230),
accesses in flight (R356), watchpoints (R238, R354, R355). -/
namespace Sys2Proof.Machine

-- Leaf entries and checks (R59–R66).

def lV (e : BitVec 64) : Bool := bit e 0
def lR (e : BitVec 64) : Bool := bit e 1
def lW (e : BitVec 64) : Bool := bit e 2
def lX (e : BitVec 64) : Bool := bit e 3
def lU (e : BitVec 64) : Bool := bit e 4
def lApt (e : BitVec 64) : Nat := fld e 5 3
def lRap (e : BitVec 64) : Bool := bit e 8
def lA (e : BitVec 64) : Bool := bit e 9
def lD (e : BitVec 64) : Bool := bit e 10
def lBias (e : BitVec 64) : Bool := bit e 11
def lCp (e : BitVec 64) : Nat := fld e 12 2
def lPfn (e : BitVec 64) : Nat := fld e 16 36
def lPeer (e : BitVec 64) : Nat := fld e 52 12

/-- R60: is a leaf of a level well formed? -/
def leafOk (level : Nat) (e : BitVec 64) : Bool :=
  let apt := lApt e
  fld e 14 2 == 0 && !(lW e && !lR e) && !(lX e && apt ≥ 2) && !(lRap e && apt != 3) &&
    !(lCp e != 0 && apt != 2 && apt != 3) && !(lPeer e != 0 && apt != 3) && !(lBias e && apt != 0) && lCp e != 3 &&
    !(level == 1 && fld e 16 13 != 0) && !(level == 2 && fld e 16 26 != 0)

/-- Is a physical address in a table region (R64)? -/
def inTables (pa : Nat) : Bool := pa < 2 ^ 39 && pa % 2 ^ 36 ≥ 0xFFC000000

/-- R59: is a pointer entry well formed? -/
def ptrOk (e : BitVec 64) : Bool := fld e 4 12 == 0 && fld e 52 12 == 0 && inTables (lPfn e * 65536)

/-- The physical address a leaf gives (R61). -/
def leafPa (level : Nat) (e : BitVec 64) (va : Nat) : Nat := lPfn e * 65536 + va % 2 ^ levelShift level

/-- The HBM byte of a physical address in either view, as a local-view address (R61, R62). -/
def hbmLocal (pa : Nat) : Nat :=
  if pa < 2 ^ 39 then pa else nfld pa 8 3 * 2 ^ 36 + nfld pa 11 28 * 256 + nfld pa 0 8

/-- The storage key of a physical address in an aperture (R61). -/
def aptKey (apt peer pa : Nat) : Nat :=
  match apt with
  | 0 => kHbm (hbmLocal pa)
  | 1 => kBulk pa
  | 2 => kHost pa
  | 3 => kPeer peer (if nfld pa 40 12 = 0 then hbmLocal pa else pa)
  | _ => kQuay pa

/-- Is the physical address behind a peer's key valid in its aperture there (R61, R397)? -/
def peerValid (key : Nat) : Bool :=
  let pa := (key - 3 * spaceSize) % 2 ^ 52
  match nfld pa 48 4 with
  | 0 | 1 => nfld pa 0 48 < 2 ^ 40
  | _ => nfld pa 0 48 < 2 ^ 29

/-- Does a leaf map the consecutive 256-byte blocks of an address's page to different stacks: is the page in an interleaved view (R61,
R62)? -/
def leafSpread (level : Nat) (e : BitVec 64) (va : Nat) : Bool :=
  let pa := leafPa level e va
  (lApt e == 0 || (lApt e == 3 && nfld pa 48 4 == 0)) && nfld pa 39 9 == 1

/-- Is a peer a device that discovery has found (R61)? -/
def State.knows (s : State) (dev : Nat) : Bool := s.discovered && s.peers.contains dev

/-- The device behind a peer's key. -/
def peerOf (key : Nat) : Nat := (key - 3 * spaceSize) / 2 ^ 52
/-- Is there a path to what a key names: for a peer, is it in the fabric's graph, and is a port in service (R380, R386)? -/
def State.reaches (s : State) (key : Nat) : Bool :=
  kSpace key != 3 ||
    ((s.fabric.any fun d => d.1 == peerOf key) &&
      (List.range 24).any fun p => (s.ports.get Port.reset p).up && s.ready.getLsbD (688 + p))

/-- R65 steps 3 to 6 on a well-formed leaf: the trap code of the first check that fails. -/
def leafCheck (s : State) (level : Nat) (e : BitVec 64) (va : Nat) (a : Acc) (user : Bool) : Option Nat :=
  let apt := lApt e
  let pa := leafPa level e va
  let top := nfld pa 48 4
  if apt ≥ 5 || (apt == 3 && (!(top == 0 || top == 1 || top == 4) || lPeer e == s.dev || !s.knows (lPeer e))) then
    some cAPTBAD
  else if (apt == 0 && pa ≥ 2 ^ 40) || (apt == 1 && pa ≥ 2 ^ 40) || (apt == 4 && pa ≥ 2 ^ 29) then some cXLATE
  else
    let perm := match a with
      | .rd => lR e
      | .wr => lW e
      | .atomic => lR e && lW e
      | .fetch => lX e
    if !perm || (user && !lU e) || (!user && a == .fetch && lU e) then some cPERM
    else if a == .atomic && apt == 3 && !lRap e then some cATOMPERM
    else none

/-- What a walk finds: the leaf's level, the leaf, its address, and the table lines read. -/
structure Found where
  level : Nat
  leaf : BitVec 64
  addr : Nat
  lines : List Nat
  deriving DecidableEq, Repr

/-- A table entry, read at its home through the local view (R64, R67). -/
def State.entry (s : State) (addr : Nat) : BitVec 64 := BitVec.ofNat 64 (s.mem.getNat (kHbm addr) 8)

/-- The addresses of the table entries that a walk reads, root first, whatever it finds (R58, R59). -/
def State.walkReads (s : State) (d asid va : Nat) : List Nat :=
  let root := (s.die d).roots.get 0 asid
  let next (e : BitVec 64) : Bool := lV e && !(lR e || lW e || lX e) && ptrOk e
  if va ≥ 2 ^ 55 || !bit root 0 then []
  else
    let a2 := fld root 16 36 * 65536 + 8 * nfld va 42 13
    let e2 := s.entry a2
    if !next e2 then [a2]
    else
      let a1 := lPfn e2 * 65536 + 8 * nfld va 29 13
      let e1 := s.entry a1
      if !next e1 then [a2, a1] else [a2, a1, lPfn e1 * 65536 + 8 * nfld va 16 13]

/-- The walk of R58 and R59, root first; a trap code where an entry is invalid or malformed. -/
def State.walkTables (s : State) (d asid va : Nat) : Except Nat Found :=
  let root := (s.die d).roots.get 0 asid
  if va ≥ 2 ^ 55 || !bit root 0 then .error cXLATE
  else
    let a2 := fld root 16 36 * 65536 + 8 * nfld va 42 13
    let e2 := s.entry a2
    if !lV e2 then .error cXLATE
    else if lR e2 || lW e2 || lX e2 then
      if leafOk 2 e2 then .ok { level := 2, leaf := e2, addr := a2, lines := [a2 / 64] } else .error cXLATE
    else if !ptrOk e2 then .error cXLATE
    else
      let a1 := lPfn e2 * 65536 + 8 * nfld va 29 13
      let e1 := s.entry a1
      if !lV e1 then .error cXLATE
      else if lR e1 || lW e1 || lX e1 then
        if leafOk 1 e1 then .ok { level := 1, leaf := e1, addr := a1, lines := [a2 / 64, a1 / 64] } else .error cXLATE
      else if !ptrOk e1 then .error cXLATE
      else
        let a0 := lPfn e1 * 65536 + 8 * nfld va 16 13
        let e0 := s.entry a0
        if lV e0 && (lR e0 || lW e0 || lX e0) && leafOk 0 e0 then
          .ok { level := 0, leaf := e0, addr := a0, lines := [a2 / 64, a1 / 64, a0 / 64] }
        else .error cXLATE

-- Views (R225–R228).

/-- An agent's view. -/
def State.view (s : State) (a : Nat) : View := s.views.get View.reset a
def State.setView (s : State) (a : Nat) (v : View) : State := { s with views := s.views.upd a v }

/-- A word's home sequence; before its first recorded write it holds what memory holds. -/
def State.wordHist (s : State) (w : Nat) : WordHist :=
  match s.hist.find w with
  | some h => h
  | none => { init := s.mem.getNat (8 * w) 8, ws := [] }

/-- The word's value at a position of its home sequence. -/
def WordHist.val (h : WordHist) (i : Nat) : Nat :=
  if i = 0 then h.init else match h.ws[i - 1]? with | some x => x.val | none => h.init
/-- The releases of the writes, newest first, that last wrote one of some bytes of their word. -/
def lastMsgs : List HWrite → List Nat → List Msg
  | [], _ => []
  | x :: l, bs =>
    let own (j : Nat) : Bool := x.off ≤ j && j < x.off + x.size
    if bs.isEmpty then [] else (if bs.any own then x.msgs else []) ++ lastMsgs l (bs.filter fun j => !own j)
/-- The releases that a read of `size` bytes at `off`, of the value at a position, may synchronise with: those of the latest write of
each of the bytes (R227, log entry 41). -/
def WordHist.msgs (h : WordHist) (i off size : Nat) : List Msg :=
  lastMsgs (h.ws.take i).reverse ((List.range size).map (off + ·))

/-- Raise the floor of a word (R225): a floor that rises past the value last returned ends its phase. -/
def View.raise (v : View) (w i : Nat) : View :=
  if v.floor.get 0 w < i then { v with floor := v.floor.upd w i, pinned := v.pinned.filter fun x => x != w } else v
/-- Put a write into the carried set (R228). -/
def View.carry (v : View) (w i : Nat) : View := if v.k.get 0 w < i then { v with k := v.k.upd w i } else v
/-- Raise every floor to what a release carries, and carry it on (R227, R228). -/
def View.join (v : View) (k : KMap) : View := k.foldl (fun v e => (v.raise e.1 e.2).carry e.1 e.2) v
/-- Join two carried sets. -/
def kJoin (a b : KMap) : KMap := b.foldl (fun m e => if m.get 0 e.1 < e.2 then m.upd e.1 e.2 else m) a

/-- Does scope `n`, read from agent `a`, cover agent `b` (R223)? -/
def covers (n a b : Nat) : Bool :=
  let onCore (x : Nat) : Bool := x / 4096 < 8 && x / 128 % 32 < 20
  if n = 0 then a == b || (onCore a && onCore b && a / 32 == b / 32)
  else if n = 1 then a == b || (onCore a && onCore b && a / 128 == b / 128)
  else if n = 2 then a == b || (a / 4096 == b / 4096 && a / 4096 ≠ 15)
  else if n < 15 then a / 4096 ≠ 15 && b / 4096 ≠ 15
  else true

/-- The scope an agent's own accesses are at: the host's are always at 15 (R223). -/
def scopeAt (a n : Nat) : Nat := if a = hostSrc then 15 else n

/-- Does scope `n` cover a peer device, in a fabric (R223, R224)? -/
def coversDev (fabric : List (Nat × Nat)) (n dev : Nat) : Bool :=
  fabric.any fun d => d.1 == dev && (n == 15 || (4 ≤ n && d.2 ≤ n - 3))

/-- May a release at scope `n`, issued under a fabric, carry a write of word `w` (R228)? -/
def carriesIn (fabric : List (Nat × Nat)) (n w : Nat) : Bool :=
  let k := 8 * w
  if kSpace k = 2 then n == 15
  else if kSpace k = 3 then coversDev fabric n (peerOf k)
  else true

/-- The fabric that a release of agent `a` goes by: the one that stood when it was issued, where it is a pacer's that waits (R223,
R380). -/
def State.fabricFor (s : State) (a : Nat) : List (Nat × Nat) :=
  if a / 4096 < 8 ∧ a / 128 % 32 < 20 ∧ a / 4 % 8 = 0 then (s.core (coreOfSrc a)).relFabric.getD s.fabric else s.fabric

/-- The part of a carried set that a release of agent `a` at scope `n` carries (R228). -/
def State.carried (s : State) (a n : Nat) (k : KMap) : KMap := k.filter fun e => carriesIn (s.fabricFor a) (scopeAt a n) e.1

/-- The release agent `a` makes at scope `n` now: what it carries (R228). -/
def State.release (s : State) (a n : Nat) : Msg :=
  { agent := a, scope := scopeAt a n, k := s.carried a n (s.view a).k }

/-- The releases that a scoped write of `a` makes: its own at scope `n`, and those of earlier release fences (R235). -/
def State.relMsgs (s : State) (a : Nat) (own : Option Nat) : List Msg :=
  (match own with | some n => [s.release a n] | none => []) ++
  (s.view a).fences.map fun f => { agent := a, scope := f.1, k := f.2 }

/-- Agent `b` acquires at scope `n` from the releases it may synchronise with (R227). -/
def State.acquire (s : State) (b n : Nat) (msgs : List Msg) : State :=
  let ms := msgs.filter fun m => covers m.scope m.agent b && covers (scopeAt b n) b m.agent
  if ms.isEmpty then s else s.setView b (ms.foldl (fun v m => v.join m.k) (s.view b))

-- Purges and home steps (R63, R70, R222).

/-- A walk's failure as a cached translation would be tagged. -/
def Walk.tlb (w : Walk) (lines : List Nat) : Tlb := { asid := w.asid, level := 0, vpn := w.va / 65536, leaf := 0, lines := lines }

/-- Drop cached translations on a die, and the failures of walks that no access has yet taken: it walks again (R69, R70). -/
def State.purge (s : State) (d : Nat) (drop : Tlb → Bool) : State :=
  let f (l : List Tlb) : List Tlb := l.filter fun t => !drop t
  let stale (w : Walk) : Bool := match w.out with | some o => drop (w.tlb o.2) | none => false
  let s := if (s.die d).walks.any stale then s.setWalks d ((s.die d).walks.filter fun w => !stale w) else s
  let x := s.die d
  { s with
    cores := s.cores.map fun e => if dieOf e.1 = d then (e.1, { e.2 with tlb := f e.2.tlb }) else e
    teams := s.teams.map fun e => if e.1 / 20 = d then (e.1, { e.2 with tlb := f e.2.tlb }) else e
    dies := if x.wtlb.isEmpty then s.dies else s.dies.upd d { x with wtlb := f x.wtlb } }

/-- The directory's purge for a write to a table line (R70). -/
def State.purgeLine (s : State) (key : Nat) : State :=
  let line := key / 64
  match s.tdir.find line with
  | some ds =>
    let s := ds.foldl (fun s d => s.purge d fun t => t.lines.contains line) s
    { s with tdir := s.tdir.del line }
  | none => s

/-- One step of a word's home that writes `size` bytes at `key` within one aligned word: the table-line purge first, then
the byte storage, the home sequence, and the writer's own floor and carried set (R70, R222, R225, R228). -/
def State.homeWord (s : State) (agent key size v : Nat) (atomic : Bool) (rels : List Msg) : State :=
  let s := if kSpace key = 0 then s.purgeLine key else s
  let w := key / 8
  let h := s.wordHist w
  let mem := s.mem.setNat key size v
  let x : HWrite :=
    { val := mem.getNat (8 * w) 8, off := key % 8, size := size, agent := agent, atomic := atomic,
      msgs := (if atomic then (match h.ws.getLast? with | some x => x.msgs | none => []) else []) ++ rels }
  let i := h.ws.length + 1
  let s := { s with mem := mem, hist := s.hist.upd w { h with ws := h.ws ++ [x] } }
  s.setView agent (((s.view agent).raise w i).carry w i)

/-- Split an access into one piece for each aligned word it touches: key, offset into the data, bytes (R222). -/
def pieces : Nat → Nat → Nat → Nat → List (Nat × Nat × Nat)
  | 0, _, _, _ => []
  | fuel + 1, key, off, size =>
    if size = 0 then []
    else
      let n := Nat.min size (8 - key % 8)
      (key, off, n) :: pieces fuel (key + n) (off + n) (size - n)

/-- The pieces of an access of `size` bytes. -/
def splitWords (key size : Nat) : List (Nat × Nat × Nat) := pieces (size / 8 + 2) key 0 size

/-- A home write of any size, one step for each word, seen by no HOME watchpoint. -/
def State.rawWrite (s : State) (agent key size v : Nat) (rels : List Msg) : State :=
  (splitWords key size).foldl (fun s p => s.homeWord agent p.1 p.2.2 (v / 2 ^ (8 * p.2.1)) false rels) s

/-- The walker's atomic OR into a leaf: A, and D for a write (R68). -/
def State.setAD (s : State) (d : Nat) (f : Found) (a : Acc) : State :=
  let want := f.leaf ||| 0x200 ||| (if a = .wr ∨ a = .atomic then 0x400 else 0)
  s.homeWord (walkerSrc d) (kHbm f.addr) 8 want.toNat true []

/-- Does a walk for this access have to set A or D? -/
def needsAD (e : BitVec 64) (a : Acc) : Bool := !lA e || ((a == .wr || a == .atomic) && !lD e)

/-- Record that die `d`'s walker has read table lines (R70). -/
def State.noteLines (s : State) (d : Nat) (lines : List Nat) : State :=
  { s with tdir := lines.foldl (fun m l =>
      let ds := m.get [] l
      if ds.contains d then m else m.upd l (d :: ds)) s.tdir }

/-- The target a leaf gives. -/
def targetOf (level : Nat) (e : BitVec 64) (va : Nat) : Target :=
  { apt := lApt e, key := aptKey (lApt e) (lPeer e) (leafPa level e va), leaf := e }

/-- Split a range of VAs at multiples of `g`: first VA and bytes of each run. -/
def vaRuns (g : Nat) : Nat → Nat → Nat → List (Nat × Nat)
  | 0, _, _ => []
  | fuel + 1, va, n =>
    if n = 0 then []
    else
      let m := Nat.min n (g - va % g)
      (va, m) :: vaRuns g fuel (va + m) (n - m)

/-- The pages of a range. -/
def vaPages (va n : Nat) : List (Nat × Nat) := vaRuns 65536 (n / 65536 + 2) va n
/-- The aligned 256-byte blocks of a range: no view splits one (R62). -/
def vaBlocks (va n : Nat) : List (Nat × Nat) := vaRuns 256 (n / 256 + 2) va n

/-- The runs of a range within one page that lie together in storage (R61, R62). -/
def leafRuns (level : Nat) (e : BitVec 64) (va n : Nat) : List (Nat × Nat × Target) :=
  (if leafSpread level e va then vaBlocks va n else [(va, n)]).map fun p => (p.1, p.2, targetOf level e p.1)

/-- A page's leaf as one of level 0: what a unit keeps of a translation that it makes once (R292, R337). -/
def pageLeaf (level : Nat) (e : BitVec 64) (va : Nat) : BitVec 64 := setFld e 16 36 (leafPa level e va / 65536)
/-- The storage key of a VA under kept leaves. -/
def keptKey (m : AMap (BitVec 64)) (va : Nat) : Nat := (targetOf 0 (m.get 0 (va / 65536)) va).key
/-- The runs of a VA range under kept leaves that lie together in storage. -/
def keptRuns (m : AMap (BitVec 64)) (va n : Nat) : List (Nat × Nat × Target) :=
  (vaPages va n).flatMap fun p => leafRuns 0 (m.get 0 (p.1 / 65536)) p.1 p.2

/-- A translation made at once, with its walk, for a unit that is no pacer (R65 steps 2–5, R68): a trap code, or what the walk
found and the state after it. -/
def State.walkNow (s : State) (d asid va : Nat) (a : Acc) (user : Bool) : Except Nat (Found × State) :=
  match s.walkTables d asid va with
  | .error c => .error c
  | .ok f =>
    match leafCheck s f.level f.leaf va a user with
    | some c => .error c
    | none =>
      let s := s.noteLines d f.lines
      .ok (f, if needsAD f.leaf a then s.setAD d f a else s)

-- Watchpoints (R238, R354, R355).

-- Homes that do not answer at once, and the host-line cache (R72–R74, R386, R387).

/-- The controller of a byte: stacks 0–7, channel groups 8–39 (R387). -/
def stackOf (key : Nat) : Nat := if kSpace key = 0 then key / 2 ^ 36 else 8 + key / 256 % 32
/-- Is a byte's row being repaired (R387)? -/
def State.repairing (s : State) (key : Nat) : Bool :=
  kSpace key < 2 && s.repairs.contains (stackOf key, Config.rowOf key)
/-- Is the memory behind a key in service (R386)? A stack or channel group whose readiness bit is 0 is not. -/
def State.inService (s : State) (key : Nat) : Bool :=
  match kSpace key with
  | 0 => s.ready.getLsbD (648 + key / 2 ^ 36)
  | 1 => s.ready.getLsbD (656 + key / 256 % 32)
  | _ => true
/-- How the home of some bytes answers an access that a unit or a walk makes in this step (R74, R397). -/
def State.answerOf (s : State) (key n : Nat) : Err :=
  match s.trouble.find? fun x => key / 64 ≤ x.1 && x.1 ≤ (key + n - 1) / 64 with
  | some x => x.2
  | none => .none

/-- Lines that the host-line cache holds: 32 MiB (R2, R73). -/
def hostLineMax : Nat := 2 ^ 19
/-- What an access to host memory does to the host-line cache (R73, R210): under CP 0 its line is held, under CP 1 only a write's, under
CP 2 the access goes to the host and the line is not kept. -/
def State.touchHost (s : State) (cp key : Nat) (writes : Bool) : State :=
  let l := key / 64
  let rest := s.hostLines.filter fun x => x != l
  if cp = 2 then { s with hostLines := rest }
  else if cp = 1 ∧ !writes then s
  else { s with hostLines := (l :: rest).take hostLineMax }
/-- The lines of host memory that an access of a run of bytes touches. -/
def State.touchRun (s : State) (t : Target) (n : Nat) (writes : Bool) : State :=
  if t.apt = 2 then
    (List.range ((t.key + n - 1) / 64 - t.key / 64 + 1)).foldl
      (fun s i => s.touchHost (lCp t.leaf) (t.key + 64 * i) writes) s
  else s

/-- The bias region of an HBM byte (R72). -/
def biasRegion (key : Nat) : Nat := key / 2 ^ 30
/-- Does an access under APT 0 go straight to the stack (R72)? -/
def State.deviceBias (s : State) (leafBias : Bool) (key : Nat) : Bool := leafBias && s.bias.get false (biasRegion key)

/-- Can a write be performed at its home without waiting for another agent: no snoop, no fabric or host, no repair (R72, R240, R387)? -/
def State.atHand (s : State) (t : Target) : Bool :=
  t.apt != 2 && t.apt != 3 && (t.apt != 0 || s.deviceBias (lBias t.leaf) t.key) && s.inService t.key && !s.repairing t.key

/-- Write one event of a watchpoint into the watching core's ring, if TLOG.EN and the ring's page allow it (R355). A write that has to
wait goes in flight, in no core's operand log: it is ordered with none of the watcher's accesses (R238). -/
def State.logWatch (s : State) (c : Nat) (e : WatchEv) : State :=
  let k := s.core c
  let seq := k.wseq
  let s := s.setCore c { k with wseq := seq + 1 }
  if !bit k.tlog 0 then s
  else
    let next := fld k.tlog 1 6
    let va := fld k.tlog 12 43 * 4096 + 64 * next
    match s.walkNow (dieOf c) k.asid va .wr false with
    | .error _ => s
    | .ok (f, s) =>
      let t := targetOf f.level f.leaf va
      let v := e.stamp + e.src * 2 ^ 64 + e.wn * 2 ^ 92 + e.rd.toNat * 2 ^ 94 + e.wr.toNat * 2 ^ 95 +
        e.addr * 2 ^ 96 + e.value * 2 ^ 160 + (seq % 2 ^ 32) * 2 ^ 224
      let s :=
        if s.atHand t then s.rawWrite (srcOf c 0) t.key 64 v []
        else s.issue (reqAt Config.cores (srcOf c 0) (.line (2 ^ 64 - 1) (v % 2 ^ 512)) t 64 va true)
      s.setCore c { s.core c with tlog := setFld k.tlog 1 6 (next + 1) }

/-- The hits of HOME watchpoints on a step at a home on bytes of one aligned word, of an access that reads, writes or both (R238): VALUE is
the word after the step (R355). An atomic hits under RD or WR, also a CAS that fails (R354). -/
def State.watchHome (s : State) (agent key size : Nat) (rd wr : Bool) (atomic : Bool := false) : State :=
  s.watchers.foldl (fun s x =>
    let (c, n, k, len, ctl) := x
    if k < key + size ∧ key < k + len ∧ (((rd || atomic) && bit ctl 2) || ((wr || atomic) && bit ctl 3)) then
      let e : WatchEv :=
        { stamp := s.gtc, src := s.ext agent, wn := n, rd := rd, wr := wr, addr := ((s.core c).watch.get 0 n).toNat,
          value := if wr then s.mem.getNat (8 * (key / 8)) 8 else 0 }
      let s := s.logWatch c e
      if bit ctl 7 then s.setCore c { s.core c with asyncWatch := (s.core c).asyncWatch ++ [e] } else s
    else s) s

/-- A write performed at its home, one step for each aligned word; watchpoints see each (R222, R238). -/
def State.homeWrite (s : State) (agent key size v : Nat) (rels : List Msg) : State :=
  (splitWords key size).foldl (fun s p =>
    (s.homeWord agent p.1 p.2.2 (v / 2 ^ (8 * p.2.1)) false rels).watchHome agent p.1 p.2.2 false true) s

/-- Reads performed at their homes, one step for each aligned word, as watchpoints see them (R222, R238). -/
def State.watchRead (s : State) (agent key size : Nat) : State :=
  (splitWords key size).foldl (fun s p => s.watchHome agent p.1 p.2.2 true false) s

-- Reads (R225, R231).

/-- The position an ordinary load of a word returns: the value its phase has returned, else an open choice from the floor up; the phase
then returns that value again (R225). -/
def State.phasePick (s : State) (a w : Nat) : Nat × State :=
  let v := s.view a
  let lo := v.floor.get 0 w
  if v.pinned.contains w then (lo, s)
  else
    match s.hist.find w with
    | none => (lo, s.setView a { v with pinned := w :: v.pinned })
    | some h =>
      if h.ws.length ≤ lo then (lo, s.setView a { v with pinned := w :: v.pinned })
      else
        let (n, s) := s.choice
        let i := lo + n % (h.ws.length - lo + 1)
        (i, s.setView a { v with floor := v.floor.upd w i, pinned := w :: v.pinned })

/-- An ordinary read by agent `a` (R225): each aligned word from its own phase. -/
def State.phaseRead (s : State) (a key size : Nat) : Nat × State :=
  (splitWords key size).foldl (fun r p =>
    let (acc, s) := r
    let (i, s) := s.phasePick a (p.1 / 8)
    let x := (s.wordHist (p.1 / 8)).val i / 2 ^ (8 * (p.1 % 8)) % 2 ^ (8 * p.2.2)
    (acc + x * 2 ^ (8 * p.2.1), s)) (0, s)

/-- A scoped read: the value as it stands at the home, the releases it may synchronise with; its floor rises (R225, R231).
-/
def State.scopedRead (s : State) (a key size : Nat) : Nat × List Msg × State :=
  let w := key / 8
  match s.hist.find w with
  | none => (s.mem.getNat key size, [], s)
  | some h => (s.mem.getNat key size, h.msgs h.ws.length (key % 8) size, s.setView a ((s.view a).raise w h.ws.length))

/-- An ordinary read at its home that HOME watchpoints see (R225, R238). -/
def State.seenRead (s : State) (a key size : Nat) : Nat × State :=
  let (v, s) := s.phaseRead a key size
  (v, s.watchRead a key size)

-- Walks that watchpoints see (R67, R68, R238).

/-- The reads of a walk: each entry at its home as an acquire at scope 15, kept in the directory (R67, R70). -/
def State.walked (s : State) (d : Nat) (addrs : List Nat) : State :=
  let a := walkerSrc d
  addrs.foldl (fun s x =>
    let (_, ms, s) := s.scopedRead a (kHbm x) 8
    ((s.acquire a 15 ms).noteLines d [x / 64]).watchHome a (kHbm x) 8 true false) s

/-- The walker's atomic OR, seen by watchpoints (R68, R238). -/
def State.setADSeen (s : State) (d : Nat) (f : Found) (a : Acc) : State :=
  (s.setAD d f a).watchHome (walkerSrc d) (kHbm f.addr) 8 true true

/-- Does a walk meet an uncorrectable error at one of the entries it reads (R74, R386)? -/
def State.walkBad (s : State) (addrs : List Nat) : Bool :=
  addrs.any fun x => !s.inService (kHbm x) || s.answerOf (kHbm x) 8 != .none

/-- Is a walk held at an entry whose row is in repair (R387)? -/
def State.walkHeld (s : State) (addrs : List Nat) : Bool := addrs.any fun x => s.repairing (kHbm x)

/-- `walkNow`, with the walk's reads and its write of A and D as the homes perform them: where one of the reads meets an uncorrectable
error, ECCU (R74). -/
def State.walkSeen (s : State) (d asid va : Nat) (a : Acc) (user : Bool) : Except Nat (Found × State) :=
  match (if s.walkBad (s.walkReads d asid va) then .error cECCU else s.walkTables d asid va) with
  | .error c => .error c
  | .ok f =>
    match leafCheck s f.level f.leaf va a user with
    | some c => .error c
    | none =>
      let s := s.walked d (s.walkReads d asid va)
      .ok (f, if needsAD f.leaf a then s.setADSeen d f a else s)

/-- A translation made at once for a unit that is no pacer: a trap code, or the target (R65 steps 2–5). -/
def State.xlateNow (s : State) (d asid va : Nat) (a : Acc) (user : Bool) : Except Nat (Target × State) :=
  match s.walkSeen d asid va a user with
  | .error c => .error c
  | .ok (f, s) => .ok (targetOf f.level f.leaf va, s)

/-- Translate and check every page of a range (the lower first), for a unit (R65): its runs of bytes that lie together. A failing page
gives its code and the first byte of the range in it (log entry 42). -/
def State.xlateRange (s : State) (d asid va size : Nat) (a : Acc) (user : Bool) :
    Except (Nat × Nat) (List (Nat × Nat × Target) × State) :=
  (vaPages va size).foldl (fun r p =>
    match r with
    | .error e => .error e
    | .ok (ts, s) =>
      match s.walkSeen d asid p.1 a user with
      | .error c => .error (c, p.1)
      | .ok (f, s) => .ok (ts ++ leafRuns f.level f.leaf p.1 p.2, s)) (.ok ([], s))

-- Bias (R72).

/-- Has the host answered about a line, for an access of agent `a` in the word that the acting pacer is at, or in a step of a unit? -/
def State.snooped (s : State) (a line : Nat) : Bool :=
  s.me.answered.contains (a, line) || s.snoops.any fun x => x.agent == a && x.core.isNone && x.line == line && x.done

/-- The lines of an access under host bias about which the host has not yet answered agent `a` (R72). -/
def State.snoopsDue (s : State) (a : Nat) (t : Target) (n : Nat) : List Nat :=
  if t.apt ≠ 0 ∨ s.deviceBias (lBias t.leaf) t.key then []
  else
    ((List.range ((t.key + n - 1) / 64 - t.key / 64 + 1)).map fun i => t.key / 64 + i).filter fun l => !s.snooped a l

/-- A step of a unit is over, and with it what the host has answered for its accesses by agent `a`. -/
def State.endSnoops (s : State) (a : Nat) : State :=
  if s.snoops.isEmpty then s else { s with snoops := s.snoops.filter fun x => x.core.isSome || x.agent != a }

-- Quay accesses in flight (R115).

/-- The element size of a quay instruction's destination, and the bytes it writes there (R117–R119). -/
def QJob.dest (j : QJob) : Nat × Nat :=
  match j.i with
  | .qop _ _ f _ _ _ _ _ => (f.bytes, f.bytes * j.n)
  | .qred _ _ _ o32 _ _ _ => if o32 then (4, 4) else (8, 8)
  | .qfill _ w _ _ _ => (2 ^ w.toNat, 2 ^ w.toNat * j.n)
  | _ => (1, 0)

def State.putJob (s : State) (d : Nat) (j : QJob) : State :=
  let x := s.die d
  s.setDie d { x with jobs := x.jobs.map fun y => if y.id = j.id then j else y }
def State.dropJob (s : State) (d n : Nat) : State :=
  let x := s.die d
  s.setDie d { x with jobs := x.jobs.filter fun y => y.id != n }
/-- A quay instruction meets an uncorrectable error: it stops, and its pacer is contained (R115, R358). -/
def State.quayFails (s : State) (j : QJob) : State :=
  { s.dropJob (dieOf j.core) j.id with agenda := .containment j.core cECCU :: s.agenda }

/-- The storage key of a byte of a quay instruction's operands. -/
def QJob.key (j : QJob) (va : Nat) : Nat := j.pages.get 0 (va / 65536) + va % 65536

/-- Does a quay instruction write any byte of a key range? -/
def QJob.touches (j : QJob) (key size : Nat) : Bool :=
  (List.range ((j.dest.2 + j.d % 65536 + 65535) / 65536)).any fun i =>
    let lo := if i = 0 then j.d else (j.d / 65536 + i) * 65536
    let hi := Nat.min (j.d + j.dest.2) ((j.d / 65536 + i + 1) * 65536)
    j.key lo < key + size && key < j.key lo + (hi - lo)

/-- Are two accesses of one chain, or both of the pacer (R213, R239)? -/
def Req.sameChain (x r : Req) : Bool := x.chan == r.chan

/-- Do two keys lie in one quay bank (R61, R113)? -/
def sameBank (x r : Nat) : Bool := kSpace x == 4 && kSpace r == 4 && x / 64 % 512 == r / 64 % 512 && x / 2 ^ 26 == r / 2 ^ 26

/-- Is a request held behind an earlier write of its pacer or its chain to the same line, posted and not acknowledged (R237, R239)? -/
def State.lineHeld (s : State) (r : Req) : Bool :=
  r.posted && s.reqs.any fun x =>
    x.id < r.id && x.agent == r.agent && x.core == r.core && x.sameChain r && x.posted && x.key / 64 == r.key / 64 &&
      (x.pending || x.phase == .performed)

/-- Has an earlier write of its pacer or its chain to the same line failed? Then the home will never acknowledge that one, and this one is
never sent (R237, R239). -/
def State.lineLost (s : State) (r : Req) : Bool :=
  r.posted && s.reqs.any fun x =>
    x.id < r.id && x.agent == r.agent && x.core == r.core && x.sameChain r && x.posted && x.key / 64 == r.key / 64 &&
      x.phase == .failed

/-- May this request be performed before the earlier ones of its source? Accesses of the pacer, or of one chain, to the same bytes in
their order (R213, R75, R79), one quay bank in issue order (R114), quay memory after the core's earlier quay instructions (R115),
one line of posted writes one after another (R237, R239). -/
def State.inOrder (s : State) (r : Req) : Bool :=
  !(r.apt == 4 && (s.die (dieOf r.core)).jobs.any fun j => j.core == r.core && j.id < r.id && j.touches r.key r.size) &&
  !(s.reqs.any fun x =>
    x.id < r.id && x.agent == r.agent && x.core == r.core && x.pending &&
      ((x.sameChain r && x.key < r.key + r.size && r.key < x.key + x.size) || sameBank x.key r.key)) &&
  !s.lineHeld r

/-- Must a release at scope `n` of a core wait for this write (R229)? A pacer does not wait for its copy chains: their bytes count once
it has acquired them. -/
def relMustWait (n : Nat) (r : Req) : Bool :=
  r.writes && (r.chan.isNone || r.acq) && (r.pending || r.phase == .failed || r.phase == .dead ||
    (r.phase == .performed && ((r.apt == 3 && n > 3) || (r.apt == 2 && n == 15))))

/-- The writes a release waits for are those it carries: a write to a peer only when the scope covers it, one to the host
only at 15 (R228, R229). -/
def State.relWaits (s : State) (n : Nat) (r : Req) : Bool :=
  relMustWait n r && carriesIn (s.fabricFor (srcOf r.core 0)) n (r.key / 8)

/-- The extended source of the agent lost behind a key (R347): the host, or a peer device. The manual names no unit of a lost peer: the
model puts 0 for its 16-bit source number (log entry 43). -/
def State.lostAgent (s : State) (key : Nat) : Nat :=
  if kSpace key = 3 then peerOf key * 65536 else s.ext hostSrc

/-- The waits of a pacer release at scope `n` (R229, R115): carried writes at their homes, quay instructions complete,
acknowledgements; a failed write makes it take PEERLOST, each time it runs, at the address `va` released (R241, R346); a write that
failed on the module itself gives ECCU at its own address (R356, log entry 44). -/
def relWait (n va : Nat) : M Unit := fun s =>
  let c := s.actor
  let mine := s.reqs.filter fun r => r.core == c && s.relWaits n r
  match mine.find? fun r => r.phase == .failed || r.phase == .dead with
  | some r => if r.phase = .failed then .error (.peerLost va (s.lostAgent r.key)) else .error (.trap (tr cECCU r.va))
  | none =>
    if mine.isEmpty && !((s.die (dieOf c)).jobs.any fun j => j.core == c) then .ok ((), s) else .error .relWait

-- Pacer accesses (R65, R67, R69, R354).

/-- Look an address up in the core, team and walker caches (R67). -/
def State.cached (s : State) (c asid va : Nat) : Option Tlb :=
  let hit (t : Tlb) : Bool := t.asid == asid && t.vpn == va / 2 ^ levelShift t.level
  match (s.core c).tlb.find? hit with
  | some t => some t
  | none =>
    match (s.team (teamOf c)).tlb.find? hit with
    | some t => some t
    | none => (s.die (dieOf c)).wtlb.find? hit

/-- Does a LOCAL watchpoint hit a pacer access (R354)? The number of the first that does. -/
def Core.localHit (c : Core) (va size : Nat) (rd wr : Bool) : Option Nat :=
  if c.wskip then none
  else (List.range 4).find? fun n =>
    let ctl := c.watchctl.get 0 n
    let w := fld (c.watch.get 0 n) 0 55
    bit ctl 0 && !bit ctl 1 && ((rd && bit ctl 2) || (wr && bit ctl 3)) &&
      w < va + size && va < w + 2 ^ fld ctl 4 3

/-- What a look-up in the translation caches gives (R67–R69): the target, a miss to be walked, or a trap code. -/
inductive Look where
  | hit (t : Target)
  | miss (w : Walk)
  | bad (code : Nat)
  deriving DecidableEq, Repr

/-- The level of the leaf that the tables hold for an address; 0 where they hold none (R58). -/
def State.leafLevel (s : State) (d asid va : Nat) : Nat :=
  match s.walkTables d asid va with | .ok f => f.level | .error _ => 0

/-- Look an access of source `src` of core `c` up, with the checks of R65 steps 2 to 6; the failure of its own walk comes first (R69). -/
def State.look (s : State) (c src va : Nat) (a : Acc) (user : Bool) : Look :=
  let asid := (s.core c).asid
  let w : Walk :=
    { stamp := s.gtc, src := src, core := c, asid := asid, va := va, acc := a, user := user,
      level := s.leafLevel (dieOf c) asid va, slot := false, out := none }
  if va ≥ 2 ^ 55 then .bad cXLATE
  else
    match (s.die (dieOf c)).walks.find? fun x => x.sameAsk w && x.out.isSome with
    | some x => .bad ((x.out.map fun o => o.1).getD 0)
    | none =>
      match s.cached c asid va with
      | none => .miss w
      | some t =>
        match leafCheck s t.level t.leaf va a user with
        | some code => .bad code
        | none => if needsAD t.leaf a then .miss w else .hit (targetOf t.level t.leaf va)

/-- Translate a pacer access with every check of R65, `align` first. A miss asks for a walk (R67). -/
def xlate (va size : Nat) (align : Nat) (a : Acc) : M Target := fun s =>
  let c := s.actor
  let k := s.me
  if va % align ≠ 0 then .error (.trap (tr cALIGN va))
  else
    match s.look c (srcOf c 0) va a (!k.mode) with
    | .bad code => .error (.trap (tr code va))
    | .miss w => .error (.walk w)
    | .hit t =>
      match (if a = .fetch then none else k.localHit va size (a != .wr) (a != .rd)) with
      | some _ => .error (.trap (tr cWATCH va))
      | none => .ok (t, s)

/-- Translate a range for a pacer's word, page after page, the lower first (R65): its runs of bytes that lie together. A failing page
traps at the first byte of the range in it (log entry 42). -/
def xlateRuns (va size : Nat) (a : Acc) (user : Bool) : M (List (Nat × Nat × Target)) := fun s =>
  let c := s.actor
  (vaPages va size).foldl (fun r p =>
    match r with
    | .error e => .error e
    | .ok (ts, s) =>
      match s.look c (srcOf c 0) p.1 a user with
      | .bad code => .error (.trap (tr code p.1))
      | .miss w => .error (.walk w)
      | .hit t =>
        let level := ((s.cached c s.me.asid p.1).map fun x => x.level).getD 0
        .ok (ts ++ leafRuns level t.leaf p.1 p.2, s)) (.ok ([], s))

/-- The runs of an access of a pacer's word to a range: the checks of R65, then its LOCAL watchpoints (R354). -/
def accessRuns (va size : Nat) (a : Acc) (user : Bool) : M (List (Nat × Nat × Target)) := do
  let ps ← xlateRuns va size a user
  trapIf ((← getMe).localHit va size (a != .wr) (a != .rd)).isSome cWATCH va
  return ps

-- Accesses of units that are no pacer (R65, R72, R73, R242, R386, R387, R397).

/-- Why the access of a run that a unit makes fails, if it does: a peer that has no such address, refuses it or cannot be reached, a host
that fails it, memory out of service, an uncorrectable error met by a read (R74, R386, R397). -/
def State.runFails (s : State) (a : Acc) (p : Nat × Nat × Target) : Option TrapInfo :=
  let key := p.2.2.key
  let e := s.answerOf key p.2.1
  let lost := tr cPEERLOST p.1 0 0 (some (s.lostAgent key))
  match p.2.2.apt with
  | 3 => if !peerValid key || !s.reaches key || e != .none then some lost else none
  | 2 => match e with | .none => none | .peer => some lost | .ecc => some (tr cECCU p.1)
  | _ => if !s.inService key || (a != .wr && e == .ecc) then some (tr cECCU p.1) else none

/-- What the accesses of runs leave behind besides the bytes: lines of the host-line cache (R73), and a tag for each write sent over the
fabric (R242). A unit's write is sent, performed and acknowledged in one step (log entry 9). -/
def State.runsMade (s : State) (ag : Nat) (a : Acc) (ps : List (Nat × Nat × Target)) : State :=
  ps.foldl (fun s p =>
    let s := s.touchRun p.2.2 p.2.1 (a != .rd)
    if p.2.2.apt = 3 ∧ a ≠ .rd then { s with seqs := s.seqs.upd ag ((s.seqs.get 0 ag + 1) % 2 ^ 32) } else s) s

/-- Is some walk for a range held at a row in repair (R387)? -/
def State.pagesHeld (s : State) (d asid va n : Nat) : Bool := (vaPages va n).any fun p => s.walkHeld (s.walkReads d asid p.1)

/-- The runs of an access that unit `ag` of die `d` can make at once, or why it cannot be made: a page that fails R65, lines about which
the host must answer first, an access that fails, a row in repair, at which it is held (R387). -/
def State.unitFind (s : State) (ag d asid va n : Nat) (a : Acc) (user : Bool) :
    Except Stop (List (Nat × Nat × Target) × State) :=
  if s.pagesHeld d asid va n then .error .wait
  else
  match s.xlateRange d asid va n a user with
  | .error (code, at_) => .error (.trap (tr code at_))
  | .ok (ps, s) =>
    let lines := ps.flatMap fun p => s.snoopsDue ag p.2.2 p.2.1
    if !lines.isEmpty then .error (.snoop ag lines)
    else
      match ps.findSome? (s.runFails a) with
      | some t => .error (.trap t)
      | none => if ps.any fun p => s.repairing p.2.2.key then .error .wait else .ok (ps, s)

/-- The runs of an access that unit `ag` of die `d` makes at once (R65, R72, R73). -/
def State.unitRuns (s : State) (ag d asid va n : Nat) (a : Acc) (user : Bool) :
    Except Stop (List (Nat × Nat × Target) × State) :=
  match s.unitFind ag d asid va n a user with
  | .error e => .error e
  | .ok (ps, s) => .ok (ps, s.runsMade ag a ps)

/-- An ordinary read of a VA range by a unit (R225). -/
def State.readVa (s : State) (ag d asid va n : Nat) (user : Bool) : Except Stop (Nat × State) :=
  match s.unitRuns ag d asid va n .rd user with
  | .error e => .error e
  | .ok (ps, s) =>
    let r := ps.foldl (fun (r : Nat × Nat × State) p =>
      let (v, s) := r.2.2.seenRead ag p.2.2.key p.2.1
      (r.1 + v * 2 ^ (8 * r.2.1), r.2.1 + p.2.1, s)) (0, 0, s)
    .ok (r.1, r.2.2)

/-- A unit's read of a VA range as it stands at its homes (R231, R260). -/
def State.homeVa (s : State) (ag d asid va n : Nat) (user : Bool) : Except Stop (Nat × State) :=
  match s.unitRuns ag d asid va n .rd user with
  | .error e => .error e
  | .ok (ps, s) =>
    .ok (ps.foldr (fun p x => s.mem.getNat p.2.2.key p.2.1 + x * 2 ^ (8 * p.2.1)) 0,
      ps.foldl (fun s p => s.watchRead ag p.2.2.key p.2.1) s)

/-- Write bytes at a VA for a unit, with the releases that the write makes. -/
def State.writeVa (s : State) (ag d asid va n v : Nat) (user : Bool) (rels : List Msg) : Except Stop State :=
  match s.unitRuns ag d asid va n .wr user with
  | .error e => .error e
  | .ok (ps, s) =>
    .ok (ps.foldl (fun s p => s.homeWrite ag p.2.2.key p.2.1 (v / 2 ^ (8 * (p.1 - va)) % 2 ^ (8 * p.2.1)) rels) s)

/-- Is it the refusal of a page by R65, and no error, loss or wait of an access's own (R72, R74, R397)? -/
def Stop.refuses : Stop → Bool
  | .trap t => t.code != cECCU && t.code != cPEERLOST
  | _ => false

/-- Check the pages of a range, for a unit. -/
def State.pagesOk (s : State) (d asid va n : Nat) (a : Acc) (user : Bool) : Except Stop State :=
  if s.pagesHeld d asid va n then .error .wait
  else
  match s.xlateRange d asid va n a user with
  | .error (code, at_) => .error (.trap (tr code at_))
  | .ok (_, s) => .ok s

/-- Translate the pages of a range once, with the checks of R65, and keep their leaves (R292, R337). -/
def State.keepPages (s : State) (d asid va n : Nat) (a : Acc) (user : Bool) (m : AMap (BitVec 64)) :
    Except Stop (AMap (BitVec 64) × State) :=
  if s.pagesHeld d asid va n then .error .wait
  else
  (vaPages va n).foldl (fun r p =>
    match r with
    | .error e => .error e
    | .ok (m, s) =>
      match s.walkSeen d asid p.1 a user with
      | .error code => .error (.trap (tr code p.1))
      | .ok (f, s) => .ok (AMap.upd m (p.1 / 65536) (pageLeaf f.level f.leaf p.1), s)) (.ok (m, s))

/-- Must a unit's write under kept leaves wait: for the host, or for a repair (R72, R387)? -/
def State.keptWaits (s : State) (ag : Nat) (m : AMap (BitVec 64)) (va n : Nat) : Option Stop :=
  let ps := keptRuns m va n
  let lines := ps.flatMap fun p => s.snoopsDue ag p.2.2 p.2.1
  if !lines.isEmpty then some (.snoop ag lines)
  else if ps.any fun p => s.repairing p.2.2.key then some .wait
  else none

/-- A step of a unit cannot go on: what it must wait for is noted. -/
def State.hold (s : State) : Stop → State
  | .snoop a lines => { s with held := s.held ++ lines.map fun l => some (a, l) }
  | .wait => { s with held := s.held ++ [none] }
  | _ => s

/-- Write bytes at a VA range under kept leaves, with the releases that the write makes; the step is held where the host must answer
first, or a row is in repair. A run whose access fails is not written (log entry 52). -/
def State.writeKept (s : State) (ag : Nat) (m : AMap (BitVec 64)) (va n v : Nat) (rels : List Msg) : State :=
  match s.keptWaits ag m va n with
  | some e => s.hold e
  | none =>
    (keptRuns m va n).foldl (fun s p =>
      if (s.runFails .wr p).isSome then s
      else
        (s.runsMade ag .wr [p]).homeWrite ag p.2.2.key p.2.1 (v / 2 ^ (8 * (p.1 - va)) % 2 ^ (8 * p.2.1)) rels) s

/-- A read under kept leaves by a unit (R225). -/
def State.readKept (s : State) (ag : Nat) (m : AMap (BitVec 64)) (va n : Nat) : Nat × State :=
  match s.keptWaits ag m va n with
  | some e => (0, s.hold e)
  | none =>
    (keptRuns m va n).foldl (fun r p =>
      let (v, s) := (r.2.runsMade ag .rd [p]).seenRead ag p.2.2.key p.2.1
      (r.1 + v * 2 ^ (8 * (p.1 - va)), s)) (0, s)

/-- The state in which nothing holds a step back. -/
def State.unheld (s : State) : State := { s with held := [] }

/-- The host is asked for what held a step back. -/
def State.askAll (s : State) (l : List (Option (Nat × Nat))) : State :=
  l.foldl (fun s x => match x with | some (a, n) => s.askSnoops none a [n] | none => s) s

/-- A step of a unit that makes its accesses as agents `ags`: it happens, and what the host has answered for it is over; or, where it must
wait, the host is asked, nothing of it happens, and it is tried again (R72, R387). -/
def State.attempt (s : State) (ags : List Nat) (f : State → State) : State :=
  let s' := f s.unheld
  if s'.held.isEmpty then ags.foldl State.endSnoops { s' with held := s.held } else s.askAll s'.held

/-- What a word waits for whose step at a unit is held. -/
def heldStop (l : List (Option (Nat × Nat))) : Stop :=
  match l.filterMap id with
  | [] => .wait
  | (a, n) :: r => .snoop a (n :: (r.filter fun x => x.1 == a).map fun x => x.2)

/-- The part of a word that a unit performs: where it is held, the word waits with nothing changed. -/
def attemptM {α : Type} (f : M α) : M α := fun s =>
  match f s.unheld with
  | .error e => .error e
  | .ok (x, s') => if s'.held.isEmpty then .ok (x, { s' with held := s.held }) else .error (heldStop s'.held)

/-- The latest writes of the words of some runs, as a carried set. -/
def State.headsOf (s : State) (ps : List (Nat × Nat × Target)) : KMap :=
  ps.foldl (fun m p => (splitWords p.2.2.key p.2.1).foldl (fun m w =>
    AMap.upd m (w.1 / 8) (s.wordHist (w.1 / 8)).ws.length) m) []

/-- A step of a unit that made its accesses as agents `ags`, or could not: it asks the host, or nothing happens and it is tried again. -/
def State.unitStep (s : State) (ags : List Nat) (r : Except Stop State) : State :=
  match r with
  | .ok s' => ags.foldl State.endSnoops s'
  | .error (.snoop a lines) => s.askSnoops none a lines
  | .error _ => s

/-- Put a pacer access in flight; a full operand log stalls it (R356). -/
def sendReq (kind : ReqKind) (t : Target) (size va : Nat) (ordinary posted : Bool) (rels : List Msg)
    (ar : Option Nat := none) : M Nat := fun s =>
  let c := s.actor
  if s.logCount c ≥ 256 then .error .wait
  else .ok (s.nextReq, s.issue { reqAt c (srcOf c 0) kind t size va ordinary with posted := posted, rels := rels, ar := ar })

/-- The answer to one of the reads that a word waits for (R74, R195, R397): its value, once it is there. -/
def State.readAnswer (s : State) (c : Nat) (p : Nat × Nat × Target) : Except Stop (Option Nat) :=
  match s.reqs.find? fun r => r.asks c && r.kind == .read && r.va == p.1 && r.size == p.2.1 && r.key == p.2.2.key with
  | none => .ok none
  | some r =>
    match r.phase with
    | .performed => .ok (some r.old)
    | .dead => .error (.trap (tr cECCU r.va))
    | .failed => .error (.trap (tr cPEERLOST r.va 0 0 (some (s.lostAgent r.key))))
    | _ => .error .wait

/-- Memory that a pacer's word reads beside its operands (a record, a descriptor, a payload), run by run: the reads go in flight, and the
word is taken again until every answer is there (R195, R289, R397). -/
def readRuns (ps : List (Nat × Nat × Target)) : M Nat := fun s =>
  let c := s.actor
  let r : Except Stop (List (Nat × Nat × Target) × Nat × Nat × Bool) := ps.foldl (fun r p =>
    match r with
    | .error e => .error e
    | .ok (missing, v, n, held) =>
      match s.readAnswer c p with
      | .ok (some x) => .ok (missing, v + x * 2 ^ (8 * n), n + p.2.1, held)
      | .ok none => .ok (missing ++ [p], v, n + p.2.1, held)
      | .error .wait => .ok (missing, v, n + p.2.1, true)
      | .error e => .error e) (.ok ([], 0, 0, false))
  match r with
  | .error e => .error e
  | .ok (missing, v, _, held) =>
    if !missing.isEmpty then .error (.reads missing)
    else if held then .error .wait
    else .ok (v, s)

/-- Translate a range and read it, for a pacer's word. -/
def readMem (va n : Nat) (user : Bool) : M Nat := do readRuns (← accessRuns va n .rd user)

/-- The word that read them is over: its reads leave the operand log. -/
def endReads : M Unit := fun s => .ok ((), { s with reqs := s.reqs.filter fun r => !r.asks s.actor })

/-- The pacer's own earlier stores have reached their homes: what is then read holds them (R213, R289). -/
def ownStores : M Unit := fun s =>
  if s.reqs.any fun r => r.core == s.actor && r.chan.isNone && r.writes && r.pending then .error .wait else .ok ((), s)

/-- Check an address as `xlate` does, by an access that no watchpoint sees (R94). -/
def checkVa (va : Nat) (a : Acc) : M Target := fun s =>
  let k := s.me
  match xlate va 1 1 a (s.setMe { k with wskip := true }) with
  | .ok (t, s') => .ok (t, s'.setMe { s'.me with wskip := k.wskip })
  | .error e => .error e

-- Fetch (R12, R65, R269, R285).

/-- Read `n ≤ 60` bytes of the stream at a program counter: residual code from the die's cache, any other code through the core's
translation with the checks of a fetch, the host asked first where the page is under host bias. What else comes of it: a trap, a
walk, a snoop. A residual fetch never traps ALIGN (R280). -/
def State.fetch (s : State) (c pc n : Nat) : Except Stop (Nat × State) :=
  if pc ≥ 2 ^ 63 then
    match s.spec.find? fun e => e.2.rid == nfld pc 32 31 with
    | some (_, e) =>
      let g := nfld pc 0 32 / 4
      .ok (ofLeBytes (((List.range (n / 4)).map fun i => leBytes 4 (e.code.getD (g + i) 0).toNat).flatten), s)
    | none => .error (.trap (tr cXLATE pc))
  else if pc % 4 ≠ 0 then .error (.trap (tr cALIGN pc))
  else
    match xlateRuns pc n .fetch (!(s.core c).mode) { s with actor := c } with
    | .error e => .error e
    | .ok (ps, s) =>
      let lines := ps.flatMap fun p => s.snoopsDue (srcOf c 0) p.2.2 p.2.1
      if !lines.isEmpty then .error (.snoop (srcOf c 0) lines)
      else
        match ps.find? fun p => !s.inService p.2.2.key with
        | some p => .error (.trap (tr cECCU p.1))
        | none =>
          if ps.any fun p => s.repairing p.2.2.key then .error .wait
          else .ok (ps.foldr (fun p x => s.mem.getNat p.2.2.key p.2.1 + x * 2 ^ (8 * p.2.1)) 0, s)

end Sys2Proof.Machine
end

