-- ==== Sys2Proof/Machine/Control.lean ====
section
/-! DEFINITION. Control: section headers, branches, calls, loops, outcomes, SQUASH, MCALL, EXIT (R22–R25, R30–R32,
R199–R207, R349). -/
namespace Sys2Proof.Machine

/-- The channel whose pending fault a header with this AFTER_CP takes: its chain's section is the one waited for (R82). -/
def Core.headerFault (c : Core) (afterCp : Nat) : Option (Nat × TrapInfo) :=
  if afterCp = 0 then none
  else (List.range 8).findSome? fun ch =>
    let x := c.chan ch
    if x.sec + afterCp = c.secNo + 1 then x.fault.map fun f => (ch, f) else none

/-- Does a handler's header keep R349: every AFTER field zero and LEASE clear? -/
def hdrHandlerOk (h : Header) : Bool :=
  h.afterVl == 0 && h.afterVx == 0 && h.afterVs == 0 && h.afterMx == 0 && h.afterCp == 0 && !h.lease

/-- SECTION_HEADER: the pacer reaches a header, checks it (R23, R349), takes a channel fault that AFTER_CP covers (R82), ends
the part it comes from, and enters the section. -/
def execSectionHeader (h : Header) (s : State) : Host.Outcome State Fault Refusal :=
  let c := s.actor
  let k := s.me
  if !h.legal || (k.mode && !hdrHandlerOk h) then .next (s.preciseTrap c (tr cSECT k.pc))
  else
    match k.headerFault (if k.mode then 0 else h.afterCp.toNat) with
    | some (ch, f) => s.finish c (.error (.chan ch f))
    | none =>
      let k := k.endPart
      let ord := if k.mode then k.ctx.ord else k.secNo + 1
      let p : Part :=
        { id := k.partNo, sec := ord, first := true, hdr := h, hdrAddr := k.pc, since := 0, fmts := 0, vcmps := 0,
          mpops := 0, voqs := 0 }
      let x : SecCtx :=
        { hdr := h, hdrAddr := k.pc, ord := ord, atHdr := false, handler := k.mode, tiles := 0, lrel := false }
      .next (s.setMe { k with cur := some p, partNo := k.partNo + 1, secNo := if k.mode then k.secNo else ord, ctx := x, pc := k.pc + 8, answered := [] })

/-- BR (R199). -/
def execBr (n : Ann) (hdr : Bool) (imm : BitVec 32) (s : State) : Host.Outcome State Fault Refusal :=
  pacerWord n 12 [] false (branchTo hdr imm) s

/-- JMP: word s[A] + IMM of the current section (R199, R25). -/
def execJmp (n : Ann) (a : SReg) (imm : BitVec 32) (s : State) : Host.Outcome State Fault Refusal :=
  pacerWord n 12 [a] false (fun s => gotoWord ((s.me.rd a).toInt + imm.toInt) s) s

/-- JMPR: the header at VA s[A] + IMM (R199). -/
def execJmpr (n : Ann) (a : SReg) (imm : BitVec 32) (s : State) : Host.Outcome State Fault Refusal :=
  pacerWord n 12 [a] false (fun s => gotoHeader (s.me.effAddr a imm).toNat s) s

/-- CALL: s[D] := the address of the header after the calling section, and go to the target (R200). -/
def execCall (n : Ann) (d : SReg) (imm : BitVec 32) (s : State) : Host.Outcome State Fault Refusal :=
  pacerWord n 12 [] false (fun s =>
    let c := s.me
    gotoHeader (c.hdrTarget imm) (s.setMe (c.wr d (BitVec.ofNat 64 c.ctx.endAddr)))) s

/-- RET: the header at s[A] (R200). -/
def execRet (n : Ann) (a : SReg) (s : State) : Host.Outcome State Fault Refusal :=
  pacerWord n 12 [a] false (fun s => gotoHeader (s.me.rd a).toNat s) s

/-- One back edge's change of the window bases (R201). -/
def rotate (rrb : BitVec 64) : BitVec 64 := setFld (setFld rrb 8 4 (fld rrb 8 4 + 1)) 0 8 (fld rrb 0 8 + 1)

/-- LOOP's INIT form (R201). -/
def loopInit (hdr : Bool) (d a : SReg) (imm : BitVec 32) : M Flow := fun s =>
  let t := (s.me.rd a).toInt
  if t > 2 ^ 31 then .error (.trap (tr cLOOPBAD))
  else if t ≤ 0 then branchTo hdr imm (s.setMe ((s.me.wr d 0).stage 0 0))
  else .ok (.seq, s.setMe ((s.me.wr d (BitVec.ofInt 64 t)).stage 0 t))

/-- LOOP's back edge (R201). -/
def loopBack (hdr : Bool) (st : Nat) (d : SReg) (imm : BitVec 32) : M Flow := fun s =>
  let x := s.me.rd d
  let t := fld x 0 32
  let i := fld x 32 32
  if x = 0 then .ok (.seq, s)
  else if t = 0 ∨ t > 2 ^ 31 ∨ i ≥ t + st - 1 then .error (.trap (tr cLOOPBAD))
  else if i + 1 < t + st - 1 then
    let k := (s.me.wr d (BitVec.ofNat 64 ((i + 1) * 2 ^ 32 + t))).stage (i + 1 : Nat) t
    branchTo hdr imm (s.setMe { k with rrb := rotate k.rrb })
  else .ok (.seq, s.setMe (s.me.wr d 0))

/-- LOOP (R201). -/
def execLoop (n : Ann) (hdr init : Bool) (s1 : BitVec 2) (d a : SReg) (imm : BitVec 32) (s : State) :
    Host.Outcome State Fault Refusal :=
  pacerWord n 12 [if init then a else d] false
    (if init then loopInit hdr d a imm else loopBack hdr (s1.toNat + 1) d imm) s

/-- BRQ: pop the oldest outcome and branch on it; QUNF when none is owed, a stall until it has been produced (R203). -/
def execBrq (n : Ann) (hdr z : Bool) (imm : BitVec 32) (s : State) : Host.Outcome State Fault Refusal :=
  pacerWord n 12 [] true (fun s =>
    let c := s.me
    if c.outcnt = 0 then .error (.trap (tr cQUNF))
    else
      match c.outq with
      | [] => .error .wait
      | o :: rest =>
        let s := s.setMe { c with outq := rest, outcnt := c.outcnt - 1 }
        if o != z then branchTo hdr imm s else .ok (.seq, s)) s

/-- The pacer's state after SQUASH has discarded every part that has not begun (R204). -/
def Core.squash (c : Core) : Core :=
  let ids := c.parts.map (·.id)
  let sum (f : Part → Nat) : Nat := (c.parts.map f).foldl (· + ·) 0
  { c with
    parts := []
    q := c.q.filter fun e => !ids.contains e.part
    mskdepth := c.mskdepth + sum (·.mpops) - sum (·.vcmps)
    outcnt := c.outcnt - sum (·.voqs)
    fmtq := c.fmtq.take (c.fmtq.length - sum (·.fmts))
    secNo := c.secNo - (c.parts.filter (·.first)).length }

/-- SQUASH (R204). -/
def execSquash (n : Ann) (imm : BitVec 32) (s : State) : Host.Outcome State Fault Refusal :=
  pacerWord n 12 [] true (fun s =>
    let c := s.me
    if c.parts.any fun p => !p.hdr.sqok then .error (.trap (tr cSECT c.pc))
    else gotoHeader (c.hdrTarget imm) (s.setMe c.squash)) s

/-- MCALL: expand directory entry `num` in place; an empty entry traps ILLOP (R32). The operations are executed one after
another by the pacer's next turns. -/
def execMcall (n : Ann) (num : BitVec 8) (d a b c : BitVec 10) (imm : BitVec 32) (s : State) :
    Host.Outcome State Fault Refusal :=
  pacerWord n 12 [] false (fun s =>
    match s.me.mdir.find num.toNat with
    | none => .error (.trap (tr cILLOP))
    | some (start, count) =>
      if count = 0 then .error (.trap (tr cILLOP))
      else
        let k := s.me
        let m : MCall := { start := start, count := count, idx := if k.mcallFrom < count then k.mcallFrom else 0, d := d, a := a, b := b, c := c, imm := imm }
        .ok (.set, s.setMe { s.me.countWord with mcall := some m, mcallFrom := 0, retry := false })) s

/-- The word of an MCALL operation: the template with the selected fields of the MCALL word added (R30, R32). -/
def MCall.word (m : MCall) (op : BitVec 128) : RawWord :=
  let r := RawWord.ofBits (op.setWidth 96)
  let sel (k : Nat) : BitVec 10 :=
    match k with | 1 => m.d | 2 => m.a | 3 => m.b | 4 => m.c | _ => 0
  { r with
    d := r.d + sel (fld op 96 3)
    a := r.a + sel (fld op 99 3)
    b := r.b + sel (fld op 102 3)
    c := r.c + sel (fld op 105 3)
    imm := if bit op 108 then r.imm + m.imm else r.imm }

/-- EXIT: the part ends, and the pacer stalls until INSTANCE_END (R207). -/
def execExit (n : Ann) (s : State) : Host.Outcome State Fault Refusal :=
  pacerWord n 12 [] true (fun s => .ok (.set, s.setMe { s.me with wait := .exit })) s

end Sys2Proof.Machine
end

