-- ==== Sys2Proof/Machine/Num.lean ====
section
/-! DEFINITION. Numbers: decoding, exact arithmetic on dyadic values, the one rounding rule, conversions and sum orders
(R123–R142, R146, R155, R156). -/
namespace Sys2Proof.Machine

/-- An exact value: a NaN (signalling or not), an infinity or a zero with its sign, or `m · 2^e` with `m ≠ 0`. -/
inductive FVal where
  | nan (sig : Bool)
  | inf (neg : Bool)
  | zero (neg : Bool)
  | fin (m : Int) (e : Int)
  deriving DecidableEq, Repr

/-- `m · 2^e`, which may be zero. -/
def FVal.of (m e : Int) : FVal := if m = 0 then .zero false else .fin m e

-- Layouts (R123–R126, R131).

/-- Bits of a format; an A48 value has 48. -/
def fmtBits : Fmt → Nat
  | .f32 | .i32 | .n32 => 32
  | .bf16 | .f16 | .i16 | .n16 => 16
  | .a48 => 48
  | _ => 8
/-- Precision: fraction bits + 1. -/
def fmtP : Fmt → Nat
  | .f32 => 24 | .bf16 => 8 | .f16 => 11 | .e4m3 => 4 | .e5m2 => 3 | .a48 => 39 | _ => 1
/-- Exponent of the smallest normal. -/
def fmtEmin : Fmt → Int
  | .f32 | .bf16 => -126 | .f16 | .e5m2 => -14 | .e4m3 => -6 | .a48 => -254 | _ => 0
/-- Does the format have infinities? -/
def fmtInf : Fmt → Bool
  | .e4m3 => false
  | _ => true
/-- The encoding of +∞, where there is one. -/
def infBits (f : Fmt) : Nat := 2 ^ (fmtBits f - 1) - 2 ^ (fmtP f - 1)
/-- The encoding of the largest finite value (R126). -/
def maxBits (f : Fmt) : Nat := if fmtInf f then infBits f - 1 else 0x7E
/-- DefaultNaN (R126, R127). -/
def nanBits (f : Fmt) : Nat := if fmtInf f then infBits f + 2 ^ (fmtP f - 2) else 0x7F
/-- The sign bit of a format. -/
def signBit (f : Fmt) (neg : Bool) : Nat := if neg then 2 ^ (fmtBits f - 1) else 0

-- Decoding (R124, R125, R128, R130, R138).

/-- A floating-point encoding. -/
def decodeF (f : Fmt) (b : Nat) : FVal :=
  let neg := nfld b (fmtBits f - 1) 1 == 1
  let mag := nfld b 0 (fmtBits f - 1)
  let fr := nfld mag 0 (fmtP f - 1)
  let e := mag / 2 ^ (fmtP f - 1)
  let sgn (m : Nat) : Int := if neg then -(m : Int) else m
  if mag = 0 then .zero neg
  else if fmtInf f && infBits f < mag then .nan (nfld mag (fmtP f - 2) 1 == 0)
  else if fmtInf f && mag == infBits f then .inf neg
  else if !fmtInf f && mag == 0x7F then .nan false
  else if e = 0 then .fin (sgn fr) (fmtEmin f - fmtP f + 1)
  else .fin (sgn (2 ^ (fmtP f - 1) + fr)) ((e : Int) - 1 + fmtEmin f - fmtP f + 1)

/-- A twin-shift term in units of 2^−6; none for the reserved code (R130). -/
def d8Term (x : Nat) : Option Int :=
  let e := nfld x 0 3
  if e = 7 then (if nfld x 3 1 = 1 then none else some 0)
  else some (if nfld x 3 1 = 1 then -(2 ^ (6 - e) : Int) else 2 ^ (6 - e))

/-- DecodeD8 (R130). -/
def decodeD8 (b : Nat) : FVal :=
  match d8Term (nfld b 4 4), d8Term (nfld b 0 4) with
  | some x, some y => .of (x + y) (-6)
  | _, _ => .nan true

/-- ScaleE8M0 (R128). -/
def scaleE8M0 (b : Nat) : FVal := if b % 256 = 255 then .nan true else .fin 1 ((b % 256 : Nat) - 127)

/-- The value of an integer element (R134). -/
def intVal (f : Fmt) (b : Nat) : Int :=
  match f with
  | .i32 | .i16 | .i8 => signed (fmtBits f) b
  | _ => (b % 2 ^ fmtBits f : Nat)

/-- Decode (R138). -/
def decodeFmt (f : Fmt) (b : Nat) : FVal :=
  match f with
  | .d8 => decodeD8 b
  | .e8m0 => scaleE8M0 b
  | .i32 | .n32 | .i16 | .n16 | .i8 | .n8 => .of (intVal f b) 0
  | _ => decodeF f b

-- Exact arithmetic (R137).

def FVal.neg : FVal → FVal
  | .nan s => .nan s | .inf n => .inf !n | .zero n => .zero !n | .fin m e => .fin (-m) e
def FVal.abs : FVal → FVal
  | .nan s => .nan s | .inf _ => .inf false | .zero _ => .zero false | .fin m e => .fin m.natAbs e
def FVal.isNeg : FVal → Bool
  | .nan _ => false | .inf n => n | .zero n => n | .fin m _ => m < 0
def FVal.isNan : FVal → Bool
  | .nan _ => true | _ => false
/-- NV for a signalling NaN (R127). -/
def FVal.sig : FVal → Nat
  | .nan true => fNV | _ => 0

/-- `m · 2^e` as an integer count of `2^q`, for `q ≤ e`. -/
def scaleTo (m e q : Int) : Int := m * 2 ^ (e - q).toNat

/-- An exact product with its flags (R137). -/
def fmul (a b : FVal) : FVal × Nat :=
  let fl := a.sig ||| b.sig
  match a, b with
  | .nan _, _ | _, .nan _ => (.nan false, fl)
  | .inf _, .zero _ | .zero _, .inf _ => (.nan false, fNV)
  | .inf x, y | y, .inf x => (.inf (x ^^ y.isNeg), 0)
  | .zero x, y | y, .zero x => (.zero (x ^^ y.isNeg), 0)
  | .fin m e, .fin n g => (.fin (m * n) (e + g), 0)

/-- What an exact sum has gathered so far. -/
structure SumAcc where
  nan : Bool
  fl : Nat
  pinf : Bool
  ninf : Bool
  /-- every operand so far was −0 -/
  negz : Bool
  m : Int
  e : Int
  deriving DecidableEq, Repr

def SumAcc.start : SumAcc := { nan := false, fl := 0, pinf := false, ninf := false, negz := true, m := 0, e := 0 }
def SumAcc.add (a : SumAcc) (x : FVal) : SumAcc :=
  match x with
  | .nan s => { a with nan := true, fl := a.fl ||| (if s then fNV else 0), negz := false }
  | .inf true => { a with ninf := true, negz := false }
  | .inf false => { a with pinf := true, negz := false }
  | .zero n => { a with negz := a.negz && n }
  | .fin m e =>
    if a.m = 0 then { a with m := m, e := e, negz := false }
    else
      let q := min a.e e
      { a with m := scaleTo a.m a.e q + scaleTo m e q, e := q, negz := false }
def SumAcc.result (a : SumAcc) (rdn : Bool) : FVal × Nat :=
  if a.nan then (.nan false, a.fl ||| (if a.pinf && a.ninf then fNV else 0))
  else if a.pinf && a.ninf then (.nan false, fNV)
  else if a.pinf then (.inf false, 0)
  else if a.ninf then (.inf true, 0)
  else if a.m = 0 then (.zero (a.negz || rdn), 0)
  else (.fin a.m a.e, 0)

/-- ExactSum (R137): its operands added exactly. -/
def exactSum (rdn : Bool) (l : List FVal) : FVal × Nat := (l.foldl SumAcc.add SumAcc.start).result rdn

/-- The order of two numbers, −0 below +0; NaNs are not compared. -/
def FVal.cmp (a b : FVal) : Ordering :=
  let rank : FVal → Int := fun x => match x with
    | .inf true => -3
    | .inf false => 3
    | .zero true => -1
    | .zero false => 0
    | .fin m _ => if m < 0 then -2 else 2
    | .nan _ => 4
  match a, b with
  | .fin m e, .fin n g =>
    let q := min e g
    compare (scaleTo m e q) (scaleTo n g q)
  | _, _ => compare (rank a) (rank b)

/-- minimum and maximum of IEEE 754-2019 (R146): a NaN operand gives a NaN. -/
def fmin (a b : FVal) : FVal × Nat :=
  if a.isNan || b.isNan then (.nan false, a.sig ||| b.sig) else (if b.cmp a = .lt then b else a, 0)
def fmax (a b : FVal) : FVal × Nat :=
  if a.isNan || b.isNan then (.nan false, a.sig ||| b.sig) else (if a.cmp b = .lt then b else a, 0)

/-- The integer square root, bit by bit. -/
def isqrtAux : Nat → Nat → Nat → Nat
  | 0, _, r => r
  | k + 1, n, r => let c := r + 2 ^ k; isqrtAux k n (if c * c ≤ n then c else r)
def isqrt (n : Nat) : Nat := isqrtAux (n.log2 / 2 + 1) n 0

/-- A value given by a quotient and whether something remains: an odd last bit stands for what remains, far below every
rounding quantum. -/
def sticky (neg : Bool) (q : Nat) (inexact : Bool) (e : Int) : FVal :=
  let m : Int := 2 * q + inexact.toNat
  .of (if neg then -m else m) (e - 1)

/-- a / b (R155). -/
def fdiv (a b : FVal) : FVal × Nat :=
  let neg := a.isNeg ^^ b.isNeg
  match a, b with
  | .nan _, _ | _, .nan _ => (.nan false, a.sig ||| b.sig)
  | .inf _, .inf _ | .zero _, .zero _ => (.nan false, fNV)
  | .inf _, _ => (.inf neg, 0)
  | _, .inf _ => (.zero neg, 0)
  | .zero _, _ => (.zero neg, 0)
  | .fin _ _, .zero _ => (.inf neg, fDZ)
  | .fin m e, .fin n g =>
    let k := n.natAbs.log2 + 48
    let x := m.natAbs * 2 ^ k
    (sticky neg (x / n.natAbs) (x % n.natAbs != 0) (e - g - k), 0)

/-- √a (R155). -/
def fsqrt (a : FVal) : FVal × Nat :=
  match a with
  | .nan _ => (.nan false, a.sig)
  | .zero n => (.zero n, 0)
  | .inf true => (.nan false, fNV)
  | .inf false => (.inf false, 0)
  | .fin m e =>
    if m < 0 then (.nan false, fNV)
    else
      let k : Nat := 96 + (e % 2).toNat
      let x := m.natAbs * 2 ^ k
      let q := isqrt x
      (sticky false q (q * q != x) ((e - k) / 2), 0)

/-- 1/√a (R155). -/
def frsq (a : FVal) : FVal × Nat :=
  match a with
  | .nan _ => (.nan false, a.sig)
  | .zero n => (.inf n, fDZ)
  | .inf true => (.nan false, fNV)
  | .inf false => (.zero false, 0)
  | .fin m e =>
    if m < 0 then (.nan false, fNV)
    else
      let n := m.natAbs * 2 ^ (e % 2).toNat
      let k := n.log2 + 48
      let q := isqrt (2 ^ (2 * k) / n)
      (sticky false q (q * q * n != 2 ^ (2 * k)) (-((e - e % 2) / 2) - k), 0)

/-- 1/a (R155). -/
def frcp (a : FVal) : FVal × Nat :=
  match a with
  | .zero n => (.inf n, fDZ)
  | _ => fdiv (.fin 1 0) a

-- 2^a and log2 a with 160 fractional bits (R156, log entry 13).

/-- Fractional bits of the fixed-point evaluation. -/
def fixBits : Nat := 160
/-- 2·atanh(z) in fixed point, for z = num/2^160 ≥ 0: Σ z^(2j+1)/(2j+1). -/
def atanhAux : Nat → Nat → Nat → Nat → Nat → Nat
  | 0, _, _, _, acc => acc
  | k + 1, j, pw, z2, acc => atanhAux k (j + 1) (pw * z2 / 2 ^ fixBits) z2 (acc + pw / (2 * j + 1))
def atanh2 (z : Nat) : Nat := 2 * atanhAux 60 0 z (z * z / 2 ^ fixBits) 0
/-- ln 2 in fixed point: 2·atanh(1/3). -/
def ln2Fix : Nat := atanh2 (2 ^ fixBits / 3)
/-- Σ t^j/j! in fixed point. -/
def expAux : Nat → Nat → Nat → Nat → Nat → Nat
  | 0, _, _, _, acc => acc
  | k + 1, j, term, t, acc => expAux k (j + 1) (term * t / 2 ^ fixBits / j) t (acc + term)

/-- 2^a (R156). -/
def fexp2 (a : FVal) : FVal × Nat :=
  match a with
  | .nan _ => (.nan false, a.sig)
  | .inf true => (.zero false, 0)
  | .inf false => (.inf false, 0)
  | .zero _ => (.fin 1 0, 0)
  | .fin m e =>
    if 0 ≤ e ∨ m % 2 ^ (-e).toNat = 0 then
      (.fin 1 (max (-2000) (min 2000 (if 0 ≤ e then m * 2 ^ (min e 20).toNat else m / 2 ^ (-e).toNat))), 0)
    else
      let d := 2 ^ (-e).toNat
      let n := m / d
      let f := (m % d).toNat * 2 ^ fixBits / d.toNat
      let t := f * ln2Fix / 2 ^ fixBits
      (sticky false (expAux 60 1 (2 ^ fixBits) t 0) true (max (-2000) (min 2000 n) - fixBits), 0)

/-- log2 a (R156). -/
def flog2 (a : FVal) : FVal × Nat :=
  match a with
  | .nan _ => (.nan false, a.sig)
  | .zero _ => (.inf true, fDZ)
  | .inf true => (.nan false, fNV)
  | .inf false => (.inf false, 0)
  | .fin m e =>
    if m < 0 then (.nan false, fNV)
    else
      let k := m.natAbs.log2
      let n : Int := e + k
      let r := m.natAbs - 2 ^ k
      if r = 0 then (.of n 0, 0)
      else
        let z := r * 2 ^ fixBits / (m.natAbs + 2 ^ k)
        let q := atanh2 z * 2 ^ fixBits / ln2Fix
        (.of (2 * (n * 2 ^ fixBits + q) + 1) (-(fixBits + 1 : Nat)), 0)

-- Rounding (R135, R136).

/-- A magnitude `a · 2^e` as a count of `2^q`, rounded by mode. -/
def roundTo (neg : Bool) (a : Nat) (e q : Int) (mode : Rm) : Nat :=
  if q ≤ e then a * 2 ^ (e - q).toNat
  else
    let s := (q - e).toNat
    let hi := a / 2 ^ s
    let lo := a % 2 ^ s
    let half := 2 ^ (s - 1)
    let up := match mode with
      | .rne | .dyn => half < lo || (lo == half && hi % 2 == 1)
      | .rtz => false
      | .rdn => neg && lo != 0
      | .rup => !neg && lo != 0
      | .rna => half ≤ lo
    hi + up.toNat

/-- Is `a · 2^e` unchanged by `roundTo`? -/
def exactAt (a : Nat) (e q : Int) : Bool := q ≤ e || a % 2 ^ (q - e).toNat == 0

/-- Round (R136): the encoding and the flags. -/
def roundF (f : Fmt) (x : FVal) (mode : Rm) (sat : Bool) : Nat × Nat :=
  match x with
  | .nan _ => (nanBits f, 0)
  | .zero n => (signBit f n, 0)
  | .inf n =>
    if fmtInf f then (signBit f n + infBits f, 0)
    else (if sat then signBit f n + maxBits f else nanBits f, fOF ||| fNX)
  | .fin m e =>
    let neg : Bool := m < 0
    let a := m.natAbs
    let p := fmtP f
    let l : Int := a.log2 + e
    let q := max l (fmtEmin f) - p + 1
    let y := roundTo neg a e q mode
    let bits := (q - (fmtEmin f - p + 1)).toNat * 2 ^ (p - 1) + y
    if maxBits f < bits then
      let r :=
        if sat || mode == .rtz || (mode == .rdn && !neg) || (mode == .rup && neg) then signBit f neg + maxBits f
        else if fmtInf f then signBit f neg + infBits f
        else nanBits f
      (r, fOF ||| fNX)
    else
      let fl := if exactAt a e q then 0 else fNX ||| (if l < fmtEmin f then fUF else 0)
      (signBit f neg + bits, fl)

/-- Round a value that came with flags. -/
def roundFl (f : Fmt) (x : FVal × Nat) (mode : Rm) (sat : Bool) : Nat × Nat :=
  let r := roundF f x.1 mode sat
  (r.1, r.2 ||| x.2)

-- Conversions (R138).

/-- The range of an integer format. -/
def intMin : Fmt → Int
  | .i32 => -2 ^ 31 | .i16 => -2 ^ 15 | .i8 => -2 ^ 7 | _ => 0
def intMax : Fmt → Int
  | .i32 => 2 ^ 31 - 1 | .i16 => 2 ^ 15 - 1 | .i8 => 2 ^ 7 - 1
  | f => 2 ^ fmtBits f - 1
/-- Clamp to a format's range. -/
def clampInt (f : Fmt) (x : Int) : Int := max (intMin f) (min (intMax f) x)
/-- Clamp or wrap an exact integer result (R134). -/
def intResult (f : Fmt) (sat : Bool) (x : Int) : Nat := wrap (fmtBits f) (if sat then clampInt f x else x)

/-- A floating-point value as an integer (R138). -/
def toIntF (f : Fmt) (x : FVal) (mode : Rm) : Nat × Nat :=
  match x with
  | .nan _ => (0, fNV)
  | .inf n => (wrap (fmtBits f) (if n then intMin f else intMax f), fNV)
  | .zero _ => (0, 0)
  | .fin m e =>
    let n := roundTo (m < 0) m.natAbs e 0 mode
    let y : Int := if m < 0 then -(n : Int) else n
    if y < intMin f ∨ intMax f < y then (wrap (fmtBits f) (clampInt f y), fNV)
    else (wrap (fmtBits f) y, if exactAt m.natAbs e 0 then 0 else fNX)

/-- Convert (R138). -/
def convert (x : Nat) (src dst : Fmt) (mode : Rm) (sat : Bool) : Nat × Nat :=
  if src.isInt && dst.isInt then (intResult dst sat (intVal src x), 0)
  else if dst.isInt then
    let v := decodeFmt src x
    let r := toIntF dst v mode
    (r.1, r.2 ||| v.sig)
  else
    let v := decodeFmt src x
    roundFl dst (v, v.sig) mode sat

-- Sum orders (R140).

/-- One level of ReduceTree: neighbours combined, an odd last element passed on. -/
def pairUp {α : Type} (op : α → α → α) : List α → List α
  | x :: y :: l => op x y :: pairUp op l
  | l => l
/-- ReduceTree, `fuel` levels. -/
def reduceTree {α : Type} (op : α → α → α) : Nat → List α → List α
  | 0, l => l
  | k + 1, l => match l with
    | [] => []
    | [x] => [x]
    | l => reduceTree op k (pairUp op l)

-- A48 sums (R141, R142).

/-- RoundA48(ExactSum(a, b), RNE) on encodings. -/
def addA48 (a b : Nat) : Nat × Nat := roundFl .a48 (exactSum false [decodeF .a48 a, decodeF .a48 b]) .rne false
/-- RoundA48(x × 2^k, RNE) (R142). -/
def shiftA48 (x : Nat) (k : Int) : Nat × Nat := roundFl .a48 (fmul (decodeF .a48 x) (.fin 1 k)) .rne false
/-- An element of a format as A48, exactly. -/
def toA48 (f : Fmt) (b : Nat) : Nat := (roundF .a48 (decodeFmt f b) .rne false).1

end Sys2Proof.Machine
end

