-- ==== Sys2Proof/Machine/Csr.lean ====
section
/-! DEFINITION. Control and status registers: what each reads, what a write does, and which writes trap RANGE (R63, R83, R116,
R143–R151, R214, R215, R224, R251, R265, R266, R284, R347, R354, R355, R362, R364–R366). -/
namespace Sys2Proof.Machine

/-- Does a core hold its team's array (R171, R172)? -/
def State.leased (s : State) (c : Nat) : Bool :=
  match (s.team (teamOf c)).lease with | some (x, _) => x == c | none => false

/-- The gang size code, legs minus 1 of a core's crew. -/
def State.gangOf (s : State) (c : Nat) : Nat :=
  match (s.core c).crew with | some i => fld (s.crew i).rcd 256 2 | none => 0
def State.legsOf (s : State) (c : Nat) : Nat :=
  match (s.core c).crew with | some i => fld (s.crew i).rcd 258 16 | none => 0

/-- SCOPETAB_n (R224). -/
def State.scopeTab (s : State) (n : Nat) : BitVec 64 := s.scopetab.get (scopetabReset n) n

/-- Quay instructions of a core that are not complete (R116). -/
def State.pend (s : State) (c : Nat) : Nat := ((s.die (dieOf c)).jobs.filter fun j => j.core == c).length

/-- The tick count under a schedule at a GTC reading (R265, R266). -/
def tickCount (cfg : BitVec 64) (gtc : Nat) : Nat :=
  let period := fld cfg 0 32
  let phase := fld cfg 32 30
  if period = 0 ∨ gtc < phase then 0 else (gtc - phase) / period + 1

/-- TICKNO of a die: the tick count, or OFF (R266). -/
def State.tickNo (s : State) (d : Nat) : BitVec 64 :=
  let cfg := (s.die d).tickcfg
  if fld cfg 0 32 = 0 then 0x8000000000000000 else BitVec.ofNat 64 (tickCount cfg s.gtc % 2 ^ 48)

/-- WMARK_c (R83). -/
def wmark (x : Chan) : BitVec 64 := BitVec.ofNat 64 (x.wm % 2 ^ 24 + x.hi % 2 ^ 24 * 2 ^ 24 + x.act.toNat * 2 ^ 63)

/-- DEFM: the DEF bits of physical s1–s63 (R193, R215). -/
def Core.defm (c : Core) : BitVec 64 :=
  BitVec.ofNat 64 (((List.range 64).filter fun j => c.isDef j).foldl (fun a j => a + 2 ^ j) 0)

/-- STATUS (R215). -/
def State.status (s : State) (c : Nat) : BitVec 64 :=
  let k := s.core c
  BitVec.ofNat 64 (k.mode.toNat + k.ctx.hdr.resid.toNat * 2 + (s.leased c).toNat * 4 + k.ctx.hdr.sec.toNat * 16)

/-- Word `w` of the readiness map (R366). -/
def State.readyWord (s : State) (w : Nat) : Nat := fld s.ready (32 * w) 32

/-- What a CSR reads (R215, R365). -/
def State.csrRead (s : State) (c num : Nat) : Word :=
  let k := s.core c
  if num < 0x010 then
    match num with
    | 0x000 => s.status c
    | 0x001 => k.fpcr
    | 0x002 => k.fpsr
    | 0x003 => BitVec.ofNat 64 k.slip
    | 0x004 => k.rrb
    | 0x005 => BitVec.ofNat 64 k.mskdepth
    | 0x006 => BitVec.ofNat 64 k.ccc
    | 0x007 => BitVec.ofNat 64 s.gtc
    | 0x008 => BitVec.ofNat 64 (dieOf c + (c / 4 % 20) * 16 + (c % 4) * 2 ^ 9 + k.origin * 2 ^ 12 + s.gangOf c * 2 ^ 22)
    | 0x009 => BitVec.ofNat 64 (k.leg + s.legsOf c * 2 ^ 16)
    | 0x00A => k.specstat
    | 0x00B => s.tickNo (dieOf c)
    | 0x00C => k.livemap
    | 0x00D => k.dlost
    | 0x00E => setFld k.qstat 8 7 (s.pend c)
    | _ => k.defm
  else if num < 0x020 then s.scopeTab (num - 0x010)
  else if num < 0x028 then wmark (k.chan (num - 0x020))
  else
    match num with
    | 0x100 => k.tvec
    | 0x101 => k.tcause
    | 0x102 => k.tpc
    | 0x103 => k.topc
    | 0x104 => k.titer
    | 0x105 => k.taddr
    | 0x106 => k.teng
    | 0x107 => k.tsrc
    | 0x108 => k.tstamp
    | 0x10A => BitVec.ofNat 64 k.asid
    | 0x10B => (s.die (dieOf c)).roots.get 0 k.asid
    | 0x10C => (s.die (dieOf c)).tickcfg
    | 0x10D =>
      match k.crew with
      | some i => BitVec.ofNat 64 ((s.crew i).depth + (s.crew i).limit * 16)
      | none => 0x80
    | 0x10E => k.mcsw
    | 0x10F => BitVec.ofNat 64 (k.readyw + s.readyWord k.readyw * 2 ^ 32)
    | 0x110 | 0x111 | 0x112 | 0x113 => k.watch.get 0 (num - 0x110)
    | 0x114 | 0x115 | 0x116 | 0x117 => k.watchctl.get 0 (num - 0x114)
    | 0x118 => k.saveptr
    | 0x119 => k.tlog
    | _ => 0

/-- The read-only registers (R215, R365). -/
def csrRO (num : Nat) : Bool :=
  num == 0x000 || (0x005 ≤ num && num ≤ 0x00C) || num == 0x00F || (0x010 ≤ num && num ≤ 0x027) || num == 0x101 ||
    num == 0x103 || num == 0x104 || (0x106 ≤ num && num ≤ 0x108) || num == 0x10D

/-- The bits of a register that no program writes: written nonzero, they trap RANGE (R214). -/
def csrFixed (num : Nat) : Nat :=
  let keep (n : Nat) : Nat := 2 ^ 64 - 2 ^ n
  match num with
  | 0x001 => keep 9 + 2 ^ 3
  | 0x002 => keep 5
  | 0x003 => keep 7
  | 0x004 => keep 12
  | 0x00D => keep 2
  | 0x00E => keep 4
  | 0x100 => keep 55 + 2
  | 0x10A => keep 6
  | 0x10B => keep 52 + 0xFFFE
  | 0x10C => keep 62
  | 0x10E => keep 3
  | 0x10F => keep 5
  | 0x110 | 0x111 | 0x112 | 0x113 => keep 55
  | 0x114 | 0x115 | 0x116 | 0x117 => keep 8
  | 0x118 => keep 52 + 0xFFFE
  | 0x119 => keep 55 + 0xFFE
  | _ => 0

/-- Purge every cached translation of one context on one die (R63). -/
def State.purgeAsid (s : State) (d asid : Nat) : State := s.purge d fun t => t.asid == asid

/-- Is a PTBASE value allowed (R63)? -/
def ptbaseOk (v : Word) : Bool :=
  fld v 1 15 == 0 && fld v 52 12 == 0 && (!bit v 0 || inTables (fld v 16 36 * 65536))

/-- Write a die's root pointer with the purge of R63. -/
def State.setRoot (s : State) (d asid : Nat) (v : Word) : State :=
  let x := s.die d
  (s.setDie d { x with roots := x.roots.upd asid v }).purgeAsid d asid

/-- PTBASE_WRITE: the root pointer of the core's context on its die (R63). -/
def State.writePtbase (s : State) (c : Nat) (v : Word) : Option State :=
  if ptbaseOk v then some (s.setRoot (dieOf c) (s.core c).asid v) else none

/-- TICKCFG_WRITE (R265): the schedule applies at once and the count is recomputed. -/
def State.writeTickcfg (s : State) (c : Nat) (v : Word) : Option State :=
  let period := fld v 0 32
  if fld v 62 2 ≠ 0 ∨ (1 ≤ period ∧ period ≤ 999) ∨ (period ≠ 0 ∧ period ≤ fld v 32 30) then none
  else
    let d := dieOf c
    let s := s.setDie d { s.die d with tickcfg := v, tickno := tickCount v s.gtc }
    some { s with agenda := ((List.range 4).map fun u => Instr.relayDeadline (4 * d + u)) ++ s.agenda }

/-- Have all engine entries that the core has pushed completed (R145)? -/
def Core.quiet (c : Core) : Bool := c.q.isEmpty && c.fly.isEmpty

/-- FPSR_ACCESS by CSRW (R144). -/
def Core.writeFpsr (c : Core) (v : Word) : Option Core := if fld v 5 59 = 0 then some { c with fpsr := v } else none

/-- The home a byte belongs to, for the limit of 64 watch entries of one home (R35, R354). -/
def watchHomeOf (key : Nat) : Nat :=
  match kSpace key with
  | 0 => key / 2 ^ 36
  | 1 => 64 + key / 256 % 32
  | 2 => 128
  | 3 => 2 ^ 20 + (key - 3 * spaceSize) / 2 ^ 52
  | _ => 2 ^ 40 + (key - 4 * spaceSize) / 2 ^ 26 * 512 + key / 64 % 512

/-- Does a value keep the layout of WATCHCTL_n for the VA that WATCH_n holds (R354)? -/
def Core.watchctlOk (k : Core) (n : Nat) (v : Word) : Bool :=
  fld v 8 56 == 0 && fld v 4 3 != 7 && fld (k.watch.get 0 n) 0 55 % 2 ^ fld v 4 3 == 0

/-- WATCHCTL_WRITE (R354). -/
def State.writeWatchctl (s : State) (c n : Nat) (v : Word) : Option State :=
  let k := s.core c
  let off : State := { s with watchers := s.watchers.filter fun w => !(w.1 == c && w.2.1 == n) }
  let put (s : State) (v : Word) : State := s.setCore c { s.core c with watchctl := (s.core c).watchctl.upd n v }
  let va := fld (k.watch.get 0 n) 0 55
  let len := 2 ^ fld v 4 3
  if !k.watchctlOk n v then none
  else if !bit v 0 then some (put off v)
  else
    match off.walkTables (dieOf c) k.asid va with
    | .error _ => none
    | .ok f =>
      let code := leafCheck off f.level f.leaf va .rd false
      if code = some cXLATE ∨ code = some cAPTBAD then none
      else
        let s := off.noteLines (dieOf c) f.lines
        let key := (targetOf f.level f.leaf va).key
        if !bit v 1 then some (put s v)
        else if (s.watchers.filter fun w => watchHomeOf w.2.2.1 == watchHomeOf key).length ≥ 64 then none
        else some { put s v with watchers := s.watchers ++ [(c, n, key, len, v)] }

/-- TLOG_WRITE: NEXT becomes 0 (R355). -/
def State.writeTlog (s : State) (c : Nat) (v : Word) : Option State :=
  if fld v 1 11 ≠ 0 ∨ fld v 55 9 ≠ 0 then none else some (s.setCore c { s.core c with tlog := v })

/-- Is a SAVEPTR value allowed (R362)? -/
def saveptrOk (v : Word) : Bool :=
  let a := fld v 16 36 * 65536
  fld v 1 15 == 0 && fld v 52 12 == 0 && a < 2 ^ 39 && a / 2 ^ 36 == (a + Config.saveSize - 1) / 2 ^ 36

/-- A write of a CSR by a program or as REGISTER_WRITE; none where it traps RANGE and changes nothing (R214). -/
def State.csrWrite (s : State) (c num : Nat) (v : Word) : Option State :=
  let k := s.core c
  let ok (b : Bool) (k' : Core) : Option State := if b then some (s.setCore c k') else none
  if csrRO num || v.toNat &&& csrFixed num != 0 then none
  else
    match num with
    | 0x001 => ok (fld v 0 3 ≤ 4) { k with fpcr := v }
    | 0x002 => (k.writeFpsr v).map (s.setCore c)
    | 0x003 => ok (1 ≤ v.toNat && v.toNat ≤ 64) { k with slip := v.toNat }
    | 0x004 => ok true { k with rrb := v }
    | 0x00D => ok true { k with dlost := setFld k.dlost 0 2 v.toNat }
    | 0x00E => ok true { k with qstat := v }
    | 0x100 => ok true { k with tvec := v }
    | 0x102 => ok true { k with tpc := v, tpcWritten := true }
    | 0x105 => ok true { k with taddr := v, tpcWritten := true }
    | 0x10A => ok true { k with asid := v.toNat }
    | 0x10B => s.writePtbase c v
    | 0x10C => s.writeTickcfg c v
    | 0x10E => ok true { k with mcsw := v }
    | 0x10F => ok (v.toNat ≤ 22) { k with readyw := v.toNat }
    | 0x110 | 0x111 | 0x112 | 0x113 =>
      ok (!bit (k.watchctl.get 0 (num - 0x110)) 0) { k with watch := k.watch.upd (num - 0x110) v }
    | 0x114 | 0x115 | 0x116 | 0x117 => s.writeWatchctl c (num - 0x114) v
    | 0x118 => ok (saveptrOk v) { k with saveptr := v }
    | 0x119 => s.writeTlog c v
    | _ => none

/-- What a refused write leaves: a WATCHCTL_n that it was to arm has EN = 0 (R354); nothing else changes (R214). -/
def State.csrRefused (s : State) (c num : Nat) (v : Word) : State :=
  let k := s.core c
  let n := num - 0x114
  if 0x114 ≤ num ∧ num ≤ 0x117 ∧ bit v 0 ∧ k.watchctlOk n v then
    ({ s with watchers := s.watchers.filter fun w => !(w.1 == c && w.2.1 == n) } : State).setCore c
      { k with watchctl := k.watchctl.upd n (setFld (k.watchctl.get 0 n) 0 1 0) }
  else s

/-- The mode check of a CSR access (R214): PRIV, with the number in TADDR. -/
def csrPriv (num : BitVec 12) : M Unit := fun s =>
  if 0x100 ≤ num.toNat ∧ !s.me.mode then .error (.trap (tr cPRIV num.toNat)) else .ok ((), s)

/-- An access to FPSR waits for every entry pushed before it (R145). -/
def csrQuiet (num : BitVec 12) : M Unit := fun s =>
  if num = 0x002 ∧ !s.me.quiet then .error .wait else .ok ((), s)

/-- Write and put `old` into physical register `p` where the word has a destination, or trap RANGE. -/
def csrPut (num : BitVec 12) (v : Word) (old : Option (Nat × Word)) : M Flow := fun s =>
  match s.csrWrite s.actor num.toNat v with
  | some s' => .ok (.seq, match old with | some (p, x) => s'.setMe (s'.me.wrP p x) | none => s')
  | none => .ok (.set, (s.csrRefused s.actor num.toNat v).preciseTrap s.actor (tr cRANGE))

/-- CSRR (R214). -/
def execCsrr (n : Ann) (d : SReg) (num : BitVec 12) (s : State) : Host.Outcome State Fault Refusal :=
  pacerWord n 12 [] (num == 0x002) (do
    csrPriv num
    csrQuiet num
    modify fun s => s.setMe (s.me.wr d (s.csrRead s.actor num.toNat))
    return Flow.seq) s

/-- CSRW (R214). -/
def execCsrw (n : Ann) (a : SReg) (num : BitVec 12) (s : State) : Host.Outcome State Fault Refusal :=
  pacerWord n 12 [a] (num == 0x002) (do
    csrPriv num
    csrQuiet num
    csrPut num ((← get).me.rd a) none) s

/-- What CSRX writes back: `.set` and `.clr` leave the fixed fields out (R214, log entry 15). -/
def csrxValue (op : CsrOp) (fixed : Nat) (old a : Word) : Word :=
  let base := old &&& ~~~ (BitVec.ofNat 64 fixed)
  match op with
  | .swap => a
  | .set => base ||| a
  | .clr => base &&& ~~~ a

/-- CSRX: read and write in one step (R214); s[D] is the register that RRB named when the word was decoded (R193). -/
def execCsrx (n : Ann) (op : CsrOp) (d a : SReg) (num : BitVec 12) (s : State) : Host.Outcome State Fault Refusal :=
  pacerWord n 12 [a] (num == 0x002) (do
    csrPriv num
    csrQuiet num
    let s ← get
    let old := s.csrRead s.actor num.toNat
    let p := physS s.me.rrb d
    csrPut num (csrxValue op (csrFixed num.toNat) old (s.me.rd a)) (some (p, old))) s

/-- A write that a CSR instruction has been allowed to make, as a step of its own. -/
def stepWrite (r : Option State) (s : State) : Host.Outcome State Fault Refusal := .next (r.getD s)

/-- PTBASE_WRITE. -/
def execPtbaseWrite (core : Nat) (v : Word) (s : State) : Host.Outcome State Fault Refusal :=
  stepWrite (s.writePtbase core v) s
/-- TICKCFG_WRITE. -/
def execTickcfgWrite (core : Nat) (v : Word) (s : State) : Host.Outcome State Fault Refusal :=
  stepWrite (s.writeTickcfg core v) s
/-- FPSR_ACCESS: once every entry pushed before it has completed, the register is read (no value) or written (R145). -/
def execFpsrAccess (core : Nat) (v : Option Word) (s : State) : Host.Outcome State Fault Refusal :=
  match v with
  | some v => if (s.core core).quiet then stepWrite (((s.core core).writeFpsr v).map (s.setCore core)) s else .next s
  | none => .next s
/-- WATCHCTL_WRITE. -/
def execWatchctlWrite (core k : Nat) (v : Word) (s : State) : Host.Outcome State Fault Refusal :=
  stepWrite (s.writeWatchctl core k v) (s.csrRefused core (0x114 + k) v)
/-- TLOG_WRITE. -/
def execTlogWrite (core : Nat) (v : Word) (s : State) : Host.Outcome State Fault Refusal :=
  stepWrite (s.writeTlog core v) s

-- BAR0 (R374).

/-- Are commands outstanding (R374)? -/
def State.outstanding (s : State) : Bool := s.cdone != s.doorv
/-- The value of a ring base: bits 51:6. -/
def ringBase (v : Word) : BitVec 64 := v &&& 0x000FFFFFFFFFFFC0

/-- A host write of a BAR0 register: ring registers are ignored while commands are outstanding; DOOR takes bits 31:0; the others
are read-only (R374). -/
def State.bar0Write (s : State) (off : Nat) (v : Word) : State :=
  match off with
  | 0x0000 => if s.outstanding then s else { s with crbase := ringBase v }
  | 0x0008 => if s.outstanding then s else { s with crsize := v &&& 0xF }
  | 0x0010 => if s.outstanding then s else { s with cpbase := ringBase v }
  | 0x0018 => { s with doorv := fld v 0 32 }
  | _ => s

/-- REGISTER_WRITE: a CSR of a core, or a BAR0 register. -/
def execRegisterWrite (t : RegTarget) (v : Word) (s : State) : Host.Outcome State Fault Refusal :=
  match t with
  | .csr c num => stepWrite (s.csrWrite c num v) (s.csrRefused c num v)
  | .bar0 off => .next (s.bar0Write off v)

end Sys2Proof.Machine
end

