-- ==== Sys2Proof/Machine/System.lean ====
section
/-! DEFINITION. TRAP, BKPT, the return from a trap, and FMT (R175, R176, R214, R350, R352, R353). -/
namespace Sys2Proof.Machine

/-- TRAP: TRAPI with TADDR := n (R352). -/
def execTrap (n : Ann) (num : BitVec 16) (s : State) : Host.Outcome State Fault Refusal :=
  pacerWord n 12 [] false (fun _ => .error (.trap (tr cTRAPI num.toNat))) s

/-- BKPT: BKPT with TADDR := n (R352). -/
def execBkpt (n : Ann) (num : BitVec 16) (s : State) : Host.Outcome State Fault Refusal :=
  pacerWord n 12 [] false (fun _ => .error (.trap (tr cBKPT num.toNat))) s

/-- Was the trap taken for an engine's entry, at the end of a section: TENG names the engine (R347)? -/
def Core.sendTrap (k : Core) : Bool := 1 ≤ fld k.teng 0 3 && fld k.teng 0 3 ≤ 4
/-- The MCALL that goes on after a trap (R353): at the operation that TITER names; after a section-end trap, whose TITER is its entry's,
at the operation before which the trap stopped it: the operations before that one have been executed (R32, R348, log entry 16). -/
def Core.resumed (k : Core) : Option MCall :=
  if k.tpcWritten then none
  else if bit k.mcsw 1 then (if k.sendTrap then k.savedMcall else none)
  else if fld k.titer 56 8 < 0x80 || k.sendTrap then none
  else k.savedMcall.map fun m => { m with idx := fld k.titer 56 5 }
/-- The operation at which the MCALL at an ERET's target begins, where a handler has cleared MCSW.SEND and returns to the word of a
section-end trap's entry (R353). -/
def Core.resumeOp (k : Core) : Nat :=
  if k.tpcWritten || bit k.mcsw 1 || !k.sendTrap || fld k.titer 56 8 < 0x80 then 0 else fld k.titer 56 5

/-- The return from a trap (R353), the counterpart of `State.takeTrap`: the mode and the section context come back, an
interrupted MCALL goes on at the operation that TITER names, and a section-end fault kept while the trap drained becomes pending
(R350). -/
def Core.return (k : Core) : Core :=
  let send := bit k.mcsw 1
  let t := if send then k.taddr.toNat else k.tpc.toNat
  let op := k.resumeOp
  let k := { k with
    mode := bit k.mcsw 0
    wskip := bit k.mcsw 2
    mcsw := setFld k.mcsw 2 1 0
    cur := none
    ctx := k.saved
    mcall := k.resumed
    savedMcall := none
    secFault := k.kept
    kept := none
    retry := false }
  { (if k.tpcWritten || k.saved.atHdr then k.gotoHdr t else k.goto t) with mcallFrom := op }

/-- ERET (R353). A kept section-end fault is taken directly after it (R350). -/
def execEret (n : Ann) (s : State) : Host.Outcome State Fault Refusal :=
  pacerWord n 12 [] false (fun s =>
    if !s.me.mode then .error (.trap (tr cPRIV))
    else
      let s := s.setMe s.me.return
      .ok (.set, if s.me.secFault.isSome then { s with agenda := .sectionEndTrap s.actor :: s.agenda } else s)) s

-- Format words (R176).

def fwA (w : Word) : Nat := fld w 0 4
def fwB (w : Word) : Nat := fld w 4 4
def fwKB (w : Word) : Nat := fld w 8 5
def fwAcc (w : Word) : Bool := bit w 13
def fwAsc (w : Word) : Bool := bit w 14
def fwBsc (w : Word) : Bool := bit w 15
def fwAsp (w : Word) : Bool := bit w 16
def fwBsp (w : Word) : Bool := bit w 17
def fwTa (w : Word) : Bool := bit w 18
def fwTb (w : Word) : Bool := bit w 19
def fwTag (w : Word) : Nat := fld w 24 8

/-- The KB limit of an operand format (R176). -/
def kbLimit (f : Nat) : Nat := if f = 0 then 4 else if f ≤ 2 then 8 else 16
/-- k-steps per cycle of an operand format (R170). -/
def fmtRate (f : Nat) : Nat := if f = 0 then 1 else if f ≤ 2 then 4 else if f ≤ 4 then 8 else 16
/-- The rate and cycle count of a command (R170). -/
def fwRate (w : Word) : Nat := Nat.min (fmtRate (fwA w)) (fmtRate (fwB w))
def fwCyc (w : Word) : Nat := 32 * fwKB w / fwRate w

/-- Is a format word valid (R176)? -/
def fwOk (w : Word) : Bool :=
  let kb := fwKB w
  fwA w ≤ 5 && fwB w ≤ 5 && 1 ≤ kb && kb ≤ 16 && kb ≤ kbLimit (fwA w) && kb ≤ kbLimit (fwB w) &&
    !(fwAsp w && fwBsp w) &&
    (!fwAsp w || (3 ≤ fwA w && !fwTa w && !fwAsc w && (kb == 6 || kb == 12))) &&
    (!fwBsp w || (3 ≤ fwB w && fwTb w && !fwBsc w && (kb == 6 || kb == 12))) &&
    fld w 20 4 == 0 && fld w 32 32 == 0

/-- FMT: push a format word (R175, R214). -/
def execFmt (n : Ann) (a : SReg) (s : State) : Host.Outcome State Fault Refusal :=
  pacerWord n 12 [a] false (fun s =>
    let k := s.me
    let w := k.rd a
    if !fwOk w then .error (.trap (tr cFMTBAD))
    else if k.fmtq.length ≥ 32 then .error (.trap (tr cQOVF 8))
    else .ok (.seq, s.setMe { k with
      fmtq := k.fmtq ++ [w]
      cur := k.cur.map fun p => { p with fmts := p.fmts + 1 } })) s

end Sys2Proof.Machine
end

