-- ==== Sys2Proof/Machine/Push.lean ====
section
/-! DEFINITION. Pushing engine instructions: what the pacer checks, captures and counts, and the queues (R13, R14, R18, R26,
R28, R29, R34, R104–R112, R148, R151, R153, R165, R168, R171, R180–R185, R191, R192, R220, R349). -/
namespace Sys2Proof.Machine

/-- The depth of an engine's queue (R34). -/
def queueDepth : Eng → Nat
  | .mx => 32
  | _ => 64
/-- The queue's number in a QOVF record (R346), also the engine's ENG code (R5). -/
def engCode : Eng → Nat
  | .vl => 1 | .vx => 2 | .vs => 3 | .mx => 4

/-- A rounding mode as an entry keeps it: RM 5 takes FPCR's mode at the push (R20, R143). -/
def captureRm (fpcr : BitVec 64) (m : Rm) : Rm :=
  match m with
  | .dyn => match fld fpcr 0 3 with | 0 => .rne | 1 => .rtz | 2 => .rdn | 3 => .rup | _ => .rna
  | m => m

/-- What a push captures beside the word: the mode, two scalar values, the substituted block, the slots an SRLS frees. -/
structure Capture where
  rm : Rm
  x0 : Word
  x1 : Word
  blk : Option Block
  slots : Nat
  deriving DecidableEq, Repr

def Capture.none : Capture := { rm := .rne, x0 := 0, x1 := 0, blk := .none, slots := 0 }
/-- Capture scalars. -/
def capture (x0 x1 : Word) : Capture := { Capture.none with x0 := x0, x1 := x1 }

/-- Is there room in an engine's queue? A stall while an entry of a begun part is in it, QOVF otherwise (R220). -/
def Core.room (k : Core) (e : Eng) : Except Stop Unit :=
  let q := k.q.filter fun x => x.eng == e
  if q.length < queueDepth e then .ok ()
  else if q.any fun x => k.begun.any fun b => b.1 == x.part then .error .wait
  else .error (.trap (tr cQOVF (engCode e)))

/-- The entry that a push makes. -/
def Core.entry (k : Core) (e : Eng) (i : Instr) (pred : Bool) (c : Capture) (rel : KMap) : Entry :=
  { eng := e, i := i, addr := k.pc, iter := k.iter, resid := k.ctx.hdr.resid, sec := k.ctx.ord,
    part := (k.cur.map fun p => p.id).getD 0, pred := pred, rm := c.rm, en := enables k.fpcr, vb := fld k.rrb 0 8,
    sb := fld k.rrb 8 4,
    x0 := c.x0, x1 := c.x1, blk := c.blk, slots := c.slots, withdrawn := 0, rel := rel }

/-- What a push releases to the engine at scope 0: the pacer's K (R121, R228, R230). The entry brings it to its engine when it begins. -/
def State.pushRel (s : State) (c : Nat) : KMap := s.carried (srcOf c 0) 0 (s.view (srcOf c 0)).k

/-- Execute an engine word (R14, R18, R219, R220, R349): the structural check, then with a true predicate the push-time checks and
effects; the entry is queued, or nothing of the word happens. With a false predicate a parameter block is neither read nor checked (log
entry 47). Where the queue is full of entries not begun and another check of the word fails too (R34, R151), the manual does not say
which trap is taken: the word's own check comes first, then QOVF (R220, log entry 57). -/
def engineWord (n : EAnn) (e : Eng) (i : Instr) (srcs : List SReg) (pre : Core → Option TrapInfo)
    (body : M Capture) (s : State) : Host.Outcome State Fault Refusal :=
  let c := s.actor
  let k := s.me
  if k.slipHeld then .next s
  else
    let k := k.openPart
    let s := s.setMe k
    if k.mode then .next (s.preciseTrap c (tr cILLOP))
    else
      match pre k with
      | some t => .next (s.preciseTrap c t)
      | none =>
        let pr := k.pred n.pr
        match (if pr then k.firstDef srcs else none) with
        | some p => .next (s.preciseTrap c (tr cDFUSE p))
        | none =>
          match (if pr then body s else .ok (Capture.none, s)) with
          | .error x => s.finish c (.error x)
          | .ok (cap, s') =>
            match s'.me.room e with
            | .error x => s.finish c (.error x)
            | .ok _ =>
              let k' := s'.me
              let tile := match i with | .mma _ _ _ _ _ | .mmag _ _ _ _ _ => 1 | _ => 0
              let lrel := match i with | .lrel _ => true | _ => false
              let k'' : Core :=
                { k' with
                  q := k'.q ++ [k'.entry e i pr cap (s'.pushRel c)]
                  ctx := { k'.ctx with tiles := k'.ctx.tiles + tile, lrel := k'.ctx.lrel || lrel } }
              .next (s'.setMe (k''.advance (wordBytes i)))

/-- An engine word with no structural check. -/
def pushWord (n : EAnn) (e : Eng) (i : Instr) (srcs : List SReg) (body : M Capture) (s : State) :
    Host.Outcome State Fault Refusal :=
  engineWord n e i srcs (fun _ => none) body s

-- Parameter blocks (R28, R29).

/-- Bits of the block as a number. -/
def blkField (b lo len : Nat) : Nat := nfld b lo len
/-- Marker `i` (R28). -/
def marker (b i : Nat) : Nat := nfld b (368 - 16 * i) 16
def mkOpk (m : Nat) : Nat := nfld m 12 4
def mkTgt (m : Nat) : Nat := nfld m 6 6
def mkSreg (m : Nat) : SReg := BitVec.ofNat 6 m

/-- Do the block's fixed parts keep R28? -/
def blockOk (b : Nat) : Bool :=
  nfld b 264 8 ≤ 2 && nfld b 272 8 ≤ 13 && nfld b 224 40 == 0 &&
    (List.range 4).all fun i =>
      let m := marker b i
      mkOpk m ≤ 2 && mkTgt m ≤ 8 && (mkOpk m != 0 || (mkTgt m == 0 && mkSreg m == 0))

/-- The block's fields as they stand in the stream. -/
def rawBlock (b : Nat) : Block :=
  { base := nfld b 280 40, efmt := BitVec.ofNat 8 (nfld b 272 8), edge := nfld b 264 8,
    ext := (List.range 4).map fun d => nfld b (56 * d + 36) 20,
    stride := (List.range 4).map fun d => signed 36 (nfld b (56 * d) 36) }

/-- A block's field as an exact integer (R29). -/
def blockGet (x : Block) (tgt : Nat) : Int :=
  if tgt < 4 then (x.ext.getD tgt 0 : Nat) else if tgt < 8 then x.stride.getD (tgt - 4) 0 else (x.base : Nat)
/-- The limits of a field (R29). -/
def blockLim (tgt : Nat) : Int × Int :=
  if tgt < 4 then (0, 2 ^ 20 - 1) else if tgt < 8 then (-2 ^ 35, 2 ^ 35 - 1) else (0, 2 ^ 40 - 1)
def blockSet (x : Block) (tgt : Nat) (v : Int) : Block :=
  if tgt < 4 then { x with ext := x.ext.set tgt v.toNat }
  else if tgt < 8 then { x with stride := x.stride.set (tgt - 4) v }
  else { x with base := v.toNat }

/-- Apply markers 0–3 in order (R29). -/
def substitute (k : Core) (b : Nat) : Except Stop Block :=
  (List.range 4).foldl (fun r i =>
    match r with
    | .error e => .error e
    | .ok x =>
      let m := marker b i
      if mkOpk m = 0 then .ok x
      else
        let p := physS k.rrb (mkSreg m)
        if k.isDef p then .error (.trap (tr cDFUSE p))
        else
          let v := (k.rdP p).toInt + (if mkOpk m = 2 then blockGet x (mkTgt m) else 0)
          if v < (blockLim (mkTgt m)).1 ∨ (blockLim (mkTgt m)).2 < v then .error (.trap (tr cRANGE))
          else .ok (blockSet x (mkTgt m) v)) (.ok (rawBlock b))

/-- The substituted block of the word at the program counter, with R28's checks and the EFMT check of R104 and R95. The manual does not
order them: a deferred s[A] (DFUSE) comes before the traps of the block's fetch and FMTBAD, then R28's FMTBAD, then the markers' RANGE and
DFUSE, then the FMTBAD of EFMT 6 and 13 (log entry 47). -/
def readBlock : M Block := fun s =>
  let k := s.me
  match s.fetch s.actor (k.pc + 12) 48 with
  | .error e => .error e
  | .ok (b, s) =>
    if !blockOk b then .error (.trap (tr cFMTBAD))
    else
      match substitute k b with
      | .error e => .error e
      | .ok x => if x.efmt = 6 ∨ x.efmt = 13 then .error (.trap (tr cFMTBAD)) else .ok (x, s)

/-- A block's element format and width. -/
def Block.fmt (x : Block) : Fmt := (Fmt.ofCode (x.efmt.setWidth 4)).getD .f32
def Block.width (x : Block) : Nat := x.fmt.bytes
/-- The number of elements the walk forms. -/
def Block.count (x : Block) : Nat := x.ext.foldl (· * ·) 1
/-- The addresses of a walk from `base`, dimension 0 fastest (R95, R106). -/
def walkFrom (base : Int) : List (Nat × Int) → List Int
  | [] => [base]
  | (e, st) :: l => (List.range e).flatMap fun i => walkFrom (base + i * st) l
/-- a(n) in order of n. -/
def Block.addrs (x : Block) (base : Int) : List Int := walkFrom base (x.ext.zip x.stride).reverse

-- Checks on scratchpad addresses (R106–R110).

/-- 8 MiB (R99). -/
def spadSize : Int := 2 ^ 23
/-- A whole-register access: `a` a multiple of 128, and 1536 bytes in range (R106). -/
def wholeCheck (a : Int) : M Unit := fun s =>
  if a % 128 ≠ 0 then .error (.trap (tr cALIGN (BitVec.ofInt 64 a).toNat))
  else if a < 0 ∨ spadSize < a + 1536 then .error (.trap (tr cRANGE))
  else .ok ((), s)
/-- The offset a word forms: exact and signed (R106). -/
def Core.offset (k : Core) (a : SReg) (imm : BitVec 32) : Int := (k.rd a).toInt + imm.toInt

/-- A block access, checked at the push (R106, R109). Where a VST breaks several of these rules the manual names no first: the model takes
the FMTBAD of EDGE 1 first, then the element count, then the alignment (log entry 47). -/
def blockCheck (x : Block) (b : Int) (store : Bool) : M Unit := fun s =>
  let z := x.width
  if store ∧ x.edge = 1 then .error (.trap (tr cFMTBAD))
  else if 1536 / z < x.count then .error (.trap (tr cRANGE))
  else if b % z ≠ 0 ∨ x.stride.any (fun st => st % (z : Int) != 0) then
    .error (.trap (tr cALIGN (BitVec.ofInt 64 b).toNat))
  else if x.edge = 2 ∧ (x.addrs b).any (fun a => a < 0 || spadSize - z < a) then .error (.trap (tr cRANGE))
  else .ok ((), s)

/-- The push of VLD and VST (R106, R109). A base above 2^62 puts every address above the scratchpad, as 2^62 does. -/
def blockPush (p store : Bool) (a : SReg) (imm : BitVec 32) : M Capture := do
  let k ← getMe
  if p then
    let x ← readBlock
    let b := (k.rd a).toInt + x.base
    blockCheck x b store
    return { capture (BitVec.ofInt 64 (min b (2 ^ 62))) 0 with blk := some x }
  else
    wholeCheck (k.offset a imm)
    return capture (BitVec.ofInt 64 (k.offset a imm)) 0

/-- The push of a gather or scatter: the base lies in 0 .. 2^23 − 1 (R108, R110). -/
def basePush (b : SReg) : M Capture := do
  let k ← getMe
  trapIf (2 ^ 23 ≤ (k.rd b).toNat) cRANGE
  return capture (k.rd b) 0

/-- VLD. -/
def execVld (n : EAnn) (p : Bool) (d : VReg) (a : SReg) (imm : BitVec 32) (s : State) :
    Host.Outcome State Fault Refusal :=
  pushWord n .vl (.vld n p d a imm) [a] (blockPush p false a imm) s
/-- VLDG. -/
def execVldg (n : EAnn) (f : Fmt) (clamp : Bool) (d a : VReg) (b : SReg) (s : State) :
    Host.Outcome State Fault Refusal :=
  pushWord n .vl (.vldg n f clamp d a b) [b] (basePush b) s
/-- VLDB (R107). -/
def execVldb (n : EAnn) (f : Fmt) (d : VReg) (a : SReg) (imm : BitVec 32) (s : State) :
    Host.Outcome State Fault Refusal :=
  pushWord n .vl (.vldb n f d a imm) [a] (do
    let x := (← getMe).offset a imm
    trapIf (x % f.bytes != 0) cALIGN (BitVec.ofInt 64 x).toNat
    trapIf (x < 0 || spadSize < x + f.bytes) cRANGE
    return capture (BitVec.ofInt 64 x) 0) s

/-- The claim check of SLD, SRLS and the tile commands (R180). -/
def slotCheck (q : Nat) : M Unit := fun s =>
  if s.me.view32.getLsbD q then .ok ((), s)
  else
    match (s.team (teamOf s.actor)).owner.find q with
    | some x => .error (.trap (tr (if x ≠ s.actor then cSLOTBUSY else cSLOTFREE) q))
    | none => .error (.trap (tr cSLOTFREE q))
/-- Check a list of slots, in order. -/
def slotChecks : List Nat → M Unit
  | [] => pure ()
  | q :: l => do slotCheck q; slotChecks l

/-- SLD (R112). -/
def execSld (n : EAnn) (sideband : Bool) (q : BitVec 5) (a b : SReg) (imm : BitVec 32) (s : State) :
    Host.Outcome State Fault Refusal :=
  pushWord n .vl (.sld n sideband q a b imm) [a, b] (do
    let k ← getMe
    let x := (k.rd a).toNat
    let y := (k.rd b).toNat
    let len := imm.toNat
    trapIf (x % 128 != 0) cALIGN x
    trapIf (y % 128 != 0) cALIGN y
    trapIf (len % 128 != 0) cALIGN len
    trapIf (len < 128 || 2 ^ 23 < x + len || (if sideband then 2048 else 65536) < y + len) cRANGE
    slotCheck q.toNat
    return capture (k.rd a) (k.rd b)) s

/-- VST. -/
def execVst (n : EAnn) (p : Bool) (a : SReg) (b : VReg) (imm : BitVec 32) (s : State) :
    Host.Outcome State Fault Refusal :=
  pushWord n .vs (.vst n p a b imm) [a] (blockPush p true a imm) s
/-- VSTS. -/
def execVsts (n : EAnn) (f : Fmt) (a b : VReg) (c : SReg) (s : State) : Host.Outcome State Fault Refusal :=
  pushWord n .vs (.vsts n f a b c) [c] (basePush c) s
/-- VSTM. -/
def execVstm (n : EAnn) (f : Fmt) (a : SReg) (b c : VReg) (imm : BitVec 32) (s : State) :
    Host.Outcome State Fault Refusal :=
  pushWord n .vs (.vstm n f a b c imm) [a] (do
    let k ← getMe
    wholeCheck (k.offset a imm)
    return capture (BitVec.ofInt 64 (k.offset a imm)) 0) s

-- Vector execute (R153).

/-- The push of a VX instruction that checks nothing. -/
def vxPush (n : EAnn) (i : Instr) (rm : Rm) (s : State) : Host.Outcome State Fault Refusal :=
  pushWord n .vx i [] (do return { Capture.none with rm := captureRm (← getMe).fpcr rm }) s

def execVadd (n : EAnn) (o : Vf2) (s : State) : Host.Outcome State Fault Refusal := vxPush n (.vadd n o) o.rm s
def execVsub (n : EAnn) (o : Vf2) (s : State) : Host.Outcome State Fault Refusal := vxPush n (.vsub n o) o.rm s
def execVmul (n : EAnn) (o : Vf2) (s : State) : Host.Outcome State Fault Refusal := vxPush n (.vmul n o) o.rm s
def execVfma (n : EAnn) (o : Vf3) (s : State) : Host.Outcome State Fault Refusal := vxPush n (.vfma n o) o.rm s
def execVfms (n : EAnn) (o : Vf3) (s : State) : Host.Outcome State Fault Refusal := vxPush n (.vfms n o) o.rm s
def execVfnma (n : EAnn) (o : Vf3) (s : State) : Host.Outcome State Fault Refusal := vxPush n (.vfnma n o) o.rm s
def execVmin (n : EAnn) (o : Vf2) (s : State) : Host.Outcome State Fault Refusal := vxPush n (.vmin n o) o.rm s
def execVmax (n : EAnn) (o : Vf2) (s : State) : Host.Outcome State Fault Refusal := vxPush n (.vmax n o) o.rm s
def execVabs (n : EAnn) (o : Vf1) (s : State) : Host.Outcome State Fault Refusal := vxPush n (.vabs n o) o.rm s
def execVneg (n : EAnn) (o : Vf1) (s : State) : Host.Outcome State Fault Refusal := vxPush n (.vneg n o) o.rm s
def execVdiv (n : EAnn) (o : Vf2) (s : State) : Host.Outcome State Fault Refusal := vxPush n (.vdiv n o) o.rm s
def execVsqrt (n : EAnn) (o : Vf1) (s : State) : Host.Outcome State Fault Refusal := vxPush n (.vsqrt n o) o.rm s
def execVrsq (n : EAnn) (o : Vf1) (s : State) : Host.Outcome State Fault Refusal := vxPush n (.vrsq n o) o.rm s
def execVrcp (n : EAnn) (o : Vf1) (s : State) : Host.Outcome State Fault Refusal := vxPush n (.vrcp n o) o.rm s
def execVexp2 (n : EAnn) (o : Vf1) (s : State) : Host.Outcome State Fault Refusal := vxPush n (.vexp2 n o) o.rm s
def execVlog2 (n : EAnn) (o : Vf1) (s : State) : Host.Outcome State Fault Refusal := vxPush n (.vlog2 n o) o.rm s
def execViadd (n : EAnn) (o : Vi2) (s : State) : Host.Outcome State Fault Refusal := vxPush n (.viadd n o) .rne s
def execVisub (n : EAnn) (o : Vi2) (s : State) : Host.Outcome State Fault Refusal := vxPush n (.visub n o) .rne s
def execVimul (n : EAnn) (o : Vi2) (s : State) : Host.Outcome State Fault Refusal := vxPush n (.vimul n o) .rne s
def execVimad (n : EAnn) (o : Vi3) (s : State) : Host.Outcome State Fault Refusal := vxPush n (.vimad n o) .rne s
def execVimin (n : EAnn) (o : Vi2) (s : State) : Host.Outcome State Fault Refusal := vxPush n (.vimin n o) .rne s
def execVimax (n : EAnn) (o : Vi2) (s : State) : Host.Outcome State Fault Refusal := vxPush n (.vimax n o) .rne s
def execVand (n : EAnn) (o : Vi2) (s : State) : Host.Outcome State Fault Refusal := vxPush n (.vand n o) .rne s
def execVor (n : EAnn) (o : Vi2) (s : State) : Host.Outcome State Fault Refusal := vxPush n (.vor n o) .rne s
def execVxor (n : EAnn) (o : Vi2) (s : State) : Host.Outcome State Fault Refusal := vxPush n (.vxor n o) .rne s
def execVshl (n : EAnn) (o : Vi2) (s : State) : Host.Outcome State Fault Refusal := vxPush n (.vshl n o) .rne s
def execVshr (n : EAnn) (o : Vi2) (s : State) : Host.Outcome State Fault Refusal := vxPush n (.vshr n o) .rne s
def execVsar (n : EAnn) (o : Vi2) (s : State) : Host.Outcome State Fault Refusal := vxPush n (.vsar n o) .rne s
def execVclz (n : EAnn) (o : Vi1) (s : State) : Host.Outcome State Fault Refusal := vxPush n (.vclz n o) .rne s
def execVpopc (n : EAnn) (o : Vi1) (s : State) : Host.Outcome State Fault Refusal := vxPush n (.vpopc n o) .rne s

/-- Change the counters of the current part (R204). -/
def Core.modPart (k : Core) (f : Part → Part) : Core := { k with cur := k.cur.map f }

/-- VCMP: MSKDEPTH rises, MSKOVF at 32 (R151). -/
def execVcmp (n : EAnn) (c : VCond) (f : Fmt) (nest : Bool) (a b : VReg) (s : State) :
    Host.Outcome State Fault Refusal :=
  pushWord n .vx (.vcmp n c f nest a b) [] (do
    trapIf ((← getMe).mskdepth == 32) cMSKOVF
    modMe fun k => { k.modPart fun p => { p with vcmps := p.vcmps + 1 } with mskdepth := k.mskdepth + 1 }
    return Capture.none) s
/-- VSEL. -/
def execVsel (n : EAnn) (d a b : VReg) (s : State) : Host.Outcome State Fault Refusal :=
  vxPush n (.vsel n d a b) .rne s
/-- VCVT. -/
def execVcvt (n : EAnn) (dst : Fmt) (rm : Rm) (sat : Bool) (d a : VReg) (src : Fmt) (part : BitVec 2) (s : State) :
    Host.Outcome State Fault Refusal :=
  vxPush n (.vcvt n dst rm sat d a src part) rm s
/-- VMOV. -/
def execVmov (n : EAnn) (d a : VReg) (s : State) : Host.Outcome State Fault Refusal :=
  vxPush n (.vmov n d a) .rne s
/-- VBCAST: the scalar is read at the push (R13). -/
def execVbcast (n : EAnn) (f : Fmt) (d : VReg) (b : SrcB) (s : State) : Host.Outcome State Fault Refusal :=
  pushWord n .vx (.vbcast n f d b) (srcRegs b) (do
    let k ← getMe
    return capture (match b with | .reg r => k.rd r | .imm x => x.setWidth 64) 0) s
/-- VPERM. -/
def execVperm (n : EAnn) (f : Fmt) (d a b c : VReg) (s : State) : Host.Outcome State Fault Refusal :=
  vxPush n (.vperm n f d a b c) .rne s
/-- VROT. -/
def execVrot (n : EAnn) (f : Fmt) (d a : VReg) (imm : BitVec 32) (s : State) : Host.Outcome State Fault Refusal :=
  vxPush n (.vrot n f d a imm) .rne s
/-- VSORT. -/
def execVsort (n : EAnn) (f : Fmt) (desc kv : Bool) (d a c : VReg) (s : State) : Host.Outcome State Fault Refusal :=
  vxPush n (.vsort n f desc kv d a c) .rne s
/-- VRED. -/
def execVred (n : EAnn) (o : VRedOp) (s : State) : Host.Outcome State Fault Refusal := vxPush n (.vred n o) o.rm s
/-- VSCAN. -/
def execVscan (n : EAnn) (o : VRedOp) (s : State) : Host.Outcome State Fault Refusal := vxPush n (.vscan n o) o.rm s
/-- MINV: MSKUNF on an empty stack (R151). -/
def execMinv (n : EAnn) (s : State) : Host.Outcome State Fault Refusal :=
  pushWord n .vx (.minv n) [] (do
    trapIf ((← getMe).mskdepth == 0) cMSKUNF
    return Capture.none) s
/-- MPOP: MSKDEPTH falls, MSKUNF on an empty stack (R151). -/
def execMpop (n : EAnn) (s : State) : Host.Outcome State Fault Refusal :=
  pushWord n .vx (.mpop n) [] (do
    trapIf ((← getMe).mskdepth == 0) cMSKUNF
    modMe fun k => { k.modPart fun p => { p with mpops := p.mpops + 1 } with mskdepth := k.mskdepth - 1 }
    return Capture.none) s
/-- MSKIP. -/
def execMskip (n : EAnn) (imm : BitVec 32) (s : State) : Host.Outcome State Fault Refusal :=
  vxPush n (.mskip n imm) .rne s
/-- VOQ: QOVF at 16 outcomes, else the outcome count rises (R165). -/
def execVoq (n : EAnn) (src : VoqSrc) (a : VReg) (s : State) : Host.Outcome State Fault Refusal :=
  pushWord n .vx (.voq n src a) [] (do
    trapIf ((← getMe).outcnt == 16) cQOVF 9
    modMe fun k => { k.modPart fun p => { p with voqs := p.voqs + 1 } with outcnt := k.outcnt + 1 }
    return Capture.none) s

/-- The push of VACR and VACW: E + L ≤ 16,384, or RANGE (R168). -/
def framePush (b : SReg) (f : Fmt) (rm : Rm) : M Capture := do
  let k ← getMe
  trapIf (16384 < (k.rd b).toNat + 1536 / f.bytes) cRANGE
  return { capture (k.rd b) 0 with rm := captureRm k.fpcr rm }

/-- VACR. -/
def execVacr (n : EAnn) (dst : Fmt) (rm : Rm) (sat clr : Bool) (d : VReg) (a : BitVec 3) (b : SReg) (s : State) :
    Host.Outcome State Fault Refusal :=
  pushWord n .vx (.vacr n dst rm sat clr d a b) [b] (framePush b dst rm) s
/-- VACW. -/
def execVacw (n : EAnn) (src : Fmt) (acc : Bool) (d : BitVec 3) (a : VReg) (b : SReg) (s : State) :
    Host.Outcome State Fault Refusal :=
  pushWord n .vx (.vacw n src acc d a b) [b] (framePush b src .rne) s

-- Team array (R171, R181–R185, R191, R192).

/-- The structural check of a tile command, whatever its predicate (R171). -/
def tilePre (k : Core) : Option TrapInfo :=
  if !k.ctx.hdr.lease || k.ctx.lrel || 16 ≤ k.ctx.tiles then some (tr cLEASELEN) else none

/-- MMA (R185). -/
def execMma (n : EAnn) (d : BitVec 3) (a b : BitVec 5) (cyc : BitVec 8) (s : State) :
    Host.Outcome State Fault Refusal :=
  engineWord n .mx (.mma n d a b cyc) [] tilePre (do
    slotChecks [a.toNat, b.toNat]
    return Capture.none) s

/-- Byte `j` of an MMAG block word, its SKIP bit and its slot (R184). -/
def mmagSkip (x : Word) (j : Nat) : Bool := bit x (8 * j + 7)
def mmagSlot (x : Word) (j : Nat) : Nat := fld x (8 * j) 5

/-- MMAG (R184, R185). Where bits of s[C] are out of range and a slot is not claimed as well, the manual orders neither trap before the
other: RANGE comes first (log entry 58). -/
def execMmag (n : EAnn) (d : BitVec 3) (a : BitVec 5) (c : SReg) (cyc : BitVec 8) (s : State) :
    Host.Outcome State Fault Refusal :=
  engineWord n .mx (.mmag n d a c cyc) [c] tilePre (do
    let x := (← getMe).rd c
    trapIf (x &&& 0x6060606060606060 != 0) cRANGE
    slotChecks (a.toNat :: ((List.range 8).filter fun j => !mmagSkip x j).map (mmagSlot x))
    return capture x 0) s

/-- The slots an SCLAIM or SRLS names, as a mask; none where s[A]<63:32> is nonzero (R181). -/
def slotMask (k : Core) : SlotSet → Option Nat
  | .one q => some (2 ^ q.toNat)
  | .mask r => if (k.rd r).toNat < 2 ^ 32 then some (k.rd r).toNat else none
/-- The scalars it reads. -/
def slotSrcs : SlotSet → List SReg
  | .one _ => []
  | .mask r => [r]
/-- The slots of a mask, in rising order. -/
def maskSlots (m : Nat) : List Nat := (List.range 32).filter fun q => m.testBit q

/-- Does a core have a pushed SRLS of slot `q` that has not begun (R182)? -/
def Core.releasing (k : Core) (q : Nat) : Bool := k.q.any fun e => e.slots.testBit q

/-- SCLAIM's loop over its set (R182). The manual does not say in which order it goes: in rising slot number, and the first slot that
fails decides the stall or the trap and its TADDR (log entry 58). -/
def claimCheck : List Nat → M Unit
  | [] => pure ()
  | q :: l => fun s =>
    let t := s.team (teamOf s.actor)
    match t.owner.find q with
    | none => claimCheck l s
    | some x =>
      if x = s.actor then claimCheck l s
      else if (s.core x).crew = s.me.crew ∧ (s.core x).releasing q then .error .wait
      else .error (.trap (tr cSLOTBUSY q))

/-- SCLAIM (R182): claims when pushed; a claim withdraws the release of the slot by this core's own pending SRLS. -/
def execSclaim (n : EAnn) (set : SlotSet) (s : State) : Host.Outcome State Fault Refusal :=
  pushWord n .mx (.sclaim n set) (slotSrcs set) (fun s =>
    match slotMask s.me set with
    | none => .error (.trap (tr cRANGE))
    | some m =>
      (do
        claimCheck (maskSlots m)
        modify fun (s : State) =>
          let t := s.team (teamOf s.actor)
          let s := s.setTeam (teamOf s.actor)
            { t with owner := (maskSlots m).foldl (fun o q => o.upd q s.actor) t.owner }
          let k := s.me
          s.setMe { k with
            view32 := k.view32 ||| BitVec.ofNat 32 m
            q := k.q.map fun (e : Entry) => { e with withdrawn := e.withdrawn ||| (e.slots &&& m) } }
        return Capture.none) s) s

/-- SRLS: every slot must be claimed; the view marks them unclaimed at the push (R183). Where several are not, the lowest is reported
(log entry 58). -/
def execSrls (n : EAnn) (set : SlotSet) (s : State) : Host.Outcome State Fault Refusal :=
  pushWord n .mx (.srls n set) (slotSrcs set) (fun s =>
    match slotMask s.me set with
    | none => .error (.trap (tr cRANGE))
    | some m =>
      (do
        slotChecks (maskSlots m)
        modMe fun k => { k with view32 := k.view32 &&& ~~~ (BitVec.ofNat 32 m) }
        return { Capture.none with slots := m }) s) s

/-- FZERO. -/
def execFzero (n : EAnn) (d : BitVec 3) (s : State) : Host.Outcome State Fault Refusal :=
  pushWord n .mx (.fzero n d) [] (return Capture.none) s
/-- LREL: no tile command of the section may follow it, whatever its predicate (R171); it ends the lease when it begins (R192). -/
def execLrel (n : EAnn) (s : State) : Host.Outcome State Fault Refusal :=
  pushWord n .mx (.lrel n) [] (return Capture.none) s

end Sys2Proof.Machine
end

