-- ==== Sys2Proof/Machine/Vx.lean ====
section
/-! DEFINITION. The vector execute engine: what an entry computes from the registers and the top mask of its begin cycle
(R147–R168). -/
namespace Sys2Proof.Machine

-- Register views (R147, R148).

/-- The fields of a number, `n` of them, lowest first. -/
def splitBits (bits : Nat) : Nat → Nat → List Nat
  | 0, _ => []
  | n + 1, x => x % 2 ^ bits :: splitBits bits n (x / 2 ^ bits)
/-- The number whose fields are given. -/
def packBits (bits : Nat) : List Nat → Nat
  | [] => 0
  | x :: l => x % 2 ^ bits + 2 ^ bits * packBits bits l

/-- The elements of width `z` of a register. -/
def elems (z : Nat) (v : VBits) : List Nat := splitBits (8 * z) (1536 / z) v.toNat
/-- The register whose elements are given; those past the list are zero. -/
def ofElems (z : Nat) (l : List Nat) : VBits := BitVec.ofNat 12288 (packBits (8 * z) l)
/-- The mask bits of the elements: each belongs to the lane of its lowest byte. -/
def enabled (m : Mask) (z : Nat) : List Bool := (List.range (1536 / z)).map fun i => m.getLsbD (i * z / 4)

/-- The physical register a name means under VB (R148). -/
def physV (vb : Nat) (r : Nat) : Nat := if r < 768 then r else 768 + (r - 768 + vb) % 256
/-- A physical vector register. -/
def Core.vreg (k : Core) (p : Nat) : VBits := k.v.get 0 p
/-- Write the bytes of a register that a mask selects (R147). -/
def Core.writeV (k : Core) (w : VWrite) : Core :=
  { k with v := k.v.upd w.reg ((k.vreg w.reg &&& ~~~ w.mask) ||| (w.val &&& w.mask)) }
/-- The top of the mask stack; an empty stack reads all ones (R151). -/
def Core.top (k : Core) : Mask := k.masks.headD (BitVec.allOnes 384)

/-- What an entry will write at its landing. -/
structure VxOut where
  vws : List VWrite
  flags : Nat
  mop : Option MaskOp
  out : Option Bool
  deriving DecidableEq, Repr

def VxOut.none : VxOut := { vws := [], flags := 0, mop := .none, out := .none }

/-- A write of the elements that a list of bits selects. -/
def selWrite (p z : Nat) (en : List Bool) (vals : List Nat) : VWrite :=
  { reg := p, mask := ofElems z (en.map fun b => if b then 2 ^ (8 * z) - 1 else 0), val := ofElems z vals }
/-- A write of a whole register. -/
def fullWrite (p z : Nat) (vals : List Nat) : VWrite :=
  { reg := p, mask := BitVec.allOnes 12288, val := ofElems z vals }

/-- An element-wise operation under the mask (R152): a disabled element writes nothing and raises nothing. -/
def mapElems (p z : Nat) (top : Mask) (a b c : List Nat) (f : Nat → Nat → Nat → Nat × Nat) : VxOut :=
  let en := enabled top z
  let rs := (en.zip (a.zip (b.zip c))).map fun x => if x.1 then f x.2.1 x.2.2.1 x.2.2.2 else (0, 0)
  { VxOut.none with
    vws := [selWrite p z en (rs.map fun r => r.1)], flags := rs.foldl (fun fl r => fl ||| r.2) 0 }

/-- How an entry reads a register name: physical number and elements. -/
structure VxCtx where
  k : Core
  vb : Nat
  rm : Rm

def VxCtx.p (x : VxCtx) (r : VReg) : Nat := physV x.vb r.toNat
def VxCtx.el (x : VxCtx) (z : Nat) (r : VReg) : List Nat := elems z (x.k.vreg (x.p r))

/-- A floating-point operation of one, two or three sources, rounded once (R154). -/
def vf1 (x : VxCtx) (o : Vf1) (m : Rm) (f : FVal → FVal × Nat) : VxOut :=
  let a := x.el o.fmt.bytes o.a
  mapElems (x.p o.d) o.fmt.bytes x.k.top a a a fun u _ _ => roundFl o.fmt (f (decodeF o.fmt u)) m o.sat
def vf2 (x : VxCtx) (o : Vf2) (f : FVal → FVal → FVal × Nat) : VxOut :=
  let a := x.el o.fmt.bytes o.a
  mapElems (x.p o.d) o.fmt.bytes x.k.top a (x.el o.fmt.bytes o.b) a fun u v _ =>
    roundFl o.fmt (f (decodeF o.fmt u) (decodeF o.fmt v)) x.rm o.sat
def vf3 (x : VxCtx) (o : Vf3) (f : FVal → FVal → FVal → FVal × Nat) : VxOut :=
  mapElems (x.p o.d) o.fmt.bytes x.k.top (x.el o.fmt.bytes o.a) (x.el o.fmt.bytes o.b) (x.el o.fmt.bytes o.c)
    fun u v w => roundFl o.fmt (f (decodeF o.fmt u) (decodeF o.fmt v) (decodeF o.fmt w)) x.rm o.sat

/-- a × b + c with one exact sum; the flags of both. -/
def fmaV (rdn : Bool) (a b c : FVal) : FVal × Nat :=
  let p := fmul a b
  let s := exactSum rdn [p.1, c]
  (s.1, p.2 ||| s.2)

/-- An integer operation: exact, wrapped or clamped (R157). -/
def vi2 (x : VxCtx) (o : Vi2) (f : Int → Int → Int) : VxOut :=
  let a := x.el o.fmt.bytes o.a
  mapElems (x.p o.d) o.fmt.bytes x.k.top a (x.el o.fmt.bytes o.b) a fun u v _ =>
    (intResult o.fmt o.sat (f (intVal o.fmt u) (intVal o.fmt v)), 0)
/-- A bit operation on w-bit values (R157). -/
def vb2 (x : VxCtx) (o : Vi2) (f : Nat → Nat → Nat → Nat) : VxOut :=
  let a := x.el o.fmt.bytes o.a
  mapElems (x.p o.d) o.fmt.bytes x.k.top a (x.el o.fmt.bytes o.b) a fun u v _ => (f (fmtBits o.fmt) u v, 0)
def vb1 (x : VxCtx) (o : Vi1) (f : Nat → Nat → Nat) : VxOut :=
  let a := x.el o.fmt.bytes o.a
  mapElems (x.p o.d) o.fmt.bytes x.k.top a a a fun u _ _ => (f (fmtBits o.fmt) u, 0)

/-- The shifts (R157). -/
def shlW (w a n : Nat) : Nat := if w ≤ n then 0 else a * 2 ^ n % 2 ^ w
def shrW (w a n : Nat) : Nat := if w ≤ n then 0 else a / 2 ^ n
def sarW (w a n : Nat) : Nat := wrap w (signed w a / 2 ^ Nat.min n w)
/-- Leading zeros of a w-bit value, and one bits. -/
def clzW (w a : Nat) : Nat := if a = 0 then w else w - 1 - a.log2
def popcW (w a : Nat) : Nat := ((List.range w).filter fun i => a.testBit i).length

-- Compare, convert (R159, R161).

/-- Compare as numbers: −0 equals +0. -/
def FVal.numCmp (a b : FVal) : Ordering :=
  let z : FVal → FVal := fun x => match x with | .zero _ => .zero false | x => x
  (z a).cmp (z b)
/-- A floating-point condition of VCMP and its flag (R159). -/
def fcond (c : VCond) (a b : FVal) : Bool × Nat :=
  let nan := a.isNan || b.isNan
  let sig := a.sig ||| b.sig
  let o := a.numCmp b
  let any := if nan then fNV else 0
  match c with
  | .eq => (!nan && o == .eq, sig)
  | .ne => (nan || o != .eq, sig)
  | .un => (nan, sig)
  | .lt => (!nan && o == .lt, any)
  | .le => (!nan && o != .gt, any)
  | .gt => (!nan && o == .gt, any)
  | .ge => (!nan && o != .lt, any)
/-- An integer condition. -/
def icond (c : VCond) (a b : Int) : Bool :=
  match c with
  | .eq => a == b | .ne => a != b | .lt => a < b | .le => a ≤ b | .gt => b < a | .ge => b ≤ a | .un => false

/-- VCMP: a mask bit for every lane (R159). -/
def vcmpOut (x : VxCtx) (c : VCond) (f : Fmt) (nest : Bool) (a b : VReg) : VxOut :=
  let rs := ((x.el 4 a).zip (x.el 4 b)).map fun p =>
    if f.isInt then (icond c (intVal f p.1) (intVal f p.2), 0) else fcond c (decodeF f p.1) (decodeF f p.2)
  let m : Mask := BitVec.ofNat 384 (packBits 1 (rs.map fun r => r.1.toNat))
  { VxOut.none with
    flags := rs.foldl (fun fl r => fl ||| r.2) 0, mop := some (.push (if nest then m &&& x.k.top else m)) }

/-- VCVT (R161). -/
def vcvtOut (x : VxCtx) (dst : Fmt) (sat : Bool) (d a : VReg) (src : Fmt) (part : Nat) : VxOut :=
  let zf := src.bytes
  let zt := dst.bytes
  let n := 1536 / Nat.max zf zt
  let s := (x.el zf a).drop (if zt < zf then 0 else part * n)
  let off := if zt < zf then part * n else 0
  let en := (enabled x.k.top zt).zipIdx.map fun e => e.1 && off ≤ e.2 && e.2 < off + n
  let rs := (List.replicate off (0, 0)) ++ ((s.take n).zip ((en.drop off).take n)).map fun p =>
    if p.2 then convert p.1 src dst x.rm sat else (0, 0)
  { VxOut.none with
    vws := [selWrite (x.p d) zt en (rs.map fun r => r.1)], flags := rs.foldl (fun fl r => fl ||| r.2) 0 }

-- Permute, rotate, sort (R162, R163).

/-- The indices of a gather, VPERM's and VLDG's: lane i mod 384 of register v[r + ⌊i / 384⌋] (R108, R162). -/
def VxCtx.indices (x : VxCtx) (z : Nat) (r : VReg) : List Nat :=
  ((List.range (Nat.max 1 (4 / z))).flatMap fun j => elems 4 (x.k.vreg (physV x.vb (r.toNat + j)))).take (1536 / z)

/-- The place of a key in its order; numbers lie below 2^40, NaNs above (R163). -/
def sortKey (f : Fmt) (desc : Bool) (b : Nat) : Int :=
  let dir (x : Int) : Int := if desc then -x else x
  if f.isInt then dir (intVal f b)
  else if (decodeF f b).isNan then 2 ^ 40
  else
    let mag := nfld b 0 (fmtBits f - 1)
    dir (if nfld b (fmtBits f - 1) 1 = 1 then -(mag : Int) - 1 else mag)

/-- Insert before the first element whose key is not smaller: a stable insertion from the right. -/
def sortInsert (x : Int × Nat × Nat) : List (Int × Nat × Nat) → List (Int × Nat × Nat)
  | [] => [x]
  | y :: l => if x.1 ≤ y.1 then x :: y :: l else y :: sortInsert x l
/-- Sort triples by key, equal keys in their order. -/
def sortKeys (l : List (Int × Nat × Nat)) : List (Int × Nat × Nat) := l.foldr sortInsert []

/-- VSORT (R163). -/
def vsortOut (x : VxCtx) (f : Fmt) (desc kv : Bool) (d a c : VReg) : VxOut :=
  let z := f.bytes
  let keys := x.el z a
  let pay := if kv then x.el z c else keys
  let r := sortKeys ((keys.zip pay).map fun p => (sortKey f desc p.1, p.1, p.2))
  { VxOut.none with
    vws := fullWrite (x.p d) z (r.map fun p => p.2.1) ::
      (if kv then [fullWrite (physV x.vb (d.toNat + 1)) z (r.map fun p => p.2.2)] else []) }

-- Reductions and scans (R164).

/-- The identity of a reduction (R140, R164). -/
def redId (op : RedOp) (f : Fmt) : Nat :=
  if f.isInt then
    match op with
    | .sum => 0 | .max => wrap (fmtBits f) (intMin f) | .min => wrap (fmtBits f) (intMax f)
  else
    match op with
    | .sum => signBit f true | .max => signBit f true + infBits f | .min => infBits f

/-- One application of a reduction's operation to encodings that carry flags. -/
def redOp (o : VRedOp) (m : Rm) (p q : Nat × Nat) : Nat × Nat :=
  let r : Nat × Nat :=
    if o.fmt.isInt then
      let a := intVal o.fmt p.1
      let b := intVal o.fmt q.1
      (match o.op with
        | .sum => intResult o.fmt o.sat (a + b)
        | .max => wrap (fmtBits o.fmt) (max a b)
        | .min => wrap (fmtBits o.fmt) (min a b), 0)
    else
      let a := decodeF o.fmt p.1
      let b := decodeF o.fmt q.1
      match o.op with
      | .sum => roundFl o.fmt (exactSum (m == .rdn) [a, b]) m o.sat
      | .max => roundFl o.fmt (fmax a b) .rne false
      | .min => roundFl o.fmt (fmin a b) .rne false
  (r.1, r.2 ||| p.2 ||| q.2)

/-- The elements a reduction takes: the identity under a 0 of the mask. -/
def redInput (x : VxCtx) (o : VRedOp) : List (Nat × Nat) :=
  ((enabled x.k.top o.fmt.bytes).zip (x.el o.fmt.bytes o.a)).map fun p =>
    (if p.1 then p.2 else redId o.op o.fmt, 0)
/-- ReduceTree of a list that is not empty; at most 1536 elements. -/
def redTree (o : VRedOp) (m : Rm) (l : List (Nat × Nat)) : Nat × Nat := (reduceTree (redOp o m) 12 l).headD (0, 0)

/-- An encoding, the default NaN where it is a NaN of a floating-point format (R127). -/
def quietNan (f : Fmt) (v : Nat) : Nat :=
  if f.isInt then v
  else match decodeF f v with
    | .nan q => (roundF f (.nan q) .rne false).1
    | _ => v

/-- VRED: element 0, every other byte zero. -/
def vredOut (x : VxCtx) (o : VRedOp) : VxOut :=
  let r := redTree o x.rm (redInput x o)
  { VxOut.none with vws := [fullWrite (x.p o.d) o.fmt.bytes [r.1]], flags := r.2 }
/-- VSCAN: a tree of its own for each prefix. The first prefix is one element, to which no operation is applied: where it is a NaN, R127
makes VSCAN's result the default NaN, and it raises no flag of its own (R164, log entry 23). -/
def vscanOut (x : VxCtx) (o : VRedOp) : VxOut :=
  let l := redInput x o
  let rs := (List.range l.length).map fun i => redTree o x.rm (l.take (i + 1))
  { VxOut.none with
    vws := [fullWrite (x.p o.d) o.fmt.bytes (rs.map fun r => quietNan o.fmt r.1)], flags := rs.foldl (fun fl r => fl ||| r.2) 0 }

-- Accumulator frames (R132, R168). Entry e of frame f is listed under 16384·f + e as VAL + 2^48·flags, unless it is 0.

/-- The listed entries of a key range. -/
def AMap.range {α : Type} (m : AMap α) (lo hi : Nat) : AMap α := m.filter fun e => lo ≤ e.1 && e.1 < hi
/-- Replace a key range by entries of that range, in key order. -/
def AMap.setRange {α : Type} (m : AMap α) (lo hi : Nat) (l : AMap α) : AMap α :=
  (m.filter fun e => e.1 < lo) ++ l ++ m.filter fun e => hi ≤ e.1
/-- `n` frame entries from `lo` up. -/
def frameRow (m : AMap Nat) (lo n : Nat) : List Nat :=
  let r := m.range lo (lo + n)
  (List.range n).map fun i => r.get 0 (lo + i)
/-- Put frame entries from `lo` up. -/
def setFrameRow (m : AMap Nat) (lo : Nat) (l : List Nat) : AMap Nat :=
  m.setRange lo (lo + l.length) ((l.zipIdx.map fun e => (lo + e.2, e.1)).filter fun e => e.2 != 0)

def fval (t : Nat) : Nat := t % 2 ^ 48
def fflags (t : Nat) : Nat := t / 2 ^ 48

/-- VACR: what it writes, and the frames after its CLR (R168). -/
def vacrOut (x : VxCtx) (dst : Fmt) (sat clr : Bool) (d : VReg) (lo : Nat) : VxOut × AMap Nat :=
  let z := dst.bytes
  let en := enabled x.k.top z
  let row := frameRow x.k.frames lo (1536 / z)
  let rs := (en.zip row).map fun p => if p.1 then convert (fval p.2) .a48 dst x.rm sat else (0, 0)
  ({ VxOut.none with
      vws := [selWrite (x.p d) z en (rs.map fun r => r.1)], flags := rs.foldl (fun fl r => fl ||| r.2) 0 },
   if clr then setFrameRow x.k.frames lo ((en.zip row).map fun p => if p.1 then 0 else p.2) else x.k.frames)

/-- VACW, at its landing: the frames after it and the flags it raises (R168). -/
def vacwLand (frames : AMap Nat) (src : Fmt) (acc : Bool) (lo : Nat) (v : VBits) (m : Mask) : AMap Nat × Nat :=
  let z := src.bytes
  let row := frameRow frames lo (1536 / z)
  let rs := ((enabled m z).zip ((elems z v).zip row)).map fun p =>
    if !p.1 then (p.2.2, 0)
    else
      if acc then
        let r := roundFl .a48 (exactSum false [decodeF .a48 (fval p.2.2), decodeFmt src p.2.1]) .rne false
        (r.1 + 2 ^ 48 * (fflags p.2.2 ||| flags4 r.2), r.2)
      else (toA48 src p.2.1, 0)
  (setFrameRow frames lo (rs.map fun r => r.1), rs.foldl (fun fl r => fl ||| r.2) 0)

-- Entries that MSKIP does not skip (R166).

def mskipExempt : Instr → Bool
  | .vcmp .. | .minv .. | .mpop .. | .mskip .. | .voq .. => true
  | _ => false

/-- An element as an instruction writes it: bits 63:48 of an A48 element are zero, whatever its source holds (R117, R131). -/
def written (f : Fmt) (x : Nat) : Nat := if f = .a48 then x % 2 ^ 48 else x

/-- What a VX entry computes at its begin cycle (R149, R152–R165). VACR's CLR, VACW and MSKIP act on their own. -/
def evalVx (x : VxCtx) (e : Entry) : VxOut :=
  let rdn := x.rm == .rdn
  match e.i with
  | .vadd _ o => vf2 x o fun a b => exactSum rdn [a, b]
  | .vsub _ o => vf2 x o fun a b => exactSum rdn [a, b.neg]
  | .vmul _ o => vf2 x o fmul
  | .vfma _ o => vf3 x o (fmaV rdn)
  | .vfms _ o => vf3 x o fun a b c => fmaV rdn a b c.neg
  | .vfnma _ o => vf3 x o fun a b c => fmaV rdn a.neg b c
  | .vmin _ o => vf2 x o fmin
  | .vmax _ o => vf2 x o fmax
  | .vabs _ o => vf1 x o x.rm fun a => (a.abs, a.sig)
  | .vneg _ o => vf1 x o x.rm fun a => (a.neg, a.sig)
  | .vdiv _ o => vf2 x o fdiv
  | .vsqrt _ o => vf1 x o x.rm fsqrt
  | .vrsq _ o => vf1 x o x.rm frsq
  | .vrcp _ o => vf1 x o x.rm frcp
  | .vexp2 _ o => vf1 x o .rne fexp2
  | .vlog2 _ o => vf1 x o .rne flog2
  | .viadd _ o => vi2 x o fun a b => a + b
  | .visub _ o => vi2 x o fun a b => a - b
  | .vimul _ o => vi2 x o fun a b => a * b
  | .vimad _ o =>
    let z := o.fmt.bytes
    mapElems (x.p o.d) z x.k.top (x.el z o.a) (x.el z o.b) (x.el z o.c) fun u v w =>
      (intResult o.fmt o.sat (intVal o.fmt u * intVal o.fmt v + intVal o.fmt w), 0)
  | .vimin _ o => vi2 x o fun a b => min a b
  | .vimax _ o => vi2 x o fun a b => max a b
  | .vand _ o => vb2 x o fun _ a b => a &&& b
  | .vor _ o => vb2 x o fun _ a b => a ||| b
  | .vxor _ o => vb2 x o fun _ a b => a ^^^ b
  | .vshl _ o => vb2 x o shlW
  | .vshr _ o => vb2 x o shrW
  | .vsar _ o => vb2 x o sarW
  | .vclz _ o => vb1 x o clzW
  | .vpopc _ o => vb1 x o popcW
  | .vcmp _ c f nest a b => vcmpOut x c f nest a b
  | .vsel _ d a b =>
    let rs := ((enabled x.k.top 4).zip ((x.el 4 a).zip (x.el 4 b))).map fun p => if p.1 then p.2.1 else p.2.2
    { VxOut.none with vws := [fullWrite (x.p d) 4 rs] }
  | .vcvt _ dst _ sat d a src part => vcvtOut x dst sat d a src part.toNat
  | .vmov _ d a => { VxOut.none with vws := [selWrite (x.p d) 4 (enabled x.k.top 4) (x.el 4 a)] }
  | .vbcast _ f d _ =>
    let y := written f e.x0.toNat
    let en := enabled x.k.top f.bytes
    { VxOut.none with vws := [selWrite (x.p d) f.bytes en (en.map fun _ => y)] }
  | .vperm _ f d a b c =>
    let t := x.el f.bytes a ++ x.el f.bytes c
    { VxOut.none with vws := [fullWrite (x.p d) f.bytes ((x.indices f.bytes b).map fun i => written f (t.getD i 0))] }
  | .vrot _ f d a imm =>
    let l := x.el f.bytes a
    let n := imm.toNat % l.length
    { VxOut.none with vws := [fullWrite (x.p d) f.bytes ((l.drop n ++ l.take n).map (written f))] }
  | .vsort _ f desc kv d a c => vsortOut x f desc kv d a c
  | .vred _ o => vredOut x o
  | .vscan _ o => vscanOut x o
  | .minv _ => { VxOut.none with mop := some (.minv (~~~ x.k.top &&& x.k.masks.tail.headD (BitVec.allOnes 384))) }
  | .mpop _ => { VxOut.none with mop := some .mpop }
  | .voq _ src a =>
    let o := match src with
      | .any => x.k.top != 0
      | .all => x.k.top == BitVec.allOnes 384
      | .lane0 => (x.k.vreg (x.p a)).toNat % 2 ^ 32 != 0
    { VxOut.none with out := some o }
  | .vacr _ dst _ sat clr d a _ => (vacrOut x dst sat clr d (a.toNat * 16384 + e.x0.toNat)).1
  | _ => VxOut.none

/-- A change of the mask stack at its landing, of what the entry read at its begin (R151, R167). On an empty stack MINV and MPOP change nothing. -/
def MaskOp.apply (o : MaskOp) (l : List Mask) : List Mask :=
  match o, l with
  | .push m, l => m :: l
  | .minv m, _ :: l => m :: l
  | .mpop, _ :: l => l
  | _, [] => []

end Sys2Proof.Machine
end

