-- ==== Sys2Proof/Machine/Mx.lean ====
section
/-! DEFINITION. The team array: when a tile command reads its operands, and what it computes (R139, R170, R176–R179,
R187–R190). -/
namespace Sys2Proof.Machine

/-- One operand of a tile command: its slot, format, layout (R177, R178). -/
structure Operand where
  slot : Nat
  fmt : Fmt
  /-- rows (A) or columns (B) of 512 bytes, k along them -/
  along : Bool
  scaled : Bool
  sparse : Bool
  deriving DecidableEq, Repr

/-- Operand A, and operand B in a slot, of a format word. -/
def opA (w : Word) (q : Nat) : Operand :=
  { slot := q, fmt := (Fmt.ofCode (BitVec.ofNat 4 (fwA w))).getD .f32, along := !fwTa w, scaled := fwAsc w,
    sparse := fwAsp w }
def opB (w : Word) (q : Nat) : Operand :=
  { slot := q, fmt := (Fmt.ofCode (BitVec.ofNat 4 (fwB w))).getD .f32, along := fwTb w, scaled := fwBsc w,
    sparse := fwBsp w }

/-- The operands of an entry by tag: 0 is A, 1 + j is the B slot of row block j (MMA has block 0 only). -/
def operands (e : Entry) (w : Word) : List (Nat × Operand) :=
  match e.i with
  | .mma _ _ a b _ => [(0, opA w a.toNat), (1, opB w b.toNat)]
  | .mmag _ _ a _ _ =>
    (0, opA w a.toNat) ::
      ((List.range 8).filter fun j => !mmagSkip e.x0 j).map fun j => (1 + j, opB w (mmagSlot e.x0 j))
  | _ => []

/-- The key of a sample: what (0 elements, 1 scales, 2 sparse lines), the operand's tag, k or the block or the line. -/
def sampKey (kind tag n : Nat) : Nat := kind * 2 ^ 20 + tag * 2 ^ 12 + n

/-- Read 128 fields of a slot as MX of core `c` sees them (R188, R225). -/
def State.sample (s : State) (c : Nat) (size : Nat) (keyOf : Nat → Nat) : List Nat × State :=
  (List.range 128).foldl (fun r i =>
    let (x, s) := r.2.phaseRead (srcOf c 4) (keyOf i) size
    (r.1 ++ [x], s)) ([], s)

/-- Read what one operand needs at dense position `k` (R188): a sparse line at its first position; else the elements, and the
scales at the first position of their block. -/
def sampleOperand (c : Nat) (o : Nat × Operand) (k : Nat) (r : AMap (List Nat) × State) : AMap (List Nat) × State :=
  let t := teamOf c
  let q := o.2.slot
  let z := o.2.fmt.bytes
  if o.2.sparse then
    if k % 192 = 0 then
      let (l, s) := r.2.sample c 128 fun i => kSlot t q (256 * i + 128 * (k / 192))
      (r.1.upd (sampKey 2 o.1 (k / 192)) l, s)
    else r
  else
    let (l, s) := r.2.sample c z fun i => kSlot t q (if o.2.along then 512 * i + z * k else 128 * z * k + z * i)
    let m := r.1.upd (sampKey 0 o.1 k) l
    if o.2.scaled && k % 32 == 0 then
      let (l, s) := s.sample c 1 fun i => kSide t q (16 * i + k / 32)
      (m.upd (sampKey 1 o.1 (k / 32)) l, s)
    else (m, s)

/-- The reads of a tile command on one cycle: positions ⌊k / rate⌋ = cycle − begin (R188). -/
def State.sampleTile (s : State) (c cyc : Nat) (f : Flight) : Flight × State :=
  match f.fw with
  | none => (f, s)
  | some w =>
    let rate := fwRate w
    let ks := ((List.range rate).map fun i => (cyc - f.start) * rate + i).filter fun k => k < 32 * fwKB w
    let r := ks.foldl (fun r k => (operands f.e w).foldl (fun r o => sampleOperand c o k r) r) (f.samp, s)
    ({ f with samp := r.1 }, r.2)

/-- A scaled value; a NaN that counts as signalling stays so (R129, R130). -/
def scaleBy (x s : FVal) : FVal :=
  match x, s with
  | .nan true, _ | _, .nan true => .nan true
  | x, s => (fmul x s).1

/-- The 192 dense elements of a sparse line, a 128-byte number (R179). -/
def sparseLine (f : Fmt) (b : Nat) : List FVal :=
  let ok := nfld b 192 8 == (Fmt.code f).toNat && nfld b 208 48 == 0
  let scale := scaleE8M0 (nfld b 200 8)
  let v (i : Nat) : FVal := scaleBy (decodeFmt f (nfld b (8 * (32 + i)) 8)) scale
  (List.range 192).map fun i =>
    if !ok then .nan true
    else
      let g := i / 4
      let l := (if nfld b (4 * g) 2 = i % 4 then [v (2 * g)] else []) ++
        (if nfld b (4 * g + 2) 2 = i % 4 then [v (2 * g + 1)] else [])
      match l with
      | [] => .zero false
      | [x] => x
      | l =>
        let r := exactSum false l
        if l.contains (.nan true) || r.2 != 0 then .nan true else r.1

/-- Row (of A) or column (of B) `i` of an operand: its elements by k. -/
def operandLine (m : AMap (List Nat)) (o : Nat × Operand) (kb i : Nat) : List FVal :=
  if o.2.sparse then
    ((List.range (kb / 6)).map fun j => sparseLine o.2.fmt ((m.get [] (sampKey 2 o.1 j)).getD i 0)).flatten
  else
    (List.range (32 * kb)).map fun k =>
      let x := decodeFmt o.2.fmt ((m.get [] (sampKey 0 o.1 k)).getD i 0)
      if o.2.scaled then scaleBy x (scaleE8M0 ((m.get [] (sampKey 1 o.1 (k / 32))).getD i 0)) else x

/-- The blocks of 32 of a line. -/
def blocksOf {α : Type} : Nat → List α → List (List α)
  | 0, _ => []
  | n + 1, l => l.take 32 :: blocksOf n (l.drop 32)

/-- One k-block of one output element (R139, R187): the exact sum of 32 products and the incoming value, rounded once. -/
def tileBlock (acc : Option Nat × Nat) (b : List (FVal × FVal)) : Option Nat × Nat :=
  let ps := b.map fun p => fmul p.1 p.2
  let terms := ps.map (fun p => p.1) ++ (match acc.1 with | some x => [decodeF .a48 x] | none => [])
  let fl := ps.foldl (fun f p => f ||| p.2) 0
  let r := roundFl .a48 (exactSum false terms) .rne false
  (some r.1, acc.2 ||| fl ||| r.2)

/-- One output element: its new entry and the flags raised. -/
def tileElem (kb : Nat) (accum : Bool) (t : Nat) (a b : List FVal) : Nat × Nat :=
  let r := (blocksOf kb (a.zip b)).foldl tileBlock (if accum then some (fval t) else none, 0)
  ((r.1.getD 0) + 2 ^ 48 * ((if accum then fflags t else 0) ||| flags4 r.2), r.2)

/-- The rows of one block of 16 against one B operand: frame after it, flags. -/
def tileRows (f : Flight) (w : Word) (frame j : Nat) (bs : List (List FVal)) (r : AMap Nat × Nat) : AMap Nat × Nat :=
  let kb := fwKB w
  match (operands f.e w).find? fun o => o.1 == 0 with
  | none => r
  | some oa =>
    (List.range 16).foldl (fun r i =>
      let m := 16 * j + i
      let lo := frame * 16384 + 128 * m
      let a := operandLine f.samp oa kb m
      let es := ((frameRow r.1 lo 128).zip bs).map fun p => tileElem kb (fwAcc w) p.1 a p.2
      (setFrameRow r.1 lo (es.map fun e => e.1), es.foldl (fun fl e => fl ||| e.2) r.2)) r

/-- A tile command at its completion: the frames after it and the flags it raised (R187, R189). -/
def tileLand (f : Flight) (w : Word) (frames : AMap Nat) : AMap Nat × Nat :=
  let kb := fwKB w
  let cols (tag : Nat) : Option (List (List FVal)) :=
    ((operands f.e w).find? fun o => o.1 == tag).map fun o => (List.range 128).map (operandLine f.samp o kb)
  match f.e.i with
  | .mma _ d _ _ _ =>
    match cols 1 with
    | some bs => (List.range 8).foldl (fun r j => tileRows f w d.toNat j bs r) (frames, 0)
    | none => (frames, 0)
  | .mmag _ d _ _ _ =>
    (List.range 8).foldl (fun r j =>
      match cols (1 + j) with
      | some bs => tileRows f w d.toNat j bs r
      | none => r) (frames, 0)
  | _ => (frames, 0)

end Sys2Proof.Machine
end

