-- ==== Sys2Proof/Machine/ScalarMem.lean ====
section
/-! DEFINITION. Scalar loads, stores and CHKD (R208–R213), and the answer a stalled load gets (R195, R209, R211, R236). -/
namespace Sys2Proof.Machine

/-- Wait for the answer of request `id`: the pacer stalls (R195). -/
def stall (w : Wait) : M Flow := fun s => .ok (.set, s.setMe { s.me with wait := w })

/-- A load deferred by R211: zero, DEF, and the recorded VA and width. -/
def Core.deferLoad (c : Core) (p va : Nat) (wd : Width) : Core :=
  if p = 0 then c else { c with s := c.s.upd p 0, defer := c.defer.upd p (va, wd) }

/-- Issue a plain load's read and stall for its answer (R209). -/
def loadIssue (p : Nat) (wd : Width) (va : Nat) (t : Target) (spec : Bool) : M Flow := do
  let id ← sendReq .read t (widthBytes wd) va true false []
  stall (.data p wd id none spec)

/-- LD (R209). -/
def loadPlain (wd : Width) (d a : SReg) (imm : BitVec 32) : M Flow := fun s =>
  let va := (s.me.effAddr a imm).toNat
  (do
    let t ← xlate va (widthBytes wd) (widthBytes wd) .rd
    loadIssue (physS s.me.rrb d) wd va t false) s

/-- LD with SPEC: a failing check, or a page of APT 2 or 3, defers the load; it takes no WATCH (R211, log entry 14). -/
def loadSpec (wd : Width) (d a : SReg) (imm : BitVec 32) : M Flow := fun s =>
  let k := s.me
  let va := (k.effAddr a imm).toNat
  let p := physS k.rrb d
  match xlate va (widthBytes wd) (widthBytes wd) .rd (s.setMe { k with wskip := true }) with
  | .error (.trap _) => .ok (.seq, (s.endWalks s.actor (srcOf s.actor 0)).setMe (k.deferLoad p va wd))
  | .error e => .error e
  | .ok (t, s') =>
    if t.apt = 2 ∨ t.apt = 3 then .ok (.seq, s.setMe (k.deferLoad p va wd))
    else loadIssue p wd va t true (s'.setMe { s'.me with wskip := k.wskip })

/-- LD. -/
def execLd (n : Ann) (spec : Bool) (wd : Width) (d a : SReg) (imm : BitVec 32) (s : State) :
    Host.Outcome State Fault Refusal :=
  pacerWord n 12 [a] false (if spec then loadSpec wd d a imm else loadPlain wd d a imm) s

/-- The cache policy of a store: under APT 2 a hint takes the place of the leaf's CP (R73, R210). -/
def hintCp (h : Hint) (apt cp : Nat) : Nat :=
  match h with
  | .none => cp
  | .nc | .ncp => if apt = 2 then 2 else cp
  | .own => if apt = 2 then 0 else cp

/-- ST: the low bytes of s[B] at s[A] + offset (R210). No hint changes a value that any agent reads. -/
def execSt (n : Ann) (h : Hint) (wd : Width) (a b : SReg) (imm : BitVec 32) (s : State) :
    Host.Outcome State Fault Refusal :=
  pacerWord n 12 [a, b] false (fun s =>
    let k := s.me
    let va := (k.effAddr a imm).toNat
    let z := widthBytes wd
    (do
      let t ← xlate va z z .wr
      let c := s.actor
      waitUnless (s.logCount c < 256)
      modify fun (s : State) => s.issue
        { reqAt c (srcOf c 0) (.write ((k.rd b).toNat % 2 ^ (8 * z))) t z va true with
          posted := t.apt == 3 && lCp t.leaf == 2, cp := hintCp h t.apt (lCp t.leaf) }
      return Flow.seq) s) s

/-- CHKD: perform a deferred load at its recorded address, with every check and no deferral (R212). -/
def execChkd (n : Ann) (a : SReg) (s : State) : Host.Outcome State Fault Refusal :=
  pacerWord n 12 [] false (fun s =>
    let p := physS s.me.rrb a
    match s.me.defer.find p with
    | none => .ok (.seq, s)
    | some (va, wd) =>
      (do
        let t ← xlate va (widthBytes wd) (widthBytes wd) .rd
        loadIssue p wd va t false) s) s

/-- A stalled word has its answer: it completes, on a core that is frozen on the first cycle that is not (R221). -/
def State.answer (s : State) (c d : Nat) (v : Word) : State :=
  let k := s.core c
  s.setCore c (if k.frozen then { k with wait := .answered d v } else k.complete d v)

/-- Take PEERLOST precisely, once for a contained pacer of the crew (R359); not while the core is frozen (R86). -/
def State.owedTrap (s : State) (c va src : Nat) : State :=
  let k := s.core c
  if k.frozen then s
  else (s.setCore c { k with owed := k.owed.erase src }).takeTrap c (tr cPEERLOST va 0 0 (some (s.ext src))) k.pc k.iter false none s.gtc

/-- Is a pre-emption pending for the core's crew (R360)? -/
def State.preemptPending (s : State) (c : Nat) : Bool :=
  match (s.core c).crew with
  | some i => (s.crew i).preempt
  | none => false

/-- How an access's answer ended: what the request's phase, or the loss of its answer on the way, means (R74, R397). -/
def Req.outcome (r : Req) (e : Err) : ReqPhase :=
  if r.phase == .performed && r.kind == .read && e == .ecc && r.apt != 3 then .dead
  else if r.phase == .performed && r.kind == .read && e == .peer && (r.apt == 2 || r.apt == 3) then .failed
  else r.phase

/-- A completed scoped read: the releases it may synchronise with are remembered (R235) and, under an acquire, acquired
(R227). -/
def State.scopedDone (s : State) (a : Nat) (msgs : List Msg) (acq : Option Nat) : State :=
  let v := s.view a
  let s := s.setView a { v with seen := v.seen ++ msgs }
  match acq with | some n => s.acquire a n msgs | none => s

/-- A 4-byte result is sign-extended, an 8-byte one taken whole (R233, R234, R236). -/
def resW (w32 : Bool) (x : Nat) : Word :=
  if w32 then (BitVec.ofNat 32 x).signExtend 64 else BitVec.ofNat 64 x

/-- LOAD_DATA_RETURN: the answer of a stalled access reaches the pacer (R195, R209, R211, R212, R231–R236). -/
def State.loadReturn (s : State) (c : Nat) (e : Err) : State :=
  let k := s.core c
  let a := srcOf c 0
  let bad (r : Req) (code : Nat) : State :=
    (s.dropReq r.id).preciseTrap c
      (tr code r.va 0 0 (if code = cPEERLOST then some (s.lostAgent r.key) else none))
  if k.frozen then s
  else
    match k.wait with
    | .data d wd id acq spec =>
      match s.req id with
      | none => s
      | some r =>
        match r.outcome e with
        | .performed =>
          let s := if r.ordinary then s.dropReq id else (s.dropReq id).scopedDone a r.msgs acq
          s.setCore c ((s.core c).complete d (widthExtend wd r.old))
        | .dead =>
          if spec then
            let s := s.dropReq id
            s.setCore c ({ (s.core c).deferLoad d r.va wd with wait := .none }.advance 12)
          else bad r cECCU
        | .failed => bad r cPEERLOST
        | _ => s
    | .rmw d w32 id acq facq exp sc =>
      match s.req id with
      | none => s
      | some r =>
        match r.outcome e with
        | .performed =>
          let won := match r.kind with | .cas x _ => decide (r.old = x) | _ => true
          let how := if won then acq else if facq && exp != r.old then some sc else none
          let s := (s.dropReq id).scopedDone a r.msgs how
          s.setCore c ((s.core c).complete d (resW w32 r.old))
        | .dead => bad r cECCU
        | .failed => bad r cPEERLOST
        | _ => s
    | .waita d cond w32 acq sc psel bk va t cmp dl (some id) polls last pos =>
      match s.req id with
      | none => s
      | some r =>
        match r.outcome e with
        | .performed =>
          let x := resW w32 r.old
          let ok := condW w32 cond x cmp
          if ok || (dl != 0 && dl ≤ s.gtc) || s.preemptPending c then
            let s := (s.dropReq id).scopedDone a r.msgs (if ok && acq then some sc else none)
            let k := (s.core c).complete d x
            s.setCore c (if psel = 0 then k else k.setPred psel ok)
          else
            let s := (s.dropReq id).scopedDone a r.msgs none
            s.setCore c { s.core c with
              wait := .waita d cond w32 acq sc psel bk va t cmp dl none polls last pos }
        | .dead => bad r cECCU
        | .failed => bad r cPEERLOST
        | _ => s
    | .answered d v => s.setCore c (k.complete d v)
    | _ => s

/-- LOAD_DATA_RETURN. -/
def execLoadDataReturn (core : Nat) (e : Err) (s : State) : Host.Outcome State Fault Refusal :=
  .next (s.loadReturn core e)

end Sys2Proof.Machine
end

