-- ==== Sys2Proof/Machine/Engine.lean ====
section
/-! DEFINITION. Parts, engine entries, tokens, the lease (R24, R26, R27, R33, R76, R86, R87, R99–R112, R144, R145, R150,
R165–R174, R183–R192, R216–R221, R345, R349, R350). A cycle's steps are put on the agenda by the clock (Clock.lean). -/
namespace Sys2Proof.Machine

-- Timing (R33).

/-- Cycles from an entry's begin to its write. -/
def latency : Instr → Nat
  | .vldg .. => 12
  | .sld _ _ _ _ _ imm => 16 * Nat.max 1 ((imm.toNat + 4095) / 4096)
  | .vld .. | .vldb .. | .vst .. | .vsts .. | .vstm .. => 6
  | .vfma .. | .vfms .. | .vfnma .. | .vimul .. | .vimad .. => 6
  | .vdiv .. | .vsqrt .. | .vrsq .. | .vrcp .. => 18
  | .vexp2 .. | .vlog2 .. | .vred .. | .vscan .. => 10
  | .vsort .. => 24
  | .vperm .. | .vrot .. | .vacr .. | .vacw .. => 8
  | .mma _ _ _ _ cyc => cyc.toNat + 20
  | .mmag _ _ _ _ cyc => cyc.toNat + 20
  | .sclaim .. | .srls .. | .lrel .. => 2
  | _ => 4
/-- Cycles before the same engine's next entry may begin. -/
def interval : Instr → Nat
  | .sld _ _ _ _ _ imm => 16 * Nat.max 1 ((imm.toNat + 4095) / 4096)
  | .vsort .. => 8
  | .mma _ _ _ _ cyc => cyc.toNat
  | .mmag _ _ _ _ cyc => cyc.toNat
  | _ => 1
/-- Is it a tile command (R171)? -/
def isTile : Instr → Bool
  | .mma .. | .mmag .. => true
  | _ => false

-- Tokens (R26, R27). Queues in the order of R26: VL→VX, VX→VL, VL→MX, MX→VL, VX→VS, VS→VX, VX→MX, MX→VX.

/-- The token bits of an engine word. -/
def engAnn : Instr → EAnn
  | .vld n _ _ _ _ | .vldg n _ _ _ _ _ | .vldb n _ _ _ _ | .sld n _ _ _ _ _ | .vst n _ _ _ _ | .vsts n _ _ _ _
  | .vstm n _ _ _ _ _ => n
  | .vadd n _ | .vsub n _ | .vmul n _ | .vmin n _ | .vmax n _ | .vdiv n _ => n
  | .vfma n _ | .vfms n _ | .vfnma n _ => n
  | .vabs n _ | .vneg n _ | .vsqrt n _ | .vrsq n _ | .vrcp n _ | .vexp2 n _ | .vlog2 n _ => n
  | .viadd n _ | .visub n _ | .vimul n _ | .vimin n _ | .vimax n _ | .vand n _ | .vor n _ | .vxor n _ | .vshl n _
  | .vshr n _ | .vsar n _ => n
  | .vimad n _ => n
  | .vclz n _ | .vpopc n _ => n
  | .vcmp n _ _ _ _ _ | .vsel n _ _ _ | .vcvt n _ _ _ _ _ _ _ | .vmov n _ _ | .vbcast n _ _ _ | .vperm n _ _ _ _ _
  | .vrot n _ _ _ _ | .vsort n _ _ _ _ _ _ => n
  | .vred n _ | .vscan n _ => n
  | .minv n | .mpop n | .mskip n _ | .voq n _ _ | .vacr n _ _ _ _ _ _ _ | .vacw n _ _ _ _ _ => n
  | .mma n _ _ _ _ | .mmag n _ _ _ _ | .sclaim n _ | .srls n _ | .fzero n _ | .lrel n => n
  | _ => { bt := false, pr := 0, pa := false, pb := false, sa := false, sb := false }

/-- Does a VX word exchange tokens with MX? -/
def isAcc : Instr → Bool
  | .vacr .. | .vacw .. => true
  | _ => false

/-- The queues popped by PA and PB, and pushed by SA and SB. -/
def popQueues (e : Entry) : List Nat :=
  let n := engAnn e.i
  let two (a b : Nat) : List Nat := (if n.pa then [a] else []) ++ if n.pb then [b] else []
  match e.eng with
  | .vl => two 1 3
  | .vx => two 0 (if isAcc e.i then 7 else 5)
  | .vs => two 4 4
  | .mx => two 2 6
def pushQueues (e : Entry) : List Nat :=
  let n := engAnn e.i
  let two (a b : Nat) : List Nat := (if n.sa then [a] else []) ++ if n.sb then [b] else []
  match e.eng with
  | .vl => two 0 2
  | .vx => two 1 (if isAcc e.i then 6 else 4)
  | .vs => two 5 5
  | .mx => two 3 7

/-- A section-end fault reaches the record (R350): the first of a section, by begin cycle and ENG code; a fault of another
section, or one recorded while a precise trap drains, is kept. -/
def State.recordFault (s : State) (c code detail start : Nat) (e : Entry) : State :=
  let k := s.core c
  let f : SecFault :=
    { code := code, eng := engCode e.eng, addr := e.addr, iter := e.iter, sec := e.sec, detail := detail,
      start := start }
  let earlier (g : SecFault) : Bool := f.start < g.start || (f.start == g.start && f.eng < g.eng)
  let keep (k : Core) : Core :=
    match k.kept with
    | some g => if g.sec = f.sec ∧ earlier g then { k with kept := some f } else k
    | none => { k with kept := some f }
  match k.secFault with
  | some g =>
    if g.sec ≠ f.sec then s.setCore c (keep k)
    else if earlier g then
      let s := s.setCore c { k with secFault := some f }
      match k.wait with
      | .drain (some _) =>
        s.record c (tr f.code k.taddr.toNat f.detail f.eng) f.addr f.iter false k.tstamp.toNat
      | _ => s
    else s
  | none => if k.mode then s.setCore c (keep k) else s.setCore c { k with secFault := some f }

/-- PopToken for the queues of an entry (R27): false at the first empty one. The manual orders neither an entry's two pops nor its two
pushes: the model takes PA before PB and SA before SB, so a first pop that finds nothing leaves the second queue's token, and DETAIL
names the first that fails (log entry 48). The pop acquires what the entry that pushed the token released with it (R26, R230). -/
def State.popTokens (c start : Nat) (e : Entry) : List Nat → State → Bool × State
  | [], s => (true, s)
  | q :: l, s =>
    let k := s.core c
    if k.tok.get 0 q = 0 then (false, s.recordFault c cTOKUNF q start e)
    else
      let a := srcOf c (engCode e.eng)
      let rels := k.tokRel.get [] q
      let s := s.setCore c { k with tok := k.tok.upd q (k.tok.get 0 q - 1), tokRel := k.tokRel.upd q rels.tail }
      State.popTokens c start e l (s.setView a ((s.view a).join (rels.headD [])))

/-- PushToken (R27): a full queue drops the token. A token that is pushed carries the pushing entry's release (R26). -/
def State.pushTokens (c start : Nat) (e : Entry) (rel : KMap) : List Nat → State → State
  | [], s => s
  | q :: l, s =>
    let k := s.core c
    if k.tok.get 0 q = 16 then State.pushTokens c start e rel l (s.recordFault c cTOKOVF q start e)
    else
      State.pushTokens c start e rel l (s.setCore c { k with
        tok := k.tok.upd q (k.tok.get 0 q + 1), tokRel := k.tokRel.upd q (k.tokRel.get [] q ++ [rel]) })

/-- The token pushes of every entry that lands on this cycle, before any entry begins on it (R27). -/
def State.landTokens (s : State) (c : Nat) : State :=
  let k := s.core c
  let due (f : Flight) : Bool := f.land ≤ k.ccc && f.push
  let s := s.setCore c { k with fly := k.fly.map fun f => if due f then { f with push := false } else f }
  (k.fly.filter due).foldl (fun s f => State.pushTokens c f.start f.e f.rel (pushQueues f.e) s) s

-- Scratchpad reads and writes of the engines (R101–R112).

/-- The addresses of a block access, `none` for an element that is zero (R106). -/
def Block.loads (x : Block) (base : Int) : List (Option Nat) :=
  let z : Int := x.width
  (x.addrs base).map fun a =>
    if 0 ≤ a ∧ a ≤ spadSize - z then some a.toNat
    else if x.edge = 0 then none
    else some (if a < 0 then 0 else (spadSize - z).toNat)

/-- The addresses of a gather (R108). -/
def gatherAddrs (x : VxCtx) (z : Nat) (clamp : Bool) (a : VReg) (base : Nat) : List (Option Nat) :=
  (x.indices z a).map fun i =>
    let t := base + i
    let t := t - t % z
    if 2 ^ 23 - z < t then (if clamp then some (2 ^ 23 - z) else none) else some t

/-- The scratchpad ranges a VL entry reads (R86). -/
def vlReads (x : VxCtx) (e : Entry) : List (Nat × Nat) :=
  match e.i, e.blk with
  | .vld .., some b => ((b.loads e.x0.toInt).filterMap id).map fun a => (a, b.width)
  | .vld .., none => [(e.x0.toNat, 1536)]
  | .vldg _ f clamp _ a _, _ => ((gatherAddrs x f.bytes clamp a e.x0.toNat).filterMap id).map fun a => (a, f.bytes)
  | .vldb _ f _ _ _, _ => [(e.x0.toNat, f.bytes)]
  | .sld _ _ _ _ _ imm, _ => [(e.x0.toNat, imm.toNat)]
  | _, _ => []

/-- The context an entry computes in. -/
def Core.ctxOf (k : Core) (e : Entry) : VxCtx := { k := k, vb := e.vb, rm := e.rm }

/-- The VL entry that would begin now (R86). -/
def Core.vlDue (k : Core) : Option Entry :=
  if k.ccc < k.busy.get 0 1 then none
  else (k.q.find? fun e => e.eng == .vl).filter fun e => k.begun.any fun b => b.1 == e.part

/-- The channels whose active guard holds the VL entry that would begin now (R86). -/
def Core.freezers (k : Core) : List Nat :=
  match k.vlDue with
  | none => []
  | some e =>
    if !e.pred then []
    else
      let rs := vlReads (k.ctxOf e) e
      (List.range 8).filter fun ch =>
        let x := k.chan ch
        x.act && rs.any fun r => x.wm < r.1 + r.2 && r.1 < x.hi

/-- Freeze the core: the cycle does not happen, and CCC does not count it (R86); its channels remember the section (R82 point 4). -/
def Core.freeze (k : Core) : Core :=
  let sec := (k.vlDue.map fun e => e.sec).getD 0
  k.freezers.foldl (fun k ch => k.setChan ch { k.chan ch with froze := true, freezeSec := sec })
    { k with frozen := true, ccc := k.ccc - 1 }

/-- The bytes between a guard's LO and its watermark that a VL entry reads are acquired from the chain (R87): a VL entry that begins reads
none at or above the watermark, since one holds it (R86). -/
def State.guardAcquire (s : State) (c : Nat) (rs : List (Nat × Nat)) : State :=
  let k := s.core c
  let t := teamOf c
  (List.range 8).foldl (fun s ch =>
    let x := k.chan ch
    let ks := x.wrote.filter fun w => rs.any fun r =>
      let lo := Nat.max x.lo r.1
      let hi := Nat.min x.wm (r.1 + r.2)
      lo < hi && kSpad t lo < 8 * w.1 + 8 && 8 * w.1 < kSpad t hi
    if ks.isEmpty then s else s.setView (srcOf c 1) ((s.view (srcOf c 1)).join ks)) s

/-- Read scratchpad bytes as the core's engines see them (R101, R103). -/
def State.spadRead (s : State) (c a n : Nat) : Nat × State := s.phaseRead (srcOf c 1) (kSpad (teamOf c) a) n

/-- Read a list of elements; an absent one is zero. -/
def State.spadElems (s : State) (c z : Nat) (l : List (Option Nat)) : List Nat × State :=
  l.foldl (fun r a =>
    match a with
    | none => (r.1 ++ [0], r.2)
    | some a => let (x, s) := r.2.spadRead c a z; (r.1 ++ [x], s)) ([], s)

/-- What a VL entry reads: register writes, or slot bytes (R106–R108, R112). -/
def State.vlBegin (s : State) (c : Nat) (e : Entry) : List VWrite × List (Nat × Byte) × State :=
  let x := (s.core c).ctxOf e
  let s := s.guardAcquire c (vlReads x e)
  match e.i, e.blk with
  | .vld _ _ d _ _, some b =>
    let (l, s) := s.spadElems c b.width (b.loads e.x0.toInt)
    ([fullWrite (x.p d) b.width l], [], s)
  | .vld _ _ d _ _, none =>
    let (v, s) := s.spadRead c e.x0.toNat 1536
    ([{ reg := x.p d, mask := BitVec.allOnes 12288, val := BitVec.ofNat 12288 v }], [], s)
  | .vldg _ f clamp d a _, _ =>
    let (l, s) := s.spadElems c f.bytes (gatherAddrs x f.bytes clamp a e.x0.toNat)
    ([fullWrite (x.p d) f.bytes l], [], s)
  | .vldb _ f d _ _, _ =>
    let (v, s) := s.spadRead c e.x0.toNat f.bytes
    ([fullWrite (x.p d) f.bytes (List.replicate (1536 / f.bytes) v)], [], s)
  | .sld _ sc q _ _ imm, _ =>
    let (v, s) := s.spadRead c e.x0.toNat imm.toNat
    let key := (if sc then kSide else kSlot) (teamOf c) q.toNat e.x1.toNat
    ([], (leBytes imm.toNat v).zipIdx.map fun b => (key + b.2, b.1), s)
  | _, _ => ([], [], s)

/-- The bytes a VS entry will write, later elements last (R109, R110). -/
def vsBegin (x : VxCtx) (team : Nat) (e : Entry) : List (Nat × Byte) :=
  let put (z : Nat) (l : List (Option Nat × Nat)) : List (Nat × Byte) :=
    l.flatMap fun p =>
      match p.1 with
      | none => []
      | some a => (leBytes z p.2).zipIdx.map fun b => (kSpad team (a + b.2), b.1)
  match e.i, e.blk with
  | .vst _ _ _ b _, some k =>
    put k.width (((k.addrs e.x0.toInt).map fun a =>
      if 0 ≤ a ∧ a ≤ spadSize - k.width then some a.toNat else none).zip (x.el k.width b))
  | .vst _ _ _ b _, none => put 4 ((x.el 4 b).zipIdx.map fun p => (some (e.x0.toNat + 4 * p.2), p.1))
  | .vsts _ f a b _, _ => put f.bytes ((gatherAddrs x f.bytes false a e.x0.toNat).zip (x.el f.bytes b))
  | .vstm _ f _ b m _, _ =>
    let z := f.bytes
    put z (((x.el z b).zip (x.el z m)).zipIdx.map fun p =>
      (if p.1.2 = 0 then none else some (e.x0.toNat + z * p.2), p.1.1))
  | _, _ => []

/-- Are the keys strictly rising? -/
def rising : List (Nat × Byte) → Bool
  | x :: y :: l => x.1 < y.1 && rising (y :: l)
  | _ => true
/-- Runs of neighbouring bytes of one aligned word. -/
def byteRuns : List (Nat × Byte) → List (Nat × List Byte)
  | [] => []
  | (a, b) :: l =>
    match byteRuns l with
    | (a', bs) :: r => if a' = a + 1 ∧ a' % 8 ≠ 0 then (a, b :: bs) :: r else (a, [b]) :: (a', bs) :: r
    | [] => [(a, [b])]

/-- Raise agents' floors of a word to its latest write. -/
def State.showWord (s : State) (agents : List Nat) (w : Nat) : State :=
  agents.foldl (fun s a => s.setView a ((s.view a).raise w (s.wordHist w).ws.length)) s

/-- One cycle's writes of an entry (R101, R110): the last byte at an address wins; they are noted for the acquires of R103. The core's VL
entries that begin later see a VS write (R101), and the team's tile commands an SLD's (R188). -/
def State.engineWrite (s : State) (c : Nat) (e : Entry) (l : List (Nat × Byte)) : State :=
  let l := if rising l then l else l.foldl (fun m p => AMap.upd m p.1 p.2) []
  let key := e.sec * 8 + engCode e.eng
  (byteRuns l).foldl (fun s r =>
    let w := r.1 / 8
    let s := s.rawWrite (srcOf c (engCode e.eng)) r.1 r.2.length (ofLeBytes r.2) []
    let s := s.showWord
      (if e.eng == .vl then (List.range 4).map fun i => srcOf (c / 4 * 4 + i) 4 else [srcOf c 1]) w
    let k := s.core c
    let ks := AMap.upd (k.engw.get [] key) w (s.wordHist w).ws.length
    s.setCore c { k with engw := k.engw.upd key ks }) s

-- Begin.

/-- Pop the format word of a tile command (R175, R186): the word if it fits, or the FMTUNF tag. -/
def Core.popFmt (k : Core) (i : Instr) : Core × Except Nat Word :=
  let cyc := interval i
  match k.fmtq with
  | [] => (k, .error 0)
  | w :: l => ({ k with fmtq := l }, if fwCyc w = cyc then .ok w else .error (fwTag w))

/-- A flight that does nothing yet. -/
def Flight.start0 (e : Entry) (now : Nat) (active push : Bool) : Flight :=
  { e := e, start := now, land := now + latency e.i, active := active, push := push, vws := [], sws := [], flags := 0,
    mop := none, out := none, fw := none, samp := [], src := 0, msk := 0, rel := [] }

/-- What an entry that has its predicate, its tokens and no skip does at its begin cycle. -/
def State.beginActive (s : State) (c : Nat) (f : Flight) : Flight × State :=
  let k := s.core c
  let x := k.ctxOf f.e
  match f.e.eng with
  | .vl =>
    let (vws, sws, s) := s.vlBegin c f.e
    ({ f with vws := vws, sws := sws }, s)
  | .vs => ({ f with sws := vsBegin x (teamOf c) f.e }, s)
  | .vx =>
    let o := evalVx x f.e
    let f := { f with vws := o.vws, flags := o.flags, mop := o.mop, out := o.out }
    match f.e.i with
    | .vacr _ dst _ sat clr d a _ =>
      (f, s.setCore c { k with frames := (vacrOut x dst sat clr d (a.toNat * 16384 + f.e.x0.toNat)).2 })
    | .vacw _ _ _ _ a _ => ({ f with src := k.vreg (x.p a), msk := k.top }, s)
    | .mskip _ imm => (f, s.setCore c { k with mskip := if k.top = 0 then Nat.max imm.toNat k.mskip else k.mskip })
    | _ => (f, s)
  | .mx =>
    if isTile f.e.i then
      match k.popFmt f.e.i with
      | (k, .ok w) => ({ f with fw := some w }, s.setCore c k)
      | (k, .error tag) =>
        ({ f with active := false, push := false }, (s.setCore c k).recordFault c cFMTUNF tag f.start f.e)
    else
      match f.e.i with
      | .srls .. =>
        let t := s.team (teamOf c)
        let free := (maskSlots f.e.slots).filter fun q => !f.e.withdrawn.testBit q
        (f, s.setTeam (teamOf c) { t with owner := free.foldl (fun o q => o.del q) t.owner })
      | .lrel .. =>
        let t := s.team (teamOf c)
        let again : Bool := k.lrelSec == some f.e.sec
        let s := s.setCore c { k with lrelSec := some f.e.sec }
        (f, if t.lease = some (c, f.e.sec) ∧ !again then s.setTeam (teamOf c) { t with lrel := true } else s)
      | _ => (f, s)

/-- ENGINE_ENTRY_BEGIN: the head of an engine's queue begins, if its part has begun and the engine's issue interval is over
(R33, R217); the core freezes instead where a guard holds its VL entry (R86). An MSKIP in force counts the VX entries that begin: whether
those that SQUASH discards count toward its n the manual does not say, and the model does not count them (R166, log entry 16). -/
def State.entryBegin (s : State) (c : Nat) (g : Eng) : State :=
  let k := s.core c
  if k.frozen || k.contained || k.crew.isNone || k.ccc < k.busy.get 0 (engCode g) then s
  else if !k.freezers.isEmpty then s.setCore c k.freeze
  else
    match k.q.find? fun e => e.eng == g with
    | none => s
    | some e =>
      if !k.begun.any (fun b => b.1 == e.part) then s
      else
        let skip := g == .vx && k.mskip != 0 && !mskipExempt e.i
        let busy := k.busy.upd (engCode g) (k.ccc + interval e.i)
        let s := s.setCore c { k with
          q := k.q.eraseP fun x => x.eng == g
          busy := if isTile e.i then busy.upd 8 (k.ccc + interval e.i) else busy
          lastBegin := k.ccc
          mskip := if g == .vx then k.mskip - 1 else k.mskip }
        let s := s.setView (srcOf c (engCode g)) ((s.view (srcOf c (engCode g))).join e.rel)
        let (ok, s) := State.popTokens c k.ccc e (popQueues e) s
        let f := Flight.start0 e k.ccc (ok && e.pred && !skip) ok
        let (f, s) := if f.active then s.beginActive c f else (f, s)
        let a := srcOf c (engCode g)
        let rel := if (pushQueues e).isEmpty then [] else s.carried a 0 (s.view a).k
        s.setCore c { s.core c with fly := (s.core c).fly ++ [{ f with rel := rel }] }

/-- ENGINE_ENTRY_BEGIN. -/
def execEngineEntryBegin (core : Nat) (e : Eng) (s : State) : Host.Outcome State Fault Refusal :=
  .next (s.entryBegin core e)

-- Write-back.

/-- Flags reach FPSR, and SECFPE is recorded where an enable was captured (R144, R145, R347). -/
def State.landFlags (s : State) (c : Nat) (f : Flight) (flags : Nat) : State :=
  let k := s.core c
  let s := s.setCore c { k with fpsr := k.fpsr ||| BitVec.ofNat 64 flags }
  if flags &&& f.e.en = 0 then s
  else s.recordFault c cSECFPE (flags5 flags + 32 * flags5 (flags &&& f.e.en)) f.start f.e

/-- An entry writes its result (R33, R147, R151, R165, R168, R189, R191). -/
def State.landFlight (s : State) (c : Nat) (f : Flight) : State :=
  if !f.active then s
  else
    let k := f.vws.foldl Core.writeV (s.core c)
    let k := match f.mop with | some o => { k with masks := o.apply k.masks } | none => k
    let k := match f.out with | some b => { k with outq := k.outq ++ [b] } | none => k
    let s := (s.setCore c k).engineWrite c f.e f.sws
    let k := s.core c
    match f.e.i with
    | .vacw _ src acc d _ _ =>
      let r := vacwLand k.frames src acc (d.toNat * 16384 + f.e.x0.toNat) f.src f.msk
      (s.setCore c { k with frames := r.1 }).landFlags c f r.2
    | .fzero _ d =>
      s.setCore c { k with frames := k.frames.setRange (d.toNat * 16384) ((d.toNat + 1) * 16384) [] }
    | i =>
      match isTile i, f.fw with
      | true, some w =>
        let r := tileLand f w k.frames
        (s.setCore c { k with frames := r.1 }).landFlags c f r.2
      | _, _ => s.landFlags c f f.flags

/-- Does an entry write the scratchpad or a slot, at the end of its cycle (R101, R112)? -/
def landsLate (e : Entry) : Bool := e.eng == .vs || e.i matches .sld ..

/-- The reads on this cycle of the tile commands in flight (R188): the clock has them made before any slot write of the cycle lands. -/
def State.sampleTiles (s : State) (c : Nat) : State :=
  let now := (s.core c).ccc
  (s.core c).fly.foldl (fun s f =>
    if f.active && isTile f.e.i && now < f.start + interval f.e.i then
      let (f', s) := s.sampleTile c now f
      s.setCore c { s.core c with fly := (s.core c).fly.map fun x => if x.start = f.start && x.e.eng == .mx then f' else x }
    else s) s

/-- ENGINE_ENTRY_WRITEBACK: the entries of an engine that land on this cycle. For MX, also the reads of the tile commands in flight; for
VS, the end of the cycle: the scratchpad and slot writes. R150 does not rank two VL entries that write one register byte on one cycle
(a VLDG and a VLD begun six cycles later): the one that began later wins (log entry 40). -/
def State.entryWriteback (s : State) (c : Nat) (g : Eng) : State :=
  let k := s.core c
  if k.frozen || k.contained || k.crew.isNone then s
  else
    let s := s.landTokens c
    let s := if g == .mx then s.sampleTiles c else s
    let due (f : Flight) : Bool :=
      f.land ≤ k.ccc && (if g == .vs then landsLate f.e else f.e.eng == g && !landsLate f.e)
    let k := s.core c
    let s' := s.setCore c { k with fly := k.fly.filter fun f => !due f }
    (k.fly.filter due).foldl (fun s f => s.landFlight c f) s'

/-- ENGINE_ENTRY_WRITEBACK. -/
def execEngineEntryWriteback (core : Nat) (e : Eng) (s : State) : Host.Outcome State Fault Refusal :=
  .next (s.entryWriteback core e)

-- Parts (R24, R76, R103, R216, R217).

/-- Has engine or copy engine `code` retired section start `sec` (R24)? -/
def Core.retired (k : Core) (code sec : Nat) : Bool :=
  if code = 5 then
    (List.range 8).all fun ch => let x := k.chan ch; x.phase == .idle || x.sec != sec
  else
    !(k.q.any fun e => engCode e.eng == code && e.sec == sec) &&
      !(k.fly.any fun f => engCode f.e.eng == code && f.e.sec == sec)

/-- The sections that a header's AFTER fields name, with the engine's code (R24); those never begun are left out. -/
def afterOf (h : Header) (sec : Nat) : List (Nat × Nat) :=
  ([(1, h.afterVl.toNat), (2, h.afterVx.toNat), (3, h.afterVs.toNat), (4, h.afterMx.toNat),
    (5, h.afterCp.toNat)].filter fun p => p.2 != 0 && p.2 < sec).map fun p => (p.1, sec - p.2)

/-- May a part begin, as far as traps and pre-emption go (R217 point 5, R345, R349, R360)? -/
def State.partsOpen (s : State) (c : Nat) (p : Part) : Bool :=
  let k := s.core c
  let ofSec (n : Nat) : Bool := p.sec == n
  match k.wait with
  | .drain none => true
  | .drain (some n) => ofSec n
  | .chanFault ch => ofSec (k.chan ch).freezeSec
  | .preempt => false
  | _ =>
    !k.mode && (match k.secFault with | some f => ofSec f.sec | none => true) &&
      !(s.preemptPending c && p.first)

/-- The conditions of R217 but the lease. An entry of the part before counts as begun from the cycle after its begin on: whether a part
may begin on the very cycle of that begin the manual does not say (log entry 16). -/
def State.partReady (s : State) (c : Nat) (p : Part) : Bool :=
  let k := s.core c
  !k.frozen && !k.contained && k.crew.isSome && k.lastBegin < k.ccc &&
    !(k.q.any fun e => k.begun.any fun b => b.1 == e.part) &&
    (!p.first || (afterOf p.hdr p.sec).all fun a => k.retired a.1 a.2) &&
    s.partsOpen c p

/-- Does core `c` hold the array for section `sec` (R171)? -/
def State.holds (s : State) (c sec : Nat) : Bool := (s.team (teamOf c)).lease == some (c, sec)

/-- The section start's acquires, for the pacer, the engines and the copy engine (R76, R103). Of a chain of an AFTER_CP section the writes
that still await their acknowledgement are acquired too: the waits of R229 count them (R239, R241). -/
def State.sectionAcquire (s : State) (c : Nat) (p : Part) : State :=
  let after := afterOf p.hdr p.sec
  let ks := after.map fun a => (s.core c).engw.get [] (a.2 * 8 + a.1)
  let s : State := { s with reqs := s.reqs.map fun r =>
    if r.core = c ∧ r.chan.isSome ∧ after.contains (5, r.sec) then { r with acq := true } else r }
  let s := [0, 1, 2, 3, 4, 5].foldl (fun s n => s.setView (srcOf c n) (ks.foldl View.join (s.view (srcOf c n)))) s
  let k := s.core c
  s.setCore c { k with chans := k.chans.map fun x =>
    if x.2.phase == .awaiting && x.2.sec == p.sec then (x.1, { x.2 with rel := ks.foldl kJoin x.2.rel }) else x }

/-- LIVEMAP at a section start (R44, R364). -/
def State.liveMap (s : State) (c : Nat) (sec : Nat) : State :=
  let k := s.core c
  match k.crew.bind fun i => (s.crew i).live_.find sec with
  | none => s
  | some m =>
    let map : BitVec 1024 := BitVec.ofNat 1024 (fld m 64 1024)
    let n := ((List.range 1024).filter fun j => map.getLsbD j).length
    s.setCore c { k with livemap := BitVec.ofNat 64 (sec + n * 2 ^ 24), livebits := map }

/-- PART_BEGIN (R217): the oldest ended part begins; its entries may begin from this cycle on, its chains start (R76). -/
def State.partBegin (s : State) (c : Nat) : State :=
  let k := s.core c
  match k.parts with
  | [] => s
  | p :: rest =>
    if !s.partReady c p || (p.hdr.lease && !s.holds c p.sec) then s
    else
      let live (b : Nat × Nat) : Bool := k.q.any fun e => e.part == b.1
      let s := s.setCore c { k with parts := rest, begun := (k.begun ++ [(p.id, p.sec)]).filter live }
      let s := if p.first then (s.sectionAcquire c p).liveMap c p.hdr.sec.toNat else s
      let chains := (List.range 8).filter fun ch => let x := k.chan ch; x.phase == .awaiting && x.part == p.id
      { s with agenda := (chains.map fun ch => Instr.chainStart c ch) ++ .partBegin c :: s.agenda }

/-- PART_BEGIN. -/
def execPartBegin (core : Nat) (s : State) : Host.Outcome State Fault Refusal := .next (s.partBegin core)

-- The lease (R171–R174).

/-- Grant a free array to the oldest waiting request by (stamp, source), and let the granted part begin (R172). A request is over with its
part, where a branch or SQUASH has discarded it, and with a pre-emption that is taken before its part (R174, R217, R360). -/
def State.grant (s : State) (team : Nat) : State :=
  let t := s.team team
  let ask (r : Nat × Nat × Nat × Nat) : Bool :=
    let k := s.core r.2.2.1
    !k.contained && k.crew.isSome && k.wait != .preempt &&
      (match k.parts with | p :: _ => p.id == r.2.2.2 && (s.partsOpen r.2.2.1 p || !(s.preemptPending r.2.2.1 && p.first)) | [] => false)
  let rs := t.reqs.filter ask
  let older (x y : Nat × Nat × Nat × Nat) : Bool := x.1 < y.1 || (x.1 == y.1 && x.2.1 < y.2.1)
  match rs.find? fun r => !rs.any fun x => older x r with
  | some r =>
    let sec := match (s.core r.2.2.1).parts with | p :: _ => p.sec | [] => 0
    let s := s.setTeam team
      { t with lease := some (r.2.2.1, sec), lrel := false, reqs := rs.filter fun x => x.2.2.1 != r.2.2.1 }
    { s with agenda := .partBegin r.2.2.1 :: s.agenda }
  | none => s.setTeam team { t with lease := none, lrel := false, reqs := [] }

/-- LEASE_REQUEST: a LEASE part that meets every other condition asks once (R172). -/
def State.leaseRequest (s : State) (c : Nat) : State :=
  match (s.core c).parts with
  | [] => s
  | p :: _ =>
    let t := s.team (teamOf c)
    if !p.hdr.lease || s.holds c p.sec || !s.partReady c p || t.reqs.any (fun r => r.2.2.1 == c && r.2.2.2 == p.id) then s
    else
      let s := s.setTeam (teamOf c)
        { t with reqs := (t.reqs.filter fun r => r.2.2.1 != c) ++ [(s.gtc, srcOf c 4, c, p.id)] }
      if t.lease.isNone then s.grant (teamOf c) else s

/-- LEASE_REQUEST. -/
def execLeaseRequest (core : Nat) (s : State) : Host.Outcome State Fault Refusal := .next (s.leaseRequest core)

/-- LEASE_END: MX has begun every entry pushed in the leased section, or its LREL, and its tile commands' intervals are over
(R173, R192). -/
def State.leaseEnd (s : State) (c : Nat) : State :=
  let k := s.core c
  let t := s.team (teamOf c)
  match t.lease with
  | some (x, sec) =>
    if x = c ∧ !k.frozen ∧ k.busy.get 0 8 ≤ k.ccc ∧ (t.lrel ∨ !(k.q.any fun e => e.eng == .mx && e.sec == sec)) then
      s.grant (teamOf c)
    else s
  | none => s

/-- LEASE_END. -/
def execLeaseEnd (core : Nat) (s : State) : Host.Outcome State Fault Refusal := .next (s.leaseEnd core)

end Sys2Proof.Machine
end

