-- ==== Sys2Proof/Machine/Sync.lean ====
section
/-! DEFINITION. The synchronising instructions (R231–R236), and what happens at a word's home and on the way there
(R67–R74, R222, R226, R237–R242, R356, R379, R387, R397). -/
namespace Sys2Proof.Machine

/-- The scope of the acquire an order makes, if it makes one. -/
def acqScope (o : Ord) (sc : BitVec 4) : Option Nat := if o == .acq || o == .ar then some sc.toNat else none
/-- The scope of the release an order makes, if it makes one. -/
def relScope (o : Ord) (sc : BitVec 4) : Option Nat := if o == .rel || o == .ar then some sc.toNat else none
/-- The scope at which an atomic of order AR acquires, beside its release (R228, R233, R234). -/
def arScope (o : Ord) (sc : BitVec 4) : Option Nat := if o == .ar then some sc.toNat else none
/-- The waits of R229, where an order releases. -/
def relWaitIf (o : Option Nat) (va : Nat) : M Unit := match o with | some n => relWait n va | none => pure ()

/-- LDA (R232). -/
def execLda (n : Ann) (o : Ord) (sc : BitVec 4) (wd : Width) (d a : SReg) (imm : BitVec 32) (s : State) :
    Host.Outcome State Fault Refusal :=
  pacerWord n 12 [a] false (fun s =>
    let va := (s.me.effAddr a imm).toNat
    let z := widthBytes wd
    (do
      let t ← xlate va z z .rd
      let id ← sendReq .read t z va false false []
      stall (.data (physS s.me.rrb d) wd id (acqScope o sc) false)) s) s

/-- STR: with REL, the write leaves after the release's waits, carrying the release (R229, R232). -/
def execStr (n : Ann) (o : Ord) (sc : BitVec 4) (wd : Width) (a b : SReg) (imm : BitVec 32) (s : State) :
    Host.Outcome State Fault Refusal :=
  pacerWord n 12 [a, b] false (fun s =>
    let k := s.me
    let va := (k.effAddr a imm).toNat
    let z := widthBytes wd
    (do
      let t ← xlate va z z .wr
      relWaitIf (relScope o sc) va
      let rels := (← get).relMsgs (srcOf s.actor 0) (relScope o sc)
      let _ ← sendReq (.write ((k.rd b).toNat % 2 ^ (8 * z))) t z va false false rels
      return Flow.seq) s) s

/-- The size of an atomic's word (R233). -/
def atypBytes : ATyp → Nat
  | .w32 | .f32 => 4
  | .w64 | .a48 => 8

/-- ATOM (R233). -/
def execAtom (n : Ann) (op : AOp) (ty : ATyp) (o : Ord) (sc : BitVec 4) (d a b : SReg) (s : State) :
    Host.Outcome State Fault Refusal :=
  pacerWord n 12 [a, b] false (fun s =>
    let k := s.me
    let va := (k.rd a).toNat
    let z := atypBytes ty
    (do
      let t ← xlate va z z .atomic
      relWaitIf (relScope o sc) va
      let rels := (← get).relMsgs (srcOf s.actor 0) (relScope o sc)
      let id ← sendReq (.atom op ty ((k.rd b).toNat % 2 ^ (8 * z))) t z va false false rels (arScope o sc)
      stall (.rmw (physS k.rrb d) (ty == ATyp.w32) id (acqScope o sc) false 0 sc.toNat)) s) s

/-- CAS (R234). -/
def execCas (n : Ann) (w32 facq : Bool) (o : Ord) (sc : BitVec 4) (d a b c : SReg) (s : State) :
    Host.Outcome State Fault Refusal :=
  pacerWord n 12 [a, b, c] false (fun s =>
    let k := s.me
    let va := (k.rd a).toNat
    let z := if w32 then 4 else 8
    let exp := (k.rd b).toNat % 2 ^ (8 * z)
    (do
      let t ← xlate va z z .atomic
      relWaitIf (relScope o sc) va
      let rels := (← get).relMsgs (srcOf s.actor 0) (relScope o sc)
      let id ← sendReq (.cas exp ((k.rd c).toNat % 2 ^ (8 * z))) t z va false false rels (arScope o sc)
      stall (.rmw (physS k.rrb d) w32 id (acqScope o sc) facq exp sc.toNat)) s) s

/-- The acquire half of a fence: phases end, and the releases seen by earlier scoped reads are acquired (R235). -/
def State.fenceAcq (s : State) (a n : Nat) : State :=
  let v := s.view a
  (s.setView a { v with pinned := [] }).acquire a n v.seen
/-- The release half: later scoped writes carry what is carried now (R235). -/
def State.fenceRel (s : State) (a n : Nat) : State :=
  let v := s.view a
  s.setView a { v with fences := v.fences.upd n (s.release a n).k }

/-- FENCE (R235). The manual does not say whether the K that `fence.ar` keeps holds what the same fence acquires: the model keeps K first
and acquires then (log entry 55). -/
def execFence (n : Ann) (o : Ord) (sc : BitVec 4) (s : State) : Host.Outcome State Fault Refusal :=
  pacerWord n 12 [] false (fun s =>
    let a := srcOf s.actor 0
    (do
      relWaitIf (relScope o sc) 0
      modify fun (s : State) =>
        let s : State := match relScope o sc with | some n => s.fenceRel a n | none => s
        match acqScope o sc with | some n => s.fenceAcq a n | none => s
      return Flow.seq) s) s

/-- WAITA: the address checks, and the first poll (R236); a contained pacer of the crew ends it at once (R359). -/
def execWaita (n : Ann) (c : PCond) (w32 : Bool) (o : Ord) (sc : BitVec 4) (psel : BitVec 3) (bk : BitVec 4)
    (d a b dl : SReg) (s : State) : Host.Outcome State Fault Refusal :=
  pacerWord n 12 [a, b, dl] false (fun s =>
    let k := s.me
    let va := (k.rd a).toNat
    let z := if w32 then 4 else 8
    match k.owed.head? with
    | some src => .ok (.set, s.owedTrap s.actor va src)
    | none =>
      (do
        let t ← xlate va z z .rd
        let id ← sendReq .read t z va false false []
        stall (.waita (physS k.rrb d) c w32 (o == Ord.acq) sc.toNat psel bk.toNat va t (k.rd b) (k.rd dl).toNat (some id) 1
          s.gtc ((s.wordHist (t.key / 8)).ws.length))) s) s

/-- WAITA_POLL: PEERLOST, where a pacer of the crew has been contained (R359); else the next poll, when its backoff has passed, the home has reported a write to the word, or the deadline has
come (R236). -/
def State.waitaPoll (s : State) (c : Nat) : State :=
  match (s.core c).wait, (s.core c).owed.head? with
  | .waita _ _ _ _ _ _ _ va _ _ _ _ _ _ _, some src => s.owedTrap c va src
  | .waita d cond w32 acq sc psel bk va t cmp dl none polls last pos, none =>
    let here := (s.wordHist (t.key / 8)).ws.length
    if (last + 64 * 2 ^ Nat.min (polls - 1) bk ≤ s.gtc || pos < here || (dl != 0 && dl ≤ s.gtc)) && s.logCount c < 256 then
      let s' := s.issue (reqAt c (srcOf c 0) .read t (if w32 then 4 else 8) va false)
      s'.setCore c { s'.core c with
        wait := .waita d cond w32 acq sc psel bk va t cmp dl (some s.nextReq) (polls + 1) s.gtc here }
    else s
  | _, _ => s

/-- WAITA_POLL. -/
def execWaitaPoll (core : Nat) (s : State) : Host.Outcome State Fault Refusal := .next (s.waitaPoll core)

-- Atomic operations at a home (R233).

/-- An integer atomic on z-byte values. -/
def atomInt {n : Nat} (op : AOp) (old b : BitVec n) : BitVec n :=
  match op with
  | .swap => b
  | .add => old + b
  | .and => old &&& b
  | .or => old ||| b
  | .xor => old ^^^ b
  | .min => if b.slt old then b else old
  | .max => if old.slt b then b else old
  | .minn => if b.ult old then b else old
  | .maxn => if old.ult b then b else old
  | _ => b

/-- A floating-point atomic: RNE, no flag kept. -/
def atomFloat (op : AOp) (f : Fmt) (old b : Nat) : Nat :=
  let x := decodeF f old
  let y := decodeF f b
  (roundFl f (match op with | .fmin => fmin x y | .fmax => fmax x y | _ => exactSum false [x, y]) .rne false).1

/-- The new value of an ATOM's word (R233). -/
def atomNew (op : AOp) (ty : ATyp) (old b : Nat) : Nat :=
  match ty with
  | .w32 => (atomInt op (BitVec.ofNat 32 old) (BitVec.ofNat 32 b)).toNat
  | .w64 => (atomInt op (BitVec.ofNat 64 old) (BitVec.ofNat 64 b)).toNat
  | .f32 => atomFloat op .f32 old b
  | .a48 => atomFloat op .a48 (old % 2 ^ 48) (b % 2 ^ 48)

-- Homes.

/-- Bytes that a channel has written: acquired later by CPWAIT and AFTER_CP (R24, R98), under the section that issued the
chain, and carried by the chain's releases (R81). -/
def State.noteWrote (s : State) (c ch gen sec key size : Nat) : State :=
  let k := s.core c
  let x := k.chan ch
  let ks := (splitWords key size).map fun p => (p.1 / 8, (s.wordHist (p.1 / 8)).ws.length)
  s.setCore c { k.setChan ch { x with wrote := kJoin x.wrote ks, rel := if x.gen = gen then kJoin x.rel ks else x.rel } with
    engw := k.engw.upd (sec * 8 + 5) (kJoin (k.engw.get [] (sec * 8 + 5)) ks) }

/-- A LOCAL watchpoint of the core sees its own channels' accesses as events (R354): VALUE is the aligned word after the step (R355). -/
def State.watchCopy (s : State) (c va n : Nat) (rd : Bool) (value : Nat) : State :=
  (List.range 4).foldl (fun s i =>
    let k := s.core c
    let ctl := k.watchctl.get 0 i
    let w := fld (k.watch.get 0 i) 0 55
    if bit ctl 0 && !bit ctl 1 && (if rd then bit ctl 2 else bit ctl 3) && w < va + n && va < w + 2 ^ fld ctl 4 3 then
      s.logWatch c
        { stamp := s.gtc, src := s.ext (srcOf c 5), wn := i, rd := rd, wr := !rd, addr := w, value := if rd then 0 else value }
    else s) s

/-- A step of a copy channel's write has been performed on bytes of one word: its core's LOCAL watchpoints see it, its bytes are noted,
and acquired where the pacer has acquired the channel (R98, R239, R354). -/
def State.noteCopy (s : State) (r : Req) (key size : Nat) : State :=
  match r.chan with
  | none => s
  | some (ch, gen) =>
    let s := (s.noteWrote r.core ch gen r.sec key size).watchCopy r.core (r.va + key - r.key) size false (s.mem.getNat (8 * (key / 8)) 8)
    if r.acq then
      let a := srcOf r.core 0
      s.setView a ((s.view a).join
        ((splitWords key size).map fun p => (p.1 / 8, (s.wordHist (p.1 / 8)).ws.length)))
    else s

/-- The bytes of word `i` of a line that a write names: the lowest named one, and how many from it up to the highest (R239). -/
def maskWord (mask i : Nat) : Option (Nat × Nat) :=
  match (List.range 8).filter fun j => mask.testBit (8 * i + j) with
  | [] => none
  | l@(j :: _) => some (8 * i + j, (l.getLast?.getD j) + 1 - j)

/-- The step of word `i` of a write of a line (R222). A word whose named bytes leave gaps keeps the bytes in them. -/
def State.lineWord (s : State) (r : Req) (mask v i : Nat) : State :=
  match maskWord mask i with
  | none => s
  | some (lo, n) =>
    let at_ := r.key / 64 * 64 + lo
    let old := s.mem.getNat at_ n
    let new := (List.range n).foldl (fun x j =>
      let src := if mask.testBit (lo + j) then v / 2 ^ (8 * (lo + j)) else old / 2 ^ (8 * j)
      x + src % 256 * 2 ^ (8 * j)) 0
    (s.homeWrite r.agent at_ n new r.rels).noteCopy r at_ n

/-- One step of a write of a line: the bytes of one of the words still to be written, taken in no fixed order (R222, R239). -/
def State.lineStep (s : State) (r : Req) (mask v : Nat) : State :=
  let left_ := (List.range 8).filter fun i => (maskWord mask i).isSome
  let (n, s) := s.choice
  let i := left_.getD (n % Nat.max 1 left_.length) 0
  if left_.isEmpty then s
  else
    let s := s.lineWord r mask v i
    let rest := mask / 2 ^ (8 * i + 8) * 2 ^ (8 * i + 8) + mask % 2 ^ (8 * i)
    if rest ≠ 0 then s.setReq { r with kind := .line rest v, phase := .partly }
    else if r.apt = 2 ∨ r.apt = 3 then s.setReq { r with phase := .performed }
    else s.dropReq r.id

/-- A store of a pacer has landed: the chains issued after it and not yet started carry it (R94, R228). -/
def State.noteStore (s : State) (r : Req) : State :=
  if r.chan.isSome || kSpace r.key == 2 || kSpace r.key == 3 then s
  else
    let ks : KMap := (splitWords r.key r.size).map fun p => (p.1 / 8, (s.wordHist (p.1 / 8)).ws.length)
    (List.range 8).foldl (fun s ch =>
      let k := s.core r.core
      let x := k.chan ch
      if x.phase = .awaiting ∧ r.id < x.quayBefore then s.setCore r.core (k.setChan ch { x with rel := kJoin x.rel ks }) else s) s

/-- The releases that an atomic's write makes: under AR its own also carries what its read acquires in the same step (R228, R233, R391). -/
def State.arRels (s : State) (r : Req) (ms : List Msg) : List Msg :=
  match r.ar, r.rels with
  | some n, own :: l =>
    let got := ms.filter fun m => covers m.scope m.agent r.agent && covers (scopeAt r.agent n) r.agent m.agent
    { own with k := got.foldl (fun k m => kJoin k (s.carried r.agent own.scope m.k)) own.k } :: l
  | _, rels => rels

/-- A request's step at its home (R222, R225, R231–R234): what it writes, and what it will answer. -/
def State.perform (s : State) (r : Req) : State :=
  let done (s : State) (old : Nat) (msgs : List Msg) : State :=
    s.setReq { r with phase := .performed, old := old, msgs := msgs }
  let s := if r.apt = 2 then s.touchHost r.cp r.key r.writes else s
  match r.kind with
  | .read =>
    if r.ordinary then
      let (x, s) := s.seenRead r.agent r.key r.size
      let ms := (splitWords r.key r.size).flatMap fun p =>
        (s.wordHist (p.1 / 8)).msgs ((s.view r.agent).floor.get 0 (p.1 / 8)) (p.1 % 8) p.2.2
      let s := match r.chan with | some _ => s.watchCopy r.core r.va r.size true 0 | none => s
      done s x ms
    else
      let (x, ms, s) := s.scopedRead r.agent r.key r.size
      done (s.watchHome r.agent r.key r.size true false) x ms
  | .write v =>
    let s := ((s.homeWrite r.agent r.key r.size v r.rels).noteCopy r r.key r.size).noteStore r
    if r.apt = 2 ∨ r.apt = 3 then done s 0 [] else s.dropReq r.id
  | .line mask v => s.lineStep r mask v
  | .atom op ty b =>
    let (old, ms, s) := s.scopedRead r.agent r.key r.size
    let s := s.homeWord r.agent r.key r.size (atomNew op ty old b) true (s.arRels r ms)
    done (s.watchHome r.agent r.key r.size true true) old ms
  | .cas exp new =>
    let (old, ms, s) := s.scopedRead r.agent r.key r.size
    if old = exp then
      let s := s.homeWord r.agent r.key r.size new true (s.arRels r ms)
      done (s.watchHome r.agent r.key r.size true true) old ms
    else done (s.watchHome r.agent r.key r.size true false true) old ms

/-- The key of a row's count of corrected errors. -/
def rowKey (stack row : Nat) : Nat := stack * 2 ^ 40 + row
/-- An access to HBM or the bulk tier may meet an error that the controller corrects and counts (R74, R387). -/
def State.countCorrected (s : State) (key : Nat) : State :=
  let k := rowKey (stackOf key) (Config.rowOf key)
  if kSpace key < 2 then
    { s with corrected := if Config.correctedError s.count then s.corrected.upd k (s.corrected.get 0 k + 1) else s.corrected }
  else s

/-- Does a request only write: has it no answer but an acknowledgement? -/
def Req.stores (r : Req) : Bool := match r.kind with | .write _ | .line _ _ => true | _ => false

/-- HOME_STEP: request `n` is performed at its home, in its order (R114, R213, R222, R237), or is held there (R72, R387), or
fails: an uncorrectable error (R74, R386), or a peer that refuses it, cannot be reached, or has no such address (R397). A tag is
performed once (R242): a request that has been performed is not performed again. -/
def State.homeStep (s : State) (n : Nat) (e : Err) : State :=
  match s.req n with
  | none => s
  | some r =>
    if !r.pending || !s.inOrder r then s
    else if s.lineLost r then s.setReq { r with phase := .failed }
    else if r.apt = 3 ∧ (e ≠ .none ∨ !peerValid r.key ∨ !s.reaches r.key) then s.setReq { r with phase := .failed }
    else if r.apt = 2 ∧ e = .peer then s.setReq { r with phase := .failed }
    else if (e = .ecc ∨ !s.inService r.key) ∧ !r.stores then s.setReq { r with phase := .dead }
    else if !s.inService r.key then (if r.chan.isSome then s.setReq { r with phase := .dead } else s.dropReq r.id)
    else if e ≠ .none then s
    else if s.repairing r.key then (if r.phase = .held then s else s.setReq { r with phase := .held, heldAt := s.count })
    else if r.apt = 0 ∧ !s.deviceBias r.devBias r.key ∧ !r.snooped then s.setReq { r with phase := .snoop }
    else (s.countCorrected r.key).perform { r with crc := (0, 0) }

/-- What becomes of a contained pacer's write that has not reached its home when its instance ends: each aligned word of it is performed,
or dropped, as an open choice (R226, R358). A write that could not be performed now is dropped. -/
def State.settle (s : State) (r : Req) : State :=
  let each (s : State) (f : State → State) : State := let (n, s) := s.choice; if n % 2 = 0 then f s else s
  let able := r.pending && s.reaches r.key && s.inService r.key && !s.repairing r.key && (r.apt != 3 || peerValid r.key) &&
    (r.apt != 0 || s.deviceBias r.devBias r.key || r.snooped)
  let s :=
    if !able then s
    else
      let s := if r.apt = 2 then s.touchHost r.cp r.key true else s
      match r.kind with
      | .write v =>
        (splitWords r.key r.size).foldl (fun s p => each s fun s =>
          (s.homeWrite r.agent p.1 p.2.2 (v / 2 ^ (8 * p.2.1) % 2 ^ (8 * p.2.2)) r.rels).noteCopy r p.1 p.2.2) s
      | .line mask v => (List.range 8).foldl (fun s i => each s fun s => s.lineWord r mask v i) s
      | _ => each s fun s => s.perform r
  s.dropReq r.id

/-- HOME_STEP. A key outside every address space of R61 and R99 faults; no meaning makes one. -/
def execHomeStep (n : Nat) (e : Err) (s : State) : Host.Outcome State Fault Refusal :=
  match s.req n with
  | some r => if 7 ≤ kSpace r.key then .fault .noSuchAddress else .next (s.homeStep n e)
  | none => .next s

/-- HOST_SNOOP_RESPONSE: the host has resolved its copies of the line, and the access goes on: a request, the word of a core, or the step
of a unit (R72). -/
def execHostSnoopResponse (n : Nat) (s : State) : Host.Outcome State Fault Refusal :=
  match s.req n with
  | some r => if r.phase = .snoop then .next (s.setReq { r with phase := .sent, snooped := true }) else .next s
  | none =>
    match s.snoops.find? fun x => x.id == n with
    | none => .next s
    | some x =>
      match x.core with
      | none => .next { s with snoops := s.snoops.map fun y => if y.id = n then { y with done := true } else y }
      | some c =>
        let k := s.core c
        .next (({ s with snoops := s.snoops.filter fun y => y.id != n } : State).setCore c
          { k with answered := k.answered ++ [(x.agent, x.line)] })

/-- WRITE_ACKNOWLEDGEMENT: a write to a peer or the host counts as having reached its home (R237, R240, R241). -/
def execWriteAcknowledgement (n : Nat) (s : State) : Host.Outcome State Fault Refusal :=
  match s.req n with
  | some r =>
    if r.phase = .performed ∧ r.stores then .next (s.dropReq n) else .next s
  | none => .next s

/-- WRITE_REFUSED: the home refuses a write, or its path is lost, before or after the home has performed it; no acknowledgement will
come (R241, R397). -/
def execWriteRefused (n : Nat) (s : State) : Host.Outcome State Fault Refusal :=
  match s.req n with
  | some r =>
    if (r.pending ∨ r.phase = .performed) ∧ r.stores ∧ (r.apt = 2 ∨ r.apt = 3) then .next (s.setReq { r with phase := .failed })
    else .next s
  | none => .next s

/-- The quay instruction whose element holds entry `n` of an operand log. -/
def State.quayEntry (s : State) (n : Nat) : Option QJob :=
  (List.range 8).findSome? fun d => (s.die d).jobs.find? fun j => j.id == n && j.entry.isSome

/-- OPERAND_LOG_REISSUE: an entry is sent again with its tag (R356). What has been performed is not performed again: its home repeats
the answer or the acknowledgement. The ninth sending is a failure: PEERLOST under APT 2 and 3, else ECCU; an atomic that has been
performed has its answer. -/
def execOperandLogReissue (n : Nat) (s : State) : Host.Outcome State Fault Refusal :=
  match s.req n with
  | some r =>
    let far := r.apt = 2 ∨ r.apt = 3
    if !r.pending && r.phase != .performed then .next s
    else if r.tries < 8 then .next (s.setReq { r with tries := r.tries + 1 })
    else if r.phase = .performed ∧ (!far ∨ (r.writes ∧ !r.stores)) then .next s
    else .next (s.setReq { r with phase := if far then .failed else .dead })
  | none =>
    match s.quayEntry n with
    | none => .next s
    | some j =>
      match j.entry with
      | some (tag, tries) =>
        if tries < 8 then .next (s.putJob (dieOf j.core) { j with entry := some (tag, tries + 1) }) else .next (s.quayFails j)
      | none => .next s

/-- FLIT_CRC_FAIL: a flit of one of the accesses on the fabric is retried on its link up to 16 times; then the operand log re-issues
that access (R379, R356). -/
def execFlitCrcFail (link : Nat) (s : State) : Host.Outcome State Fault Refusal :=
  let l := s.reqs.filter fun r => r.apt == 3 && (r.pending || r.phase == .performed)
  let (n, s) := s.choice
  match l[n % Nat.max 1 l.length]? with
  | none => .next s
  | some r =>
    let tries := if r.crc.1 = link then r.crc.2 else 0
    let p := s.ports.get Port.reset link
    if tries < 16 then
      .next ({ s with ports := s.ports.upd link { p with retries := tries + 1 } }.setReq { r with crc := (link, tries + 1) })
    else
      .next (({ s with ports := s.ports.upd link { p with retries := 0 } }.setReq { r with crc := (link, 0) }).soon
        [.operandLogReissue r.id])

/-- ROW_REPAIR: a row has passed the configuration record's threshold of corrected errors, which is logged, and its controller repairs it;
accesses to it are held (R385, R387). -/
def execRowRepair (stack row : Nat) (s : State) : Host.Outcome State Fault Refusal :=
  if s.repairs.contains (stack, row) || s.corrected.get 0 (rowKey stack row) ≤ s.rowThreshold then .next s
  else
    .next (({ s with repairs := s.repairs ++ [(stack, row)] } : State).logPut
      (logRecord s.gtc (s.ext (fwSrc 0)) 5 0 (stack * 2 ^ 32 + row)))

/-- Requests in the order in which their homes held them. -/
def arrival (l : List Req) : List Req :=
  l.foldl (fun m r => (m.takeWhile fun x => x.heldAt ≤ r.heldAt) ++ r :: m.dropWhile fun x => x.heldAt ≤ r.heldAt) []

/-- ROW_REPAIR_COMPLETE: the accesses held for the row are performed, in arrival order, before any other (R387). -/
def execRowRepairComplete (stack row : Nat) (s : State) : Host.Outcome State Fault Refusal :=
  let mine (r : Req) : Bool := r.phase == .held && stackOf r.key == stack && Config.rowOf r.key == row
  .next { s with
    repairs := s.repairs.filter fun x => x != (stack, row)
    corrected := s.corrected.del (rowKey stack row)
    agenda := ((arrival (s.reqs.filter mine)).map fun r => Instr.homeStep r.id .none) ++ s.agenda
    reqs := s.reqs.map fun r => if mine r then { r with phase := .sent } else r }

-- TABLE_WALK (R58–R70).

/-- Put a translation into a cache of at most `n` entries, in place of the oldest (R67). -/
def cacheTlb (n : Nat) (t : Tlb) (l : List Tlb) : List Tlb :=
  (t :: l.filter fun x => !(x.asid == t.asid && x.vpn == t.vpn && x.level == t.level)).take n

/-- The walks that a found translation serves: the one walked, and those of its context and page or block that joined it. -/
def joins (w : Walk) (level : Nat) (x : Walk) : Bool :=
  x.asid == w.asid && x.va / 2 ^ levelShift level == w.va / 2 ^ levelShift level

/-- The misses that share a walk's slot: the one walked, and those for its page that joined it (R67). -/
def Walk.joined (w x : Walk) : Bool := x.out.isNone && w.samePage x

/-- A walk that failed gives its trap to the misses it served, each of which its access takes (R69, R74). -/
def State.walkFails (s : State) (d : Nat) (w : Walk) (code : Nat) (lines : List Nat) : State :=
  s.setWalks d ((s.die d).walks.map fun x => if w.joined x then { x with slot := false, out := some (code, lines) } else x)

/-- A walk that found a leaf: a miss that fails its checks is told so, any other is over; the translation is cached if one passed
(R67, R69). -/
def State.walkFinds (s : State) (d : Nat) (w : Walk) (f : Found) (code : Walk → Option Nat) : State :=
  let mine (x : Walk) : Bool := x.out.isNone && joins w f.level x
  let good := (s.die d).walks.filter fun x => mine x && (code x).isNone
  let rest := ((s.die d).walks.filter fun x => !(mine x && (code x).isNone)).map fun x =>
    if mine x then { x with slot := false, out := some ((code x).getD 0, f.lines) } else x
  let s := s.setWalks d rest
  let t : Tlb :=
    { asid := w.asid, level := f.level, vpn := w.va / 2 ^ levelShift f.level, leaf := f.leaf, lines := f.lines }
  if good.isEmpty then s
  else
    good.foldl (fun s y =>
      let s := s.setCore y.core { s.core y.core with tlb := cacheTlb 64 t (s.core y.core).tlb }
      s.setTeam (teamOf y.core) { s.team (teamOf y.core) with tlb := cacheTlb 2048 t (s.team (teamOf y.core)).tlb })
      (s.setDie d { s.die d with wtlb := cacheTlb 4096 t (s.die d).wtlb })

/-- TABLE_WALK: one of the die's walks finishes (R67, R68, R70). A failing one gives its trap to the access that asked (R69,
R74, R386); one that must set A or D sets it and purges (R68, R70); any other is cached. -/
def State.tableWalk (s : State) (d : Nat) (e : Err) : State :=
  let slots := (s.die d).walks.filter fun w => w.slot
  if slots.isEmpty then s
  else
    let (n, s) := s.choice
    match slots[n % slots.length]? with
    | none => s
    | some w =>
      let addrs := s.walkReads d w.asid w.va
      let lines := addrs.map fun a => a / 64
      if s.walkHeld addrs then s
      else
      let s := s.walked d addrs
      if e ≠ .none ∨ addrs.any (fun a => !s.inService (kHbm a)) then s.walkFails d w cECCU lines
      else
        match s.walkTables d w.asid w.va with
        | .error code => s.walkFails d w code lines
        | .ok f =>
          let code (x : Walk) : Option Nat := leafCheck s f.level f.leaf x.va x.acc x.user
          let asks := (s.die d).walks.filter fun x => x.out.isNone && joins w f.level x && (code x).isNone && needsAD f.leaf x.acc
          match asks.head? with
          | some x => s.setADSeen d f x.acc
          | none => s.walkFinds d w f code

/-- TABLE_WALK. -/
def execTableWalk (die : Nat) (e : Err) (s : State) : Host.Outcome State Fault Refusal := .next (s.tableWalk die e)

end Sys2Proof.Machine
end

