-- ==== Sys2Proof/Machine/Copy.lean ====
section
/-! DEFINITION. The copy engine (R75–R98, R239, R397). -/
namespace Sys2Proof.Machine

/-- A copy or quay word (R14, R92, R204, R349): in a handler it traps ILLOP, and in a section with SQOK SECT, whatever its
predicate. -/
def unitWord (n : Ann) (bytes : Nat) (srcs : List SReg) (ends : Bool) (body : M Flow) (s : State) :
    Host.Outcome State Fault Refusal :=
  if s.me.mode then .next (s.preciseTrap s.actor (tr cILLOP))
  else if s.me.ctx.hdr.sqok then .next (s.preciseTrap s.actor (tr cSECT s.me.pc))
  else pacerWord n bytes srcs ends body s

-- Address words and walks (R78, R79, R95).

/-- An address word: SPACE and address; none where a bit that must be zero is set or the SPACE is reserved (R78). -/
def addrWord (x : Word) : Option (Nat × Nat) :=
  match fld x 60 4 with
  | 0 => if fld x 55 5 = 0 then some (0, fld x 0 55) else none
  | 1 => if fld x 23 37 = 0 then some (1, fld x 0 23) else none
  | 2 => if fld x 21 39 = 0 then some (2, fld x 0 21) else none
  | 3 => if fld x 21 39 = 0 ∧ fld x 11 5 = 0 then some (3, fld x 0 21) else none
  | _ => none

/-- The end of a space (R79); a slot address is taken within its slot. -/
def spaceEnd (sp : Nat) : Int :=
  match sp with | 0 => 2 ^ 55 | 1 => 2 ^ 23 | 2 => 2 ^ 16 | _ => 2 ^ 11
/-- An address within its space: the slot's number taken off. -/
def inSpace (sp a : Nat) : Nat := if sp < 2 then a else a % 2 ^ 16

/-- Step `e` of a strided walk, dimension 0 fastest. -/
def stridedAt (base : Int) : List (Nat × Int) → Nat → Int
  | [], _ => base
  | (e, st) :: l, n => stridedAt (base + (n % e : Nat) * st) l (n / e)

/-- The lowest and highest element address of a walk. -/
def walkSpan (base : Int) (l : List (Nat × Int)) : Int × Int :=
  l.foldl (fun r d =>
    let x : Int := (d.1 - 1 : Nat) * d.2
    (r.1 + min 0 x, r.2 + max 0 x)) (base, base)

/-- The source and destination address of byte `n`, each within its space. -/
def Xfer.at (t : Xfer) (n : Nat) : Nat × Nat :=
  let a := (stridedAt t.base (t.ext.zip t.stride) (n / t.elem) + (n % t.elem : Nat)).toNat
  if t.srcStrided then (a, inSpace t.dstSpace t.dstAddr + n) else (inSpace t.srcSpace t.srcAddr + n, a)

/-- A transfer from its address words, dimensions and element size (R79, R95). -/
def mkXfer (src dst : Nat × Nat) (ext : List Nat) (stride : List Int) (elem : Nat) (base : Nat) : Xfer :=
  let sst : Bool := !(dst.1 == 0 && src.1 != 0)
  { recVa := 0, words := [], srcSpace := src.1, srcAddr := src.2, dstSpace := dst.1, dstAddr := dst.2,
    srcStrided := sst, ext := ext, stride := stride,
    base := (if sst then inSpace src.1 src.2 else inSpace dst.1 dst.2) + base,
    elem := elem, total := ext.foldl (· * ·) elem, done := 0, scope := 0, notBefore := 0, mcast := false, lchk := false,
    hint := false, adapter := 0, teams := [], checked := [], failed := [], status := 0, taddr := 0, lost := none,
    last := true, next := 0, lines := [], put := none, rdReq := none }

/-- Are the byte count and every address within limits (R79, R80 check 5)? -/
def Xfer.limitsOk (t : Xfer) : Bool :=
  let (strSp, densSp, dens) :=
    if t.srcStrided then (t.srcSpace, t.dstSpace, inSpace t.dstSpace t.dstAddr)
    else (t.dstSpace, t.srcSpace, inSpace t.srcSpace t.srcAddr)
  let span := walkSpan t.base (t.ext.zip t.stride)
  t.total ≤ 2 ^ 40 &&
    (t.total == 0 ||
      (0 ≤ span.1 && span.2 + t.elem ≤ spaceEnd strSp && (dens + t.total : Nat) ≤ spaceEnd densSp))

/-- The guard rule for one transfer of a guarded chain (R85). -/
def Chan.guardOk (x : Chan) (t : Xfer) : Bool :=
  !x.act || (t.dstSpace == 1 && !t.mcast && !t.hint && !t.lchk && t.dstAddr == x.gnext && t.dstAddr + t.total ≤ x.hi)

-- Issue (R94, R95).

/-- A handle (R93). -/
def Core.handle (k : Core) (c ch gen : Nat) : Word :=
  BitVec.ofNat 64 (ch + srcOf c 5 * 2 ^ 8 + gen * 2 ^ 24 + fld k.dlost 32 8 * 2 ^ 56)

/-- Take a pending fault, then wait until the channel is idle (R82, R94). -/
def chanIdle (ch : Nat) : M Unit := fun s =>
  match (s.me.chan ch).fault with
  | some f => .error (.chan ch f)
  | none => if (s.me.chan ch).phase = .idle then .ok ((), s) else .error .wait

/-- A store of a core's pacer that is still on its way, and that a release at scope 0 carries (R226, R228). -/
def Req.local0 (r : Req) (c : Nat) : Bool :=
  r.core == c && r.chan.isNone && r.writes && r.pending && carriesIn [] 0 (r.key / 8)

/-- What an issue releases to the copy engine at scope 0: K. The pacer's stores and quay work still on their way join it as they land, before
the chain starts (R94, R115, R228). -/
def State.issueRel (s : State) (c : Nat) : KMap := s.carried (srcOf c 0) 0 (s.view (srcOf c 0)).k

/-- Issue a chain on an idle channel: GEN, the handle, the guard from LO to HI if it has one (R84, R94, R95). -/
def issueChain (d : SReg) (ch : Nat) (recVa : Nat) (one : Option Xfer) (guard : Option (Nat × Nat)) : M Flow := fun s =>
  let c := s.actor
  let k := s.me
  let x := k.chan ch
  let gen := (x.gen + 1) % 2 ^ 32
  let (lo, hi, wm) := match guard with | some g => (g.1, g.2, g.1) | none => (x.lo, x.hi, x.wm)
  let x' : Chan := { x with
    gen := gen, phase := .awaiting, recVa := recVa, one := one, cur := none, nrec := 0,
    guard := match guard with | some g => g.1 + g.2 % 2 ^ 24 * 2 ^ 24 | none => 0,
    act := guard.isSome, lo := lo, hi := hi, wm := wm, gnext := lo, sec := k.ctx.ord, part := k.partNo - 1, quayBefore := s.nextReq,
    froze := false, relFabric := none, rel := s.issueRel c, rdReq := none }
  let k := (k.setChan ch x').wr d (k.handle c ch gen)
  .ok (.seq, { s.setMe k with agenda := .chainStart c ch :: s.agenda })

/-- The guard word of a CPGO (R94). -/
def guardOk (g : Word) : Bool :=
  let lo := fld g 0 24
  let hi := fld g 24 24
  g == 0 || (fld g 48 16 == 0 && lo % 128 == 0 && hi % 128 == 0 && lo < hi && hi ≤ 2 ^ 23)

/-- CPGO (R94). -/
def execCpgo (n : Ann) (d : SReg) (ch : BitVec 3) (b c : SReg) (s : State) : Host.Outcome State Fault Refusal :=
  unitWord n 12 [b, c] true (do
    chanIdle ch.toNat
    let k ← getMe
    let va := (k.rd b).toNat
    trapIf (va % 64 != 0) cALIGN va
    let _ ← checkVa va .rd
    trapIf (!guardOk (k.rd c)) cRANGE
    let g := k.rd c
    issueChain d ch.toNat va none (if g = 0 then none else some (fld g 0 24, fld g 24 24))) s

/-- The transfer of a CPONE (R95): the address words' RANGE before the parameter block's FMTBAD (log entry 51). -/
def conePush (p g : Bool) (sc : BitVec 4) (b c : SReg) (imm : BitVec 32) :
    M (Xfer × Option (Nat × Nat)) := do
  let k ← getMe
  match addrWord (k.rd b), addrWord (k.rd c) with
  | some src, some dst =>
    trapIf (2 ≤ src.1) cRANGE
    let t ←
      if p then do
        let x ← readBlock
        trapIf (x.edge != 0) cFMTBAD
        pure (mkXfer src dst x.ext x.stride x.width x.base)
      else pure (mkXfer src dst [imm.toNat] [1] 1 0)
    trapIf (g && (dst.1 != 1 || dst.2 % 128 != 0 || t.total == 0 || t.total % 128 != 0)) cRANGE
    return ({ t with scope := sc.toNat }, if g then some (dst.2, dst.2 + t.total) else none)
  | _, _ => trapM cRANGE

/-- CPONE (R95). -/
def execCpone (n : Ann) (p g : Bool) (sc : BitVec 4) (d : SReg) (ch : BitVec 3) (b c : SReg) (imm : BitVec 32)
    (s : State) : Host.Outcome State Fault Refusal :=
  unitWord n (if p then 60 else 12) [b, c] true (do
    chanIdle ch.toNat
    let (t, guard) ← conePush p g sc b c imm
    issueChain d ch.toNat 0 (some t) guard) s

-- Chain ends and cancels (R81, R82, R84, R96).

/-- The guard is dropped: WM := HI, ACT := 0 (R84). -/
def Chan.dropGuard (x : Chan) : Chan := if x.act then { x with act := false, wm := x.hi } else x

/-- A channel's landings at every team are over (R90). -/
def State.endLandings (s : State) (c ch : Nat) : State :=
  { s with teams := s.teams.map fun t =>
      (t.1, { t.2 with landings := t.2.landings.filter fun l => !(l.1 == c && l.2.1 == ch) }) }

/-- A chain ends: the channel is idle; a fault other than ECCU is left pending; ECCU contains the pacer (R82). -/
def State.chainEnd (s : State) (c ch : Nat) (fault : Option TrapInfo) : State :=
  let s := s.endLandings c ch
  let k := s.core c
  let x := k.chan ch
  let ecc := match fault with | some f => f.code == cECCU | none => false
  let s := s.setCore c (k.setChan ch { x.dropGuard with
    phase := .idle, one := none, cur := none, rdReq := none, fault := if ecc then none else fault })
  if ecc then { s with agenda := .containment c cECCU :: s.agenda } else s

/-- The release that a chain's record makes: what the chain carries (R81), by the fabric that stood when it began to wait (R223, R380). -/
def State.chanRelease (s : State) (c ch n : Nat) : Msg :=
  let a := srcOf c 5
  let x := (s.core c).chan ch
  { agent := a, scope := scopeAt a n, k := x.rel.filter fun e => carriesIn (x.relFabric.getD s.fabric) (scopeAt a n) e.1 }

/-- An access of the chain that a channel runs. -/
def State.chanReq (s : State) (c ch : Nat) (kind : ReqKind) (t : Target) (n va : Nat) : Req :=
  let x := (s.core c).chan ch
  { reqAt c (srcOf c 5) kind t n va true with chan := some (ch, x.gen), sec := x.sec }

/-- Write STATUS, then OWN and CANC, of a record in one step, each a release at its SCOPE (R81, R96). A write that cannot be made is lost (log
entries 9 and 21). -/
def State.writeRecord (s : State) (c ch va : Nat) (w0 w7 : Nat) : State :=
  match s.xlateNow (dieOf c) (s.core c).asid va .wr true with
  | .error _ => s
  | .ok (t, s) =>
    let put (s : State) (off v : Nat) : State :=
      let t := { t with key := t.key + off }
      if (s.runFails .wr (va + off, 8, t)).isSome then s
      else
        let r := s.chanReq c ch (.write v) t 8 (va + off)
        ((s.runsMade r.agent .wr [(va + off, 8, t)]).homeWrite r.agent t.key 8 v [s.chanRelease c ch (nfld w7 8 4)]).noteCopy r t.key 8
    put (put s 56 w7) 0 w0

/-- Words 0 and 7 of a record as they stand. -/
def State.recordWords (s : State) (c va : Nat) : Option (Nat × Nat) :=
  match s.xlateNow (dieOf c) (s.core c).asid va .rd true with
  | .error _ => none
  | .ok (t, s) => some (s.mem.getNat t.key 8, s.mem.getNat (t.key + 56) 8)

/-- The records from the one at `va` on, up to LAST. -/
def State.recordsFrom (s : State) (c : Nat) : Nat → Nat → List Nat
  | 0, _ => []
  | n + 1, va =>
    match s.recordWords c va with
    | none => []
    | some (w0, _) => va :: if w0 / 2 % 2 = 1 ∨ w0 / 2 ^ 55 ≠ 0 then [] else State.recordsFrom s c n (w0 / 64 * 64)

/-- The records that a cancel of a channel's chain marks (R96): the one in progress and every later one. -/
def State.cancelVas (s : State) (c ch : Nat) : List Nat :=
  let x := (s.core c).chan ch
  if x.phase = .idle ∨ x.one.isSome then []
  else
    s.recordsFrom c (65536 - x.nrec) (match x.cur with
      | some t => if x.phase = .fetch then t.next else t.recVa
      | none => x.recVa)

/-- Mark a record as cancelled (R96). -/
def State.cancelRecord (s : State) (c ch va : Nat) : State :=
  match s.recordWords c va with
  | none => s
  | some (w0, w7) => s.writeRecord c ch va (w0 / 2 * 2 ||| 4) (w7 / 256 * 256 + 0xFF)

/-- What a cancel must first wait for: the host's answer about the lines of the records it marks, or a repair (R72, R387). -/
def State.cancelWaits (s : State) (c ch : Nat) : Option Stop :=
  let ts := (s.cancelVas c ch).filterMap fun va =>
    match s.walkNow (dieOf c) (s.core c).asid va .wr true with
    | .error _ => none
    | .ok (f, _) => some (targetOf f.level f.leaf va)
  let lines := ts.flatMap fun t => s.snoopsDue (srcOf c 5) t 64
  if !lines.isEmpty then some (.snoop (srcOf c 5) lines)
  else if ts.any fun t => s.repairing t.key then some .wait
  else none

/-- Is it an access of the chain that a channel runs? -/
def State.ofChain (s : State) (c ch : Nat) (r : Req) : Bool :=
  r.core == c && r.chan == some (ch, ((s.core c).chan ch).gen)

/-- A cancelled chain is over: its reads in flight are dropped, no write of it lands any more (R96). -/
def State.dropChain (s : State) (c ch : Nat) : State :=
  let s := { s with reqs := s.reqs.filter fun r => !(s.ofChain c ch r && (!r.writes || r.pending)) }
  (s.endWalks c (srcOf c 5)).chainEnd c ch none

/-- Cancel a chain in one step (R96). -/
def State.cancelChain (s : State) (c ch : Nat) : State :=
  if ((s.core c).chan ch).phase = .idle then s
  else ((s.cancelVas c ch).foldl (fun s va => s.cancelRecord c ch va) s).dropChain c ch

/-- Writes of a channel's chain that await their acknowledgement (R96, R239). -/
def State.chanPosted (s : State) (c ch : Nat) : List Req := s.reqs.filter fun r => s.ofChain c ch r && r.writes

/-- CPCAN (R96). -/
def execCpcan (n : Ann) (d a : SReg) (s : State) : Host.Outcome State Fault Refusal :=
  unitWord n 12 [a] true (fun s =>
    let k := s.me
    let h := k.rd a
    let ch := fld h 0 3
    let src := fld h 8 16
    let c := coreOfSrc src
    let answer (s : State) (x : Word) : Except Stop (Flow × State) := .ok (.seq, s.setMe (s.me.wr d x))
    if fld h 56 8 ≠ fld k.dlost 32 8 then answer s 1
    else if fld h 3 5 ≠ 0 ∨ src ≠ srcOf c 5 ∨ 640 ≤ c ∨ (s.core c).crew ≠ k.crew then .error (.trap (tr cRANGE))
    else
      let x := (s.core c).chan ch
      if x.phase = .idle ∨ x.gen ≠ fld h 24 32 then answer s 1
      else if (s.chanPosted c ch).any fun r => r.phase != .failed && r.phase != .dead then .error .wait
      else
        match s.cancelWaits c ch with
        | some e => .error e
        | none => answer (s.cancelChain c ch) 0) s

-- CPHINT and adapter staging (R91, R97).

/-- Bytes of adapter staging of a C-die, and of one line. -/
def stagingSize : Nat := 2 ^ 23
def stagingLine : Nat := 64
/-- Keep the most recently used lines of a die that fit. -/
def stagingFit (d : Nat) (l : List (Nat × Nat × Nat × Nat)) : List (Nat × Nat × Nat × Nat) :=
  ((l.filter fun x => x.1 == d).take (stagingSize / stagingLine)) ++ l.filter fun x => x.1 != d

/-- The runs of bytes of a strided walk of single bytes, in order (R79). -/
def byteWalk (base : Int) (dims : List (Nat × Int)) : List (Nat × Nat) :=
  match dims with
  | [] => [(base.toNat, 1)]
  | (e, st) :: l =>
    (List.range (l.foldl (fun n d => n * d.1) 1)).flatMap fun i =>
      let a := stridedAt base l i
      if st = 1 then [(a.toNat, e)] else (List.range e).map fun j => ((a + j * st).toNat, 1)

/-- The lines of storage under runs of bytes. -/
def linesOf (ps : List (Nat × Nat × Target)) : List Nat :=
  ps.foldl (fun m p =>
    (List.range ((p.2.2.key + p.2.1 - 1) / 64 - p.2.2.key / 64 + 1)).foldl
      (fun m i => let l := p.2.2.key / 64 + i; if m.contains l then m else m ++ [l]) m) []

/-- Translate and check the pages of runs of bytes for a hint (R91): none where a page fails; a miss is walked first (R67). -/
def State.hintRuns (s : State) (c src : Nat) (rs : List (Nat × Nat)) :
    Except Walk (Option (List (Nat × Nat × Target)) × State) :=
  (rs.flatMap fun r => vaPages r.1 r.2).foldl (fun r p =>
    match r with
    | .ok (some ts, s) =>
      match s.look c src p.1 .rd true with
      | .miss w => .error w
      | .bad _ => .ok (none, s.endWalks c src)
      | .hit t => .ok (some (ts ++ [(p.1, p.2, t)]), s)
    | r => r) (.ok (some [], s))

/-- Put lines of a tag first in a die's staging: (die, 2^32·ASID + tag, line, bytes), the latest used first (R91). -/
def State.stageLines (s : State) (d tag : Nat) (lines : List Nat) : State :=
  let old := s.staging.filter fun x => !(x.1 == d && x.2.1 == tag && lines.contains x.2.2.1)
  { s with staging := stagingFit d ((lines.map fun l => (d, tag, l, stagingLine)).reverse ++ old) }

/-- Stage the bulk-tier bytes of some runs under a tag (R91). -/
def State.stage (s : State) (c tag : Nat) (ps : List (Nat × Nat × Target)) : State :=
  s.stageLines (dieOf c) ((s.core c).asid * 2 ^ 32 + tag) (linesOf (ps.filter fun p => p.2.2.apt == 1))

/-- A record's read of staged bulk-tier bytes uses their line (R91). -/
def State.useStaged (s : State) (c tag : Nat) (t : Target) : State :=
  let key := (s.core c).asid * 2 ^ 32 + tag
  if tag ≠ 0 ∧ t.apt = 1 ∧ s.staging.any fun x => x.1 == dieOf c && x.2.1 == key && x.2.2.1 == t.key / 64 then
    s.stageLines (dieOf c) key [t.key / 64]
  else s

/-- CPHINT (R97): it changes no value that a program can read. -/
def execCphint (n : Ann) (ev : Bool) (a b : SReg) (tag : BitVec 32) (s : State) : Host.Outcome State Fault Refusal :=
  unitWord n 12 (if ev then [] else [a, b]) false (fun s =>
    let c := s.actor
    let k := s.me
    if tag = 0 then .ok (.seq, s)
    else if ev then
      .ok (.seq, { s with staging := s.staging.filter fun x => x.2.1 != k.asid * 2 ^ 32 + tag.toNat })
    else
      match s.hintRuns c (srcOf c 0) [((k.rd a).toNat, Nat.min (k.rd b).toNat stagingSize)] with
      | .error w => .error (.walk w)
      | .ok (none, s) => .ok (.seq, s)
      | .ok (some ps, s) => .ok (.seq, s.stage c tag.toNat ps)) s

/-- The bytes of an idle channel are acquired by the pacer (R98). -/
def State.chanAcquire (s : State) (c ch : Nat) : State :=
  let a := srcOf c 0
  let s := s.setView a ((s.view a).join ((s.core c).chan ch).wrote)
  { s with reqs := s.reqs.map fun r => if r.core = c ∧ (r.chan.map fun x => x.1) = some ch then { r with acq := true } else r }

/-- CPWAIT (R98). -/
def execCpwait (n : Ann) (t : Bool) (d : SReg) (ch : BitVec 3) (s : State) : Host.Outcome State Fault Refusal :=
  unitWord n 12 [] true (fun s =>
    let c := s.actor
    let x := s.me.chan ch.toNat
    match x.fault with
    | some f => .error (.chan ch.toNat f)
    | none =>
      if x.phase = .idle then
        let s := s.chanAcquire c ch.toNat
        .ok (.seq, s.setMe (s.me.wr d 0))
      else if t then .ok (.seq, s.setMe (s.me.wr d 1))
      else .error .wait) s

-- The engine's own steps.

/-- A record or transfer begins to move, or ends at once (R80 checks 5 and 6, R88–R90). -/
def State.beginXfer (s : State) (c ch : Nat) (t : Xfer) : State :=
  let k := s.core c
  let x := k.chan ch
  let stop (t : Xfer) (code addr : Nat) : State :=
    s.setCore c (k.setChan ch { x with cur := some { t with status := code, taddr := addr }, phase := .ending })
  if !t.limitsOk || !x.guardOk t then stop t cRANGE t.recVa
  else
    let teams := if t.dstSpace = 0 then [] else if t.mcast then t.teams else [teamOf c]
    let slotFail (tm : Nat) : Option Nat :=
      match (s.team tm).owner.find (t.dstAddr / 2 ^ 16) with
      | none => some cSLOTFREE
      | some o => if (s.core o).crew = k.crew then none else some cSLOTBUSY
    let failed := if t.dstSpace < 2 then [] else teams.filterMap fun tm => (slotFail tm).map fun code => (tm, code)
    let t := { t with teams := teams, failed := failed }
    if !teams.isEmpty && failed.length == teams.length then stop t ((failed.head?.map fun f => f.2).getD 0) t.recVa
    else if t.total = 0 then s.setCore c (k.setChan ch { x with cur := some t, phase := .ending })
    else
      s.setCore c (k.setChan ch { x with
        cur := some t, phase := if s.gtc < t.notBefore then .notBefore else .moving,
        gnext := if x.act then x.gnext + t.total else x.gnext })

/-- A channel acquires, as the copy engine does, from the releases it may synchronise with; its chain carries them on (R81, R227,
R228). -/
def State.chanSync (s : State) (c ch n : Nat) (msgs : List Msg) : State :=
  let a := srcOf c 5
  let ms := msgs.filter fun m => covers m.scope m.agent a && covers n a m.agent
  let s := s.acquire a n msgs
  let k := s.core c
  let x := k.chan ch
  if ms.isEmpty then s
  else s.setCore c (k.setChan ch { x with rel := ms.foldl (fun r m => kJoin r m.k) x.rel })

/-- Source reads act as an acquire at the record's SCOPE from here on (R81): phases end. -/
def State.xferAcquire (s : State) (c ch scope : Nat) : State :=
  let a := srcOf c 5
  let v := s.view a
  (s.setView a { v with pinned := [] }).chanSync c ch scope v.seen

/-- Has a part begun: it is neither the part being filled nor one that waits to begin? -/
def Core.partBegun (k : Core) (part : Nat) : Bool := !(k.parts.any fun p => p.id == part) && (k.cur.map fun p => p.id) != some part

/-- CHAIN_START (R75, R76, R115): the chain's part has begun, the core's earlier quay instructions are complete and the stores
that its issue released have reached their homes: what those wrote has joined what the chain carries. -/
def State.chainStart (s : State) (c ch : Nat) : State :=
  let k := s.core c
  let x := k.chan ch
  let quay := (s.die (dieOf c)).jobs.any fun j => j.core == c && j.id < x.quayBefore
  let stores := s.reqs.any fun r => r.local0 c && r.id < x.quayBefore
  if x.phase ≠ .awaiting ∨ !k.partBegun x.part ∨ quay ∨ stores ∨ k.contained then s
  else
    let s := s.setView (srcOf c 5) ((s.view (srcOf c 5)).join x.rel)
    let s := s.setCore c (k.setChan ch { x with phase := .fetch })
    match x.one with
    | some t => (s.xferAcquire c ch t.scope).beginXfer c ch t
    | none => s

/-- CHAIN_START. -/
def execChainStart (core ch : Nat) (s : State) : Host.Outcome State Fault Refusal := .next (s.chainStart core ch)

/-- R80 check 3 on a record's words: its transfer, or none for FMTBAD. -/
def recordXfer (die : Nat) (va : Nat) (w : List Nat) : Option Xfer :=
  let g (i : Nat) : Nat := w.getD i 0
  let mcast := nfld (g 0) 3 1 == 1
  let hint := nfld (g 0) 4 1 == 1
  let lchk := nfld (g 0) 5 1 == 1
  let mcset := nfld (g 7) 12 16
  let first := nfld mcset 0 5
  let last := nfld mcset 5 5
  let adapter := nfld (g 7) 28 32
  match addrWord (BitVec.ofNat 64 (g 1)), addrWord (BitVec.ofNat 64 (g 2)) with
  | some src, some dst =>
    if 2 ≤ src.1 ∨ nfld (g 3) 56 8 ≠ 0 ∨ nfld (g 4) 56 8 ≠ 0 ∨ nfld (g 5) 56 8 ≠ 0 ∨ nfld (g 7) 60 4 ≠ 0 ∨
        nfld mcset 10 6 ≠ 0 ∨ (!mcast ∧ mcset ≠ 0) ∨ (mcast ∧ (dst.1 = 0 ∨ last < first ∨ 19 < last)) ∨
        (lchk ∧ dst.1 ≠ 1) ∨ (hint ∧ (src.1 ≠ 0 ∨ g 2 ≠ 0 ∨ mcast ∨ lchk ∨ adapter = 0)) then none
    else
      let t := mkXfer src dst ((List.range 3).map fun i => nfld (g (3 + i)) 36 20)
        ((List.range 3).map fun i => signed 36 (g (3 + i))) 1 0
      some { t with
        recVa := va, words := w.map (BitVec.ofNat 64), scope := nfld (g 7) 8 4, notBefore := g 6, mcast := mcast,
        lchk := lchk, hint := hint, adapter := adapter,
        teams := if mcast then (List.range (last - first + 1)).map fun i => die * 20 + first + i else [],
        last := nfld (g 0) 1 1 == 1, next := g 0 / 64 * 64 }
  | _, _ => none

/-- The request of a copy channel's read. -/
def State.chanRead (s : State) (c ch : Nat) (t : Target) (n va : Nat) : State :=
  s.issue (s.chanReq c ch .read t n va)

/-- The words of a record are checked in R80's order, and its transfer begins; a hint record's pages are looked up first. -/
def State.recordWordsCheck (s : State) (c ch va : Nat) (w : List Nat) : State :=
  let k := s.core c
  let x := { k.chan ch with nrec := (k.chan ch).nrec + 1, rdReq := none }
  let w0 := w.getD 0 0
  let t0 : Xfer := { mkXfer (0, 0) (0, 0) [0] [0] 1 0 with
    recVa := va, words := w.map (BitVec.ofNat 64), scope := nfld (w.getD 7 0) 8 4, last := nfld w0 1 1 == 1,
    next := w0 / 64 * 64 }
  let stop (t : Xfer) (code addr : Nat) : State :=
    s.setCore c (k.setChan ch { x with cur := some { t with status := code, taddr := addr }, phase := .ending })
  if !t0.last && nfld w0 55 9 != 0 then stop t0 cXLATE t0.next
  else if nfld w0 0 1 = 0 then stop t0 cRANGE va
  else if nfld w0 2 1 = 1 then stop t0 0xFF va
  else
    match recordXfer (dieOf c) va w with
    | none => stop t0 cFMTBAD va
    | some t =>
      if t.hint && t.limitsOk then
        ((s.setCore c (k.setChan ch { x with cur := some t, phase := .moving })).xferAcquire c ch t.scope)
      else if 65536 ≤ x.nrec then stop t0 cRANGE va
      else ((s.setCore c (k.setChan ch x)).xferAcquire c ch t.scope).beginXfer c ch t

/-- RECORD_FETCH (R80): the next record's address is checked and its read goes in flight; when the words are there they are checked in
order. R80 speaks of errors in reading a source only: where the record's own read meets an uncorrectable error or a lost peer, the model
ends the chain with that code and writes no STATUS and no OWN (log entry 21). -/
def State.recordFetch (s : State) (c ch : Nat) (e : Err) : State :=
  let k := s.core c
  let x := k.chan ch
  let va := match x.cur with | some t => t.next | none => x.recVa
  let lost (s : State) (code : Nat) (src : Option Nat) : State := s.chainEnd c ch (some (tr code va ch 5 src))
  if x.phase ≠ .fetch ∨ k.contained then s
  else
    match x.rdReq.bind s.req with
    | some r =>
      match r.outcome e with
      | .performed => (s.dropReq r.id).recordWordsCheck c ch va (splitBits 64 8 r.old)
      | .failed => lost (s.dropReq r.id) cPEERLOST (some (s.lostAgent r.key))
      | .dead => lost (s.dropReq r.id) cECCU none
      | _ => s
    | none =>
      match s.look c (srcOf c 5) va .rd true with
      | .bad code => lost (s.endWalks c (srcOf c 5)) code none
      | .miss w => s.askWalk w
      | .hit tg =>
        if 256 ≤ s.logCount c then s
        else
          let id := s.nextReq
          let s := s.chanRead c ch tg 64 va
          s.setCore c ((s.core c).setChan ch { (s.core c).chan ch with rdReq := some id })

/-- RECORD_FETCH. -/
def execRecordFetch (core ch : Nat) (e : Err) (s : State) : Host.Outcome State Fault Refusal :=
  .next (s.recordFetch core ch e)

/-- NOTBEFORE_EXPIRY (R90). -/
def State.notBeforeExpiry (s : State) (c ch : Nat) : State :=
  let k := s.core c
  let x := k.chan ch
  match x.phase, x.cur with
  | .notBefore, some t =>
    if t.notBefore ≤ s.gtc then s.setCore c (k.setChan ch { x with phase := .moving }) else s
  | _, _ => s

/-- NOTBEFORE_EXPIRY. -/
def execNotbeforeExpiry (core ch : Nat) (s : State) : Host.Outcome State Fault Refusal :=
  .next (s.notBeforeExpiry core ch)

/-- The landing check at the teams whose first byte is due (R90): a team with an overlapping buffer in use fails. -/
def State.landingCheck (s : State) (c ch : Nat) (t : Xfer) : Xfer × State :=
  let crew := (s.core c).crew.getD 0
  let hi := t.dstAddr + t.total
  t.teams.foldl (fun r tm =>
    let (t, s) := r
    if t.checked.contains tm || t.failed.any (fun f => f.1 == tm) then r
    else
      let used := t.lchk && (s.crew crew).buf.any fun b =>
        b.2.1 < hi && t.dstAddr < b.2.1 + b.2.2 && (s.team tm).counts.get 0 (crew * 64 + b.1) != 0
      if used then ({ t with failed := t.failed ++ [(tm, cLANDING)] }, s)
      else
        let x := s.team tm
        ({ t with checked := t.checked ++ [tm] },
         if t.lchk then s.setTeam tm { x with landings := x.landings ++ [(c, ch, t.dstAddr, hi)] } else s)) (t, s)

/-- How many bytes from byte `n` on move in one step: neighbours on both sides, within one aligned word of the destination
and one block of the source. They are all read before any is written, also where source and destination overlap: the manual does
not say which bytes such a record reads (log entry 46). -/
def Xfer.run (t : Xfer) : Nat → Nat → Nat
  | 0, _ => 0
  | m + 1, n =>
    let a := t.at n
    if n + 1 < t.total && t.at (n + 1) == (a.1 + 1, a.2 + 1) && (a.2 + 1) % 8 != 0 && (a.1 + 1) % 256 != 0 then
      1 + Xfer.run t m (n + 1)
    else 1

/-- Read scratchpad bytes as the copy engine sees them; the values' releases are acquired at SCOPE (R81, R225). -/
def State.copyRead (s : State) (c ch scope key n : Nat) : Nat × State :=
  let a := srcOf c 5
  let (v, s) := s.phaseRead a key n
  let msgs := (splitWords key n).flatMap fun p =>
    (s.wordHist (p.1 / 8)).msgs ((s.view a).floor.get 0 (p.1 / 8)) (p.1 % 8) p.2.2
  (v, s.chanSync c ch scope msgs)

/-- The key of a destination byte at a team (R88, R89). -/
def dstKey (t : Xfer) (tm a : Nat) : Nat :=
  match t.dstSpace with
  | 1 => kSpad tm a
  | 2 => kSlot tm (t.dstAddr / 2 ^ 16) a
  | _ => kSide tm (t.dstAddr / 2 ^ 16) a

/-- Bytes that a copy engine writes into the scratchpad or a slot: a byte that a copy engine of lower source number has written in this
core cycle keeps what that one wrote (R102). -/
def State.cpPut (s : State) (c ch key n v : Nat) : State :=
  let a := srcOf c 5
  let beaten (j : Nat) : Bool := s.cpLanded.any fun x => x.1 < a && x.2.1 ≤ key + j && key + j < x.2.1 + x.2.2
  let w := (List.range n).foldl (fun x j =>
    x + (if beaten j then (s.mem.get (key + j)).toNat else v / 2 ^ (8 * j) % 256) * 2 ^ (8 * j)) 0
  let x := (s.core c).chan ch
  let s := if (List.range n).all beaten then s else (s.rawWrite a key n w []).noteWrote c ch x.gen x.sec key n
  { s with cpLanded := s.cpLanded ++ [(a, key, n)] }

/-- Does a byte of the transfer from byte `n` on fall in a line of the destination (R239)? A dense side leaves a line for good. -/
def Xfer.later (t : Xfer) (line n : Nat) : Bool :=
  if t.srcStrided then n < t.total && (t.at n).2 / 64 == line
  else (List.range (t.total - n)).any fun i => (t.at (n + i)).2 / 64 == line

/-- The posted write of a line (R239): under CP 2, at a peer. -/
def State.sendLine (s : State) (c ch line key mask v : Nat) : State :=
  s.issue { s.chanReq c ch (.line mask v) { apt := 3, key := key, leaf := 0x2000 } 64 (64 * line) with posted := true }

/-- Bytes that a transfer writes to memory (R239, R240): under APT 3 and CP 2 they wait for the rest of their line, which then leaves as
one posted write; any other write goes in flight by itself. -/
def State.copyWrite (s : State) (c ch : Nat) (t : Xfer) (tg : Target) (va n v : Nat) : Xfer × State :=
  if tg.apt = 3 ∧ lCp tg.leaf = 2 then
    let line := va / 64
    let x := t.lines.get (tg.key / 64 * 64, 0, 0) line
    let new := (List.range n).foldl (fun (y : Nat × Nat) j =>
      let i := va % 64 + j
      let byte := y.2 / 2 ^ (8 * i) % 256
      (if y.1.testBit i then y.1 else y.1 + 2 ^ i, y.2 - byte * 2 ^ (8 * i) + v / 2 ^ (8 * j) % 256 * 2 ^ (8 * i)))
      (x.2.1, x.2.2)
    if t.later line (t.done + n) then ({ t with lines := t.lines.upd line (x.1, new.1, new.2) }, s)
    else ({ t with lines := t.lines.del line }, s.sendLine c ch line x.1 new.1 new.2)
  else
    (t, s.issue (s.chanReq c ch (.write v) tg n va))

/-- The watermark after bytes have landed up to `n` of a guarded transfer (R84). -/
def Chan.mark (x : Chan) (dst n : Nat) : Chan :=
  if x.act then { x with wm := x.lo + (dst + n - x.lo) / 128 * 128 } else x

/-- Put a channel's transfer back, at a phase. -/
def State.putXfer (s : State) (c ch : Nat) (t : Xfer) (p : ChPhase) : State :=
  let k := s.core c
  s.setCore c (k.setChan ch { k.chan ch with cur := some t, phase := p })

/-- A transfer ends early with a TCAUSE code (R80). -/
def State.stopXfer (s : State) (c ch : Nat) (t : Xfer) (code addr : Nat) (lost : Option Nat) : State :=
  s.putXfer c ch { t with status := code, taddr := addr, lost := lost, rdReq := none } .ending

/-- `n` bytes of a transfer land: at memory, or at every team that has not failed (R79, R84, R88–R90). -/
def State.landBytes (s : State) (c ch : Nat) (t : Xfer) (dg : Target) (n v : Nat) : State :=
  let a := t.at t.done
  let (t, s) :=
    if t.dstSpace = 0 then s.copyWrite c ch t dg a.2 n v
    else
      (t, (t.teams.filter fun tm => !t.failed.any fun f => f.1 == tm).foldl (fun s tm =>
        let key := dstKey t tm a.2
        let s := s.cpPut c ch key n v
        let x := s.team tm
        if t.lchk then s.setTeam tm { x with landed := AMap.upd x.landed (key / 8) (s.wordHist (key / 8)).ws.length }
        else s) s)
  let t := { t with done := t.done + n, rdReq := none }
  let s := s.putXfer c ch t (if t.done < t.total then .moving else .ending)
  let k := s.core c
  s.setCore c (k.setChan ch ((k.chan ch).mark t.dstAddr t.done))

/-- The next bytes of a transfer are due (R79, R80 checks 7 and 8): their pages are checked when the walk reaches them, the source's before
the destination's (log entry 46); then the landing at each team; then they are read. -/
def State.granuleDue (s : State) (c ch : Nat) (t : Xfer) (e : Err) : State :=
  let a := t.at t.done
  let own := srcOf c 5
  let spad : Target := { apt := 8, key := kSpad (teamOf c) a.1, leaf := 0 }
  match (if t.srcSpace = 0 then s.look c own a.1 .rd true else .hit spad) with
  | .bad code => (s.endWalks c own).stopXfer c ch t code a.1 none
  | .miss w => s.askWalk w
  | .hit sg =>
    match (if t.dstSpace = 0 then s.look c own a.2 .wr true else .hit spad) with
    | .bad code => (s.endWalks c own).stopXfer c ch t code a.2 none
    | .miss w => s.askWalk w
    | .hit dg =>
      let (t, s) := s.landingCheck c ch t
      if !t.teams.isEmpty && t.failed.length == t.teams.length then
        s.stopXfer c ch t ((t.failed.head?.map fun f => f.2).getD 0) t.recVa none
      else
        let n := t.run 8 t.done
        if t.srcSpace = 0 then
          let id := s.nextReq
          let s := (s.useStaged c t.adapter sg).chanRead c ch sg n a.1
          s.putXfer c ch { t with rdReq := some (id, n) } .moving
        else if e = .ecc then s.stopXfer c ch t cECCU a.1 none
        else
          let (v, s) := s.copyRead c ch t.scope sg.key n
          s.landBytes c ch t dg n v

/-- The next page of a hint record's source is looked up (R91): a page under another aperture than the bulk tier's is FMTBAD; one that
fails its checks is passed over, and nothing is staged (log entry 45). After the last come the checks of R80 that follow. -/
def State.hintStep (s : State) (c ch : Nat) (t : Xfer) : State :=
  let x := (s.core c).chan ch
  match ((byteWalk t.base (t.ext.zip t.stride)).flatMap fun r => vaPages r.1 r.2)[t.done]? with
  | some p =>
    match s.look c (srcOf c 5) p.1 .rd true with
    | .miss w => s.askWalk w
    | .bad _ => (s.endWalks c (srcOf c 5)).putXfer c ch { t with done := t.done + 1, failed := [(0, 0)] } .moving
    | .hit tg =>
      if tg.apt ≠ 1 then s.stopXfer c ch { t with lines := [] } cFMTBAD t.recVa none
      else s.putXfer c ch { t with done := t.done + 1, lines := t.lines.upd t.done (tg.key, p.2, 0) } .moving
  | none =>
    let t' := { t with lines := [] }
    if 65536 ≤ x.nrec ∨ !x.guardOk t then s.stopXfer c ch t' cRANGE t.recVa none
    else
      let ps : List (Nat × Nat × Target) := t.lines.map fun l => (0, l.2.2.1, { apt := 1, key := l.2.1, leaf := 0 })
      (if t.failed.isEmpty then s.stage c t.adapter ps else s).putXfer c ch t' .ending

/-- GRANULE_LANDING: the next bytes of a transfer are asked for, or, when their source has answered, land. A non-posted write that
failed ends the transfer (R80, R240, R397). -/
def State.granule (s : State) (c ch : Nat) (e : Err) : State :=
  let k := s.core c
  let x := k.chan ch
  match x.phase, x.cur with
  | .moving, some t =>
    if k.contained || 255 ≤ s.logCount c then s
    else if t.hint then s.hintStep c ch t
    else
      match (s.chanPosted c ch).find? fun r => r.phase == .dead || (r.phase == .failed && !r.posted) with
      | some r =>
        if r.phase = .dead then s.stopXfer c ch t cECCU r.va none
        else s.stopXfer c ch t cPEERLOST t.recVa (some (s.lostAgent r.key))
      | none =>
        match t.rdReq with
        | none => s.granuleDue c ch t e
        | some (id, n) =>
          match s.req id with
          | none => s.putXfer c ch { t with rdReq := none } .moving
          | some r =>
            match r.outcome e with
            | .failed => (s.dropReq id).stopXfer c ch t cPEERLOST t.recVa (some (s.lostAgent r.key))
            | .dead => (s.dropReq id).stopXfer c ch t cECCU r.va none
            | .performed =>
              let a := t.at t.done
              match (if t.dstSpace = 0 then s.look c (srcOf c 5) a.2 .wr true
                else .hit { apt := 8, key := kSpad 0 0, leaf := 0 }) with
              | .bad code => ((s.dropReq id).endWalks c (srcOf c 5)).stopXfer c ch t code a.2 none
              | .miss w => s.askWalk w
              | .hit dg =>
                let s := (s.dropReq id).chanSync c ch t.scope r.msgs
                s.landBytes c ch t dg n r.old
            | _ => s
  | _, _ => s

/-- GRANULE_LANDING. -/
def execGranuleLanding (core ch : Nat) (e : Err) (s : State) : Host.Outcome State Fault Refusal :=
  .next (s.granule core ch e)

/-- The status a record ends with: that of its own failure, which is the page's where a multicast record fails a page check after some
team has failed (log entry 46), else the lowest-numbered team's that failed (R89). -/
def Xfer.endStatus (t : Xfer) : Nat :=
  if t.status ≠ 0 then t.status
  else
    match t.failed.find? fun f => t.failed.all fun g => f.1 ≤ g.1 with
    | some f => f.2
    | none => 0

/-- Send the lines that a transfer still holds, as the operand log has room (R239, R356). -/
def State.sendLines (s : State) (c ch : Nat) (t : Xfer) : State :=
  let r := t.lines.foldl (fun (r : AMap (Nat × Nat × Nat) × State) x =>
    if 256 ≤ r.2.logCount c then (r.1 ++ [x], r.2)
    else (r.1, r.2.sendLine c ch x.1 x.2.1 x.2.2.1 x.2.2.2)) ([], s)
  r.2.putXfer c ch { t with lines := r.1 } .ending

/-- Must the end of a record wait for a write of its chain (R81, R239, R240)? Until it is at its home and acknowledged; a posted write,
at scope 3 and below, until it has been sent. -/
def State.endWaits (s : State) (scope : Nat) (r : Req) : Bool :=
  r.phase != .failed && r.phase != .dead && (!r.posted || 3 < scope || s.lineHeld r)

/-- How the writes of a record's chain have failed (R80, R239, R397): an uncorrectable error, or a lost peer. -/
def State.endFailure (s : State) (c ch scope : Nat) : Option (Nat × Option Nat) :=
  let l := s.chanPosted c ch
  if l.any fun r => r.phase == .dead then some (cECCU, none)
  else
    (l.find? fun r => r.phase == .failed && (!r.posted || 3 < scope)).map fun r => (cPEERLOST, some (s.lostAgent r.key))

/-- A record has ended with a status (R82): the chain goes on or ends. -/
def State.recordEnd (s : State) (c ch : Nat) (t : Xfer) (st : Nat) (src : Option Nat) : State :=
  let k := s.core c
  let x := { k.chan ch with relFabric := none }
  let s := s.setCore c (k.setChan ch x)
  if st = 0 ∨ st = 0xFF then
    if t.last then s.chainEnd c ch none
    else s.setCore c (k.setChan ch { x with phase := .fetch })
  else
    let addr := if t.status = 0 then t.recVa else t.taddr
    s.chainEnd c ch (some (tr st addr ch 5 (if st = cPEERLOST then src else none)))

/-- The write of STATUS, or then of OWN, goes in flight (R81). -/
def State.sendPut (s : State) (c ch : Nat) (t : Xfer) (p : RecPut) (tg : Target) : State :=
  let w (i : Nat) : Nat := (t.words.getD i 0).toNat
  let off := if p.own then 0 else 56
  let v := if p.own then w 0 / 2 * 2 else w 7 / 256 * 256 + p.st
  s.issue { s.chanReq c ch (.write v) { tg with key := tg.key + off } 8 (t.recVa + off) with rels := [s.chanRelease c ch t.scope] }

/-- STATUS is written, then OWN, each a release at SCOPE of everything before it (R81). Where the page has become unwritable they are not
written (log entry 21); where a write fails, so does a chain that had not failed before. -/
def State.recordPut (s : State) (c ch : Nat) (t : Xfer) (p : RecPut) : State :=
  let good : Bool := p.st == 0 || p.st == 0xFF
  let fails (s : State) (st : Nat) (src : Option Nat) : State :=
    s.recordEnd c ch t (if good then st else p.st) (if good then src else p.src)
  let next (s : State) : State :=
    if p.own then s.recordEnd c ch t p.st p.src
    else s.putXfer c ch { t with put := some { p with own := true, req := none } } .ending
  match p.req with
  | none =>
    match s.look c (srcOf c 5) t.recVa .wr true with
    | .bad _ => (s.endWalks c (srcOf c 5)).recordEnd c ch t p.st p.src
    | .miss w => s.askWalk w
    | .hit tg =>
      if 256 ≤ s.logCount c then s
      else
        let id := s.nextReq
        (s.sendPut c ch t p tg).putXfer c ch { t with put := some { p with req := some id } } .ending
  | some id =>
    match s.req id with
    | none => next s
    | some r =>
      match r.phase with
      | .failed => fails (s.dropReq id) cPEERLOST (some (s.lostAgent r.key))
      | .dead => fails (s.dropReq id) cECCU none
      | .performed => if p.own then s else next s
      | _ => s

/-- RECORD_COMPLETE (R80–R82, R239): the record's writes are at their homes or sent, above scope 3 acknowledged; a failed write is
PEERLOST or ECCU. Then STATUS and OWN are written, and when they are at their home the chain goes on. -/
def State.recordComplete (s : State) (c ch : Nat) : State :=
  let k := s.core c
  let x := k.chan ch
  match x.phase, x.cur with
  | .ending, some t =>
    if k.contained then s
    else if !t.lines.isEmpty then s.sendLines c ch t
    else
      match t.put with
      | some p => s.recordPut c ch t p
      | none =>
        if (s.chanPosted c ch).any (s.endWaits t.scope) then
          s.setCore c (k.setChan ch { x with relFabric := some (x.relFabric.getD s.fabric) })
        else
          let bad := s.endFailure c ch t.scope
          let s : State := { s.endLandings c ch with reqs := s.reqs.filter fun (r : Req) =>
            !(s.ofChain c ch r && (r.phase == .dead || (r.phase == .failed && (!r.posted || 3 < t.scope)))) }
          let (st, src) := match bad with
            | some b => if t.status = 0 then b else (t.endStatus, t.lost)
            | none => (t.endStatus, t.lost)
          if t.words.isEmpty then s.recordEnd c ch t st src
          else s.putXfer c ch { t with put := some { st := st, src := src, own := false, req := none } } .ending
  | _, _ => s

/-- RECORD_COMPLETE. -/
def execRecordComplete (core ch : Nat) (s : State) : Host.Outcome State Fault Refusal :=
  .next (s.recordComplete core ch)

end Sys2Proof.Machine
end

