-- ==== Sys2Proof/Machine/Quay.lean ====
section
/-! DEFINITION. The quay unit of a die: QOP, QRED, QFILL and their element steps (R115–R119, R141). -/
namespace Sys2Proof.Machine

/-- One operand of a quay instruction: its VA, element size, length in bytes, and how it is accessed. -/
structure QOperand where
  va : Nat
  z : Nat
  len : Nat
  acc : Acc
  deriving DecidableEq, Repr

/-- Translate an operand's pages, then check that they are quay memory of the core's own die (R115). -/
def quayPages (o : QOperand) (m : AMap Nat) : M (AMap Nat) := do
  let ps ← xlateRuns o.va o.len o.acc true
  let d := dieOf (← get).actor
  match ps.find? fun p => p.2.2.apt != 4 || (p.2.2.key - 4 * spaceSize) / 2 ^ 26 != d with
  | some p => trapM cRANGE p.1
  | none => return ps.foldl (fun m p => m.upd (p.1 / 65536) (p.2.2.key - p.1 % 65536)) m

/-- The checks of an issue (R115). The manual says only 'the first failure'; which operand comes first is the model's choice: every operand's
alignment, then the pages of each, in the order A, B, D (log entry 22). -/
def quayAll (os : List QOperand) : M (AMap Nat) :=
  match os.find? fun o => o.va % o.z != 0 with
  | some o => trapM cALIGN o.va
  | none => os.foldlM (fun m o => quayPages o m) []

/-- Issue a quay instruction (R115): a 65th pending one stalls the pacer. -/
def quayIssue (i : Instr) (os : List QOperand) (d a b n : Nat) (fill : Word) (acc : Nat) : M Flow := do
  let pages ← quayAll os
  let s ← get
  waitUnless (s.pend s.actor < 64)
  let x := s.die (dieOf s.actor)
  let j : QJob :=
    { id := s.nextReq, core := s.actor, i := i, d := d, a := a, b := b, fill := fill, pages := pages, n := n, done := 0,
      entry := none, acc := acc, flags := 0 }
  set { s.setDie (dieOf s.actor) { x with jobs := x.jobs ++ [j] } with nextReq := s.nextReq + 1 }
  return Flow.seq

/-- QOP (R117). -/
def execQop (n : Ann) (op : QopOp) (f : Fmt) (sat : Bool) (d a b : SReg) (cnt : BitVec 24) (s : State) :
    Host.Outcome State Fault Refusal :=
  unitWord n 12 [d, a, b] false (fun s =>
    let k := s.me
    let z := f.bytes
    let len := z * cnt.toNat
    let x (r : SReg) (acc : Acc) : QOperand := { va := (k.rd r).toNat, z := z, len := len, acc := acc }
    let two : Bool := !(op == .scal || op == .cpy)
    quayIssue (.qop n op f sat d a b cnt) ([x a .rd] ++ (if two then [x b .rd] else []) ++ [x d .wr])
      (k.rd d).toNat (k.rd a).toNat (k.rd b).toNat cnt.toNat (k.rd b) 0 s) s

/-- QRED (R118). -/
def execQred (n : Ann) (op : QredOp) (f : Fmt) (o32 : Bool) (d a : SReg) (cnt : BitVec 24) (s : State) :
    Host.Outcome State Fault Refusal :=
  unitWord n 12 [d, a] false (fun s =>
    let k := s.me
    let z := if o32 then 4 else 8
    quayIssue (.qred n op f o32 d a cnt)
      [{ va := (k.rd a).toNat, z := f.bytes, len := f.bytes * cnt.toNat, acc := .rd },
       { va := (k.rd d).toNat, z := z, len := z, acc := .wr }]
      (k.rd d).toNat (k.rd a).toNat 0 cnt.toNat 0
      (if op == .max then signBit .a48 true + infBits .a48 else 0) s) s

/-- QFILL (R119). -/
def execQfill (n : Ann) (w : BitVec 2) (d a : SReg) (cnt : BitVec 24) (s : State) : Host.Outcome State Fault Refusal :=
  unitWord n 12 [d, a] false (fun s =>
    let k := s.me
    let z := 2 ^ w.toNat
    quayIssue (.qfill n w d a cnt) [{ va := (k.rd d).toNat, z := z, len := z * cnt.toNat, acc := .wr }]
      (k.rd d).toNat 0 0 cnt.toNat (k.rd a) 0 s) s

-- Element arithmetic.

/-- One QOP element: its value and flags (R117). -/
def qopElem (op : QopOp) (f : Fmt) (sat : Bool) (x y : Nat) (factor : Word) : Nat × Nat :=
  if op == .cpy then (x % 2 ^ fmtBits f, 0)
  else if f.isInt then
    let a := intVal f x
    let b := intVal f y
    (intResult f sat (match op with
      | .add => a + b | .sub => a - b | .mul => a * b | .min => min a b | .max => max a b | _ => a), 0)
  else
    let a := decodeF f (x % 2 ^ fmtBits f)
    let b := if op == .scal then decodeF .f32 (factor.toNat % 2 ^ 32) else decodeF f (y % 2 ^ fmtBits f)
    roundFl f (match op with
      | .add => exactSum false [a, b]
      | .sub => exactSum false [a, b.neg]
      | .min => fmin a b
      | .max => fmax a b
      | _ => fmul a b) .rne false

/-- One QRED element into the accumulator, an A48 encoding (R118); the norms of the relay units use it too (R141). -/
def qredStep (op : QredOp) (f : Fmt) (acc x : Nat) : Nat × Nat :=
  let v := decodeF f (x % 2 ^ fmtBits f)
  let a := decodeF .a48 acc
  roundFl .a48 (match op with
    | .sum => let r := exactSum false [a, v]; (r.1, r.2 ||| v.sig)
    | .linf => fmax a v.abs
    | .l2 =>
      let p := fmul v v
      let r := exactSum false [a, p.1]
      (r.1, r.2 ||| p.2)
    | .max => fmax a v) .rne false

/-- The end of a QRED: the square root of `.l2`, and the result's encoding (R118). -/
def qredEnd (op : QredOp) (o32 : Bool) (acc : Nat) : Nat × Nat :=
  let (acc, f1) := if op == .l2 then roundFl .a48 (fsqrt (decodeF .a48 acc)) .rne false else (acc, 0)
  if o32 then
    let r := roundF .f32 (decodeF .a48 acc) .rne false
    (r.1, r.2 ||| f1)
  else (acc, f1)

-- Steps at the homes.

/-- A quay instruction's job, if it is the oldest of its core and the pacer's earlier accesses to quay memory are done (R114, R115); nothing
orders it with the core's copy chains that run (R390). -/
def State.quayJob (s : State) (d n : Nat) : Option QJob :=
  match (s.die d).jobs.find? fun j => j.id == n with
  | none => none
  | some j =>
    if (s.die d).jobs.any (fun x => x.core == j.core && x.id < j.id) ||
        s.reqs.any (fun r => r.core == j.core && r.chan.isNone && r.apt == 4 && r.pending && r.id < j.id) then none
    else some j

/-- A write of a quay instruction at its home; the core's pacer and copy engine are bound to it, and a chain issued after the instruction
carries it (R94, R115). -/
def State.quayWrite (s : State) (j : QJob) (key size v : Nat) : State :=
  let s := s.homeWrite (quaySrc (dieOf j.core)) key size v []
  let w := key / 8
  let i := (s.wordHist w).ws.length
  let s := [0, 5].foldl (fun s e => s.setView (srcOf j.core e) (((s.view (srcOf j.core e)).raise w i).carry w i)) s
  let k := s.core j.core
  s.setCore j.core { k with chans := k.chans.map fun x =>
    if x.2.phase == .awaiting && j.id < x.2.quayBefore then (x.1, { x.2 with rel := kJoin x.2.rel [(w, i)] }) else x }

/-- The next element of a job goes on its way: it takes an entry of the core's operand log, under the next tag of the quay unit; it waits
where the log is full (R242, R356). -/
def State.quaySend (s : State) (d : Nat) (j : QJob) : State :=
  if 256 ≤ s.logCount j.core then s
  else
    let a := quaySrc d
    let q := s.seqs.get 0 a
    { s.putJob d { j with entry := some (s.ext a * 2 ^ 32 + q, 0) } with seqs := s.seqs.upd a ((q + 1) % 2 ^ 32) }

/-- Retry the chains of a core that wait for its quay instructions (R115, R217). -/
def State.wakeChains (s : State) (c : Nat) : State :=
  s.soon (((List.range 8).filter fun ch => ((s.core c).chan ch).phase == .awaiting).map fun ch => .chainStart c ch)

/-- QUAY_ELEMENT_STEP: the next element of a job is sent; once sent, it is read at its home, as it stands there, and written for QOP and
QFILL (R114–R119), and its entry of the operand log is free again; a quay unit's steps are no ordinary accesses of R225. An uncorrectable
error stops the job and contains the pacer (R115, R358). -/
def State.quayElement (s : State) (d n : Nat) (e : Err) : State :=
  match s.quayJob d n with
  | none => s
  | some j =>
    if j.done ≥ j.n then s
    else if j.entry.isNone then s.quaySend d j
    else if e = .ecc then s.quayFails j
    else
      let j := { j with entry := none }
      let i := j.done
      let rd (va z : Nat) : Nat := s.mem.getNat (j.key (va + z * i)) z
      let seen (s : State) (va z : Nat) : State := s.watchRead (quaySrc (dieOf j.core)) (j.key (va + z * i)) z
      match j.i with
      | .qop _ op f sat _ _ _ _ =>
        let z := f.bytes
        let one : Bool := op == .scal || op == .cpy
        let r := qopElem op f sat (rd j.a z) (if one then 0 else rd j.b z) j.fill
        let s := seen s j.a z
        ((if one then s else seen s j.b z).quayWrite j (j.key (j.d + z * i)) z r.1).putJob d { j with done := i + 1, flags := j.flags ||| r.2 }
      | .qred _ op f _ _ _ _ =>
        let r := qredStep op f j.acc (rd j.a f.bytes)
        (seen s j.a f.bytes).putJob d { j with done := i + 1, acc := r.1, flags := j.flags ||| r.2 }
      | .qfill _ w _ _ _ =>
        let z := 2 ^ w.toNat
        (s.quayWrite j (j.key (j.d + z * i)) z (j.fill.toNat % 2 ^ (8 * z))).putJob d { j with done := i + 1 }
      | _ => s

/-- QUAY_ELEMENT_STEP. -/
def execQuayElementStep (die n : Nat) (e : Err) (s : State) : Host.Outcome State Fault Refusal :=
  .next (s.quayElement die n e)

/-- QUAY_INSTRUCTION_COMPLETE: the result of a QRED is written, the flags reach QSTAT and PEND falls (R116, R118). -/
def State.quayComplete (s : State) (d n : Nat) : State :=
  match s.quayJob d n with
  | none => s
  | some j =>
    if j.done < j.n then s
    else
      let (s, fl) := match j.i with
        | .qred _ op _ o32 _ _ _ =>
          let r := qredEnd op o32 j.acc
          (s.quayWrite j (j.key j.d) j.dest.1 r.1, j.flags ||| r.2)
        | _ => (s, j.flags)
      let s := s.dropJob d n
      let k := s.core j.core
      (s.setCore j.core { k with qstat := k.qstat ||| BitVec.ofNat 64 (flags4 fl) }).wakeChains j.core

/-- QUAY_INSTRUCTION_COMPLETE. -/
def execQuayInstructionComplete (die n : Nat) (s : State) : Host.Outcome State Fault Refusal :=
  .next (s.quayComplete die n)

end Sys2Proof.Machine
end

