-- ==== Sys2Proof/Machine/Launch.lean ====
section
/-! DEFINITION. The launch unit: acceptance of launches, the choice of what starts, the state a replica starts in, and WAITCH
(R30, R31, R41–R46, R99, R243–R257, R269, R287–R289). -/
namespace Sys2Proof.Machine

-- The record (R244).

def rStream (r : BitVec 1024) : Nat := fld r 0 55
def rMicro (r : BitVec 1024) : Nat := fld r 64 55
def rTables (r : BitVec 1024) : Nat := fld r 128 55
def rDone (r : BitVec 1024) : Nat := fld r 192 55
def rGang (r : BitVec 1024) : Nat := fld r 256 2
/-- Number of replicas. -/
def rLegs (r : BitVec 1024) : Nat := fld r 258 16 + 1
def rNparam (r : BitVec 1024) : Nat := fld r 274 5
def rSlip (r : BitVec 1024) : Nat := fld r 279 7
def rSpec (r : BitVec 1024) : Bool := bit r 286
def rCosched (r : BitVec 1024) : Bool := bit r 287
def rPrio (r : BitVec 1024) : Nat := fld r 288 2
def rMaxdepth (r : BitVec 1024) : Nat := fld r 290 4
def rAsid (r : BitVec 1024) : Nat := fld r 294 6
def rDscope (r : BitVec 1024) : Nat := fld r 300 4
def rAny (r : BitVec 1024) : Bool := bit r 304
def rOrigin (r : BitVec 1024) : Nat := fld r 305 10
def rStart (r : BitVec 1024) : Nat := fld r 320 63
def rTick (r : BitVec 1024) : Bool := bit r 383
/-- Cores of one gang (R243). -/
def gangSize (g : Nat) : Nat := match g with | 0 => 1 | 1 => 4 | 2 => 80 | _ => 640
def rSize (r : BitVec 1024) : Nat := gangSize (rGang r)

/-- R246 check 1. -/
def recordOk (r : BitVec 1024) : Bool :=
  fld r 55 9 == 0 && fld r 119 9 == 0 && fld r 183 9 == 0 && fld r 247 9 == 0 && fld r 315 5 == 0 &&
    rStream r % 4 == 0 && rMicro r % 64 == 0 && rTables r % 128 == 0 && rDone r % 16 == 0 && rNparam r ≤ 16 &&
    1 ≤ rSlip r && rSlip r ≤ 64 && rMaxdepth r ≤ 8 && (!rAny r || rOrigin r == 0) &&
    (!rTick r || fld r 368 15 == 0) && (rTables r != 0 || rNparam r ≤ 8)

-- The table block (R245).

def tLiveva (t : BitVec 1024) : Nat := fld t 0 55
def tDiscva (t : BitVec 1024) : Nat := fld t 64 55
def tBufva (t : BitVec 1024) : Nat := fld t 128 55
def tNlive (t : BitVec 1024) : Nat := fld t 192 13
def tNdisc (t : BitVec 1024) : Nat := fld t 208 7
def tNbuf (t : BitVec 1024) : Nat := fld t 216 7
def tGrow (t : BitVec 1024) : Nat := fld t 224 4
def tUnroll (t : BitVec 1024) : Nat := fld t 232 16
def tNospec (t : BitVec 1024) : Bool := bit t 248
def tSlen (t : BitVec 1024) : Nat := fld t 768 32

/-- R246 check 4; GROW and UNROLL belong to check 7. -/
def tableOk (t : BitVec 1024) : Bool :=
  fld t 55 9 == 0 && fld t 119 9 == 0 && fld t 183 9 == 0 && fld t 205 3 == 0 && !bit t 215 && !bit t 223 &&
    fld t 228 4 == 0 && fld t 249 7 == 0 && fld t 800 224 == 0 && tLiveva t % 8 == 0 && tDiscva t % 16 == 0 &&
    tBufva t % 16 == 0 && tNlive t ≤ 4096 && tNdisc t ≤ 64 && tNbuf t ≤ 64 && tSlen t % 4 == 0

/-- Parameter `i` (R41, R244, R245). -/
def paramOf (r t : BitVec 1024) (i : Nat) : Word :=
  BitVec.ofNat 64 (if i < 8 then fld r (512 + 64 * i) 64 else fld t (256 + 64 * (i - 8)) 64)

-- The control store (R30, R31, R43).

/-- START and COUNT of directory entry `n` of an image. -/
def dirEntry (img n : Nat) : Nat × Nat := (nfld img (32 * n) 11, nfld img (32 * n + 16) 6)
/-- E: the largest START + COUNT of the nonempty directory entries (R39). -/
def dirEnd (img : Nat) : Nat :=
  (List.range 256).foldl (fun m n =>
    let e := dirEntry img n
    if e.2 = 0 then m else Nat.max m (e.1 + e.2)) 0
/-- Are the directory's limits and reserved bits kept? -/
def dirOk (img : Nat) : Bool :=
  (List.range 256).all fun n =>
    let e := dirEntry img n
    nfld img (32 * n + 11) 5 == 0 && nfld img (32 * n + 22) 10 == 0 && e.2 ≤ 32 && e.1 + e.2 ≤ 2048
/-- May a template with this OP stand in a control store (R31)? -/
def templateOp (op : Nat) : Bool :=
  op ≤ 0x1E || (0x30 ≤ op && op ≤ 0x37) || op == 0x46 || (0x60 ≤ op && op ≤ 0xD2)
/-- R31 and the marker word's reserved bits and values (R30). -/
def templateOk (x : BitVec 128) : Bool :=
  fld x 109 19 == 0 && fld x 96 3 ≤ 4 && fld x 99 3 ≤ 4 && fld x 102 3 ≤ 4 && fld x 105 3 ≤ 4 &&
    templateOp (RawWord.ofBits (x.setWidth 96)).op.toNat &&
    (match decodeWord (x.setWidth 96) with
      | .ok i => wordBytes i == 12
      | .error _ => false)

-- The tables (R44–R46).

/-- A live-map record's reserved bits (R44). -/
def liveOk (x : BitVec 1088) : Bool := fld x 12 52 == 0
/-- A scratchpad range as R45 and R46 limit it. -/
def rangeOk (off len : Nat) : Bool := off % 128 == 0 && len % 128 == 0 && 128 ≤ len && len ≤ 2 ^ 23
/-- A discard entry's limits (R45). -/
def discOk (x : BitVec 128) : Bool :=
  fld x 26 6 == 0 && fld x 40 24 == 0 && fld x 87 9 == 0 && fld x 120 8 == 0 && fld x 24 2 ≤ 1 &&
    (fld x 24 2 == 1 ||
      (fld x 32 8 == 0 && rangeOk (fld x 64 23) (fld x 96 24) && fld x 64 23 + fld x 96 24 ≤ 2 ^ 23))
/-- A buffer entry's limits (R46). -/
def bufOk (x : BitVec 128) : Bool :=
  fld x 6 26 == 0 && fld x 87 9 == 0 && fld x 120 8 == 0 && rangeOk (fld x 64 23) (fld x 96 24)
/-- No number twice. -/
def noRepeat : List Nat → Bool
  | [] => true
  | x :: l => !l.contains x && noRepeat l

-- Launch statuses (R248).
abbrev lPOOLFULL : Nat := 1
abbrev lDEPTH : Nat := 2
abbrev lBADREC : Nat := 3
abbrev lBADMICRO : Nat := 4
abbrev lBADTABLE : Nat := 5
abbrev lXLATE : Nat := 6
abbrev lPLACE : Nat := 7
abbrev lLEGFAULT : Nat := 8
abbrev lKILLED : Nat := 9

/-- How a launch's checks end other than well: with a status, or with the stop of the word that launches. -/
inductive LaunchEnd where
  | status (n : Nat)
  | stop (e : Stop)
  deriving DecidableEq, Repr

/-- A page of a launch that fails R65 gives XLATE (R246); an uncorrectable error, a lost peer or a question to the host is the word's
own (R72, R74, R397). -/
def launchPage {α : Type} (r : Except Stop α) : Except LaunchEnd α :=
  match r with
  | .ok x => .ok x
  | .error e => .error (if e.refuses then .status lXLATE else .stop e)

/-- Checks 6 and 7 of R246 on what was read; the crew's tables where they pass. -/
def crewTables (r t : BitVec 1024) (micro live disc buf : Nat) : Except Nat Crew :=
  let e := Nat.min (dirEnd micro) 2048
  let ops := splitBits 128 e (micro / 2 ^ 8192)
  let lives := (splitBits 1088 (tNlive t) live).map (BitVec.ofNat 1088)
  let discs := (splitBits 128 (tNdisc t) disc).map (BitVec.ofNat 128)
  let bufs := (splitBits 128 (tNbuf t) buf).map (BitVec.ofNat 128)
  if rMicro r ≠ 0 ∧ !(dirOk micro && ops.all fun x => templateOk (BitVec.ofNat 128 x)) then .error lBADMICRO
  else if rTables r ≠ 0 ∧
      !(tGrow t ≤ 8 && tUnroll t ≤ 256 && lives.all liveOk && discs.all discOk && bufs.all bufOk &&
        noRepeat (bufs.map fun b => fld b 0 6)) then .error lBADTABLE
  else
    .ok { Crew.reset with
      rcd := r, tbl := t, hasTbl := rTables r != 0,
      micro := if rMicro r = 0 then [] else ops.zipIdx.map fun x => (x.2, BitVec.ofNat 128 x.1),
      mdir := if rMicro r = 0 then [] else
        (List.range 256).filterMap fun n => let d := dirEntry micro n; if d.2 = 0 then none else some (n, d),
      live_ := lives.reverse.foldl (fun m x => AMap.upd m (fld x 0 12) x) [],
      disc := discs,
      buf := bufs.foldl (fun m b => AMap.upd m (fld b 0 6) (fld b 64 23, fld b 96 24)) [] }

/-- Checks 3 to 7 of R246, by launch unit `d`, reading as agent `a`. The manual gives a control-store image no length: the model takes
the directory and the entries up to R39's E, and neither reads nor checks any page or entry past them (log entry 49). -/
def State.launchTables (s : State) (a d : Nat) (r : BitVec 1024) : Except LaunchEnd (Crew × State) := do
  let asid := rAsid r
  let read (s : State) (va n : Nat) : Except LaunchEnd (Nat × State) := launchPage (s.readVa a d asid va n true)
  let page (s : State) (va n : Nat) (x : Acc) : Except LaunchEnd State := launchPage (s.pagesOk d asid va n x true)
  let (t, s) ← if rTables r = 0 then pure (0, s) else read s (rTables r) 128
  let t := BitVec.ofNat 1024 t
  if rTables r ≠ 0 ∧ !tableOk t then throw (.status lBADREC)
  let s ← page s (rStream r) 8 .rd
  let (dir, s) ← if rMicro r = 0 then pure (0, s) else read s (rMicro r) 1024
  let (ops, s) ← if rMicro r = 0 then pure (0, s) else read s (rMicro r + 1024) (16 * Nat.min (dirEnd dir) 2048)
  let (l, s) ← read s (tLiveva t) (136 * tNlive t)
  let (c, s) ← read s (tDiscva t) (16 * tNdisc t)
  let (b, s) ← read s (tBufva t) (16 * tNbuf t)
  let s ← if rDone r = 0 then pure s else page s (rDone r) 16 .wr
  match crewTables r t (dir + ops * 2 ^ 8192) l c b with
  | .error e => throw (.status e)
  | .ok x => pure (x, s)

/-- R246 check 8. -/
def placeOk (r : BitVec 1024) : Bool :=
  let all := rLegs r * rSize r
  (rGang r != 3 || (rLegs r == 1 && rOrigin r == 0)) &&
    (rAny r || (rOrigin r % rSize r == 0 && rOrigin r + all ≤ 640)) && (!rCosched r || all ≤ 640)

/-- The lowest-numbered free entry of a die's pool (R287). -/
def State.freeEntry (s : State) (d : Nat) : Option Nat :=
  ((List.range 256).map fun e => d * 256 + e).find? fun e => !(s.crew e).live

/-- A handle (R249). -/
def launchHandle (e gen : Nat) : Word := BitVec.ofNat 64 (e / 256 * 2 ^ 8 + e % 256 * 2 ^ 16 + gen * 2 ^ 32)

/-- Acceptance of a launch by die `d`'s unit (R246, R247): the handle, or the status alone, in the word. `asid` is the
launcher's context where it is in user mode. -/
def State.accept (s : State) (a d : Nat) (asid : Option Nat) (parent : Option Nat) (det : Bool) (msg : Msg)
    (r : BitVec 1024) : Except Stop (Word × State) :=
  let no (st : Nat) : Except Stop (Word × State) := .ok (BitVec.ofNat 64 st, s)
  if !recordOk r || (match asid with | some x => x != rAsid r | none => false) then no lBADREC
  else
    match s.launchTables a d r with
    | .error (.status st) => no st
    | .error (.stop e) => .error e
    | .ok (x, s) =>
      let pd := match parent with | some p => (s.crew p).depth + 1 | none => 0
      let lim := match parent with
        | some p => if rMaxdepth r = 0 then (s.crew p).limit else Nat.min (s.crew p).limit (rMaxdepth r)
        | none => if rMaxdepth r = 0 then 8 else rMaxdepth r
      if !placeOk r then no lPLACE
      else if (match parent with | some p => decide ((s.crew p).limit < pd) | none => false) then no lDEPTH
      else
        match s.freeEntry d with
        | none => no lPOOLFULL
        | some e =>
          let gen := ((s.crew e).gen + 1) % 2 ^ 32
          let x : Crew := { x with
            gen := gen, live := true, parent := parent, host := parent.isNone, det := det || parent.isNone, depth := pd,
            limit := lim, stamp := s.gtc, cls := rPrio r, waitFrom := s.gtc, cls0 := rPrio r, order := s.nextReq, msg := msg }
          .ok (launchHandle e gen, { s.setCrew e x with nextReq := s.nextReq + 1 })

/-- The launch unit's decision on a record that the executing pacer launches (R247): where it accepts, the waits of R229 for the
pacer's release at scope 3 are over. -/
def launchBy (det : Bool) (va : Nat) (r : BitVec 1024) : M Word := fun s =>
  let k := s.me
  let a := srcOf s.actor 0
  match s.accept a (dieOf s.actor) (if k.mode then none else some k.asid) k.crew det (s.release a 3) r with
  | .error e => .error e
  | .ok (h, s') =>
    if fld h 0 8 ≠ 0 then .ok (h, s')
    else
      match relWait 3 va s with
      | .error e => .error e
      | .ok _ => .ok (h, s')

/-- LAUNCH (R247): the record is a pacer read, which returns the pacer's own earlier stores (R289). -/
def execLaunch (n : Ann) (det : Bool) (d a : SReg) (s : State) : Host.Outcome State Fault Refusal :=
  pacerWord n 12 [a] false (fun s =>
    let va := (s.me.rd a).toNat
    (do
      let t ← xlate va 128 128 .rd
      ownStores
      let r ← readRuns [(va, 128, t)]
      let h ← launchBy det va (BitVec.ofNat 1024 r)
      endReads
      modMe fun k => k.wr d h
      return Flow.seq) s) s

-- Choosing what starts (R256, R257).

/-- The next leg of a crew that waits for cores: one that was saved (R377), else one not yet started. -/
def Crew.nextLeg (x : Crew) : Option (Nat × Option Nat) :=
  if !x.live || x.status.isSome || x.preempt then none
  else
    match x.legs.findSome? fun l => match l.2 with | .saved o => some (l.1, some o) | _ => none with
    | some l => some l
    | none => (((List.range (rLegs x.rcd)).find? fun l => x.legs.get .waiting l == .waiting)).map fun l => (l, none)

/-- Does a crew wait for cores? -/
def Crew.waits (x : Crew) : Bool := x.nextLeg.isSome

/-- The places a leg may take, in the order of R256: the lowest cores of the gangs. `old` is where a saved leg ran. -/
def Crew.places (x : Crew) (e leg : Nat) (old : Option Nat) : List Nat :=
  let z := rSize x.rcd
  let d := e / 256
  if !rAny x.rcd then [match old with | some o => o | none => rOrigin x.rcd + leg * z]
  else if rGang x.rcd < 2 then
    (d :: (List.range 8).filter (· != d)).flatMap fun d => (List.range (80 / z)).map fun i => 80 * d + z * i
  else (List.range (640 / z)).map fun i => z * i

/-- Is a core ready and without a crew (R256)? -/
def State.coreFree (s : State) (c : Nat) : Bool := s.ready.getLsbD c && (s.core c).crew.isNone
/-- Is every core of a gang free? -/
def State.gangFree (s : State) (lo z : Nat) : Bool := (List.range z).all fun i => s.coreFree (lo + i)

/-- Has START passed on a placement (R244, R266)? -/
def State.startPassed (s : State) (x : Crew) (lo : Nat) : Bool :=
  if rTick x.rcd then rStart x.rcd % 2 ^ 48 ≤ tickCount (s.die (dieOf lo)).tickcfg s.gtc % 2 ^ 48
  else rStart x.rcd == 0 || rStart x.rcd ≤ s.gtc

/-- The order of R256: higher class, then earlier (stamp, source), then order of acceptance. -/
def crewBefore (p q : Nat × Crew) : Bool :=
  q.2.cls < p.2.cls || (q.2.cls == p.2.cls &&
    (p.2.stamp < q.2.stamp || (p.2.stamp == q.2.stamp &&
      (p.1 / 256 < q.1 / 256 || (p.1 / 256 == q.1 / 256 && p.2.order < q.2.order)))))

/-- The crew at the head of class 3, if any (R257). -/
def State.class3Head (s : State) : Option (Nat × Crew) :=
  let l := s.crews.filter fun e => e.2.waits && e.2.cls == 3
  l.find? fun p => !l.any fun q => crewBefore q p

/-- The lowest cores of the gangs that a crew at the head of class 3 could use: those of its next replica, and, where its placement is
fixed and its replicas start together, of all that wait (R257). -/
def Crew.wants (x : Crew) (e : Nat) : List Nat :=
  match x.nextLeg with
  | none => []
  | some (leg, old) =>
    if rCosched x.rcd && !rAny x.rcd then
      ((List.range (rLegs x.rcd)).filter fun l =>
        match x.legs.get .waiting l with | .waiting | .saved _ => true | _ => false).map fun l => rOrigin x.rcd + l * rSize x.rcd
    else x.places e leg old

/-- Is core range `lo`, `z` kept for the head of class 3 against a crew accepted after it (R257)? -/
def State.reserved (s : State) (e : Nat) (x : Crew) (lo z : Nat) : Bool :=
  match s.class3Head with
  | none => false
  | some (e', y) =>
    e' != e && decide (y.order < x.order) && (y.wants e').any fun o => o < lo + z && lo < o + rSize y.rcd

/-- The slots that a saved core claimed, as its save area holds them (R363). -/
def State.savedClaims (s : State) (k : Core) : Nat := s.mem.getNat (kHbm (fld k.saveptr 16 36 * 65536 + 0x70)) 4
/-- Are the slots that a saved leg claimed free on the teams it would resume on? -/
def State.claimsFit (s : State) (x : Crew) (leg old lo : Nat) : Bool :=
  x.saved.all fun p =>
    p.1 / 1024 != leg || p.2.contained || p.2.wait == .ended ||
      let m := s.savedClaims p.2
      (List.range 32).all fun q => !m.testBit q || ((s.team (teamOf (lo + (p.1 % 1024 - old)))).owner.find q).isNone

/-- Where a waiting crew's next leg would start now: the leg and its lowest core; for a COSCHED crew's first start, every leg
and its lowest core (R243, R256, R257). -/
def State.placeFor (s : State) (e : Nat) (x : Crew) : Option (List (Nat × Nat)) :=
  match x.nextLeg with
  | none => none
  | some (leg, old) =>
    let z := rSize x.rcd
    let ok (lo : Nat) : Bool :=
      lo + z ≤ 640 && s.gangFree lo z && !s.reserved e x lo z &&
        (match old with | some o => s.claimsFit x leg o lo | none => s.startPassed x lo)
    if rCosched x.rcd && old.isNone then
      let n := rLegs x.rcd
      let l := if rAny x.rcd then ((x.places e 0 none).filter ok).take n
        else ((List.range n).map fun i => rOrigin x.rcd + i * z).filter ok
      if l.length = n then some (l.zipIdx.map fun p => (p.2, p.1)) else none
    else ((x.places e leg old).find? ok).map fun lo => [(leg, lo)]

/-- The crew of a die's pool whose leg starts next, with its legs and places (R256). -/
def State.nextStart (s : State) (d : Nat) : Option (Nat × List (Nat × Nat)) :=
  let l := s.crews.filterMap fun p =>
    if p.1 / 256 = d then (s.placeFor p.1 p.2).map fun q => (p, q) else none
  (l.find? fun p => !l.any fun q => crewBefore q.1 p.1).map fun p => (p.1.1, p.2)

-- What a replica starts in (R253).

/-- Clear a team's scratchpad and slots; the bytes that agents may have seen become writes of the launch unit (R99). -/
def State.clearTeam (s : State) (d t : Nat) : KMap × State :=
  [(kSpad t 0, kSpad t (2 ^ 23)), (kSlot t 0 0, kSlot (t + 1) 0 0)].foldl (fun r b =>
    let s := r.2
    let ws := (s.hist.filter fun h => b.1 ≤ 8 * h.1 && 8 * h.1 < b.2).map fun h => h.1
    let s := ws.foldl (fun s w => s.rawWrite (launchSrc d) (8 * w) 8 0 []) s
    (kJoin r.1 (ws.map fun w => (w, (s.wordHist w).ws.length)), { s with mem := s.mem.clear b.1 b.2 })) ([], s)

/-- The program counter and SPECSTAT of a crew's cores on a die (R253, R269, R284): NVIOL as counted now. -/
def State.firstPc (s : State) (x : Crew) (d : Nat) : Nat × BitVec 64 :=
  let n := BitVec.ofNat 64 (s.specViol.get 0 d % 2 ^ 16 * 2 ^ 16)
  match x.spec.find d with
  | some (pc, st) => (if pc = 0 then rStream x.rcd else pc, st ||| n)
  | none => (rStream x.rcd, 0xFFFFFFFF00000000 ||| n)

/-- SAVEPTR of a core from its crew's save pool (R378). -/
def poolPtr (pool : Option Nat) (c : Nat) : BitVec 64 :=
  match pool with
  | some b => BitVec.ofNat 64 (1 + (b + c * Config.saveSize) / 65536 * 65536)
  | none => 0

/-- The save pool that a crew has, from the moment its first replica starts: the one then registered for its context (R378). -/
def State.crewPool (s : State) (x : Crew) : Option Nat :=
  if x.legs.any fun l => l.2 != .waiting then x.pool else s.pools.find (rAsid x.rcd)

/-- The handler vector that a crew's cores take: the one registered for its context when its first replica started (R367). -/
def State.crewVec (s : State) (x : Crew) : BitVec 64 := x.vec.getD (s.vecs.get 0 (rAsid x.rcd))

/-- The scalar registers at crew start (R41, R253). -/
def startRegs (x : Crew) : AMap Word :=
  (List.range (rNparam x.rcd)).map fun i => (i + 1, paramOf x.rcd x.tbl i)

/-- The state one core starts in (R253). Vector registers and frames keep what they hold: the manual states no other value. -/
def State.startCore (s : State) (e : Nat) (x : Crew) (leg lo c : Nat) : Core :=
  let k := s.core c
  let (pc, st) := s.firstPc x (dieOf c)
  { Core.reset with
    crew := some e, leg := leg, origin := lo, s := startRegs x, slip := rSlip x.rcd, pc := pc, micro := x.micro,
    mdir := x.mdir, specstat := st, tvec := s.crewVec x, asid := rAsid x.rcd,
    saveptr := poolPtr x.pool c, v := k.v, frames := k.frames, tlb := k.tlb }

/-- A new instance's agents, its pacer, engines and copy engine: floors stay, nothing is carried; then the acquire of the launch's release at scope 3 (R253). -/
def State.startViews (s : State) (c : Nat) (msg : Msg) (cleared : KMap) : State :=
  (List.range 6).foldl (fun s n =>
    let a := srcOf c n
    let v := s.view a
    let s := s.setView a (({ v with k := [], fences := [], seen := [], pinned := [] } : View).join cleared)
    s.acquire a 3 [msg]) s

/-- Prepare a team for a crew of a context (R99). -/
def State.startTeam (s : State) (d t asid : Nat) : KMap × State :=
  let x := s.team t
  let other := match x.lastAsid with | some a => a != asid | none => false
  let (m, s) := if other then s.clearTeam d t else ([], s)
  (m, s.setTeam t { s.team t with lastAsid := some asid })

/-- Start one leg of a crew at cores `lo` up (R253). -/
def State.startLeg (s : State) (e leg lo : Nat) : State :=
  let x := s.crew e
  let z := rSize x.rcd
  let (m, s) := (List.range ((z + 3) / 4)).foldl (fun r i =>
    let (m, s) := r.2.startTeam (e / 256) (lo / 4 + i) (rAsid x.rcd)
    (kJoin r.1 m, s)) ([], s)
  let x := { x with pool := s.crewPool x, vec := some (s.crewVec x) }
  let s := s.setCrew e { x with legs := x.legs.upd leg (.running lo) }
  (List.range z).foldl (fun s i =>
    let c := lo + i
    (s.setCore c (s.startCore e x leg lo c)).startViews c x.msg m) s

/-- The dies a placement's cores lie on. -/
def diesOf (lo z : Nat) : List Nat := (List.range (dieOf (lo + z - 1) - dieOf lo + 1)).map fun i => dieOf lo + i

/-- The dies of a set of placements whose residual code has not been looked up or built (R269). -/
def Crew.specOwed (x : Crew) (l : List (Nat × Nat)) : List Nat :=
  if rSpec x.rcd then (l.flatMap fun p => diesOf p.2 (rSize x.rcd)).filter fun d => (x.spec.find d).isNone else []

/-- REPLICA_START: the die's unit starts the first waiting replica whose gang is free and whose START has passed (R243, R253,
R256, R257, R269). -/
def State.replicaStart (s : State) (e leg : Nat) : State :=
  let x := s.crew e
  match s.nextStart (e / 256) with
  | some (e', l) =>
    if e' ≠ e ∨ (l.head?.map fun p => p.1) ≠ some leg ∨ x.legs.get .waiting leg ≠ .waiting ∨ !(x.specOwed l).isEmpty then s
    else l.foldl (fun s p => s.startLeg e p.1 p.2) s
  | none => s

/-- REPLICA_START. -/
def execReplicaStart (crew leg : Nat) (s : State) : Host.Outcome State Fault Refusal := .next (s.replicaStart crew leg)

/-- CLASS_PROMOTION: a waiting crew rises one class for each 1,000,000 ns it has waited, up to 3 (R256). -/
def execClassPromotion (crew : Nat) (s : State) : Host.Outcome State Fault Refusal :=
  let x := s.crew crew
  if x.waits && x.cls < 3 && x.waitFrom + 1000000 * (x.cls - x.cls0 + 1) ≤ s.gtc then
    .next (s.setCrew crew { x with cls := x.cls + 1 })
  else .next s

-- WAITCH (R255).

/-- Collect an ended child: its end status, the acquire of its end releases, and the entry freed (R255). -/
def State.collect (s : State) (c e : Nat) : Word × State :=
  let x := s.crew e
  let s := s.acquire (srcOf c 0) 3 x.endMsgs
  (BitVec.ofNat 64 (x.status.getD 0), s.setCrew e { s.crew e with live := false })

/-- WAITCH (R255). -/
def execWaitch (n : Ann) (t : Bool) (d a : SReg) (s : State) : Host.Outcome State Fault Refusal :=
  pacerWord n 12 [a] false (fun s =>
    let c := s.actor
    let k := s.me
    let h := k.rd a
    let e := fld h 8 3 * 256 + fld h 16 8
    let gen := fld h 32 32
    let x := s.crew e
    if fld h 0 8 ≠ 0 ∨ fld h 11 5 ≠ 0 ∨ fld h 24 8 ≠ 0 ∨ x.gen ≠ gen ∨ !x.live ∨ x.det ∨ k.crew.isNone ∨
        x.parent ≠ k.crew then .error (.trap (tr cRANGE))
    else if x.status.isSome then
      let (v, s) := s.collect c e
      .ok (.seq, s.setMe (s.me.wr d v))
    else if t then .ok (.seq, s.setMe (k.wr d 0xFF))
    else if s.preemptPending c then .ok (.seq, s.setMe (k.wr d 0xFE))
    else stall (.waitch (physS k.rrb d) e gen) s) s

/-- WAITCH_RETURN: a stalled WAITCH whose child has ended returns, the first collecting the entry; a pending pre-emption ends
it early (R255). -/
def State.waitchReturn (s : State) (c : Nat) : State :=
  let k := s.core c
  match k.wait with
  | .waitch d e gen =>
    let x := s.crew e
    if x.gen = gen ∧ x.status.isSome then
      let (v, s) := s.collect c e
      s.answer c d v
    else if s.preemptPending c then s.answer c d 0xFE
    else s
  | _ => s

/-- WAITCH_RETURN. -/
def execWaitchReturn (core : Nat) (s : State) : Host.Outcome State Fault Refusal := .next (s.waitchReturn core)

end Sys2Proof.Machine
end

