-- ==== Sys2Proof/Machine/Feed.lean ====
section
/-! DEFINITION. Feed queues (R258–R261): FEED, POPW and ACKW, carried out by the launch unit of the queue's die, and the parts
of them that a relay unit uses (R323, R338, R339). -/
namespace Sys2Proof.Machine

/-- A feed queue as a unit reads it: the shadow half and the counts of the user half (R258, R259). -/
structure Queue where
  word : Nat
  ring : Nat
  log : Nat
  /-- bytes of a slot -/
  size : Nat
  asid : Nat
  scope : Nat
  /-- the user half -/
  half : Target
  head : Nat
  tail : Nat
  acked : Nat
  deriving DecidableEq, Repr

/-- The die of a queue. -/
def queueDie (q : Nat) : Nat := q / 256 % 8
/-- Is it a queue word (R258)? -/
def queueWordOk (w : Word) : Bool := w.toNat < 2 ^ 11
/-- The difference of two counts modulo 2^32. -/
def cntDiff (a b : Nat) : Nat := (a + 2 ^ 32 - b) % 2 ^ 32
def Queue.slots (q : Queue) : Nat := 2 ^ q.log
/-- The slot of record `t`. -/
def Queue.slot (q : Queue) (t : Nat) : Nat := q.ring + t % q.slots * q.size

/-- Where the shadow half of a queue stands (R258). -/
def shadowKey (q : Nat) : Nat := kQuay (queueDie q * 2 ^ 26 + 0x3FFC000 + 64 * (q % 256))
/-- The shadow half of a queue (R258). -/
def State.shadow (s : State) (q : Nat) : BitVec 512 := BitVec.ofNat 512 (s.mem.getNat (shadowKey q) 64)

/-- Load both halves and check them (R260): a naming instruction that the checks refuse traps RANGE. The user half is read as it stands
at its home; a page that passes for a write passes for a read (R60). -/
def State.queue (s : State) (q asid : Nat) (user : Bool) : Except Stop (Queue × State) :=
  let h := s.shadow q
  let d := queueDie q
  let bad : Except Stop (Queue × State) := .error (.trap (tr cRANGE))
  if !bit h 156 || fld h 55 9 != 0 || fld h 119 9 != 0 || fld h 133 3 != 0 || fld h 139 5 != 0 || fld h 150 2 != 0 ||
      fld h 157 355 != 0 || fld h 144 6 != asid then bad
  else
    match s.unitFind (launchSrc d) d asid (fld h 0 55) 24 .wr user with
    | .error e => if e.refuses then bad else .error e
    | .ok (ps, s) =>
      let half := (ps.head?.map fun p => p.2.2).getD { apt := 4, key := 0, leaf := 0 }
      let s := ((s.watchRead (launchSrc d) (shadowKey q) 64).runsMade (launchSrc d) .rd ps).watchRead (launchSrc d) half.key 24
      let u := s.mem.getNat half.key 24
      let x : Queue :=
        { word := q, ring := fld h 64 55, log := fld h 128 5, size := 64 * 2 ^ fld h 136 3, asid := asid,
          scope := fld h 152 4, half := half, head := nfld u 0 32, tail := nfld u 64 32, acked := nfld u 128 32 }
      if nfld u 32 32 ≠ 0 ∨ nfld u 96 32 ≠ 0 ∨ nfld u 160 32 ≠ 0 ∨ 2 ^ x.log < cntDiff x.tail x.acked ∨
          cntDiff x.tail x.acked < cntDiff x.head x.acked then bad
      else .ok (x, s)

/-- The launch unit writes a count of a queue's user half: HEAD, TAIL or ACKED at 0, 8 or 16 (R259). -/
def State.putCount (s : State) (q : Queue) (off v : Nat) (rels : List Msg) : State :=
  let u := launchSrc (queueDie q.word)
  let t := { q.half with key := q.half.key + off }
  (s.runsMade u .wr [(0, 4, t)]).homeWrite u t.key 4 v rels

/-- The counts in the user half of a queue as memory holds them, where the queue's page passes R65 (R258). -/
def State.userHalf (s : State) (q asid : Nat) (user : Bool) : Option Nat :=
  match s.xlateRange (queueDie q) asid (fld (s.shadow q) 0 55) 24 .wr user with
  | .ok (p :: _, _) => some (s.mem.getNat p.2.2.key 24)
  | _ => none

/-- The queue that the executing pacer's word names by a register's value (R258, R260). -/
def queueOf (w : Word) : M Queue := fun s =>
  if queueWordOk w then s.queue w.toNat s.me.asid (!s.me.mode) else .error (.trap (tr cRANGE))

/-- A check of a slot by R65: a failing page traps at the slot (R261). -/
def slotFault (slot : Nat) : Stop → Stop
  | .trap t => .trap { t with addr := slot }
  | e => e

/-- The cores that sleep on a queue, oldest first by (stamp, source), with the step that retries each (R261, R338). -/
def State.sleepers (s : State) (q : Nat) (relayQ : Nat → Bool → Nat) : List Instr :=
  let l := s.cores.filterMap fun c =>
    match c.2.wait with
    | .popw _ q' _ st => if q' = q then some (st, srcOf c.1 0, Instr.popwRetry c.1) else none
    | .rlyTake _ u _ coarse _ st => if relayQ u coarse = q then some (st, srcOf c.1 0, Instr.rlyTakeRetry c.1) else none
    | _ => none
  let ins (x : Nat × Nat × Instr) (l : List (Nat × Nat × Instr)) : List (Nat × Nat × Instr) :=
    let before (y : Nat × Nat × Instr) : Bool := y.1 < x.1 || (y.1 == x.1 && y.2.1 ≤ x.2.1)
    l.takeWhile before ++ x :: l.dropWhile before
  (l.foldr ins []).map fun x => x.2.2

/-- The queue a relay unit's TAKE or GTAKE pops (R338). -/
def State.relayQueue (s : State) (u : Nat) (coarse : Bool) : Nat :=
  if coarse then fld (s.relay u).desc 464 11 else fld (s.relay u).desc 448 11

/-- Note that a core has still to be woken from its sleep on a queue, or that it has been. -/
def State.setWoken (s : State) (c : Nat) (b : Bool) : State := s.setCore c { s.core c with woken := b }

/-- Wake the sleepers of a queue: they are retried at once, in their order (R261). -/
def State.wakeQueue (s : State) (q : Nat) : State :=
  { s with agenda := s.sleepers q s.relayQueue ++ s.agenda }

/-- The queue that a core sleeps on (R261, R338). -/
def State.sleepsOn (s : State) (k : Core) : Option Nat :=
  match k.wait with
  | .popw _ q _ _ => some q
  | .rlyTake _ u _ coarse _ _ => some (s.relayQueue u coarse)
  | _ => none

/-- Does a core sleep on a queue that has been woken and not yet been retried? Its turn comes before any later word's (R261, R268). -/
def State.wokenOn (s : State) (q : Nat) : Bool := s.cores.any fun c => c.2.woken && s.sleepsOn c.2 == some q

/-- Sleepers that have been woken and not yet retried, since the host had to be asked about a page first, each queue's in their order
(R72, R261). -/
def State.sleepersDue (s : State) : List Instr :=
  let add (l : List Nat) (c : Nat × Core) : List Nat :=
    match s.sleepsOn c.2 with
    | some q => if c.2.woken && !l.contains q then l ++ [q] else l
    | none => l
  (s.cores.foldl add []).flatMap fun q => (s.sleepers q s.relayQueue).filter fun i =>
    match i with
    | .popwRetry c | .rlyTakeRetry c => (s.core c).woken
    | _ => false

/-- Put one record into a queue that has room (R261): payload, header, TAIL as a release carrying `k` and the slot; a page of the slot
that fails R65 is reported at the slot. -/
def State.feedRecord (s : State) (q : Queue) (payload : Nat) (agent : Nat) (k : KMap) (user : Bool) : Except Stop State :=
  let d := queueDie q.word
  let u := launchSrc d
  let slot := q.slot q.tail
  match s.unitFind u d q.asid slot q.size .wr user with
  | .error e => .error (slotFault slot e)
  | .ok (ps, s) =>
    match s.writeVa u d q.asid (slot + 8) (q.size - 8) payload user [] with
    | .error e => .error (slotFault slot e)
    | .ok s =>
      match s.writeVa u d q.asid slot 8 q.tail user [] with
      | .error e => .error (slotFault slot e)
      | .ok s =>
        let m : Msg := { agent := agent, scope := q.scope, k := s.carried agent q.scope (kJoin k (s.headsOf ps)) }
        let s := s.putCount q 8 ((q.tail + 1) % 2 ^ 32) [m]
        .ok ({ s with fed := s.fed ++ [(q.word, q.tail, m)] }.wakeQueue q.word)

/-- The record that a pacer's FEED puts into its queue, once the pacer's waits of R229 are over (R261). -/
def feedM (q : Queue) (va payload : Nat) : M Unit := do
  relWait q.scope va
  fun s =>
    match s.feedRecord q payload (srcOf s.actor 0) (s.view (srcOf s.actor 0)).k (!s.me.mode) with
    | .error e => .error e
    | .ok s => .ok ((), s)

/-- A check of a slot's pages, for a pacer's word: nothing is accessed (R261). -/
def slotPages (q : Queue) (slot n : Nat) (a : Acc) : M Unit := fun s =>
  match s.pagesOk (queueDie q.word) q.asid slot n a (!s.me.mode) with
  | .error e => .error (slotFault slot e)
  | .ok s => .ok ((), s)

/-- FEED (R261): the payload is read by the pacer, as a pacer read. -/
def execFeed (n : Ann) (d a b : SReg) (s : State) : Host.Outcome State Fault Refusal :=
  pacerWord n 12 [a, b] false (fun s =>
    let k := s.me
    let va := (k.rd b).toNat
    (do
      let q ← queueOf (k.rd a)
      if cntDiff q.tail q.acked = q.slots then
        modMe fun k => k.wr d 1
        return Flow.seq
      else
        let ps ← accessRuns va (q.size - 8) .rd (!k.mode)
        slotPages q (q.slot q.tail) q.size .wr
        ownStores
        let x ← readRuns ps
        feedM q va x
        endReads
        modMe fun k => k.wr d 0
        return Flow.seq) s) s

/-- Take the next record: HEAD rises, and agent `a` acquires from its FEED at SCOPE (R261). -/
def State.popRecord (s : State) (q : Queue) (a : Nat) : Nat × State :=
  let s := s.putCount q 0 ((q.head + 1) % 2 ^ 32) []
  let mine (f : Nat × Nat × Msg) : Bool := f.1 == q.word && f.2.1 == q.head
  let ms := (s.fed.filter mine).map fun f => f.2.2
  (q.slot q.head + 8, ({ s with fed := s.fed.filter fun f => !mine f } : State).acquire a q.scope ms)

/-- One try of a POPW by core `c` (R261): an answer, or none where it sleeps. -/
def State.popTry (s : State) (c q dl : Nat) : Except Stop (Option Nat × State) :=
  let k := s.core c
  match s.queue q k.asid (!k.mode) with
  | .error e => .error e
  | .ok (x, s) =>
    if x.head ≠ x.tail then
      let (va, s) := s.popRecord x (srcOf c 0)
      .ok (some va, s)
    else if (dl ≠ 0 ∧ dl ≤ s.gtc) ∨ s.preemptPending c then .ok (some 0, s)
    else .ok (none, s)

/-- POPW (R261): the sleepers that a FEED has woken come before it (R268). -/
def execPopw (n : Ann) (d a c : SReg) (s : State) : Host.Outcome State Fault Refusal :=
  pacerWord n 12 [a, c] false (fun s =>
    let k := s.me
    let q := (k.rd a).toNat
    let dl := (k.rd c).toNat
    if !queueWordOk (k.rd a) then .error (.trap (tr cRANGE))
    else if s.wokenOn q then .error .wait
    else
      match s.popTry s.actor q dl with
      | .error e => .error e
      | .ok (some v, s) => .ok (.seq, s.setMe (s.me.wr d (BitVec.ofNat 64 v)))
      | .ok (none, s) => stall (.popw (physS k.rrb d) q dl s.gtc) s) s

/-- POPW_RETRY: a sleeping POPW is tried again: after a FEED, at its deadline, for a pending pre-emption (R261). -/
def State.popwRetry (s : State) (c : Nat) : State :=
  match (s.core c).wait with
  | .popw d q dl _ =>
    match s.popTry c q dl with
    | .error (.trap t) => if (s.core c).frozen then s else s.preciseTrap c t
    | .error e => (s.unitStep [] (.error e)).setWoken c true
    | .ok (some v, s) => ((s.endSnoops (launchSrc (queueDie q))).setWoken c false).answer c d (BitVec.ofNat 64 v)
    | .ok (none, s) => (s.endSnoops (launchSrc (queueDie q))).setWoken c false
  | _ => s

/-- POPW_RETRY. -/
def execPopwRetry (core : Nat) (s : State) : Host.Outcome State Fault Refusal := .next (s.popwRetry core)

/-- Is `va` a payload address of the ring (R261)? -/
def Queue.payload (q : Queue) (va : Nat) : Bool :=
  q.ring + 8 ≤ va && (va - 8 - q.ring) % q.size == 0 && (va - 8 - q.ring) / q.size < q.slots

/-- ACKED rises past every slot that is done (R261), as the headers stand at their homes; it stops at a slot whose page fails. -/
def State.ackRise (q : Queue) (user : Bool) : Nat → Nat → State → Except Stop (Nat × State)
  | 0, a, s => .ok (a, s)
  | fuel + 1, a, s =>
    let d := queueDie q.word
    match s.homeVa (launchSrc d) d q.asid (q.slot a) 8 user with
    | .error (.trap _) => .ok (a, s)
    | .error e => .error e
    | .ok (h, s) =>
      if h = a + 2 ^ 32 ∧ a ≠ q.tail then State.ackRise q user fuel ((a + 1) % 2 ^ 32) s else .ok (a, s)

/-- Is the slot's header that of a record taken and not yet acknowledged (R261)? -/
def Queue.headerOk (q : Queue) (h : Nat) : Bool :=
  nfld h 32 1 == 0 && cntDiff (nfld h 0 32) q.acked < cntDiff q.head q.acked

/-- The relay units that owe records to a queue try again when its ACKED changes (R323). -/
def State.owedFeeds (s : State) (q : Nat) : List Instr :=
  s.relays.filterMap fun e =>
    (e.2.owed.find? fun o => s.relayQueue e.1 o.1 == q).map fun o => Instr.relayOwedFeed e.1 o.2

/-- Acknowledge the record at a slot (R261): its header DONE as a release carrying `k`, then ACKED. -/
def State.ackSlot (s : State) (q : Queue) (slot h agent : Nat) (k : KMap) (user : Bool) : Except Stop State :=
  let d := queueDie q.word
  let m : Msg := { agent := agent, scope := q.scope, k := s.carried agent q.scope k }
  match s.writeVa (launchSrc d) d q.asid slot 8 (h % 2 ^ 32 + 2 ^ 32) user [m] with
  | .error e => .error (slotFault slot e)
  | .ok s =>
    match State.ackRise q user q.slots q.acked s with
    | .error e => .error e
    | .ok (a, s) =>
      if a = q.acked then .ok s
      else
        let s := s.putCount q 16 a []
        .ok { s with agenda := s.owedFeeds q.word ++ s.agenda }

/-- The header of a slot, as it stands at its home, for the checks of an ACKW (R261). -/
def State.slotHeader (s : State) (q : Queue) (slot : Nat) (user : Bool) : Except Stop (Nat × State) :=
  match s.pagesOk (queueDie q.word) q.asid slot 8 .wr user with
  | .error e => .error (slotFault slot e)
  | .ok s =>
    match s.homeVa (launchSrc (queueDie q.word)) (queueDie q.word) q.asid slot 8 user with
    | .error e => .error (slotFault slot e)
    | .ok r => .ok r

/-- The checks of an ACKW of a payload address (R261): the slot's header. -/
def State.ackCheck (s : State) (q : Queue) (va : Nat) (user : Bool) : Except Stop (Nat × State) :=
  if !q.payload va then .error (.trap (tr cRANGE va))
  else
    match s.slotHeader q (va - 8) user with
    | .error e => .error e
    | .ok (h, s) => if q.headerOk h then .ok (h, s) else .error (.trap (tr cRANGE va))

/-- What an ACKW does once the pacer's waits of R229 are over (R261). -/
def ackM (q : Queue) (va h : Nat) : M Unit := do
  relWait q.scope va
  fun s =>
    match s.ackSlot q (va - 8) h (srcOf s.actor 0) (s.view (srcOf s.actor 0)).k (!s.me.mode) with
    | .error e => .error e
    | .ok s => .ok ((), s)

/-- ACKW (R261). -/
def execAckw (n : Ann) (a b : SReg) (s : State) : Host.Outcome State Fault Refusal :=
  pacerWord n 12 [a, b] false (fun s =>
    let va := (s.me.rd b).toNat
    (do
      let q ← queueOf (s.me.rd a)
      let h ← fun s => s.ackCheck q va (!s.me.mode)
      ackM q va h
      return Flow.seq) s) s

end Sys2Proof.Machine
end

