-- ==== Sys2Proof/Machine/Barrier.lean ====
section
/-! DEFINITION. Buffer counts, barriers and ticks (R120–R122, R262–R267). -/
namespace Sys2Proof.Machine

-- Buffers (R120–R122).

/-- The key of a crew's buffer in its team's counts. -/
def bufKey (crew buf : Nat) : Nat := crew * 64 + buf

/-- BUFUSE (R121). -/
def execBufuse (n : Ann) (buf : BitVec 6) (s : State) : Host.Outcome State Fault Refusal :=
  pacerWord n 12 [] false (fun s =>
    let c := s.actor
    let e := s.me.crew.getD 0
    let t := s.team (teamOf c)
    let key := bufKey e buf.toNat
    match (s.crew e).buf.find buf.toNat with
    | none => .error (.trap (tr cRANGE))
    | some (off, len) =>
      if t.counts.get 0 key = 255 then .error (.trap (tr cRANGE))
      else if t.landings.any fun l => l.2.2.1 < off + len && off < l.2.2.2 then .error .wait
      else
        let s := s.setTeam (teamOf c) { t with counts := t.counts.upd key (t.counts.get 0 key + 1) }
        let lo := kSpad (teamOf c) off
        let ks := t.landed.filter fun w => lo < 8 * w.1 + 8 && 8 * w.1 < lo + len
        let s := s.setView (srcOf c 0) ((s.view (srcOf c 0)).join ks)
        .ok (.seq, s.setMe { s.me with bufs := s.me.bufs.upd buf.toNat (s.me.bufs.get 0 buf.toNat + 1) })) s

/-- BUFREL (R122): the core's entries complete first; their accesses and the pacer's are released at scope 1. -/
def execBufrel (n : Ann) (buf : BitVec 6) (s : State) : Host.Outcome State Fault Refusal :=
  pacerWord n 12 [] true (fun s =>
    let c := s.actor
    let e := s.me.crew.getD 0
    let t := s.team (teamOf c)
    let key := bufKey e buf.toNat
    if ((s.crew e).buf.find buf.toNat).isNone ∨ t.counts.get 0 key = 0 then .error (.trap (tr cRANGE))
    else
      (do
        waitUnless s.me.quiet
        relWait 1 0
        modify fun (s : State) =>
          let s := s.setTeam (teamOf c) { t with counts := t.counts.upd key (t.counts.get 0 key - 1) }
          s.setMe { s.me with bufs := s.me.bufs.upd buf.toNat (s.me.bufs.get 0 buf.toNat - 1) }
        return Flow.seq) s) s

-- Barriers (R262–R264).

/-- The scope of a barrier: by the gang, or 3 with `.legs` (R262). -/
def barScope (gang : Nat) (legs : Bool) : Nat := if legs then 3 else gang

/-- An arrival at a barrier: whether with `.legs`, the leg, the BAR's number, the core, its release. -/
abbrev Arrival := Bool × Nat × Nat × Nat × Msg

/-- The contained core that keeps BAR number `k` of a leg from completing, if any (R263). -/
def Crew.barLost (x : Crew) (legs : Bool) (leg k : Nat) : Option Nat :=
  (x.lost.find? fun l => (legs || l.1 == leg) && l.2.2 < k).map fun l => l.2.1

/-- The releases that leaving BAR number `k` acquires, once every matching core has arrived or exited (R262, R264): the `k`-th BAR of a
core matches the `k`-th of every other, whether or not that one has `.legs`. A core that is pre-empted and has not arrived has still to
(R263). -/
def State.barMsgs (s : State) (e : Nat) (legs : Bool) (leg k : Nat) : Option (List Msg) :=
  let x := s.crew e
  let mine (l : Nat) : Bool := legs || l == leg
  let here := x.arrivals.filter fun r => mine r.2.1 && r.2.2.1 == k
  let gone := x.exited.filter fun r => mine (r.1 / 1024)
  let absent (leg c : Nat) (k : Core) : Bool :=
    mine leg && k.wait != .ended && !k.contained && !here.any fun r => r.2.1 == leg && r.2.2.2.1 == c
  let waiting := (s.cores.any fun c => c.2.crew == some e && absent c.2.leg c.1 c.2) ||
    x.saved.any fun p => absent (p.1 / 1024) (p.1 % 1024) p.2
  let n := barScope (rGang x.rcd) legs
  if waiting then none
  else some ((here.map fun r => r.2.2.2.2) ++
    gone.map fun r => { r.2 with scope := n, k := r.2.k.filter fun w => carriesIn s.fabric n w.1 })

/-- PEERLOST at a BAR, which counts as the one of R359 (R263). -/
def State.barTrap (s : State) (c lost : Nat) : State :=
  (s.setCore c { s.core c with owed := (s.core c).owed.erase (srcOf lost 0) }).preciseTrap c (tr cPEERLOST 0 0 0 (some (s.ext (srcOf lost 0))))

/-- BAR (R262, R263): the arrival, a release at the barrier's scope; the pacer then stalls. -/
def execBar (n : Ann) (legs : Bool) (s : State) : Host.Outcome State Fault Refusal :=
  pacerWord n 12 [] true (fun s =>
    let c := s.actor
    let k := s.me
    let e := k.crew.getD 0
    let x := s.crew e
    let num := k.bars + 1
    let sc := barScope (rGang x.rcd) legs
    if legs && !rCosched x.rcd then .error (.trap (tr cRANGE))
    else
      match x.barLost legs k.leg num with
      | some l => .ok (.set, s.barTrap c l)
      | none =>
        let here (r : Arrival) : Bool := r.2.1 == k.leg && r.2.2.1 == num && r.2.2.2.1 == c
        if x.arrivals.any here then stall (.bar num legs) s
        else
          (do
            relWait sc 0
            modify fun (s : State) =>
              let x := s.crew e
              s.setCrew e { x with arrivals := x.arrivals ++ [(legs, k.leg, num, c, s.release (srcOf c 0) sc)] }
            stall (.bar num legs)) s) s

/-- BAR_RELEASE: a core stalled in BAR leaves it once every matching core has arrived, acquiring from every arrival; a BAR that
can no longer complete traps PEERLOST (R262–R264). -/
def State.barRelease (s : State) (c : Nat) : State :=
  let k := s.core c
  match k.wait, k.crew with
  | .bar num legs, some e =>
    match (s.crew e).barLost legs k.leg num with
    | some l => if k.frozen then s else s.barTrap c l
    | none =>
      match s.barMsgs e legs k.leg num with
      | none => s
      | some ms =>
        if k.frozen then s
        else
          let s := s.acquire (srcOf c 0) (barScope (rGang (s.crew e).rcd) legs) ms
          s.setCore c ({ s.core c with bars := num }.complete 0 0)
  | _, _ => s

/-- BAR_RELEASE. -/
def execBarRelease (core : Nat) (s : State) : Host.Outcome State Fault Refusal := .next (s.barRelease core)

-- Ticks (R265–R267).

/-- N of a die's TICKNO (R266). -/
def State.tickN (s : State) (d : Nat) : Nat := tickCount (s.die d).tickcfg s.gtc % 2 ^ 48
/-- TICKNO.OFF (R266). -/
def State.tickOff (s : State) (d : Nat) : Bool := fld (s.die d).tickcfg 0 32 == 0

/-- Does a TICKW return now (R267)? -/
def State.tickDone (s : State) (c target dl : Nat) : Bool :=
  s.tickOff (dieOf c) || target ≤ s.tickN (dieOf c) || (dl != 0 && dl ≤ s.gtc) || s.preemptPending c

/-- TICKW (R267). -/
def execTickw (n : Ann) (next : Bool) (d a c : SReg) (s : State) : Host.Outcome State Fault Refusal :=
  pacerWord n 12 (if next then [c] else [a, c]) false (fun s =>
    let k := s.me
    let target := if next then s.tickN (dieOf s.actor) + 1 else (k.rd a).toNat
    let dl := (k.rd c).toNat
    if s.tickDone s.actor target dl then .ok (.seq, s.setMe (k.wr d (BitVec.ofNat 64 (s.tickN (dieOf s.actor)))))
    else stall (.tickw (physS k.rrb d) target dl) s) s

/-- TICKW_DEADLINE: a stalled TICKW whose target, deadline or pre-emption has come returns (R267). -/
def State.tickwReturn (s : State) (c : Nat) : State :=
  match (s.core c).wait with
  | .tickw d target dl =>
    if s.tickDone c target dl then s.answer c d (BitVec.ofNat 64 (s.tickN (dieOf c))) else s
  | _ => s

/-- TICKW_DEADLINE. -/
def execTickwDeadline (core : Nat) (s : State) : Host.Outcome State Fault Refusal := .next (s.tickwReturn core)

/-- TICK: the die's count rises by one at each tick instant, and the TICKWs of the die that it answers return (R265–R267). -/
def execTick (die : Nat) (s : State) : Host.Outcome State Fault Refusal :=
  let x := s.die die
  if s.tickOff die || tickCount x.tickcfg s.gtc ≤ x.tickno then .next s
  else
    let s := s.setDie die { x with tickno := x.tickno + 1 }
    let l := s.cores.filterMap fun c =>
      match c.2.wait with
      | .tickw _ _ _ => if dieOf c.1 = die then some (Instr.tickwDeadline c.1) else none
      | _ => none
    .next { s with agenda := l ++ s.agenda }

end Sys2Proof.Machine
end

