-- ==== Sys2Proof/Machine/Heat.lean ====
section
/-! DEFINITION. Heats (R290–R303, R370, R371). A heat is named by its home and slot: home × 1024 + slot, where homes 0–7 are the
heat units of the C-dies, 8 this device's collective sequencer, and 16 + d the sequencer of peer device d. -/
namespace Sys2Proof.Machine

-- The descriptor (R291).

def hDest (x : BitVec 1024) : Nat := fld x 0 55
def hHdr (x : BitVec 1024) : Nat := fld x 64 55
def hN (x : BitVec 1024) : Nat := fld x 128 20
def hFmt (x : BitVec 1024) : Nat := fld x 148 4
def hCfmt (x : BitVec 1024) : Nat := fld x 152 4
def hScope (x : BitVec 1024) : Nat := fld x 156 4
/-- MEMBERS and K as stored: one less. -/
def hMembers (x : BitVec 1024) : Nat := fld x 160 9
def hK (x : BitVec 1024) : Nat := fld x 176 9
def hLag (x : BitVec 1024) : Nat := fld x 192 3
def hWs (x : BitVec 1024) : Nat := fld x 196 4
def hLevel (x : BitVec 1024) : Nat := fld x 200 2
def hRlog (x : BitVec 1024) : Nat := fld x 202 2
def hHomedev (x : BitVec 1024) : Nat := fld x 208 12
def hTag0 (x : BitVec 1024) : Nat := fld x 224 32
def hRstride (x : BitVec 1024) : Nat := fld x 256 40
def hDeadline (x : BitVec 1024) : Nat := fld x 320 64

/-- The number formats of sums: FP32, BF16, FP16 and A48 (R291, R307). -/
def sumFmt (code : Nat) : Option Fmt :=
  match code with | 0 => some .f32 | 1 => some .bf16 | 2 => some .f16 | 6 => some .a48 | _ => none
/-- Bytes of an element of a sum format. -/
def sumBytes (code : Nat) : Nat := match code with | 0 => 4 | 1 => 2 | 2 => 2 | _ => 8

/-- Reserved bits and listed ranges of a descriptor (R291, R292). -/
def heatDescOk (x : BitVec 1024) : Bool :=
  fld x 55 9 == 0 && fld x 119 9 == 0 && fld x 169 7 == 0 && fld x 185 7 == 0 && !bit x 195 && fld x 204 4 == 0 &&
    fld x 220 4 == 0 && fld x 296 24 == 0 && fld x 384 640 == 0 && hDest x % 64 == 0 && hHdr x % 256 == 0 &&
    1 ≤ hN x && (sumFmt (hFmt x)).isSome && (sumFmt (hCfmt x)).isSome && hLevel x ≤ 2 &&
    hLevel x + 2 ≤ hScope x && hK x ≤ hMembers x && (hLevel x == 2 || hHomedev x == 0) && hRstride x % 64 == 0 &&
    hN x * sumBytes (hFmt x) ≤ hRstride x

/-- The home that a descriptor's page leads to (R290). -/
def heatHomeOf (t : Target) : Nat :=
  if t.apt = 4 then (t.key - 4 * spaceSize) / 2 ^ 26 else if t.apt = 3 then 16 + (t.key - 3 * spaceSize) / 2 ^ 52 else 8
/-- The agent number of a home's unit (R6, R8, R290). -/
def heatAgent (home : Nat) : Nat := if home < 8 then heatSrc home else if home = 8 then seqSrc else (home - 16) * 65536 + seqSrc
/-- Its extended source number (R8). -/
def State.heatExt (s : State) (home : Nat) : Nat := if home ≤ 8 then s.ext (heatAgent home) else heatAgent home
/-- Does LEVEL match the home that the JOIN reached (R292)? -/
def State.heatLevelOk (s : State) (x : BitVec 1024) (home : Nat) : Bool :=
  match hLevel x with
  | 0 => home < 8
  | 1 => home == 8
  | _ => (home == 8 && hHomedev x == s.dev) || home == 16 + hHomedev x

/-- Bytes of staging that a descriptor reserves (R296), and those a home has (R290, R91). -/
def heatStaging (x : BitVec 1024) : Nat := 6 * hN x * (hMembers x + 1) * (hLag x + 1)
def homeStaging (home : Nat) : Nat := if home < 8 then 2 ^ 22 else 2 ^ 28 - 8 * 2 ^ 23
/-- Descriptors a home keeps (R290). -/
def homeSlots (home : Nat) : Nat := if home < 8 then 256 else 1024

/-- The resident heats of a home. -/
def State.homeHeats (s : State) (home : Nat) : AMap Heat := s.heats.filter fun h => h.1 / 1024 == home && h.2.live

/-- Chunk buffers that the runs of the collective sequencer hold (R304). -/
def State.chunksHeld (s : State) : Nat :=
  s.graphs.foldl (fun n g => g.2.runs.foldl (fun n r => r.held.foldl (fun n x => n + x.2) n) n) 0
/-- Bytes of staging in use at a home: its heats', and, of the Pier die's chunk buffers, what runs hold (R290, R304). -/
def State.stagingUsed (s : State) (home : Nat) : Nat :=
  (s.homeHeats home).foldl (fun n h => n + heatStaging h.2.desc) (if home = 8 then s.chunksHeld else 0)

/-- Translate the rings once, in the joiner's context (R292). -/
def State.heatPages (s : State) (d asid : Nat) (x : BitVec 1024) (user : Bool) :
    Except Stop (AMap (BitVec 64) × State) :=
  match s.keepPages d asid (hDest x) ((2 ^ hRlog x - 1) * hRstride x + hN x * sumBytes (hFmt x)) .wr user [] with
  | .error e => .error e
  | .ok (m, s) => s.keepPages d asid (hHdr x) (256 * 2 ^ hRlog x) .wr user m

/-- The storage key of a VA of the rings. -/
def Heat.keyOf (x : Heat) (va : Nat) : Nat := keptKey x.pages va

-- Handles (R294).

/-- An instance of a crew, for members, work and runs: entry and generation. -/
def State.inst (s : State) (e : Nat) : Nat := e * 2 ^ 32 + (s.crew e).gen
/-- The crew instance that a core runs. -/
def State.instOf (s : State) (c : Nat) : Option Nat := (s.core c).crew.map s.inst

/-- A JOIN's handle. -/
def State.heatHandle (s : State) (h m : Nat) : Word :=
  let x := s.heat h
  let home := h / 1024
  BitVec.ofNat 64 (hLevel x.desc * 2 ^ 8 + Nat.min home 8 * 2 ^ 10 + h % 1024 * 2 ^ 14 + m * 2 ^ 24 +
    (if home < 16 then s.dev else home - 16) * 2 ^ 40 + x.gen % 4096 * 2 ^ 52)

/-- The heat and member that a handle names for a core, or none where it traps RANGE (R295). -/
def State.heatOf (s : State) (c : Nat) (w : Word) : Option (Nat × Nat) :=
  let level := fld w 8 2
  let die := fld w 10 4
  let dev := fld w 40 12
  let home := if level = 0 then die else if dev = s.dev then 8 else 16 + dev
  let h := home * 1024 + fld w 14 10
  let x := s.heat h
  let m := fld w 24 9
  if fld w 0 8 ≠ 0 ∨ fld w 33 7 ≠ 0 ∨ !x.live ∨ s.heatHandle h m ≠ w then none
  else
    match x.members.find? fun y => y.no == m with
    | some y => if y.left_ || s.instOf c != some y.inst then none else some (h, m)
    | none => none

-- Tags (R297).

/-- The distance from tag `b` to tag `a`, modulo 2^32. -/
def tagDiff (a b : Nat) : Nat := (a + 2 ^ 32 - b % 2 ^ 32) % 2 ^ 32
/-- Is tag `a` after tag `b`? -/
def tagAfter (a b : Nat) : Bool := 1 ≤ tagDiff a b && tagDiff a b < 2 ^ 31

-- Closing (R299, R300).

/-- Members that have left. -/
def Heat.gone (x : Heat) : Nat := (x.members.filter fun m => m.left_).length
/-- Contributions admitted to the open heat. -/
def Heat.admitted (x : Heat) : List Contrib := x.contribs.filter fun c => c.lag == 0
/-- The bound that NADM is held against. -/
def Heat.bound (x : Heat) : Nat := Nat.min (hK x.desc + 1) (hMembers x.desc + 1 - x.gone)

/-- Insert a contribution by (member, tag). -/
def contribInsert (c : Contrib) : List Contrib → List Contrib
  | [] => [c]
  | y :: l => if c.member < y.member ∨ (c.member = y.member ∧ c.tag ≤ y.tag) then c :: y :: l else y :: contribInsert c l
/-- The terms of the result: admitted by member, then folded by (member, tag) (R299). -/
def Heat.terms (x : Heat) : List Contrib :=
  (x.contribs.filter fun c => c.lag == 0).foldr contribInsert [] ++
    (x.contribs.filter fun c => c.lag != 0).foldr contribInsert []

/-- One result element and its flags (R142, R299). -/
def heatElem (fmt cfmt : Fmt) (ws : Nat) (ts : List Contrib) (i : Nat) : Nat × Nat :=
  let term (c : Contrib) : Nat × Nat :=
    roundFl .a48 (fmul (decodeFmt cfmt (c.vals.getD i 0)) (.fin 1 (-(ws * c.lag : Nat)))) .rne false
  let acc := match ts with
    | [] => (0, 0)
    | t :: l => l.foldl (fun r c =>
        let y := term c
        let z := addA48 r.1 y.1
        (z.1, r.2 ||| y.2 ||| z.2)) (term t)
  let r := roundF fmt (decodeF .a48 acc.1) .rne false
  (r.1, acc.2 ||| r.2)

/-- The heat states of a header (R300). -/
abbrev hsQUORUM : Nat := 1
abbrev hsSHORT : Nat := 2
abbrev hsCLOSED : Nat := 3

/-- The result header as a number (R300). -/
def Heat.header (x : Heat) (state flags closedAt ksrc : Nat) : Nat :=
  let adm := x.admitted
  let fold := x.contribs.filter fun c => c.lag != 0
  let set (l : List Contrib) : Nat :=
    (List.range 512).foldl (fun m i => if l.any fun c => c.member == i then m + 2 ^ i else m) 0
  x.openTag + state * 2 ^ 32 + flags4 flags * 2 ^ 36 + adm.length * 2 ^ 40 + Nat.min fold.length 65535 * 2 ^ 64 +
    Nat.min x.nrej 65535 * 2 ^ 80 + x.opened * 2 ^ 128 + closedAt * 2 ^ 192 + ksrc * 2 ^ 256 + set adm * 2 ^ 512 +
    set fold * 2 ^ 1024

/-- Write bytes of a ring; what was written as a carried set. -/
def State.ringWrite (s : State) (a : Nat) (x : Heat) (va n v : Nat) (rels : List Msg) : KMap × State :=
  let s := s.writeKept a x.pages va n v rels
  (s.headsOf (keptRuns x.pages va n), s)

/-- When the open heat closes: SHORT DEADLINE ns after it opened, else at the stamp of the arrival or event that closes it (R299). -/
def State.heatCloseTime (s : State) (h state : Nat) : Nat :=
  if state = hsSHORT then (s.heat h).opened + hDeadline (s.heat h).desc
  else Nat.max s.gtc (s.arrived.get (0, 0) (s.heatExt (h / 1024))).1

/-- Write the result of the open heat: the vector, the header but TAG, then TAG as the release (R299, R300). -/
def State.heatResult (s : State) (h state ksrc : Nat) : State :=
  let x := s.heat h
  let a := heatAgent (h / 1024)
  let fmt := (sumFmt (hFmt x.desc)).getD .f32
  let cfmt := (sumFmt (hCfmt x.desc)).getD .f32
  let ts := x.terms
  let els := (List.range (hN x.desc)).map (heatElem fmt cfmt (hWs x.desc) ts)
  let z := sumBytes (hFmt x.desc)
  let slot := x.openTag % 2 ^ hRlog x.desc
  let head := x.header state (els.foldl (fun f e => f ||| e.2) 0) (s.heatCloseTime h state) ksrc
  let hva := hHdr x.desc + 256 * slot
  let (k1, s) := s.ringWrite a x (hDest x.desc + slot * hRstride x.desc) (hN x.desc * z)
    (ofLeBytes ((els.map fun e => leBytes z e.1).flatten)) []
  let (k2, s) := s.ringWrite a x (hva + 4) 252 (head / 2 ^ 32) []
  let k := (x.contribs.foldl (fun k c => kJoin k c.msg.k) (kJoin k1 k2)).filter fun e => carriesIn s.fabric (hScope x.desc) e.1
  (s.ringWrite a x hva 4 (head % 2 ^ 32) ({ agent := a, scope := hScope x.desc, k := k } :: x.contribs.map fun c => c.msg)).2

/-- Retry the WAITs stalled on a heat. -/
def State.wakeHeat (s : State) (h : Nat) : State :=
  let l := s.cores.filterMap fun c =>
    match c.2.wait with | .heatWait _ h' _ _ _ _ => if h' = h then some (Instr.heatWaitReturn c.1) else none | _ => none
  { s with agenda := l ++ s.agenda }

/-- The open heat closes, and the next one opens at the same time (R299, R371). -/
def State.heatCloseOpen (s : State) (h state ksrc : Nat) : State :=
  let now := s.heatCloseTime h state
  let s := if state = hsCLOSED ∧ (s.heat h).contribs.isEmpty then s else s.heatResult h state ksrc
  let x := s.heat h
  let o := (x.openTag + 1) % 2 ^ 32
  let keep (t : Nat) : Bool := tagDiff o t ≤ hLag x.desc
  (s.setHeat h { x with
    openTag := o, opened := now, nrej := 0, contribs := [],
    members := x.members.map fun m => { m with gave := m.gave.filter keep } }).wakeHeat h

/-- Close with QUORUM if the bound has been reached (R299). -/
def State.heatCheck (s : State) (h ksrc : Nat) : State :=
  if (s.heat h).bound ≤ (s.heat h).admitted.length then s.heatCloseOpen h hsQUORUM ksrc else s

/-- The deadline of the open heat has come (R299). -/
def State.heatDue (s : State) (h : Nat) : Bool :=
  let x := s.heat h
  x.live && hDeadline x.desc != 0 && x.opened + hDeadline x.desc ≤ s.gtc

/-- Does the deadline of heat `h` come before an arrival from an extended source now: is it due earlier, or at the same stamp under the
home's lower number (R297)? -/
def State.heatFirst (s : State) (h src : Nat) : Bool :=
  let x := s.heat h
  let t := x.opened + hDeadline x.desc
  x.live && hDeadline x.desc != 0 && (t < s.gtc || (t == s.gtc && s.heatExt (h / 1024) < src))

/-- Close the open heat SHORT where its deadline has come, as an event of the home (R297, R299). -/
def State.heatShort (s : State) (h : Nat) : State :=
  if s.heatDue h then
    (s.ownArrival (s.heatExt (h / 1024)) ((s.heat h).opened + hDeadline (s.heat h).desc)).heatCloseOpen h hsSHORT 0
  else s

/-- HEAT_DEADLINE: the open heat of a descriptor, named by home × 1024 + slot, closes SHORT where its deadline has come (R297, R299); it
waits for the host where a ring is under host bias (R72). -/
def execHeatDeadline (home : Nat) (s : State) : Host.Outcome State Fault Refusal :=
  .next (if s.heatDue home then s.attempt [heatAgent (home / 1024)] fun s => s.heatShort home else s)

/-- A member leaves (R302): the bound may fall; with the last joined member the heat closes and the descriptor is released. -/
def State.heatLeave (s : State) (h m ksrc : Nat) : State :=
  let x := s.heat h
  let s := s.setHeat h { x with members := x.members.map fun y => if y.no = m then { y with left_ := true } else y }
  let x := s.heat h
  if x.members.all fun y => y.left_ then
    let s := s.heatCloseOpen h hsCLOSED 0
    let x := s.heat h
    (s.setHeat h { Heat.reset with gen := (x.gen + 1) % 4096 }).wakeHeat h
  else (s.heatCheck h ksrc).wakeHeat h

/-- Every member that a core, or every member that a crew instance, has joined leaves; the home's own event (R297, R302); a deadline
that has come has closed its heat before. -/
def State.heatLeaveAll (s : State) (p : Member → Bool) : State :=
  let l := s.heats.flatMap fun h => (h.2.members.filter fun m => h.2.live && !m.left_ && p m).map fun m => (h.1, m.no)
  l.foldl (fun s x =>
    let u := s.heatExt (x.1 / 1024)
    ((s.heatShort x.1).ownArrival u s.gtc).heatLeave x.1 x.2 u) s

-- The instructions.

/-- The word of the executing pacer arrives at a home, for its heat `h`: after the deadline and the arrivals that come before it (R297). -/
def heatArrive (home h : Nat) : M Unit := fun s =>
  if s.heatFirst h (s.ext (srcOf s.actor 0)) then .error .wait else arriveM (s.heatExt home) s

/-- The resident heat of a descriptor, at the home its page leads to (R290). -/
def State.heatAt (s : State) (t : Target) : Option (Nat × Heat) :=
  (s.homeHeats (heatHomeOf t)).find? fun h => h.2.key == t.key

/-- Bind a member to a core (R296 step 4): a number that has left and joins again keeps the tags it has given (R298). -/
def State.heatBind (s : State) (c h m : Nat) : Word × State :=
  let x := s.heat h
  let gave := ((x.members.find? fun z => z.no == m).map fun z => z.gave).getD []
  let y : Member := { no := m, core := c, inst := (s.instOf c).getD 0, left_ := false, gave := gave }
  let s := s.setHeat h { x with members := y :: x.members.filter fun z => z.no != m }
  (s.heatHandle h m, s)

/-- The home's steps of a JOIN (R296, R370); `desc` is the descriptor, where the home has had to read it. -/
def State.heatJoin (s : State) (c : Nat) (t : Target) (desc : BitVec 1024) (m : Nat) : Except Stop (Word × State) :=
  let k := s.core c
  let home := heatHomeOf t
  let no (st : Nat) : Except Stop (Word × State) := .ok (BitVec.ofNat 64 st, s)
  match s.heatAt t with
  | some (h, x) =>
    if hMembers x.desc < m then no 8
    else if x.members.any fun y => y.no == m && !y.left_ then no 7
    else .ok (s.heatBind c h m)
  | none =>
    if !heatDescOk desc || !s.heatLevelOk desc home then no 8
    else
      match s.heatPages (dieOf c) k.asid desc (!k.mode) with
      | .error e => if e.refuses then no 8 else .error e
      | .ok (pages, s') =>
        if hMembers desc < m then no 8
        else
          match ((List.range (homeSlots home)).map fun i => home * 1024 + i).find? fun h => !(s'.heat h).live with
          | none => no 6
          | some h =>
            if homeStaging home < s'.stagingUsed home + heatStaging desc then no 6
            else
              .ok ((s'.setHeat h { Heat.reset with
                gen := (s'.heat h).gen, live := true, key := t.key, desc := desc, pages := pages, openTag := hTag0 desc,
                opened := s'.gtc }).heatBind c h m)

/-- HEAT.JOIN (R296): a descriptor that is not resident is read first. -/
def execHeatJoin (n : Ann) (d a b : SReg) (s : State) : Host.Outcome State Fault Refusal :=
  pacerWord n 12 [a, b] false (fun s =>
    let va := (s.me.rd a).toNat
    (do
      trapIf (va % 128 != 0) cALIGN va
      let t ← checkVa va .rd
      ownStores
      let x ← if (s.heatAt t).isSome then pure 0
        else do
          trapIf ((← getMe).localHit va 128 true false).isSome cWATCH va
          readRuns [(va, 128, t)]
      heatArrive (heatHomeOf t) (((s.heatAt t).map Prod.fst).getD 0)
      let w ← fun s => s.heatJoin s.actor t (BitVec.ofNat 1024 x) (s.me.rd b).toNat
      endReads
      modMe fun k => k.wr d w
      return Flow.seq) s) s

/-- The home's classification of a GIVE (R298): the status, and the state after the step. -/
def State.heatGive (s : State) (c h m tag : Nat) (vals : List Nat) (msg : Msg) : Nat × State :=
  let x := s.heat h
  let o := x.openTag
  let lag := tagDiff o tag
  let gave := x.members.any fun y => y.no == m && y.gave.contains tag
  let st := if tagAfter tag o then 3 else if hLag x.desc < lag then 2 else if gave then 4 else if lag = 0 then 0 else 1
  if 2 ≤ st then (st, s.setHeat h { x with nrej := x.nrej + 1 })
  else
    let s := s.setHeat h { x with
      contribs := x.contribs ++ [{ member := m, tag := tag, lag := lag, vals := vals, msg := msg }]
      members := x.members.map fun y => if y.no = m then { y with gave := tag :: y.gave } else y }
    (st, if st = 0 then s.heatCheck h (s.ext (srcOf c 0)) else s)

/-- HEAT.GIVE (R298): the release, then the contribution is read, then the arrival at the home. -/
def execHeatGive (n : Ann) (d a b c : SReg) (s : State) : Host.Outcome State Fault Refusal :=
  pacerWord n 12 [a, b, c] false (fun s =>
    let p := s.actor
    let k := s.me
    let va := (k.rd b).toNat
    match s.heatOf p (k.rd a) with
    | none => .error (.trap (tr cRANGE))
    | some (h, m) =>
      let x := (s.heat h).desc
      let z := sumBytes (hCfmt x)
      (do
        trapIf (va % z != 0) cALIGN va
        let ps ← accessRuns va (hN x * z) .rd (!k.mode)
        relWait (hScope x) va
        let v ← readRuns ps
        heatArrive (h / 1024) h
        let st ← attemptM fun s => .ok (s.heatGive p h m (fld (k.rd c) 0 32) (splitBits (8 * z) (hN x) v)
          (s.release (srcOf p 0) (hScope x)))
        endReads
        modMe fun k => k.wr d (BitVec.ofNat 64 st)
        return Flow.seq) s) s

/-- What a WAIT finds (R301): its status, if it returns now. -/
def State.heatStatus (s : State) (c h m gen tag dl : Nat) : Option Nat :=
  let x := s.heat h
  if !x.live || x.gen != gen || x.members.all fun y => y.no != m || y.left_ then some 5
  else
    let t := s.mem.getNat (x.keyOf (hHdr x.desc + 256 * (tag % 2 ^ hRlog x.desc))) 4
    let closed (t : Nat) : Bool := tagAfter x.openTag t
    if t = tag ∧ closed tag then some 0
    else if tagAfter t tag && t % 2 ^ hRlog x.desc == tag % 2 ^ hRlog x.desc && closed t then some 10
    else if dl ≠ 0 ∧ dl ≤ s.gtc then some 9
    else if s.preemptPending c then some 0xFE
    else none

/-- The acquire of a WAIT that returns OK, from the TAG release (R301). -/
def State.heatAcquire (s : State) (c h tag : Nat) : State :=
  let x := s.heat h
  let key := x.keyOf (hHdr x.desc + 256 * (tag % 2 ^ hRlog x.desc))
  let (_, ms, s) := s.scopedRead (srcOf c 0) key 4
  (s.acquire (srcOf c 0) (hScope x.desc) ms).watchRead (srcOf c 0) key 4

/-- HEAT.WAIT (R301, R359). -/
def execHeatWait (n : Ann) (d a b c : SReg) (s : State) : Host.Outcome State Fault Refusal :=
  pacerWord n 12 [a, b, c] false (fun s =>
    let p := s.actor
    let k := s.me
    let tag := fld (k.rd b) 0 32
    let dl := (k.rd c).toNat
    match s.heatOf p (k.rd a) with
    | none => .error (.trap (tr cRANGE))
    | some (h, m) =>
      match k.owed.head? with
      | some src => .ok (.set, s.owedTrap p 0 src)
      | none =>
        let gen := (s.heat h).gen
        match s.heatStatus p h m gen tag dl with
        | some st =>
          let s := if st = 0 then s.heatAcquire p h tag else s
          .ok (.seq, s.setMe (s.me.wr d (BitVec.ofNat 64 st)))
        | none => stall (.heatWait (physS k.rrb d) h m gen tag dl) s) s

/-- HEAT_WAIT_RETURN: a stalled WAIT whose condition has come returns (R301, R302, R359). -/
def State.heatWaitReturn (s : State) (c : Nat) : State :=
  match (s.core c).wait with
  | .heatWait d h m gen tag dl =>
    match (s.core c).owed.head? with
    | some src => s.owedTrap c 0 src
    | none =>
      match s.heatStatus c h m gen tag dl with
      | some st => ((if st = 0 then s.heatAcquire c h tag else s) : State).answer c d (BitVec.ofNat 64 st)
      | none => s
  | _ => s

/-- HEAT_WAIT_RETURN. -/
def execHeatWaitReturn (core : Nat) (s : State) : Host.Outcome State Fault Refusal := .next (s.heatWaitReturn core)

/-- HEAT.CLOSE: the member's leave, a release at SCOPE (R302). -/
def execHeatClose (n : Ann) (a : SReg) (s : State) : Host.Outcome State Fault Refusal :=
  pacerWord n 12 [a] false (fun s =>
    let p := s.actor
    match s.heatOf p (s.me.rd a) with
    | none => .error (.trap (tr cRANGE))
    | some (h, m) =>
      (do
        relWait (hScope (s.heat h).desc) 0
        heatArrive (h / 1024) h
        attemptM (modify fun (s : State) => s.heatLeave h m (s.ext (srcOf p 0)))
        return Flow.seq) s) s

end Sys2Proof.Machine
end

