-- ==== Sys2Proof/Machine/Coll.lean ====
section
/-! DEFINITION. The collective sequencer (R304–R314). -/
namespace Sys2Proof.Machine

-- The image (R305, R306).

def gNrank (x : BitVec 512) : Nat := fld x 64 12
def gNstep (x : BitVec 512) : Nat := fld x 80 8
def gPin (x : BitVec 512) : Bool := bit x 88
def gScope (x : BitVec 512) : Nat := fld x 89 4
def stKind (x : BitVec 512) : Nat := fld x 0 4
def stFmt (x : BitVec 512) : Nat := fld x 4 4
def stDeps (x : BitVec 512) : Nat := fld x 8 8
def stRoot (x : BitVec 512) : Nat := fld x 16 12
def stSbase (x : BitVec 512) : Nat := fld x 32 4
def stDbase (x : BitVec 512) : Nat := fld x 36 4
def stSoff (x : BitVec 512) : Nat := fld x 64 40
def stDoff (x : BitVec 512) : Nat := fld x 128 40
def stCount (x : BitVec 512) : Nat := fld x 192 32
def stRowb (x : BitVec 512) : Nat := fld x 224 32
/-- The successors of a step, each once. -/
def stSucc (x : BitVec 512) : List Nat :=
  ((List.range 4).map fun i => fld x (256 + 8 * i) 8).foldl (fun l n => if n = 0xFF ∨ l.contains n then l else l ++ [n]) []

/-- Element size of a step's format. -/
def stBytes (x : BitVec 512) : Nat := match Fmt.ofCode (BitVec.ofNat 4 (stFmt x)) with | some f => f.bytes | none => 1

/-- A graph header's reserved bits and ranges (R305). -/
def graphHdrOk (x : BitVec 512) : Bool :=
  fld x 76 4 == 0 && fld x 93 419 == 0 && 1 ≤ gNrank x && 1 ≤ gNstep x && 3 ≤ gScope x

/-- A step's reserved bits and values (R306, R307, R311). -/
def stepOk (nrank nstep : Nat) (x : BitVec 512) : Bool :=
  let kind := stKind x
  fld x 28 4 == 0 && fld x 40 24 == 0 && fld x 104 24 == 0 && fld x 168 24 == 0 && fld x 288 224 == 0 && kind ≤ 4 &&
    (if kind ≤ 1 then (sumFmt (stFmt x)).isSome else if kind ≤ 3 then stFmt x ≤ 12 else stFmt x == 0) &&
    (if kind = 3 then stRoot x < nrank else stRoot x == 0) &&
    (if kind = 4 then
      1 ≤ stCount x && stCount x ≤ 1048575 && stRowb x % 64 == 0 && 64 ≤ stRowb x && stRowb x ≤ 65536
     else stRowb x == 0) &&
    (stSucc x).all fun n => n < nstep

/-- Does removing steps without predecessors, again and again, leave none (R311)? -/
def acyclic (succ : Nat → List Nat) : Nat → List Nat → Bool
  | 0, l => l.isEmpty
  | fuel + 1, l =>
    let left := l.filter fun n => l.any fun m => (succ m).contains n
    if left.length = l.length then l.isEmpty else acyclic succ fuel left

/-- R311's checks of an image that has been read. -/
def graphOk (hdr : BitVec 512) (ranks : List Nat) (steps : List (BitVec 512)) : Bool :=
  let n := gNstep hdr
  let succ (i : Nat) : List Nat := stSucc (steps.getD i 0)
  graphHdrOk hdr && (ranks.all fun r => r < 2 ^ 16 && nfld r 12 4 < 8) && steps.all (stepOk (gNrank hdr) n) &&
    ((List.range n).all fun i =>
      stDeps (steps.getD i 0) == ((List.range n).filter fun j => (succ j).contains i).length) &&
    acyclic succ n (List.range n)

-- Handles (R310).

def graphHandle (g gen : Nat) : Word := BitVec.ofNat 64 (g * 2 ^ 8 + gen % 2 ^ 32 * 2 ^ 32)
def runHandle (g rank run : Nat) : Word := BitVec.ofNat 64 (g * 2 ^ 8 + rank * 2 ^ 16 + run * 2 ^ 32)
/-- The loaded graph a graph handle names. -/
def State.graphOf (s : State) (w : Word) : Option Nat :=
  let g := fld w 8 7
  if (s.graph g).live && graphHandle g (s.graph g).gen == w then some g else none
/-- The graph and run that a run handle names. -/
def State.runOf (s : State) (w : Word) : Option (Nat × CollRun) :=
  let g := fld w 8 7
  if !(s.graph g).live then none
  else
    ((s.graph g).runs.find? fun r => r.rank == fld w 16 12 && r.run == fld w 32 32 && runHandle g r.rank r.run == w).map
      fun r => (g, r)

/-- Has a crew instance ended? -/
def State.instEnded (s : State) (i : Nat) : Bool :=
  let x := s.crew (i / 2 ^ 32)
  x.gen != i % 2 ^ 32 || !x.live || x.status.isSome
/-- Is a slot of the sequencer free: no graph loaded, no run of a dropped one in flight, and no WAIT on one (R311, R313, log entry 56)? -/
def State.graphFree (s : State) (g : Nat) : Bool :=
  let x := s.graph g
  !x.live && (x.runs.all fun r => r.done) &&
    !s.cores.any fun c => match c.2.wait with | .collWait _ g' _ _ _ => g' == g | _ => false
/-- Graphs whose loader's instance has ended and that have no run in flight are dropped (R311). -/
def State.dropGraphs (s : State) : State :=
  { s with graphs := s.graphs.map fun e =>
      if e.2.live && s.instEnded e.2.inst && e.2.runs.all fun r => r.done then (e.1, { e.2 with live := false }) else e }

-- LOAD (R311).

/-- Bytes of the rank table, with its padding, and of the whole image (R305). -/
def ranksLen (hdr : BitVec 512) : Nat := (4 * gNrank hdr + 63) / 64 * 64
def imageLen (hdr : BitVec 512) : Nat := 64 + ranksLen hdr + 64 * gNstep hdr

/-- What a LOAD answers of an image whose pages are readable (R311): the header, and the bytes after it. -/
def State.collLoad (s : State) (c : Nat) (hdr : BitVec 512) (rest : Nat) : Word × State :=
  let k := s.core c
  let ranks := splitBits 32 (gNrank hdr) rest
  let steps := (splitBits 512 (gNstep hdr) (rest / 2 ^ (8 * ranksLen hdr))).map (BitVec.ofNat 512)
  if !graphOk hdr ranks steps then (2, s)
  else
    let gkey := fld hdr 0 64
    match s.graphs.find? fun e => e.2.live && e.2.gkey == gkey && e.2.asid == k.asid with
    | some (g, x) => (graphHandle g x.gen, s)
    | none =>
      match (List.range 128).find? s.graphFree with
      | none => (1, s)
      | some g =>
        let gen := ((s.graph g).gen + 1) % 2 ^ 32
        (graphHandle g gen, s.setGraph g { Graph.reset with
          gen := gen, live := true, gkey := gkey, asid := k.asid, inst := (s.instOf c).getD 0, hdr := hdr,
          ranks := ranks.map fun r => (nfld r 0 12, nfld r 12 4), steps := steps })

/-- COLL.LOAD (R311): the pages of the whole image are checked before anything of it is. -/
def execCollLoad (n : Ann) (d a : SReg) (s : State) : Host.Outcome State Fault Refusal :=
  pacerWord n 12 [a] false (fun s =>
    let va := (s.me.rd a).toNat
    let user := !s.me.mode
    (do
      trapIf (va % 64 != 0) cALIGN va
      ownStores
      let hdr := BitVec.ofNat 512 (← readMem va 64 user)
      let x ← readMem (va + 64) (imageLen hdr - 64) user
      let w ← fun s => .ok (s.collLoad s.actor hdr x)
      endReads
      modMe fun k => k.wr d w
      return Flow.seq) s) s

/-- COLL.LOAD.DROP (R310, R311): the handle is stale from then on; a run in flight goes on (log entry 56). -/
def execCollLoadDrop (n : Ann) (a : SReg) (s : State) : Host.Outcome State Fault Refusal :=
  pacerWord n 12 [a] false (fun s =>
    match s.graphOf (s.me.rd a) with
    | none => .error (.trap (tr cRANGE))
    | some g => .ok (.seq, s.setGraph g { s.graph g with live := false })) s

-- RUN (R312).

/-- The ranges a step reads and writes at a rank: source and bytes, destination and bytes (R307). -/
def stRanges (nrank rank : Nat) (base : List Nat) (x : BitVec 512) : (Nat × Nat) × (Nat × Nat) :=
  let src := base.getD (stSbase x) 0 + stSoff x
  let dst := base.getD (stDbase x) 0 + stDoff x
  let one := stCount x * stBytes x
  match stKind x with
  | 0 => ((src, one), (dst, one))
  | 1 => ((src, nrank * one), (dst, one))
  | 2 => ((src, one), (dst, nrank * one))
  | 3 => ((src, if rank = stRoot x then one else 0), (dst, one))
  | _ => ((src, 0), (dst, 64 + stCount x * stRowb x))

/-- Do all ranges of a run at a rank pass R65 steps 2–5? -/
def State.basesOk (s : State) (c : Nat) (g : Graph) (rank : Nat) (base : List Nat) : Except Stop State :=
  let k := s.core c
  if base.any fun b => 2 ^ 55 ≤ b then .error (.trap (tr cRANGE))
  else
    g.steps.foldl (fun r x =>
      match r with
      | .error e => .error e
      | .ok s =>
        let (a, b) := stRanges (gNrank g.hdr) rank base x
        match s.pagesOk (dieOf c) k.asid a.1 a.2 .rd (!k.mode) with
        | .error e => .error e
        | .ok s => s.pagesOk (dieOf c) k.asid b.1 b.2 .wr (!k.mode)) (.ok s)

/-- The plan of a run: frozen at the first RUN under PIN, else chosen for each run (R309). -/
def State.planFor (s : State) (g run : Nat) : State :=
  let x := s.graph g
  if (x.plan.find run).isSome then s
  else
    match (if gPin x.hdr then x.plan.head? else none) with
    | some p => s.setGraph g { x with plan := x.plan.upd run p.2 }
    | none =>
      let (n, s) := s.choice
      s.setGraph g { x with plan := x.plan.upd run n }

/-- The runs of a graph that are in flight at a rank. -/
def Graph.inFlight (x : Graph) (rank : Nat) : Nat := (x.runs.filter fun r => r.rank == rank && !r.done).length

/-- What a RUN answers, once its base table has been read (R312). -/
def State.collRun (s : State) (c g rank tbl : Nat) : Except Stop (Word × State) :=
  let x := s.graph g
  let k := s.core c
  if (x.ranks.map some).getD rank none ≠ some (s.dev, dieOf c) then .ok (3, s)
  else
    let base := splitBits 64 16 tbl
    match s.basesOk c x rank base with
    | .error e => if e.refuses then .ok (4, s) else .error e
    | .ok s =>
      let q := x.started.get 0 rank + 1
      let r : CollRun :=
        { run := q, rank := rank, core := c, inst := (s.instOf c).getD 0, base := base, asid := k.asid,
          user := !k.mode, msg := s.release (srcOf c 0) (gScope x.hdr),
          cnt := x.steps.zipIdx.map fun (e : BitVec 512 × Nat) => (e.2, stDeps e.1), ph := [], src := [], held := [], flags := 0,
          lost := none, done := false }
      let s := s.setGraph g { x with runs := x.runs ++ [r], started := x.started.upd rank q }
      .ok (runHandle g rank q, s.planFor g q)

/-- COLL.RUN (R312): the release, before any byte is read. -/
def execCollRun (n : Ann) (d a b c : SReg) (s : State) : Host.Outcome State Fault Refusal :=
  pacerWord n 12 [a, b, c] false (fun s =>
    let k := s.me
    let va := (k.rd b).toNat
    let rank := (k.rd c).toNat
    match s.graphOf (k.rd a) with
    | none => .error (.trap (tr cRANGE))
    | some g =>
      (do
        trapIf (va % 8 != 0) cALIGN va
        let ps ← accessRuns va 128 .rd (!k.mode)
        relWait (gScope (s.graph g).hdr) va
        waitUnless ((s.graph g).inFlight rank < 4)
        let x ← readRuns ps
        let w ← fun s => s.collRun s.actor g rank x
        endReads
        modMe fun k => k.wr d w
        return Flow.seq) s) s

-- Steps (R307–R309, R314).

/-- Change the record of a run at a rank. -/
def State.setRun (s : State) (g : Nat) (r : CollRun) : State :=
  let x := s.graph g
  s.setGraph g { x with runs := x.runs.map fun y => if y.run = r.run ∧ y.rank = r.rank then r else y }
/-- The record of a run at a rank: it outlasts a LOAD.DROP of its graph. -/
def State.runAt (s : State) (g run rank : Nat) : Option CollRun :=
  (s.graph g).runs.find? fun r => r.run == run && r.rank == rank

/-- Used rows and drops of an A2A area (R314). -/
def Graph.rows (x : Graph) (run st dst : Nat) : Nat × Nat :=
  match x.used.find? fun u => u.1 == run && u.2.1 == st && u.2.2.1 == dst with
  | some u => u.2.2.2
  | none => (0, 0)
/-- A claim of rows in a destination's area: the first row, the rows given, and the graph after it (R314). -/
def Graph.claim (x : Graph) (run st dst rows : Nat) : Nat × Nat × Graph :=
  let u := x.rows run st dst
  let got := Nat.min rows (stCount (x.steps.getD st 0) - u.1)
  let used := x.used.filter fun y => !(y.1 == run && y.2.1 == st && y.2.2.1 == dst)
  (u.1, got, { x with used := used ++ [(run, st, dst, u.1 + got, u.2 + (rows - got))] })
/-- Has a rank sealed a step? -/
def Graph.sealed (x : Graph) (run st rank : Nat) : Bool := x.seals.any fun u => u.1 == run && u.2.1 == st && u.2.2.1 == rank

/-- Is a rank one of this device? -/
def State.rankHere (s : State) (x : Graph) (rank : Nat) : Bool := (x.ranks.getD rank (s.dev, 0)).1 == s.dev
/-- The record of a run at a rank of a peer device, whose pacers are not part of this module: it takes part in a run that a rank of this
device has started (log entry 53). -/
def State.peerRun (s : State) (g run rank : Nat) : State :=
  let x := s.graph g
  if (s.runAt g run rank).isSome || x.ranks.length ≤ rank || s.rankHere x rank || !x.runs.any fun y => y.run == run then s
  else
    let r : CollRun :=
      { run := run, rank := rank, core := Config.cores, inst := 0, base := [], asid := 0, user := true,
        msg := { agent := (x.ranks.getD rank (0, 0)).1 * 65536, scope := gScope x.hdr, k := [] },
        cnt := x.steps.zipIdx.map fun (e : BitVec 512 × Nat) => (e.2, stDeps e.1), ph := [], src := [], held := [], flags := 0,
        lost := none, done := false }
    s.setGraph g { x with runs := x.runs ++ [r] }
/-- The claims that a rank of a peer device makes of every area of an A2A step, arriving from a source of that device in their turn: any number
of rows (R8, R297, R314, log entry 53). -/
def State.peerClaims (s : State) (g run st : Nat) : State :=
  (List.range (s.graph g).ranks.length).foldl (fun s dst =>
    let (n, s) := s.choice
    s.setGraph g ((s.graph g).claim run st dst (n % 65536)).2.2) s

/-- The chunk buffers that a part's source bytes need (R304). -/
def chunksFor (bytes : Nat) : Nat := if bytes = 0 then 0 else Nat.min (Config.chunkNeed bytes) (homeStaging 8)

/-- COLL_STEP_BEGIN: a step's part begins at a rank once its counter there is 0, the rank's earlier runs are complete, and chunk buffers
are free; it reads the rank's sources (R304, R307, R308). What a peer's rank, or a page that has come to fail, gives is open. -/
def State.collBegin (s0 : State) (g run rank st : Nat) : State :=
  let s := s0.peerRun g run rank
  let x := s.graph g
  match s.runAt g run rank with
  | none => s
  | some r =>
    if r.ph.get .waiting st ≠ .waiting ∨ x.steps.length ≤ st ∨ r.cnt.get 0 st ≠ 0 ∨
        x.runs.any (fun y => y.rank == rank && y.run < run && !y.done) then s
    else
      let e := x.steps.getD st 0
      let z := stBytes e
      let rng := (stRanges (gNrank x.hdr) rank r.base e).1
      if !s.rankHere x rank then
        let (n, s) := s.choice
        let src := (x.ranks.getD rank (0, 0)).1 * 65536 + n % 65536
        let (els, s) := s.freeBytes (rng.2 / z) z
        let s := s.setRun g { r with ph := r.ph.upd st .begun, src := r.src.upd st els }
        if stKind e ≠ 4 then s
        else if s.mayArrive (s.ext seqSrc) src then (s.arrive (s.ext seqSrc) src).peerClaims g run st
        else s0
      else
        let need := chunksFor rng.2
        if homeStaging 8 < s.stagingUsed 8 + need then s
        else
          let s := s.acquire seqSrc (gScope x.hdr) [r.msg]
          let begun (x : List Nat × State) : State :=
            x.2.setRun g { r with ph := r.ph.upd st .begun, src := r.src.upd st x.1, held := r.held.upd st need }
          match s.readVa seqSrc (x.ranks.getD rank (0, 0)).2 r.asid rng.1 rng.2 r.user with
          | .ok (v, s) => (begun (splitBits (8 * z) (rng.2 / z) v, s)).endSnoops seqSrc
          | .error (.trap _) => begun (s.freeBytes (rng.2 / z) z)
          | .error e => s0.unitStep [] (.error e)

/-- COLL_STEP_BEGIN. -/
def execCollStepBegin (graph run rank stepNo : Nat) (s : State) : Host.Outcome State Fault Refusal :=
  .next (s.collBegin graph run rank stepNo)

/-- Combine partial sums in the order of a plan (R142, R309): round by round, one of those left is taken out and combined with
another. -/
def combinePlan (seed el : Nat) : Nat → List (Nat × Nat) → Nat × Nat
  | _, [] => (0, 0)
  | _, [x] => x
  | 0, x :: _ => x
  | fuel + 1, l =>
    let i := Config.planPick seed el (2 * fuel) % l.length
    let x := l.getD i (0, 0)
    let l := l.eraseIdx i
    let j := Config.planPick seed el (2 * fuel + 1) % l.length
    let y := l.getD j (0, 0)
    let r := addA48 x.1 y.1
    combinePlan seed el fuel ((r.1, x.2 ||| y.2 ||| r.2) :: l.eraseIdx j)

/-- The rank-sum of one element and its flags (R309). -/
def rankSum (fmt : Fmt) (seed el : Nat) (vals : List Nat) : Nat × Nat :=
  let lift (b : Nat) : Nat × Nat := (toA48 fmt b, (decodeFmt fmt b).sig)
  let acc := combinePlan seed el vals.length (vals.map lift)
  let r := roundF fmt (decodeF .a48 acc.1) .rne false
  (r.1, acc.2 ||| r.2)

/-- The destination elements of a step's part at a rank, with their flags, once every source it reads has been read (R307). -/
def State.collResult (s : State) (g : Nat) (r : CollRun) (st : Nat) : Option (List (Nat × Nat)) :=
  let x := s.graph g
  let e := x.steps.getD st 0
  let count := stCount e
  let seed := x.plan.get 0 r.run
  let of (q : Nat) : Option (List Nat) := (s.runAt g r.run q).bind fun y => y.src.find st
  let every : Option (List (List Nat)) := ((List.range (gNrank x.hdr)).foldr (fun q l =>
    match of q, l with | some v, some l => some (v :: l) | _, _ => none) (some []))
  let sums (off : Nat) (vs : List (List Nat)) : List (Nat × Nat) :=
    (List.range count).map fun i =>
      rankSum ((sumFmt (stFmt e)).getD .f32) seed (off + i) (vs.map fun v => v.getD (off + i) 0)
  match stKind e with
  | 0 => every.map (sums 0)
  | 1 => every.map (sums (r.rank * count))
  | 2 => every.map fun vs => vs.flatten.map fun v => (v, 0)
  | _ => (of (stRoot e)).map fun v => v.map fun b => (b, 0)

/-- Retry the WAITs on a graph. -/
def State.wakeColl (s : State) (g : Nat) : State :=
  let l := s.cores.filterMap fun c =>
    match c.2.wait with | .collWait _ g' _ _ _ => if g' = g then some (Instr.collWaitReturn c.1) else none | _ => none
  { s with agenda := l ++ s.agenda }

/-- The part of a step is complete at a rank: each successor's counter falls, and with the last step the run is complete
(R308). -/
def State.collPartDone (s : State) (g : Nat) (r : CollRun) (st flags : Nat) : State :=
  let x := s.graph g
  let ph := r.ph.upd st .complete
  let cnt := (stSucc (x.steps.getD st 0)).foldl (fun m n => AMap.upd m n (m.get 0 n - 1)) r.cnt
  let done := (List.range x.steps.length).all fun i => ph.get .waiting i == .complete
  let s := s.setRun g { r with ph := ph, cnt := cnt, held := r.held.del st, flags := r.flags ||| flags, done := done }
  if done then (s.wakeColl g).dropGraphs else s

/-- COLL_STEP_COMPLETE: a part's writes land at its rank (R307–R309); an A2A part completes when every rank has sealed the step,
with its area's header (R314). A peer's rank writes nothing here, and seals when it will (log entry 53). -/
def State.collComplete (s0 : State) (g run rank st : Nat) : State :=
  let s := s0
  let x := s.graph g
  match s.runAt g run rank with
  | none => s
  | some r =>
    if r.ph.get .waiting st ≠ .begun then s
    else
      let e := x.steps.getD st 0
      let dst := (stRanges (gNrank x.hdr) rank r.base e).2.1
      let put (n v flags : Nat) : State :=
        if n = 0 ∨ !s.rankHere x rank then s.collPartDone g r st flags
        else
          match s.writeVa seqSrc (x.ranks.getD rank (0, 0)).2 r.asid dst n v r.user [] with
          | .ok s => (s.collPartDone g r st flags).endSnoops seqSrc
          | .error (.trap _) => s.collPartDone g r st flags
          | .error e => s0.unitStep [] (.error e)
      if stKind e = 4 then
        if (List.range (gNrank x.hdr)).all fun q => x.sealed run st q then
          let u := x.rows run st rank
          put 64 (u.1 + u.2 % 2 ^ 32 * 2 ^ 32) 0
        else if !s.rankHere x rank ∧ !x.sealed run st rank then
          s.setGraph g { x with seals := x.seals ++ [(run, st, rank, r.msg)] }
        else s
      else
        match s.collResult g r st with
        | none => s
        | some els =>
          let z := stBytes e
          put (z * els.length) (ofLeBytes ((els.map fun v => leBytes z v.1).flatten)) (els.foldl (fun f v => f ||| v.2) 0)

/-- COLL_STEP_COMPLETE. -/
def execCollStepComplete (graph run rank stepNo : Nat) (s : State) : Host.Outcome State Fault Refusal :=
  .next (s.collComplete graph run rank stepNo)

-- WAIT (R313).

/-- The agent lost to a run, as an extended source: a rank that has been contained, in the run or before it issued it, or a device the
fabric no longer holds (R313). -/
def State.collLost (s : State) (g : Nat) (r : CollRun) : Option Nat :=
  let x := s.graph g
  match (x.runs.findSome? fun y => if y.run == r.run && y.rank != r.rank then y.lost else none).or
      (x.gone.findSome? fun y => if y.1 != r.rank && (s.runAt g r.run y.1).isNone then some y.2 else none) with
  | some src => some (s.ext src)
  | none => (x.ranks.find? fun q => q.1 != s.dev && !s.fabric.any fun d => d.1 == q.1).map fun q => q.1 * 65536

/-- What a WAIT comes to: PEERLOST, a status, or a stall. -/
inductive CollWait where
  | lost (src : Nat)
  | status (v : Nat)
  | stall
  deriving DecidableEq, Repr

/-- What a WAIT on a run finds (R313). -/
def State.collStatus (s : State) (c g run rank dl : Nat) : CollWait :=
  match s.runAt g run rank with
  | none => .status 0
  | some r =>
    match s.collLost g r with
    | some src => .lost src
    | none =>
      if r.done then .status (flags4 r.flags * 2 ^ 8)
      else if dl ≠ 0 ∧ dl ≤ s.gtc then .status 7
      else if s.preemptPending c then .status 0xFE
      else .stall

/-- The acquire of a WAIT whose run is complete: every rank's RUN, and every SEAL (R313). -/
def State.collAcquire (s : State) (c g run : Nat) : State :=
  let x := s.graph g
  let ms := (x.runs.filter fun r => r.run == run).map (fun r => r.msg) ++
    (x.seals.filter fun u => u.1 == run).map fun u => u.2.2.2
  s.acquire (srcOf c 0) (gScope x.hdr) ms

/-- The acquire, where the WAIT found its run complete. -/
def State.collReturn (s : State) (c g run rank : Nat) : State :=
  match s.runAt g run rank with
  | some r => if r.done then s.collAcquire c g run else s
  | none => s

/-- PEERLOST at a COLL.WAIT, precise at the word (R313); it counts as the one of R359. -/
def State.collTrap (s : State) (c src : Nat) : State :=
  (s.setCore c { s.core c with owed := (s.core c).owed.filter fun o => s.ext o != src }).preciseTrap c (tr cPEERLOST 0 0 0 (some src))

/-- COLL.WAIT (R313, R359). -/
def execCollWait (n : Ann) (d a c : SReg) (s : State) : Host.Outcome State Fault Refusal :=
  pacerWord n 12 [a, c] false (fun s =>
    let p := s.actor
    let k := s.me
    let dl := (k.rd c).toNat
    match s.runOf (k.rd a) with
    | none => .error (.trap (tr cRANGE))
    | some (g, r) =>
      match s.collStatus p g r.run r.rank dl, k.owed.head? with
      | .lost src, _ => .ok (.set, s.collTrap p src)
      | _, some src => .ok (.set, s.owedTrap p 0 src)
      | .status v, none =>
        let s := s.collReturn p g r.run r.rank
        .ok (.seq, s.setMe (s.me.wr d (BitVec.ofNat 64 v)))
      | .stall, none => stall (.collWait (physS k.rrb d) g r.run r.rank dl) s) s

/-- COLL_WAIT_RETURN: a stalled WAIT whose condition has come returns or traps (R313, R359). -/
def State.collWaitReturn (s : State) (c : Nat) : State :=
  match (s.core c).wait with
  | .collWait d g run rank dl =>
    match s.collStatus c g run rank dl, (s.core c).owed.head? with
    | .lost src, _ => if (s.core c).frozen then s else s.collTrap c src
    | _, some src => s.owedTrap c 0 src
    | .status v, none => (s.collReturn c g run rank).answer c d (BitVec.ofNat 64 v)
    | .stall, none => s
  | _ => s

/-- COLL_WAIT_RETURN. -/
def execCollWaitReturn (core : Nat) (s : State) : Host.Outcome State Fault Refusal := .next (s.collWaitReturn core)

/-- The ranks of a contained pacer are lost to the other ranks of the runs they took part in, complete or not (R313, R359): a rank is its
C-die (R304), in a run that the pacer's crew instance issued there; and in the runs that rank has still to issue, of a graph that the
instance has loaded or run (log entry 56). -/
def State.collContain (s : State) (c inst : Nat) : State :=
  let here (x : Graph) (rank : Nat) : Bool := x.ranks.getD rank (0, 0) == (s.dev, dieOf c)
  let s : State := { s with graphs := s.graphs.map fun e =>
    let x := e.2
    let uses : Bool := x.inst == inst || x.runs.any fun r => r.inst == inst
    (e.1, { x with
      runs := x.runs.map fun r => if r.inst = inst ∧ here x r.rank then { r with lost := some (srcOf c 0) } else r
      gone := if uses then ((List.range x.ranks.length).filter (here x)).foldl (fun m q => AMap.upd m q (srcOf c 0)) x.gone
        else x.gone }) }
  (s.graphs.map fun e => e.1).foldl (fun s g => s.wakeColl g) s

-- CLAIM and SEAL (R314).

/-- Is it an A2A step of the graph? -/
def Graph.isA2a (x : Graph) (st : Nat) : Bool := st < x.steps.length && stKind (x.steps.getD st 0) == 4
/-- COLL.CLAIM (R314): the destination's home performs claims in (stamp, source) order (R297). -/
def execCollClaim (n : Ann) (d a b c : SReg) (s : State) : Host.Outcome State Fault Refusal :=
  pacerWord n 12 [a, b, c] false (fun s =>
    let k := s.me
    let w := k.rd b
    let st := fld w 0 8
    let dst := fld w 8 12
    let rows := (k.rd c).toNat
    match s.runOf (k.rd a) with
    | none => .error (.trap (tr cRANGE))
    | some (g, r) =>
      let x := s.graph g
      if fld w 20 44 ≠ 0 ∨ 65535 < rows ∨ !x.isA2a st ∨ gNrank x.hdr ≤ dst then .error (.trap (tr cRANGE))
      else
        (do
          arriveM (s.ext seqSrc)
          if x.sealed r.run st r.rank then
            modMe fun k => k.wr d 6
          else
            let (first, got, y) := x.claim r.run st dst rows
            modify fun (s : State) => s.setGraph g y
            modMe fun k => k.wr d (BitVec.ofNat 64
              ((if got < rows then 5 else 0) + first * 2 ^ 8 + got * 2 ^ 28 + (rows - got) * 2 ^ 48))
          return Flow.seq) s) s

/-- COLL.CLAIM.SEAL: a release at SCOPE (R314). -/
def execCollClaimSeal (n : Ann) (a b : SReg) (s : State) : Host.Outcome State Fault Refusal :=
  pacerWord n 12 [a, b] false (fun s =>
    let k := s.me
    let st := (k.rd b).toNat
    match s.runOf (k.rd a) with
    | none => .error (.trap (tr cRANGE))
    | some (g, r) =>
      let x := s.graph g
      if 255 < st ∨ !x.isA2a st then .error (.trap (tr cRANGE))
      else
        (do
          relWait (gScope x.hdr) 0
          modify fun (s : State) =>
            let x := s.graph g
            if x.sealed r.run st r.rank then s
            else
              s.setGraph g { x with
                seals := x.seals ++ [(r.run, st, r.rank, s.release (srcOf s.actor 0) (gScope x.hdr))] }
          return Flow.seq) s) s

end Sys2Proof.Machine
end

