-- ==== Sys2Proof/Machine/Relay.lean ====
section
/-! DEFINITION. Relays (R315–R344): the relay unit's own actions, and the instructions that reach it. Units are numbered
die × 4 + unit. -/
namespace Sys2Proof.Machine

-- The descriptor (R316).

abbrev RDesc := BitVec 2048
def ySarea (x : RDesc) : Nat := fld x 0 55
def yBatons (x : RDesc) : Nat := fld x 64 55
def yInit (x : RDesc) : Nat := fld x 128 55
def yOut (x : RDesc) : Nat := fld x 192 55
def yOstride (x : RDesc) : Nat := fld x 256 40
def yN (x : RDesc) : Nat := fld x 320 20
def yFmtCode (x : RDesc) : Nat := fld x 340 4
def yNorm (x : RDesc) : Bool := bit x 344
def yCanc (x : RDesc) : Bool := bit x 345
def yDtick (x : RDesc) : Bool := bit x 346
def yW (x : RDesc) : Nat := fld x 352 6 + 1
def yScope (x : RDesc) : Nat := fld x 360 4
def yLegs (x : RDesc) : Nat := fld x 384 24
def yTol (x : RDesc) : Nat := fld x 416 32
def yDeadline (x : RDesc) : Nat := fld x 512 64
def yFmt (x : RDesc) : Fmt := match yFmtCode x with | 0 => .f32 | 1 => .bf16 | _ => .f16
/-- The element size z, the bytes of a state, and VS. -/
def yZ (x : RDesc) : Nat := (yFmt x).bytes
def yBytes (x : RDesc) : Nat := yN x * yZ x
def yVs (x : RDesc) : Nat := (yBytes x + 63) / 64 * 64

/-- Reserved bits and listed ranges (R316). -/
def relayDescOk (x : RDesc) : Bool :=
  fld x 55 9 == 0 && fld x 119 9 == 0 && fld x 183 9 == 0 && fld x 247 9 == 0 && fld x 296 24 == 0 && fld x 347 5 == 0 &&
    fld x 358 2 == 0 && fld x 364 20 == 0 && fld x 408 8 == 0 && fld x 459 5 == 0 && fld x 475 37 == 0 &&
    fld x 576 1472 == 0 && ySarea x % 64 == 0 && yBatons x % 128 == 0 && yFmtCode x ≤ 2 && yInit x % yZ x == 0 &&
    yOut x % 64 == 0 && yOstride x % 64 == 0 && yBytes x ≤ yOstride x && 1 ≤ yN x && (yScope x == 2 || yScope x == 3) &&
    1 ≤ yLegs x && yTol x < 0x7F800000

-- Legs, slots and vectors (R317).

def Relay.slotOf (x : Relay) (leg : Nat) : Nat := leg % yW x.desc
/-- The unit's state of a leg that its slot holds. -/
def Relay.leg? (x : Relay) (n : Nat) : Option Leg := (x.slots.find (x.slotOf n)).filter fun l => l.leg == n
/-- The VA of vector `j` of a leg's slot. -/
def Relay.vec (x : Relay) (leg j : Nat) : Nat := ySarea x.desc + (7 * x.slotOf leg + j) * yVs x.desc
def Relay.uVa (x : Relay) (leg v : Nat) : Nat := x.vec leg (v % 2)
def Relay.fVa (x : Relay) (leg v : Nat) : Nat := x.vec leg (2 + v % 2)
def Relay.gVa (x : Relay) (leg v : Nat) : Nat := x.vec leg (4 + v % 2)
def Relay.tVa (x : Relay) (leg : Nat) : Nat := x.vec leg 6
def Relay.batonVa (x : Relay) (leg : Nat) : Nat := yBatons x.desc + 128 * x.slotOf leg
/-- The key of a byte of the relay's ranges (R337). -/
def Relay.keyOf (x : Relay) (va : Nat) : Nat := keptKey x.pages va

/-- A leg as it is seeded (R322). -/
def Leg.new (n : Nat) : Leg :=
  { leg := n, st := .live, run := false, held := false, exact := false, iter := 0, ver := 1, fver := 0, gver := 0,
    gpver := 0, jump := 0x7F800000, rver := 0, stamp := 0, crewSrc := 0, fsrc := 0, fcode := 0, hver := 0, fstamp := 0,
    fineWait := false, coarseWait := false, fmsg := [], gmsg := [], gpmsg := [], bmsg := [] }

/-- STATE (R318, R320). -/
def Leg.state (l : Leg) : Nat :=
  match l.st with
  | .retired => 6
  | .faulted => 7
  | .settled => 5
  | .live => if l.run then 2 else if l.fver = l.ver then 3 else if l.iter = 0 then 1 else 4

/-- Bits 511:0 of a baton (R318). -/
def Leg.image (l : Leg) : Nat :=
  l.leg + l.state * 2 ^ 32 + l.run.toNat * 2 ^ 36 + l.held.toNat * 2 ^ 37 + l.exact.toNat * 2 ^ 38 + l.iter * 2 ^ 48 +
    l.ver * 2 ^ 64 + l.fver * 2 ^ 96 + l.gver * 2 ^ 128 + l.gpver * 2 ^ 160 + l.jump * 2 ^ 192 + l.rver * 2 ^ 224 +
    l.stamp * 2 ^ 256 + l.crewSrc * 2 ^ 320 + l.fsrc * 2 ^ 336 + l.fcode * 2 ^ 352 + l.hver * 2 ^ 384 + l.fstamp * 2 ^ 448

/-- Read bytes of the relay's ranges as its unit. -/
def State.rlyRead (s : State) (u va n : Nat) : Nat × State := s.readKept (relaySrc u) (s.relay u).pages va n
/-- Write bytes of the relay's ranges as its unit. -/
def State.rlyWrite (s : State) (u va n v : Nat) (rels : List Msg) : State :=
  s.writeKept (relaySrc u) (s.relay u).pages va n v rels
/-- The release the unit makes now, at the relay's SCOPE. -/
def State.rlyRelease (s : State) (u : Nat) : Msg := s.release (relaySrc u) (yScope (s.relay u).desc)
/-- The unit acquires posts' releases (R339). -/
def State.rlyAcquire (s : State) (u : Nat) (ms : List Msg) : State := s.acquire (relaySrc u) (yScope (s.relay u).desc) ms

/-- Change the unit's state of a leg that its slot holds, without its baton. -/
def State.setLeg (s : State) (u : Nat) (l : Leg) : State :=
  let x := s.relay u
  s.setRelay u { x with slots := x.slots.upd (x.slotOf l.leg) l }
/-- Change a leg and rewrite its baton, except CH0–CH3, in one release (R319). -/
def State.putLeg (s : State) (u : Nat) (l : Leg) : State :=
  let l := { l with stamp := s.gtc }
  let m := s.rlyRelease u
  let va := (s.relay u).batonVa l.leg
  let s := (s.rlyWrite u va 64 l.image [m]).rlyWrite u (va + 96) 32 0 [m]
  s.setLeg u { l with bmsg := [s.rlyRelease u] }
/-- Write output entry `i` in one release (R331). -/
def State.rlyOut (s : State) (u i v : Nat) : State :=
  let x := s.relay u
  let m := s.rlyRelease u
  let s := s.rlyWrite u (yOut x.desc + i * yOstride x.desc) (yBytes x.desc) v [m]
  s.setRelay u { s.relay u with outMsg := [s.rlyRelease u] }

-- Assignments (R323).

/-- Feed one owed record: is it fed, and the state after the try? It stays owed where the queue is full or fails its checks (R323); where
the host must answer first, the unit's event is held (R72). -/
def State.rlyFeed1 (s : State) (u : Nat) (coarse : Bool) (leg : Nat) : Bool × State :=
  let x := s.relay u
  match s.queue (s.relayQueue u coarse) x.asid x.user with
  | .error e => (false, s.hold e)
  | .ok (q, s') =>
    if cntDiff q.tail q.acked = q.slots then (false, s')
    else
      match s'.feedRecord q (leg + coarse.toNat * 2 ^ 32) (relaySrc u) (s'.view (relaySrc u)).k x.user with
      | .error e => (false, s.hold e)
      | .ok s' => (true, s')

/-- Feed what can be fed of a list of owed records, each queue in order; what stays owed. -/
def State.rlyDrainList (u : Nat) : List (Bool × Nat) → Bool → Bool → State → List (Bool × Nat) × State
  | [], _, _, s => ([], s)
  | o :: l, stuckF, stuckG, s =>
    let (fed, s) := if (if o.1 then stuckG else stuckF) then (false, s) else s.rlyFeed1 u o.1 o.2
    if fed then State.rlyDrainList u l stuckF stuckG s
    else
      let r := State.rlyDrainList u l (stuckF || !o.1) (stuckG || o.1) s
      (o :: r.1, r.2)

/-- What the unit notes of a queue's ACKED beside a record that stays owed. -/
def State.rlySeen (s : State) (u : Nat) (coarse : Bool) : Nat :=
  let x := s.relay u
  ((s.userHalf (s.relayQueue u coarse) x.asid x.user).map fun h => nfld h 128 32 + 1).getD (2 ^ 33)

/-- Feed the owed records (R323); none is fed once the relay is not RUNNING (R330, R333). -/
def State.rlyDrain (s : State) (u : Nat) : State :=
  let x := s.relay u
  if x.st ≠ .running ∨ x.owed.isEmpty then s
  else
    let r := State.rlyDrainList u x.owed false false s
    let s := r.2.setRelay u { r.2.relay u with owed := r.1 }
    if r.1.isEmpty then s
    else s.setRelay u { s.relay u with ackSeen := [(0, s.rlySeen u false), (1, s.rlySeen u true)] }

/-- The leg of an owed record that is to be tried again, since the ACKED of its queue is another than at the last try (R323). -/
def State.rlyOwes (s : State) (u : Nat) : Option Nat :=
  let x := s.relay u
  if x.st != .running then none
  else
    (x.owed.find? fun o =>
      x.ackSeen.get 0 o.1.toNat != s.rlySeen u o.1).map fun o => o.2

/-- Issue a record (R323). -/
def State.rlyIssue (s : State) (u : Nat) (coarse : Bool) (leg : Nat) : State :=
  let x := s.relay u
  (s.setRelay u { x with owed := x.owed ++ [(coarse, leg)] }).rlyDrain u

/-- Issue a fine assignment of a leg if the conditions of R323 hold. -/
def State.rlyFine (s : State) (u leg : Nat) : State :=
  let x := s.relay u
  match x.leg? leg with
  | some l =>
    if x.st == .running && l.st != .retired && !l.run && !l.fineWait && l.fver < l.ver then
      (s.setLeg u { l with fineWait := true }).rlyIssue u false leg
    else s
  | none => s

/-- Issue a coarse request of a leg: none for the last leg (R323). -/
def State.rlyCoarse (s : State) (u leg : Nat) : State :=
  let x := s.relay u
  match x.leg? leg with
  | some l =>
    if x.st == .running && leg + 1 < yLegs x.desc then (s.setLeg u { l with coarseWait := true }).rlyIssue u true leg else s
  | none => s

-- Cancelling runs (R328).

/-- The posted writes that a chain has sent land, as they have where R96 acknowledges a cancel. -/
def State.landPosted (s : State) (c ch : Nat) : State :=
  let posted := (s.chanPosted c ch).filter fun r => r.phase != .failed && (r.posted || !r.pending)
  posted.foldl (fun s r =>
    ((List.range 8).foldl (fun (s : State) _ =>
      match s.req r.id with
      | some y => if y.pending then s.perform y else s
      | none => s) s).dropReq r.id) s

/-- Cancel a running chain in one step, as R96 does for a result of 0: its posted writes already sent land within it. The step is held
where the host must answer first about a record (R72). -/
def State.cancelFull (s : State) (c ch : Nat) : State :=
  match s.cancelWaits c ch with
  | some e => s.hold e
  | none => (s.landPosted c ch).cancelChain c ch

/-- Cancel the chain that a copy handle names, as R96 does for a result of 0, for the crew instance that holds the run; a stale
handle changes nothing. -/
def State.rlyCancelHandle (s : State) (crew : Option Nat) (h : Nat) : State :=
  let ch := nfld h 0 3
  let c := coreOfSrc (nfld h 8 16)
  let k := s.core c
  let x := k.chan ch
  if nfld h 3 5 ≠ 0 ∨ nfld h 8 16 ≠ srcOf c 5 ∨ 640 ≤ c ∨ crew.isNone ∨ k.crew ≠ crew ∨ nfld h 56 8 ≠ fld k.dlost 32 8 ∨
      x.phase = .idle ∨ x.gen ≠ nfld h 24 32 then s
  else s.cancelFull c ch

/-- Cancel the chains named in CH0–CH3 of a leg's baton, of the crew that holds its run (R328). -/
def State.rlyChains (s : State) (u leg : Nat) : State :=
  let x := s.relay u
  match x.leg? leg with
  | none => s
  | some l =>
    let key := x.keyOf (x.batonVa l.leg + 64)
    let v := s.mem.getNat key 32
    let s := s.watchRead (relaySrc u) key 32
    let crew := (x.work.find? fun w => w.leg == l.leg && !w.coarse && !w.cancelled).map fun w => w.inst / 2 ^ 32
    (splitBits 64 4 v).foldl (fun s h => s.rlyCancelHandle crew h) s

/-- Cancel a run: its chains, RUN := 0, and its later POST is stale (R328). The baton is the caller's to rewrite. -/
def State.rlyCut (s : State) (u leg : Nat) : State :=
  let s := s.rlyChains u leg
  let x := s.relay u
  match x.leg? leg with
  | none => s
  | some l =>
    (s.setRelay u { x with
      work := x.work.map fun w => if w.leg = leg ∧ !w.coarse then { w with cancelled := true } else w }).setLeg u
        { l with run := false }

/-- The legs that hold a run. -/
def Relay.running (x : Relay) : List Nat := (x.slots.filter fun e => e.2.run).map fun e => e.2.leg

/-- Wake the WAITs and TAKEs stalled at a unit (R330, R333, R341, R342). -/
def State.rlyWake (s : State) (u : Nat) : State :=
  let l := s.cores.filterMap fun c =>
    match c.2.wait with
    | .rlyWait _ u' _ _ => if u' = u then some (Instr.rlyWaitReturn c.1) else none
    | .rlyTake _ u' _ _ _ _ => if u' = u then some (Instr.rlyTakeRetry c.1) else none
    | _ => none
  { s with agenda := l ++ s.agenda }

/-- Raise the held or posted fault of a settled leg (R330). -/
def State.rlyRaise (s : State) (u leg : Nat) : State :=
  let x := s.relay u
  let s := s.setRelay u { x with st := .faulted, faultLeg := leg, sweepOn := false }
  let s := if yCanc x.desc then
      x.running.foldl (fun s n =>
        let s := s.rlyCut u n
        match (s.relay u).leg? n with | some l => s.putLeg u l | none => s) s
    else s
  let s := match (s.relay u).leg? leg with | some l => s.putLeg u { l with st := .faulted } | none => s
  s.rlyWake u

-- The unit's actions, and the next of them (R343).

/-- Leg TOP can be seeded (R322). -/
def Relay.canSeed (x : Relay) : Bool :=
  x.top < yLegs x.desc &&
    (match x.slots.find (x.slotOf x.top) with | none => true | some l => l.st == .retired) &&
    (match x.leg? (x.top - 1) with | some l => l.gver == l.ver | none => false)
/-- The next sweep can begin (R326). -/
def Relay.canSweep (x : Relay) : Bool :=
  !x.sweepOn && (1 ≤ x.sweepNo || Nat.min (yW x.desc) (yLegs x.desc) ≤ x.top) && x.sp < x.top
/-- The next step of the sweep can begin (R326). -/
def Relay.canStep (x : Relay) : Bool :=
  x.sweepOn && x.sweepAt < x.sweepTop &&
    match x.leg? (x.sweepAt - 1), x.leg? x.sweepAt with
    | some m, some n =>
      let need := if x.cancelled.contains m.leg then m.ver else x.need.get m.ver m.leg
      m.gver == m.ver && (n.gver == n.ver || n.leg + 1 == yLegs x.desc) &&
        (need ≤ m.fver || (m.held && need ≤ m.hver))
    | _, _ => false
/-- The lowest leg that can retire: the next leg is settled, and no run of it goes on (R332); a leg whose fault has been raised is
settled no more (R330). -/
def Relay.canRetire (x : Relay) : Option Nat :=
  let faulted (n : Nat) : Bool := match x.leg? n with | some l => l.st == .faulted | none => false
  let l := ((x.slots.filter fun e =>
    e.2.st == .settled && e.2.leg + 1 < x.sp && !faulted (e.2.leg + 1) && (!e.2.run || yCanc x.desc)).map fun e => e.2.leg)
  l.find? fun n => l.all fun m => n ≤ m
/-- Output entry NLEGS can be written (R331). -/
def Relay.canEnd (x : Relay) : Bool :=
  match x.leg? (yLegs x.desc - 1) with
  | some l => l.st == .settled && l.fver == l.ver
  | none => false

/-- May legs of the relay retire: is it open, and not DONE, which has retired them all (R332)? -/
def Relay.retires (x : Relay) : Bool := x.st == .running || x.st == .faulted || x.st == .stopped

/-- The unit's next action, in R343's order of preference: in a relay that has FAULTED or STOPPED only retirements are left (R330, R332,
R333). -/
def State.rlyNext (s : State) (u : Nat) : Option Instr :=
  let x := s.relay u
  let retire : Option Instr := if x.retires then x.canRetire.map fun n => .relayRetire u n else none
  if x.st ≠ .running then retire
  else if x.canSeed then some (.relaySeed u x.top)
  else if x.canStep then some (.relayStep u)
  else if x.canSweep then some (.relaySweepBegin u)
  else retire.or (if x.canEnd then some (.relayEndStateWrite u) else none)

/-- After an event of the unit: the owed records are tried again (R323), and the unit's next action comes directly after it (R343). -/
def State.rlyGo (s : State) (u : Nat) : State :=
  let s := s.rlyDrain u
  match s.rlyNext u with
  | some i => { s with agenda := i :: s.agenda }
  | none => s

/-- The agents as which a unit's events make accesses: the unit, and the launch units of its queues' dies. -/
def State.rlyAgents (s : State) (u : Nat) : List Nat :=
  [relaySrc u, launchSrc (queueDie (s.relayQueue u false)), launchSrc (queueDie (s.relayQueue u true))]
/-- The agents as which the units that hold heats and relays make accesses. -/
def State.unitAgents (s : State) : List Nat :=
  s.heats.map (fun h => heatAgent (h.1 / 1024)) ++ s.relays.flatMap fun y => s.rlyAgents y.1

/-- An event of a unit, held where the host must answer first (R72, R315); one whose conditions do not hold changes nothing. -/
def State.rlyEvent (s : State) (u : Nat) (ok : Bool) (f : State → State) : State :=
  if ok then s.attempt (s.rlyAgents u) f else s

/-- The unit's extended source number, and an action of its own under it (R8, R315). -/
def State.rlyExt (s : State) (u : Nat) : Nat := s.ext (relaySrc u)
def State.rlyOwn (s : State) (u : Nat) : State := s.ownArrival (s.rlyExt u) s.gtc

/-- Leg `leg` can be seeded now (R322). -/
def State.seedOk (s : State) (u leg : Nat) : Bool :=
  (s.relay u).st == .running && leg == (s.relay u).top && (s.relay u).canSeed

/-- Seeding (R322). -/
def State.seedAct (s : State) (u leg : Nat) : State :=
  let x := s.relay u
  if !s.seedOk u leg then s
  else
    match x.leg? (leg - 1) with
    | none => s
    | some m =>
      let s := (s.rlyOwn u).rlyAcquire u m.gmsg
      let (g, s) := s.rlyRead u (x.gVa m.leg m.ver) (yBytes x.desc)
      let s := s.rlyWrite u (x.uVa leg 1) (yBytes x.desc) g []
      let s := s.setRelay u { s.relay u with top := leg + 1 }
      ((s.putLeg u (Leg.new leg)).rlyCoarse u leg).rlyFine u leg |>.rlyGo u

/-- RELAY_SEED. -/
def execRelaySeed (u leg : Nat) (s : State) : Host.Outcome State Fault Refusal := .next (s.rlyEvent u (s.seedOk u leg) fun s => s.seedAct u leg)

/-- A sweep can begin now (R326). -/
def State.sweepOk (s : State) (u : Nat) : Bool := (s.relay u).st == .running && (s.relay u).canSweep

/-- The start of a sweep: its range and its needed versions (R326). -/
def State.sweepAct (s : State) (u : Nat) : State :=
  let x := s.relay u
  if !s.sweepOk u then s
  else
    let need := (List.range (x.top - x.sp)).foldl (fun m i =>
      let n := x.sp - 1 + i
      match x.leg? n with | some l => AMap.upd m n l.ver | none => m) ([] : AMap Nat)
    ((s.rlyOwn u).setRelay u { x with
      sweepNo := x.sweepNo + 1, sweepOn := true, sweepAt := x.sp, sweepTop := x.top, need := need,
      cancelled := [] }).rlyGo u

/-- RELAY_SWEEP_BEGIN. -/
def execRelaySweepBegin (u : Nat) (s : State) : Host.Outcome State Fault Refusal := .next (s.rlyEvent u (s.sweepOk u) fun s => s.sweepAct u)

/-- One element of the correction formula (R327). -/
def corrElem (f : Fmt) (fine gp g : Nat) : Nat :=
  let d := (roundFl f (exactSum false [decodeF f fine, (decodeF f gp).neg]) .rne false).1
  (roundFl f (exactSum false [decodeF f g, decodeF f d]) .rne false).1

/-- The jump between two starts: the norm of their difference, in FP32 (R118, R327). -/
def jumpOf (f : Fmt) (l2 : Bool) (new old : List Nat) : Nat :=
  let op : QredOp := if l2 then .l2 else .linf
  let acc := (new.zip old).foldl (fun a p =>
    let d := (roundFl .a48 (exactSum false [decodeF f p.1, (decodeF f p.2).neg]) .rne false).1
    (qredStep op .a48 a d).1) 0
  (qredEnd op true acc).1

/-- Elements of a vector of the state area. -/
def State.rlyVec (s : State) (u va : Nat) : List Nat × State :=
  let x := (s.relay u).desc
  let (v, s) := s.rlyRead u va (yBytes x)
  (splitBits (8 * yZ x) (yN x) v, s)

/-- The new start of a step from leg `m`: its elements, whether it is an exact handoff, and the state after the reads (R327). -/
def State.rlyStart (s : State) (u : Nat) (m : Leg) : List Nat × Bool × State :=
  let x := s.relay u
  if m.st = .settled ∧ m.fver = m.ver then
    let (t, s) := (s.rlyAcquire u m.fmsg).rlyVec u (x.fVa m.leg m.fver)
    (t, true, s)
  else if m.fver = 0 ∨ (m.held ∧ m.fver < m.hver) then
    let (t, s) := (s.rlyAcquire u m.gmsg).rlyVec u (x.gVa m.leg m.ver)
    (t, false, s)
  else
    let s := s.rlyAcquire u (m.fmsg ++ m.gmsg ++ if m.fver = m.ver then [] else m.gpmsg)
    let (f, s) := s.rlyVec u (x.fVa m.leg m.fver)
    let (gp, s) := s.rlyVec u (x.gVa m.leg m.fver)
    let (g, s) := s.rlyVec u (x.gVa m.leg m.ver)
    ((f.zip (gp.zip g)).map fun e => corrElem (yFmt x.desc) e.1 e.2.1 e.2.2, false, s)

/-- A step that has changed leg `n`'s start: its new version, its coarse request, and its run (R327, R328). -/
def State.rlyBump (s : State) (u n : Nat) (t : Nat) : State :=
  let x := s.relay u
  match x.leg? n with
  | none => s
  | some l =>
    let s := s.rlyWrite u (x.uVa n (l.ver + 1)) (yBytes x.desc) t []
    let s := (s.setLeg u { l with ver := l.ver + 1, gpver := l.gver, gpmsg := l.gmsg }).rlyCoarse u n
    let s := if l.run ∧ yCanc x.desc then
        let s := s.rlyCut u n
        s.setRelay u { s.relay u with cancelled := n :: (s.relay u).cancelled }
      else s
    s.rlyFine u n

/-- The next step of the sweep can begin now (R326). -/
def State.stepOk (s : State) (u : Nat) : Bool := (s.relay u).st == .running && (s.relay u).canStep

/-- The step of the sweep for its next leg (R326, R327). -/
def State.stepAct (s : State) (u : Nat) : State :=
  let x := s.relay u
  if !s.stepOk u then s
  else
    match x.leg? (x.sweepAt - 1), x.leg? x.sweepAt with
    | some m, some n =>
      let z := yZ x.desc
      let (t, exact, s) := (s.rlyOwn u).rlyStart u m
      let tv := ofLeBytes ((t.map (leBytes z)).flatten)
      let s := s.rlyWrite u (x.tVa n.leg) (yBytes x.desc) tv []
      let (uo, s) := s.rlyVec u (x.uVa n.leg n.ver)
      let j := jumpOf (yFmt x.desc) (yNorm x.desc) t uo
      let s := s.setLeg u { n with jump := j, iter := Nat.min (n.iter + 1) 65535 }
      let s := s.setRelay u { s.relay u with sweepAt := x.sweepAt + 1, sweepOn := decide (x.sweepAt + 1 < x.sweepTop) }
      let s := if t = uo then s else s.rlyBump u n.leg tv
      let s := if exact ∨ (m.st = .settled ∧ j ≤ yTol x.desc) then
          match (s.relay u).leg? n.leg with
          | none => s
          | some l =>
            let s := s.putLeg u { l with st := .settled, exact := exact }
            let s := s.setRelay u { s.relay u with sp := l.leg + 1 }
            let (v, s) := s.rlyRead u (x.uVa l.leg l.ver) (yBytes x.desc)
            let s := s.rlyOut u l.leg v
            if l.held ∧ l.hver = l.ver then s.rlyRaise u l.leg else s
        else
          match (s.relay u).leg? n.leg with | some l => s.putLeg u l | none => s
      s.rlyGo u
    | _, _ => s

/-- RELAY_STEP. -/
def execRelayStep (u : Nat) (s : State) : Host.Outcome State Fault Refusal := .next (s.rlyEvent u (s.stepOk u) fun s => s.stepAct u)

/-- Leg `leg` is the next to retire (R332). -/
def State.retireOk (s : State) (u leg : Nat) : Bool := (s.relay u).retires && (s.relay u).canRetire == some leg

/-- Retirement (R332); under CANC a run is cancelled first. -/
def State.retireAct (s : State) (u leg : Nat) : State :=
  let x := s.relay u
  if !s.retireOk u leg then s
  else
    let s := s.rlyOwn u
    let s := match x.leg? leg with | some l => if l.run then s.rlyCut u leg else s | none => s
    match (s.relay u).leg? leg with
    | some l => (s.putLeg u { l with st := .retired }).rlyGo u
    | none => s

/-- RELAY_RETIRE. -/
def execRelayRetire (u leg : Nat) (s : State) : Host.Outcome State Fault Refusal := .next (s.rlyEvent u (s.retireOk u leg) fun s => s.retireAct u leg)

/-- Insert a leg in rising order. -/
def insertLeg (n : Nat) : List Nat → List Nat
  | [] => [n]
  | m :: l => if n ≤ m then n :: m :: l else m :: insertLeg n l

/-- Output entry NLEGS can be written now (R331). -/
def State.endOk (s : State) (u : Nat) : Bool := (s.relay u).st == .running && (s.relay u).canEnd

/-- The write of output entry NLEGS, which makes the relay DONE and retires the remaining legs (R331, R332). -/
def State.endAct (s : State) (u : Nat) : State :=
  let x := s.relay u
  if !s.endOk u then s
  else
    match x.leg? (yLegs x.desc - 1) with
    | none => s
    | some l =>
      let s := (s.rlyOwn u).rlyAcquire u l.fmsg
      let (v, s) := s.rlyRead u (x.fVa l.leg l.fver) (yBytes x.desc)
      let s := s.rlyOut u (yLegs x.desc) v
      let s := s.setRelay u { s.relay u with st := .done }
      let left := (((s.relay u).slots.filter fun e => e.2.st != .retired).map fun e => e.2.leg).foldr insertLeg []
      let s := left.foldl (fun s n =>
        match (s.relay u).leg? n with | some l => s.putLeg u { l with st := .retired } | none => s) s
      s.rlyWake u

/-- RELAY_END_STATE_WRITE. -/
def execRelayEndStateWrite (u : Nat) (s : State) : Host.Outcome State Fault Refusal := .next (s.rlyEvent u (s.endOk u) fun s => s.endAct u)

/-- One of the unit's own actions. -/
def State.rlyAct (s : State) (u : Nat) : Instr → State
  | .relaySeed _ leg => s.seedAct u leg
  | .relayStep _ => s.stepAct u
  | .relaySweepBegin _ => s.sweepAct u
  | .relayRetire _ leg => s.retireAct u leg
  | .relayEndStateWrite _ => s.endAct u
  | _ => s

/-- What the actions that follow an event must wait for, worked out ahead: those of R343 come before the event is answered. -/
def State.rlyAhead (u : Nat) : Nat → State → List (Option (Nat × Nat))
  | 0, s => s.held
  | n + 1, s =>
    if !s.held.isEmpty then s.held
    else match s.rlyNext u with | some i => State.rlyAhead u n (s.rlyAct u i) | none => []

/-- More actions than one event can bring about: each sweep settles a leg of the window. -/
def Relay.ahead (x : Relay) : Nat := 4 * (yW x.desc + 2) ^ 2

/-- The answers that the host has given for the executing pacer's word serve the unit's actions that follow it. -/
def State.lend (s : State) : State :=
  { s with snoops := s.snoops ++ s.me.answered.map fun x => { id := s.nextReq, agent := x.1, core := none, line := x.2, done := true } }

/-- The end of a word's event at a unit (R343): the actions that follow come next; the word waits where one of them must wait for the host
(R72). -/
def rlyGoM (u : Nat) : M Unit := fun s =>
  let s' := s.rlyGo u
  let l := State.rlyAhead u (s.relay u).ahead s'
  if !l.isEmpty then .error (heldStop l)
  else .ok ((), if (s'.rlyNext u).isSome then s'.lend else s')

/-- Has the deadline of a relay been reached at a GTC (R333)? -/
def State.rlyDueAt (s : State) (u gtc : Nat) : Bool :=
  let x := (s.relay u).desc
  yDeadline x != 0 &&
    (if yDtick x then yDeadline x % 2 ^ 48 ≤ tickCount (s.die (u / 4)).tickcfg gtc % 2 ^ 48 else yDeadline x ≤ gtc)
/-- The deadline of a running relay has been reached (R333). -/
def State.rlyDue (s : State) (u : Nat) : Bool := (s.relay u).st == .running && s.rlyDueAt u s.gtc
/-- Does the deadline event come before an arrival from an extended source now: was the deadline reached at an earlier stamp, or at this
one with the unit's number the lower (R315, R333)? -/
def State.rlyFirst (s : State) (u src : Nat) : Bool :=
  s.rlyDue u && (s.rlyExt u < src || (s.gtc != 0 && s.rlyDueAt u (s.gtc - 1)))

/-- Work that has gone back to the unit and has not yet been fed again, since the host must answer first: its core has been contained. -/
def State.rlyBehind (s : State) (u : Nat) : Bool :=
  (s.rlyNext u).isSome || (s.relay u).work.any fun w => (s.core w.core).leaving && s.instOf w.core == some w.inst

/-- The word of the executing pacer arrives at a unit, after the deadline, the arrivals and the unit's own actions that come before it
(R315, R343). -/
def rlyArrive (u : Nat) : M Unit := fun s =>
  if s.rlyFirst u (s.ext (srcOf s.actor 0)) || s.rlyBehind u then .error .wait else arriveM (s.rlyExt u) s

/-- What happens at the deadline (R333): the relay is STOPPED; with CANC every run's chains are cancelled. -/
def State.stopAct (s : State) (u : Nat) : State :=
  let x := s.relay u
  let s := (s.rlyOwn u).setRelay u { x with st := .stopped, sweepOn := false }
  let s := if yCanc x.desc then x.running.foldl (fun s n => s.rlyChains u n) s else s
  s.rlyWake u

/-- The deadline event (R333). -/
def State.relayDeadline (s : State) (u : Nat) : State := s.rlyEvent u (s.rlyDue u) fun s => s.stopAct u

/-- RELAY_DEADLINE. -/
def execRelayDeadline (u : Nat) (s : State) : Host.Outcome State Fault Refusal := .next (s.relayDeadline u)

/-- RELAY_OWED_FEED: owed records are tried again (R323). -/
def execRelayOwedFeed (u leg : Nat) (s : State) : Host.Outcome State Fault Refusal :=
  .next (s.rlyEvent u ((s.relay u).owed.any fun o => o.2 == leg) fun s => s.rlyDrain u)

-- OPEN (R321, R336, R337, R344).

/-- Translate a range for each of some accesses, and keep its leaves (R337). -/
def State.rlyMap (s : State) (d asid va n : Nat) (accs : List Acc) (user : Bool) (m : AMap (BitVec 64)) :
    Except Stop (AMap (BitVec 64) × State) :=
  accs.foldl (fun r acc =>
    match r with
    | .error e => .error e
    | .ok (m, s) => s.keepPages d asid va n acc user m) (.ok (m, s))

/-- Output entries 0 to `n` for a write. -/
def State.rlyMapOut (d asid : Nat) (x : RDesc) (user : Bool) :
    Nat → AMap (BitVec 64) → State → Except Stop (AMap (BitVec 64) × State)
  | 0, m, s => s.rlyMap d asid (yOut x) (yBytes x) [.wr] user m
  | n + 1, m, s =>
    match State.rlyMapOut d asid x user n m s with
    | .error e => .error e
    | .ok (m, s) => s.rlyMap d asid (yOut x + (n + 1) * yOstride x) (yBytes x) [.wr] user m

/-- Do two sets of storage spans share a byte? -/
def spansMeet (a b : List (Nat × Nat × Target)) : Bool :=
  a.any fun p => b.any fun q => p.2.2.key < q.2.2.key + q.2.1 && q.2.2.key < p.2.2.key + p.2.1

/-- The checks of R337, by core `c`: the die of the unit, and the leaves of the relay's pages. A trap stands for BADDESC; the host may
have to be asked about a queue's page first (R72). -/
def State.rlyCheck (s : State) (c : Nat) (x : RDesc) : Except Stop (Nat × AMap (BitVec 64) × State) := do
  let k := s.core c
  let d := dieOf c
  let user := !k.mode
  let bad : Except Stop (Nat × AMap (BitVec 64) × State) := .error (.trap (tr cRANGE))
  if !relayDescOk x || fld x 448 11 == fld x 464 11 then bad
  else
    let (m, s) ← s.rlyMap d k.asid (ySarea x) (7 * yW x * yVs x) [.rd, .wr] user []
    let (m, s) ← s.rlyMap d k.asid (yBatons x) (128 * yW x) [.rd, .wr] user m
    let (m, s) ← s.rlyMap d k.asid (yInit x) (yBytes x) [.rd] user m
    let (m, s) ← State.rlyMapOut d k.asid x user (yLegs x) m s
    let (q, s) ← s.queue (fld x 448 11) k.asid user
    let (g, s) ← s.queue (fld x 464 11) k.asid user
    let sa := keptRuns m (ySarea x) (7 * yW x * yVs x)
    let ba := keptRuns m (yBatons x) (128 * yW x)
    let die (p : Nat × Nat × Target) : Nat := (p.2.2.key - 4 * spaceSize) / 2 ^ 26
    let home := match sa with | p :: _ => die p | [] => d
    if (sa ++ ba).any (fun p => p.2.2.apt != 4 || die p != home) || spansMeet sa ba || q.slots < 2 * yW x ||
        g.slots < 2 * yW x then bad
    else .ok (home, m, s)

/-- A relay handle (R336). -/
def rlyHandle (u gen : Nat) : Word := BitVec.ofNat 64 (u / 4 * 2 ^ 8 + u % 4 * 2 ^ 11 + gen * 2 ^ 32)

/-- Set up leg 0 and the batons of a relay opened on unit `u`, from the initial state (R321); the handle. -/
def State.rlySetup (s : State) (c u : Nat) (x : RDesc) (pages : AMap (BitVec 64)) (init : Nat) : Word × State :=
  let k := s.core c
  let r := s.relay u
  let s := s.setRelay u { Relay.reset with
    gen := (r.gen + 1) % 2 ^ 32, st := .running, asid := k.asid, user := !k.mode, inst := (s.instOf c).getD 0, desc := x,
    pages := pages, sp := 1, top := 1 }
  let s := s.rlyWrite u ((s.relay u).uVa 0 1) (yBytes x) init []
  let m := s.rlyRelease u
  let empty := 0x7F800000 * 2 ^ 192 + s.gtc * 2 ^ 256
  let s := (List.range (yW x)).foldl (fun s b => s.rlyWrite u (yBatons x + 128 * b) 128 empty [m]) s
  let s := s.putLeg u { Leg.new 0 with st := .settled, exact := true }
  let s := s.rlyOut u 0 init
  (rlyHandle u ((r.gen + 1) % 2 ^ 32), (s.rlyCoarse u 0).rlyFine u 0)

/-- OPEN's choice (R337, R344): a unit of the die with the leaves of the relay's pages, or the status it refuses with. -/
def rlyPlace (x : RDesc) : M (Except Nat (Nat × AMap (BitVec 64))) := fun s =>
  match s.rlyCheck s.actor x with
  | .error e => if e.refuses then .ok (.error 2, s) else .error e
  | .ok (die, pages, s') =>
    match (List.range 4).find? fun u => (s'.relay (die * 4 + u)).st == .free with
    | none => .ok (.error 1, s)
    | some u => .ok (.ok (die * 4 + u, pages), s')

/-- RLY.OPEN (R337): the descriptor and the initial state are read by the pacer. -/
def execRlyOpen (n : Ann) (d a : SReg) (s : State) : Host.Outcome State Fault Refusal :=
  pacerWord n 12 [a] false (fun s =>
    let va := (s.me.rd a).toNat
    let user := !s.me.mode
    (do
      trapIf (va % 256 != 0) cALIGN va
      ownStores
      let x := BitVec.ofNat 2048 (← readMem va 256 user)
      let w ← match ← rlyPlace x with
        | .error st => pure (BitVec.ofNat 64 st)
        | .ok (u, pages) => do
          let init ← readMem (yInit x) (yBytes x) user
          attemptM do
            let w ← fun s => .ok (s.rlySetup s.actor u x pages init)
            rlyGoM u
            return w
      endReads
      modMe fun k => k.wr d w
      return Flow.seq) s) s

-- TAKE and GTAKE (R332, R338).

/-- The unit that a handle names for a core, or none where it traps RANGE (R336). -/
def State.relayOf (s : State) (c : Nat) (w : Word) : Option Nat :=
  let u := fld w 8 3 * 4 + fld w 11 2
  let x := s.relay u
  if fld w 0 8 ≠ 0 ∨ fld w 13 19 ≠ 0 ∨ x.st = .free ∨ x.gen ≠ fld w 32 32 ∨ x.asid ≠ (s.core c).asid then none else some u

/-- The unit acknowledges a record of one of the relay's queues, as ACKW does (R325, R332): where ACKW's checks refuse it, it is not
acknowledged. -/
def State.rlyAck (s : State) (u : Nat) (coarse : Bool) (payload agent : Nat) (k : KMap) : State :=
  let x := s.relay u
  let y : Except Stop State := do
    let (q, s) ← s.queue (s.relayQueue u coarse) x.asid x.user
    let (h, s) ← s.ackCheck q payload x.user
    s.ackSlot q (payload - 8) h agent k x.user
  match y with
  | .ok s => s
  | .error e => s.hold e

/-- Bind the work of a record just popped: the payload, the run and its baton, and the taker's acquire (R324, R338). -/
def State.rlyBind (s : State) (c u : Nat) (coarse : Bool) (va : Nat) (l : Leg) : Except Stop State := do
  let x := s.relay u
  let pay := l.leg + coarse.toNat * 2 ^ 32 + l.ver * 2 ^ 64 + x.uVa l.leg l.ver * 2 ^ 128 +
    (if coarse then x.gVa l.leg l.ver else x.fVa l.leg l.ver) * 2 ^ 192 + x.batonVa l.leg * 2 ^ 256 +
    yN x.desc * 2 ^ 320 + yFmtCode x.desc * 2 ^ 340
  let s ← s.writeVa (relaySrc u) (queueDie (s.relayQueue u coarse)) x.asid va 56 pay x.user []
  let s := if coarse then s.setLeg u { l with coarseWait := false }
    else
      (s.rlyWrite u (x.batonVa l.leg + 64) 32 0 []).putLeg u
        { l with run := true, rver := l.ver, crewSrc := srcOf c 0, fineWait := false }
  let x := s.relay u
  let w : RlyWork :=
    { core := c, inst := (s.instOf c).getD 0, payload := va, leg := l.leg, coarse := coarse, ver := l.ver,
      cancelled := false }
  let s := s.setRelay u { x with work := x.work ++ [w] }
  return s.acquire (srcOf c 0) (yScope x.desc) [s.rlyRelease u]

/-- One try of a TAKE or GTAKE (R338), an answer, or none where it sleeps: the cases that take nothing come before any pop. -/
def State.takeTry (s : State) (c u gen : Nat) (coarse : Bool) (dl : Nat) : Nat → Except Stop (Option Nat × State)
  | 0 => .ok (none, s)
  | fuel + 1 =>
    let x := s.relay u
    let k := s.core c
    if x.gen ≠ gen ∨ x.st ≠ .running ∨ s.preemptPending c then .ok (some 0, s)
    else
      match s.queue (s.relayQueue u coarse) k.asid (!k.mode) with
      | .error e => .error e
      | .ok (q, s') =>
        if q.head = q.tail then .ok (if dl ≠ 0 ∧ dl ≤ s.gtc then some 0 else none, s)
        else
          match s'.homeVa (relaySrc u) (queueDie q.word) q.asid (q.slot q.head + 8) 8 (!k.mode) with
          | .error e => .error e
          | .ok (h, s') =>
            match (x.leg? (h % 2 ^ 32)).filter fun l => l.st != .retired with
            | some l =>
              let (va, s') := s'.popRecord q (srcOf c 0)
              match s'.rlyBind c u coarse va l with
              | .error e => .error e
              | .ok s' => .ok (some va, s')
            | none =>
              let (va, s') := s'.popRecord q (relaySrc u)
              State.takeTry (s'.rlyAck u coarse va (relaySrc u) (s'.view (relaySrc u)).k) c u gen coarse dl fuel

/-- Tries that a TAKE may need: one for each record waiting, and one more. -/
def State.takeFuel (s : State) (c u : Nat) (coarse : Bool) : Nat :=
  match s.queue (s.relayQueue u coarse) (s.core c).asid (!(s.core c).mode) with
  | .ok (q, _) => cntDiff q.tail q.head + 1
  | .error _ => 1

/-- The event of a TAKE or GTAKE at the unit, after which the owed records are tried again (R323, R338). -/
def takeM (c u gen : Nat) (coarse : Bool) (dl : Nat) : M (Option Nat) :=
  attemptM do
    let v ← (fun s => s.takeTry c u gen coarse dl (s.takeFuel c u coarse) : M (Option Nat))
    modify fun (s : State) => s.rlyDrain u
    return v

/-- TAKE and GTAKE: the sleepers that a FEED has woken come before them (R261, R268). -/
def rlyTakeWord (n : Ann) (coarse : Bool) (d a c : SReg) (s : State) : Host.Outcome State Fault Refusal :=
  pacerWord n 12 [a, c] false (fun s =>
    let k := s.me
    let dl := (k.rd c).toNat
    match s.relayOf s.actor (k.rd a) with
    | none => .error (.trap (tr cRANGE))
    | some u =>
      (do
        rlyArrive u
        waitUnless !(s.wokenOn (s.relayQueue u coarse))
        let gen := (s.relay u).gen
        match ← takeM s.actor u gen coarse dl with
        | some v =>
          modMe fun k => k.wr d (BitVec.ofNat 64 v)
          return Flow.seq
        | none => stall (.rlyTake (physS k.rrb d) u gen coarse dl s.gtc)) s) s

/-- RLY.TAKE (R338). -/
def execRlyTake (n : Ann) (d a c : SReg) (s : State) : Host.Outcome State Fault Refusal := rlyTakeWord n false d a c s
/-- RLY.GTAKE (R338). -/
def execRlyGtake (n : Ann) (d a c : SReg) (s : State) : Host.Outcome State Fault Refusal := rlyTakeWord n true d a c s

/-- RLY_TAKE_RETRY: a sleeping TAKE or GTAKE is tried again (R261, R338), after a deadline of the relay that has been reached. -/
def State.rlyTakeRetry (s : State) (c : Nat) : State :=
  match (s.core c).wait with
  | .rlyTake d u gen coarse dl _ =>
    let s := s.relayDeadline u
    let ended (s : State) : State := ((s.rlyAgents u).foldl State.endSnoops s).setWoken c false
    if s.rlyDue u then s
    else
      match takeM c u gen coarse dl s with
      | .error (.trap t) => if (s.core c).frozen then s else s.preciseTrap c t
      | .error e => (s.unitStep [] (.error e)).setWoken c true
      | .ok (some v, s) => (ended s).answer c d (BitVec.ofNat 64 v)
      | .ok (none, s) => ended s
  | _ => s

/-- RLY_TAKE_RETRY. -/
def execRlyTakeRetry (core : Nat) (s : State) : Host.Outcome State Fault Refusal := .next (s.rlyTakeRetry core)

-- POST and GPOST (R329, R339).

/-- The work that a payload VA names for the issuer's crew instance and a kind (R339). -/
def State.workOf (s : State) (c u va : Nat) (coarse : Bool) : Option RlyWork :=
  (s.relay u).work.find? fun w => w.payload == va && w.coarse == coarse && s.instOf c == some w.inst

/-- The classification of a fine POST of core `c` with status `st` (R329): what it returns, and the state after it. -/
def State.rlyPost (s : State) (c u : Nat) (w : RlyWork) (st : Nat) (m : Msg) : Nat × State :=
  let x := s.relay u
  if x.st ≠ .running then (4, s)
  else
    match (x.leg? w.leg).filter fun l => l.st != .retired && !w.cancelled with
    | none => (2, s)
    | some l =>
      if st = 0 then
        let l := if l.fver < w.ver then { l with fver := w.ver, fmsg := [m] } else l
        let l := { l with run := false, held := l.held && w.ver < l.hver }
        (0, (s.putLeg u l).rlyFine u l.leg)
      else
        let l := { l with run := false, fcode := st % 2 ^ 32, fsrc := srcOf c 0, hver := w.ver, fstamp := s.gtc }
        if l.st = .settled ∧ w.ver = l.ver then (3, (s.putLeg u l).rlyRaise u l.leg)
        else (1, (s.putLeg u { l with held := true }).rlyFine u l.leg)

/-- The classification of a GPOST (R329). -/
def State.rlyGpost (s : State) (u : Nat) (w : RlyWork) (m : Msg) : Nat × State :=
  let x := s.relay u
  if x.st ≠ .running then (4, s)
  else
    match (x.leg? w.leg).filter fun l => l.st != .retired && l.ver == w.ver with
    | none => (2, s)
    | some l => (0, s.putLeg u { l with gver := w.ver, gmsg := [m] })

/-- POST and GPOST: the release, the acknowledgement with the checks and the waits of an ACKW, the classification, and the actions it
allows (R261, R339, R343). -/
def rlyPostWord (n : Ann) (coarse : Bool) (d a b : SReg) (srcs : List SReg) (status : Core → Nat) (s : State) :
    Host.Outcome State Fault Refusal :=
  pacerWord n 12 srcs false (fun s =>
    let p := s.actor
    let k := s.me
    let va := (k.rd b).toNat
    match s.relayOf p (k.rd a) with
    | none => .error (.trap (tr cRANGE))
    | some u =>
      match s.workOf p u va coarse with
      | none => .error (.trap (tr cRANGE va))
      | some w =>
        (do
          relWait (yScope (s.relay u).desc) va
          let q ← fun s => s.queue (s.relayQueue u coarse) k.asid (!k.mode)
          let h ← fun s => s.ackCheck q va (!k.mode)
          rlyArrive u
          let m := s.release (srcOf p 0) (yScope (s.relay u).desc)
          attemptM do
            ackM q va h
            modify fun (s : State) =>
              let x := s.relay u
              let s := s.setRelay u { x with work := x.work.filter fun y => y != w }
              let (v, s) := if coarse then s.rlyGpost u w m else s.rlyPost p u w (status k) m
              s.setMe (s.me.wr d (BitVec.ofNat 64 v))
            rlyGoM u
          return Flow.seq) s) s

/-- RLY.POST. -/
def execRlyPost (n : Ann) (d a b c : SReg) (s : State) : Host.Outcome State Fault Refusal :=
  rlyPostWord n false d a b [a, b, c] (fun k => (k.rd c).toNat) s
/-- RLY.GPOST. -/
def execRlyGpost (n : Ann) (d a b : SReg) (s : State) : Host.Outcome State Fault Refusal :=
  rlyPostWord n true d a b [a, b] (fun _ => 0) s

-- STAT, WAIT, CLOSE (R334, R340–R342).

/-- The residual (R334): the jumps are positive or NaN, so their encodings order as their values do. -/
def Relay.residual (x : Relay) : Nat :=
  let js := (x.slots.filter fun e => x.sp ≤ e.2.leg && e.2.st != .retired).map fun e => e.2.jump
  if js.any fun j => 0x7F800000 < j then nanBits .f32 else js.foldl Nat.max 0

/-- RLY.STAT (R340). -/
def execRlyStat (n : Ann) (d a : SReg) (s : State) : Host.Outcome State Fault Refusal :=
  pacerWord n 12 [a] false (fun s =>
    match s.relayOf s.actor (s.me.rd a) with
    | none => .error (.trap (tr cRANGE))
    | some u =>
      (do
        rlyArrive u
        attemptM (modify fun (s : State) => s.rlyDrain u)
        let x := s.relay u
        let st := match x.st with | .running => 1 | .done => 2 | .faulted => 3 | .stopped => 4 | .free => 0
        modMe fun k => k.wr d (BitVec.ofNat 64 (x.sp % 2 ^ 24 + st * 2 ^ 24 + x.residual * 2 ^ 32))
        return Flow.seq) s) s

/-- What a WAIT finds (R341): WSTAT, if it returns now. -/
def State.rlyWaitStatus (s : State) (c u gen dl : Nat) : Option Nat :=
  let x := s.relay u
  if x.gen ≠ gen then some 4
  else
    match x.st with
    | .done => some 0
    | .faulted => some 1
    | .stopped => some 2
    | _ => if dl ≠ 0 ∧ dl ≤ s.gtc then some 3 else if s.preemptPending c then some 0xFE else none

/-- The result of a WAIT, and its acquires (R341). -/
def State.rlyWaitEnd (s : State) (c u wstat : Nat) : Word × State :=
  let x := s.relay u
  let res := if wstat = 1 then x.faultLeg else x.residual
  let s := if wstat ≤ 3 then
      s.acquire (srcOf c 0) (yScope x.desc)
        (x.outMsg ++ (x.slots.filter fun e => e.2.st != .retired).flatMap fun e => e.2.bmsg)
    else s
  (BitVec.ofNat 64 (x.sp % 2 ^ 24 + wstat * 2 ^ 24 + res * 2 ^ 32), s)

/-- RLY.WAIT (R341). -/
def execRlyWait (n : Ann) (d a c : SReg) (s : State) : Host.Outcome State Fault Refusal :=
  pacerWord n 12 [a, c] false (fun s =>
    let k := s.me
    let dl := (k.rd c).toNat
    match s.relayOf s.actor (k.rd a) with
    | none => .error (.trap (tr cRANGE))
    | some u =>
      (do
        rlyArrive u
        attemptM (modify fun (s : State) => s.rlyDrain u)
        let gen := (s.relay u).gen
        match s.rlyWaitStatus s.actor u gen dl with
        | some st =>
          let v ← fun s => .ok (s.rlyWaitEnd s.actor u st)
          modMe fun k => k.wr d v
          return Flow.seq
        | none => stall (.rlyWait (physS k.rrb d) u gen dl)) s) s

/-- RLY_WAIT_RETURN: a stalled WAIT whose condition has come returns (R341). -/
def State.rlyWaitReturn (s : State) (c : Nat) : State :=
  match (s.core c).wait with
  | .rlyWait d u gen dl =>
    match s.rlyWaitStatus c u gen dl with
    | some st =>
      let (v, s) := s.rlyWaitEnd c u st
      s.answer c d v
    | none => s
  | _ => s

/-- RLY_WAIT_RETURN. -/
def execRlyWaitReturn (core : Nat) (s : State) : Host.Outcome State Fault Refusal := .next (s.rlyWaitReturn core)

/-- The end of a relay in any state (R342). -/
def State.rlyClose (s : State) (u : Nat) : State :=
  let x := s.relay u
  let s := x.running.foldl (fun s n => s.rlyChains u n) s
  let x := s.relay u
  (s.setRelay u { x with
    gen := (x.gen + 1) % 2 ^ 32, st := .free, sweepOn := false, owed := [], work := [] }).rlyWake u

/-- RLY.CLOSE. -/
def execRlyClose (n : Ann) (a : SReg) (s : State) : Host.Outcome State Fault Refusal :=
  pacerWord n 12 [a] false (fun s =>
    match s.relayOf s.actor (s.me.rd a) with
    | none => .error (.trap (tr cRANGE))
    | some u =>
      (do
        rlyArrive u
        attemptM (modify fun (s : State) => s.rlyClose u)
        return Flow.seq) s) s

-- Lost work (R325, R342).

/-- One piece of work is returned: its record is acknowledged, and the leg fed again (R325). -/
def State.rlyReturn (s : State) (u : Nat) (w : RlyWork) : State :=
  let x := s.relay u
  let s := s.setRelay u { x with work := x.work.filter fun y => y != w }
  let s := s.rlyAck u w.coarse w.payload (relaySrc u) (s.view (relaySrc u)).k
  match ((s.relay u).leg? w.leg).filter fun l => l.st != .retired with
  | none => s
  | some l =>
    if w.coarse then s.rlyCoarse u w.leg
    else if w.cancelled || !l.run || l.rver != w.ver then s
    else (s.putLeg u { l with run := false }).rlyFine u w.leg

/-- The work that a contained pacer, or a crew instance that has ended, held goes back, as an event of each unit (R315, R325). -/
def State.rlyLost (s : State) (p : RlyWork → Bool) : State :=
  (s.relays.map fun e => e.1).foldl (fun s u =>
    let l := (s.relay u).work.filter p
    let s := if l.isEmpty then s else s.relayDeadline u
    if l.isEmpty then s
    else if s.rlyDue u then s.hold .wait
    else (l.foldl (fun s w => s.rlyReturn u w) (s.rlyOwn u)).rlyGo u) s

/-- The relays that a crew instance opened close with its end (R342). -/
def State.rlyCloseAll (s : State) (inst : Nat) : State :=
  (s.relays.filter fun e => e.2.st != .free && e.2.inst == inst).foldl (fun s e => s.rlyClose e.1) s

end Sys2Proof.Machine
end

