-- ==== Sys2Proof/Machine/Trap.lean ====
section
/-! DEFINITION. Traps that are pending, their handlers' start, and containment (R82, R345–R351, R357–R359, R385). The operation
that takes a trap, and the return from one, are in Ops.lean and System.lean. -/
namespace Sys2Proof.Machine

-- Draining (R345).

/-- Have the entries completed that drain for a trap? `send` names the section of a section-end trap: entries of begun parts and
of that section's parts drain, later sections are held. -/
def Core.drained (k : Core) (send : Option Nat) : Bool :=
  match send with
  | none => k.parts.isEmpty && k.q.isEmpty && k.fly.isEmpty
  | some sec =>
    k.fly.isEmpty && !(k.parts.any fun p => p.sec == sec) && !k.q.any fun e => k.begun.any fun b => b.1 == e.part

/-- The handler's first header (R347). -/
def Core.handlerPc (k : Core) : Nat := fld k.tvec 2 53 * 4

/-- TRAP_HANDLER_ENTRY: the entries have drained, and the pacer goes to the header at TVEC (R345). -/
def State.handlerEntry (s : State) (c : Nat) : State :=
  let k := s.core c
  match k.wait with
  | .drain send =>
    if k.frozen || k.contained || !k.drained send then s
    else
      s.setCore c ({ k with wait := .none, secFault := if send.isSome then none else k.secFault }.gotoHdr k.handlerPc)
  | _ => s

/-- TRAP_HANDLER_ENTRY. -/
def execTrapHandlerEntry (core : Nat) (s : State) : Host.Outcome State Fault Refusal := .next (s.handlerEntry core)

/-- Is the pacer at a word boundary, or stalled on a word, in user mode and not frozen (R195, R345, R351)? An atomic that its home has
performed completes first: the trap drops the access of the word it interrupts. -/
def State.interruptible (s : State) (c : Nat) : Bool :=
  let k := s.core c
  k.crew.isSome && !k.contained && !k.mode && !k.frozen &&
    match k.wait with
    | .rmw _ _ id _ _ _ _ => (match s.req id with | some r => r.pending | none => true)
    | .drain _ | .chanFault _ | .preempt | .answered .. | .ended => false
    | _ => true

-- Section-end traps (R82 point 4, R345, R348, R350).

/-- The lowest channel with a pending fault on whose guard a VL entry froze (R82 point 4). -/
def Core.frozeFault (k : Core) : Option Nat :=
  (List.range 8).find? fun ch => (k.chan ch).froze && (k.chan ch).fault.isSome

/-- SECTION_END_TRAP: the fault of a section is taken, with TPC at the entry's word and TADDR at the resume point; or a channel's
fault of R82 point 4 stops the pacer, and is taken once the entries that drain for it have completed. -/
def State.sectionEnd (s : State) (c : Nat) : State :=
  let k := s.core c
  match k.wait with
  | .chanFault ch =>
    if k.frozen || k.contained || !k.drained (some (k.chan ch).freezeSec) then s
    else
      match (k.chan ch).fault with
      | some t => (s.setCore c ({ k with wait := .none }.setChan ch { k.chan ch with fault := none, froze := false })).preciseTrap c t
      | none => s.setCore c { k with wait := .none }
  | _ =>
    if !s.interruptible c then s
    else
      match k.secFault with
      | some f => s.takeTrap c (tr f.code k.pc f.detail f.eng) f.addr f.iter false (some f.sec) s.gtc
      | none =>
        match k.frozeFault with
        | some ch =>
          let s := { s with reqs := s.reqs.filter fun r => !r.asks c }
          s.setCore c { k.endPart with wait := .chanFault ch, retry := false, relFabric := none }
        | none => s

/-- SECTION_END_TRAP. -/
def execSectionEndTrap (core : Nat) (s : State) : Host.Outcome State Fault Refusal := .next (s.sectionEnd core)

-- Asynchronous traps (R351).

/-- ASYNC_TRAP: a pending PEERLOST, else the pending WATCH events merged into one trap that records the oldest (R351). -/
def State.asyncTrap (s : State) (c : Nat) : State :=
  let k := s.core c
  if !s.interruptible c then s
  else
    match k.asyncPeer, k.asyncWatch with
    | some (va, src), _ =>
      (s.setCore c { k with asyncPeer := none }).takeTrap c (tr cPEERLOST va 0 0 (some src)) k.pc k.iter true none s.gtc
    | none, e :: _ =>
      (s.setCore c { k with asyncWatch := [] }).takeTrap c (tr cWATCH e.addr 0 0 (some e.src)) k.pc k.iter true none
        e.stamp
    | none, [] => s

/-- ASYNC_TRAP. -/
def execAsyncTrap (core : Nat) (s : State) : Host.Outcome State Fault Refusal := .next (s.asyncTrap core)

-- Containment (R357–R359).

/-- TPC of a containment: as the trap that was not handled would have reported it. -/
def Core.containPc (k : Core) (cause : Nat) : Nat :=
  if (cause = cTRAPI ∨ cause = cBKPT) ∧ k.mcall.isNone then k.pc + 12
  else match k.secFault with | some f => if f.code = cause then f.addr else k.pc | none => k.pc

/-- Remove the increments that a core made of its team's buffer counts (R358). -/
def State.dropCounts (s : State) (c : Nat) : State :=
  let k := s.core c
  let t := s.team (teamOf c)
  let e := k.crew.getD 0
  s.setTeam (teamOf c) { t with
    counts := k.bufs.foldl (fun m b => AMap.upd m (bufKey e b.1) (m.get 0 (bufKey e b.1) - b.2)) t.counts }

/-- Release every slot a core claims, its lease and its wait for one (R254, R358). -/
def State.releaseClaims (s : State) (c : Nat) : State :=
  let tm := teamOf c
  let t := s.team tm
  let s := s.setTeam tm { t with
    owner := t.owner.filter fun o => o.2 != c
    reqs := t.reqs.filter fun r => r.2.2.1 != c }
  match t.lease with
  | some (x, _) => if x = c then s.grant tm else s
  | none => s

/-- The steps by which the other cores of a crew notice that one has been contained (R263, R359). -/
def State.lostWakes (s : State) (e c : Nat) : List Instr :=
  s.cores.filterMap fun k =>
    if k.1 = c ∨ k.2.crew ≠ some e then none
    else
      match k.2.wait with
      | .bar .. => some (.barRelease k.1)
      | .waita .. => some (.waitaPoll k.1)
      | .heatWait .. => some (.heatWaitReturn k.1)
      | .collWait .. => some (.collWaitReturn k.1)
      | _ => none

/-- Cancel a chain of a contained core at once (R96, R358): where the host must answer first about its records, they are marked when it
has (R72). -/
def State.cancelNow (s : State) (c ch : Nat) : State :=
  match s.cancelWaits c ch with
  | none => s.cancelFull c ch
  | some _ =>
    let l := (s.cancelVas c ch).map fun va => (ch, va)
    let s := (s.landPosted c ch).dropChain c ch
    s.setCore c { s.core c with marks := (s.core c).marks ++ l }

/-- Stop a pacer and all that its core drives, in one step (R358). Its writes already issued land or not; its reads are
dropped. -/
def State.stopCore (s : State) (c : Nat) : State :=
  let s := (List.range 8).foldl (fun s ch => s.cancelNow c ch) s
  let s := (s.releaseClaims c).dropCounts c
  let s := { s with reqs := s.reqs.filter fun r => !(r.core == c && r.kind == ReqKind.read) }
  let k := s.core c
  s.setCore c { k with
    contained := true, wait := .none, q := [], fly := [], parts := [], begun := [], cur := none, mcall := none, retry := false,
    frozen := false, secFault := none, kept := none, asyncPeer := none, asyncWatch := [], owed := [],
    bufs := [], relFabric := none, answered := [], woken := false, leaving := true }

/-- A contained core leaves the units that its instance uses: the records of its cancelled chains are marked, its heats are left, its relay
work is returned (R96, R302, R325). Where the host must answer first about a page, that comes then (R72). -/
def State.unitsLeave (s : State) (c : Nat) : State :=
  match s.instOf c with
  | none => s
  | some inst =>
    s.attempt (srcOf c 5 :: s.unitAgents) fun s =>
      let s := (s.core c).marks.foldl (fun s m =>
        match s.xlateNow (dieOf c) (s.core c).asid m.2 .wr true with
        | .error _ => s
        | .ok (t, _) =>
          let due := s.snoopsDue (srcOf c 5) t 64
          if !due.isEmpty then s.hold (.snoop (srcOf c 5) due)
          else if s.repairing t.key then s.hold .wait
          else s.cancelRecord c m.1 m.2) s
      let s := s.heatLeaveAll fun m => m.core == c && m.inst == inst
      let s := s.rlyLost fun w => w.core == c && w.inst == inst
      s.setCore c { s.core c with leaving := false, marks := [] }

/-- CONTAINMENT (R357–R359): the record in the log, the core stopped, its heats left, its relay work returned, its runs lost, and
PEERLOST owed by every other core of its crew. -/
def State.contain (s : State) (c cause : Nat) : State :=
  let k := s.core c
  match k.crew with
  | none => s
  | some e =>
    if k.contained then (if k.leaving then s.unitsLeave c else s)
    else if k.wait = .ended then s
    else
      let s := s.logPut (logRecord s.gtc (s.ext (srcOf c 0)) 1 cause (k.containPc cause))
      let x := s.crew e
      let reached := (x.arrivals.filter fun r => r.2.1 == k.leg && r.2.2.2.1 == c).foldl (fun n r => Nat.max n r.2.2.1) k.bars
      let inst := s.inst e
      let s := s.stopCore c
      let x := s.crew e
      let s := s.setCrew e { x with lost := x.lost ++ [(k.leg, c, reached)] }
      let s : State := { s with cores := s.cores.map fun y =>
        if y.1 ≠ c ∧ y.2.crew = some e ∧ y.2.wait ≠ .ended ∧ !y.2.contained then
          (y.1, { y.2 with owed := y.2.owed ++ [srcOf c 0] }) else y }
      let s := (s.collContain c inst).unitsLeave c
      { s with agenda := s.lostWakes e c ++ .instanceEnd c :: s.agenda }

/-- CONTAINMENT. -/
def execContainment (core cause : Nat) (s : State) : Host.Outcome State Fault Refusal := .next (s.contain core cause)

end Sys2Proof.Machine
end

