-- ==== Sys2Proof/Machine/End.lean ====
section
/-! DEFINITION. How a core's instance, a replica and a crew end (R207, R250, R254, R264, R358). -/
namespace Sys2Proof.Machine

/-- The scope of a crew's end releases (R254). -/
def endScope (x : Crew) : Nat := if x.host then 15 else 3

/-- Have the core's engines retired every section, are its channels idle and its quay instructions complete (R207)? -/
def State.exitQuiet (s : State) (c : Nat) : Bool :=
  let k := s.core c
  k.parts.isEmpty && k.q.isEmpty && k.fly.isEmpty && ((List.range 8).all fun ch => (k.chan ch).phase == .idle) && s.pend c == 0

/-- Nothing of a core is in flight any more: its writes reach their homes or are dropped (R226, R358), its misses and snoops are
over. -/
def State.dropFlights (s : State) (c : Nat) : State :=
  let s := (s.reqs.filter fun r => r.core == c).foldl State.settle s
  let d := s.die (dieOf c)
  let s := if d.walks.any fun w => w.core == c then s.setWalks (dieOf c) (d.walks.filter fun w => w.core != c) else s
  { s with snoops := s.snoops.filter fun x => !(List.range 6).any fun e => x.agent == srcOf c e }

/-- A core leaves its crew: slots and lease released, its watchpoints gone, nothing of it in flight. -/
def State.freeCore (s : State) (c : Nat) : State :=
  let s := (s.releaseClaims c).dropFlights c
  let s : State := { s with watchers := s.watchers.filter fun w => w.1 != c }
  let k := s.core c
  s.setCore c { k with
    crew := none, contained := false, wait := .none, parts := [], begun := [], cur := none, q := [], fly := [],
    frozen := false, bufs := [] }

/-- The cores of a leg. -/
def State.legCores (s : State) (e leg : Nat) : List Nat :=
  (s.cores.filter fun c => c.2.crew == some e && c.2.leg == leg).map fun c => c.1
/-- Is a core's instance over? A contained core's quay instructions complete first (R358). -/
def State.coreOver (s : State) (c : Nat) : Bool :=
  let k := s.core c
  k.wait == .ended || (k.contained && s.pend c == 0 && !k.leaving)
/-- Has a leg ended? -/
def LegState.over : LegState → Bool
  | .ended | .faulted | .killed => true
  | _ => false
/-- Have all of a crew's legs ended? -/
def Crew.allOver (x : Crew) : Bool := (List.range (rLegs x.rcd)).all fun l => (x.legs.get .waiting l).over

/-- A replica ends once every one of its cores has ended (R254). -/
def State.replicaEnd (s : State) (e leg : Nat) : State :=
  let l := s.legCores e leg
  if l.isEmpty || !(l.all s.coreOver) then s
  else
    let bad := l.any fun c => (s.core c).contained
    let s := l.foldl State.freeCore s
    let x := s.crew e
    let st : LegState := if !bad then .ended else if x.killed then .killed else .faulted
    let x := { x with legs := AMap.upd x.legs leg st }
    let s := s.setCrew e x
    if x.allOver then { s with agenda := .crewEnd e :: s.agenda } else s

/-- An instance ends by EXIT (R207, R254, R264): its carried set is kept for the crew's end and for BARs; its replica may end. -/
def State.coreExit (s : State) (c e : Nat) : State :=
  let k := s.core c
  let x := s.crew e
  let m := s.release (srcOf c 0) (endScope x)
  let s := s.setCrew e { x with exited := AMap.upd x.exited (k.leg * 1024 + c) m }
  let s := s.setCore c { k with wait := .ended }
  let bars := s.cores.filterMap fun y =>
    match y.2.wait with
    | .bar .. => if y.2.crew = some e then some (Instr.barRelease y.1) else none
    | _ => none
  ({ s with agenda := bars ++ s.agenda }).replicaEnd e k.leg

/-- INSTANCE_END: a core stalled in EXIT takes the faults and traps that are pending, and ends its instance once EXIT's conditions
hold (R82, R207, R240, R241, R356, R397): a write that failed gives its trap each time EXIT runs; a contained core's replica may end
(R254). -/
def State.instanceEnd (s : State) (c : Nat) : State :=
  let k := s.core c
  match k.crew with
  | none => s
  | some e =>
    if k.contained then s.replicaEnd e k.leg
    else if k.wait ≠ .exit ∨ k.frozen ∨ k.secFault.isSome then s
    else
      match (List.range 8).findSome? fun ch => (k.chan ch).fault.map fun f => (ch, f) with
      | some (ch, f) => (s.setCore c (k.setChan ch { k.chan ch with fault := none, froze := false })).preciseTrap c f
      | none =>
        if !s.exitQuiet c || (!k.mode && (k.asyncPeer.isSome || !k.asyncWatch.isEmpty)) then s
        else
          match s.reqs.find? fun r => r.core == c && r.stores && (r.phase == .failed || r.phase == .dead) with
          | some r =>
            if r.phase = .dead then s.preciseTrap c (tr cECCU r.va)
            else if k.mode then s
            else { s.setCore c { k with asyncPeer := some (0, s.lostAgent r.key) } with agenda := .asyncTrap c :: s.agenda }
          | none => if s.reqs.any fun r => r.core == c && r.writes then s else s.coreExit c e

/-- INSTANCE_END. -/
def execInstanceEnd (core : Nat) (s : State) : Host.Outcome State Fault Refusal := .next (s.instanceEnd core)

-- The crew's end (R254).

/-- The end status: 0, or LEGFAULT or KILLED with the lowest failing leg. -/
def Crew.endStatus (x : Crew) : Nat :=
  match (List.range (rLegs x.rcd)).find? fun l => let t := x.legs.get .waiting l; t == .faulted || t == .killed with
  | none => if x.killed then lKILLED else 0
  | some l => (if x.killed then lKILLED else lLEGFAULT) + l * 2 ^ 16

/-- Write the completion record: dword 1, then dword 0 as a release at DSCOPE; a page that now fails R65 is logged, and so is a record
that cannot be reached (R254, R385, log entry 52). Where the host must answer first, that comes back. -/
def State.writeDone (s : State) (e status : Nat) (ms : List Msg) : Except Stop State :=
  let x := s.crew e
  let a := launchSrc (e / 256)
  let va := rDone x.rcd
  if va = 0 then .ok s
  else
    match s.unitRuns a (e / 256) (rAsid x.rcd) va 16 .wr true with
    | .error (.trap t) => .ok (s.logPut (logRecord s.gtc (s.ext a) 7 t.code va))
    | .error e => .error e
    | .ok (ps, s) =>
      let key := (ps.head?.map fun p => p.2.2.key).getD 0
      let s := s.homeWrite a (key + 8) 8 status []
      let w := (key + 8) / 8
      let k := kJoin (ms.foldl (fun k m => kJoin k m.k) []) [(w, (s.wordHist w).ws.length)]
      let m : Msg := { agent := a, scope := rDscope x.rcd, k := k.filter fun p => carriesIn s.fabric (rDscope x.rcd) p.1 }
      .ok (s.homeWrite a key 8 1 [m])

/-- The children of a crew that has ended: the ended ones are freed, the others need no collection (R250). -/
def State.orphan (s : State) (e : Nat) : State :=
  { s with crews := s.crews.map fun y =>
      if y.2.live ∧ y.2.parent = some e then
        if y.2.status.isSome then (y.1, { y.2 with live := false }) else (y.1, { y.2 with parent := none, det := true })
      else y }

/-- What the manual has a crew's end do once its completion record is written (R250, R254): the entry is marked ended. What the crew's
instance held in units ends with it (R302, R311, R325, R342). -/
def State.crewOver (s : State) (e status : Nat) (ms : List Msg) : State :=
  let inst := s.inst e
  let s := s.heatLeaveAll fun m => m.inst == inst
  let s := (s.rlyLost fun w => w.inst == inst).rlyCloseAll inst
  let x := s.crew e
  let s := s.setCrew e { x with
    status := some status, live := !x.det, preempt := false, saved := [], arrivals := [], exited := [], lost := [], endMsgs := ms }
  let s : State := { s with
    teams := s.teams.map fun t => (t.1, { t.2 with counts := t.2.counts.filter fun b => b.1 / 64 != e })
    spec := s.spec.map fun p => (p.1, { p.2 with pins := p.2.pins.filter fun i => i != e }) }
  let s := (s.orphan e).dropGraphs
  let l := s.cores.filterMap fun c =>
    match c.2.wait with
    | .waitch _ e' _ => if e' = e then some (Instr.waitchReturn c.1) else none
    | _ => none
  { s with agenda := l ++ s.agenda }

/-- The releases that a crew's end makes for its instance (R225, R254). -/
def State.endMsgsOf (s : State) (e : Nat) : List Msg :=
  (s.crew e).exited.map fun m => { m.2 with agent := launchSrc (e / 256) }

/-- A crew whose replicas have ended: the completion record, and what ends with the crew (R254). The step is held where the host must
answer first (R72). -/
def State.crewDone (s : State) (e : Nat) : State :=
  match s.writeDone e (s.crew e).endStatus (s.endMsgsOf e) with
  | .ok t => t.crewOver e (s.crew e).endStatus (s.endMsgsOf e)
  | .error r => s.hold r

/-- CREW_END: every replica has ended (R254). -/
def State.crewEnd (s : State) (e : Nat) : State :=
  let x := s.crew e
  if !x.live || x.status.isSome || !x.allOver then s
  else s.attempt (launchSrc (e / 256) :: s.unitAgents) fun s => s.crewDone e

/-- CREW_END. -/
def execCrewEnd (crew : Nat) (s : State) : Host.Outcome State Fault Refusal := .next (s.crewEnd crew)

end Sys2Proof.Machine
end

