-- ==== Sys2Proof/Machine/Preempt.lean ====
section
/-! DEFINITION. Pre-emption: taking it, the save area, and resumption (R263, R360–R364, R377, R378). -/
namespace Sys2Proof.Machine

-- Taking a pre-emption (R360, R361).

/-- Does a core take its crew's pending pre-emption now (R263, R360)? -/
def State.preemptNow (s : State) (c : Nat) : Bool :=
  let k := s.core c
  s.preemptPending c && s.interruptible c && k.secFault.isNone &&
    match k.wait with
    | .bar .. => true
    | .none | .exit => (match k.parts with | p :: _ => p.first | [] => false)
    | _ => false

/-- Has a channel nothing in progress: idle, or its chain awaits a section that has not begun (R361 point 3)? -/
def Core.chanRests (k : Core) (ch : Nat) : Bool :=
  let x := k.chan ch
  x.phase == .idle || (x.phase == .awaiting && !k.partBegun x.part)

/-- The length of a save area: its last slot ends it (R363). -/
def areaLen : Nat := 0x490000 + 32 * 0x10800
/-- Is a save area's memory in service (R386)? -/
def State.areaServed (s : State) (base : Nat) : Bool := s.inService (kHbm base) && s.inService (kHbm (base + areaLen - 1))
/-- Is a row in repair in the stacks that hold a save area (R387)? -/
def State.areaHeld (s : State) (base : Nat) : Bool :=
  s.repairs.any fun r => r.1 == stackOf (kHbm base) || r.1 == stackOf (kHbm (base + areaLen - 1))
/-- Where a core's save area starts (R362). -/
def Core.area (k : Core) : Nat := fld k.saveptr 16 36 * 65536

/-- Has everything come to rest that R361 waits for? Posted writes that await acknowledgement stay in the log. -/
def State.preemptQuiet (s : State) (c : Nat) : Bool :=
  let k := s.core c
  k.fly.isEmpty && !(k.q.any fun e => k.begun.any fun b => b.1 == e.part) && (List.range 8).all k.chanRests && s.pend c == 0 &&
    !s.areaHeld k.area &&
    s.reqs.all fun r => r.core != c || r.phase == .failed || r.phase == .dead || (r.writes && r.phase == .performed)

-- The save area (R362, R363).

/-- The register fields of an engine word, mapped. -/
def mapRegs (v : VReg → VReg) (r : SReg → SReg) : Instr → Instr
  | .vld n p d a imm => .vld n p (v d) (r a) imm
  | .vldg n f cl d a b => .vldg n f cl (v d) (v a) (r b)
  | .vldb n f d a imm => .vldb n f (v d) (r a) imm
  | .sld n x q a b imm => .sld n x q (r a) (r b) imm
  | .vst n p a b imm => .vst n p (r a) (v b) imm
  | .vsts n f a b c => .vsts n f (v a) (v b) (r c)
  | .vstm n f a b c imm => .vstm n f (r a) (v b) (v c) imm
  | .vadd n o => .vadd n (f2 o)
  | .vsub n o => .vsub n (f2 o)
  | .vmul n o => .vmul n (f2 o)
  | .vmin n o => .vmin n (f2 o)
  | .vmax n o => .vmax n (f2 o)
  | .vdiv n o => .vdiv n (f2 o)
  | .vfma n o => .vfma n (f3 o)
  | .vfms n o => .vfms n (f3 o)
  | .vfnma n o => .vfnma n (f3 o)
  | .vabs n o => .vabs n (f1 o)
  | .vneg n o => .vneg n (f1 o)
  | .vsqrt n o => .vsqrt n (f1 o)
  | .vrsq n o => .vrsq n (f1 o)
  | .vrcp n o => .vrcp n (f1 o)
  | .vexp2 n o => .vexp2 n (f1 o)
  | .vlog2 n o => .vlog2 n (f1 o)
  | .viadd n o => .viadd n (i2 o)
  | .visub n o => .visub n (i2 o)
  | .vimul n o => .vimul n (i2 o)
  | .vimad n o => .vimad n { o with d := v o.d, a := v o.a, b := v o.b, c := v o.c }
  | .vimin n o => .vimin n (i2 o)
  | .vimax n o => .vimax n (i2 o)
  | .vand n o => .vand n (i2 o)
  | .vor n o => .vor n (i2 o)
  | .vxor n o => .vxor n (i2 o)
  | .vshl n o => .vshl n (i2 o)
  | .vshr n o => .vshr n (i2 o)
  | .vsar n o => .vsar n (i2 o)
  | .vclz n o => .vclz n { o with d := v o.d, a := v o.a }
  | .vpopc n o => .vpopc n { o with d := v o.d, a := v o.a }
  | .vcmp n c f x a b => .vcmp n c f x (v a) (v b)
  | .vsel n d a b => .vsel n (v d) (v a) (v b)
  | .vcvt n dst rm sat d a src p => .vcvt n dst rm sat (v d) (v a) src p
  | .vmov n d a => .vmov n (v d) (v a)
  | .vbcast n f d b => .vbcast n f (v d) (match b with | .reg x => .reg (r x) | .imm x => .imm x)
  | .vperm n f d a b c => .vperm n f (v d) (v a) (v b) (v c)
  | .vrot n f d a imm => .vrot n f (v d) (v a) imm
  | .vsort n f de kv d a c => .vsort n f de kv (v d) (v a) (if kv then v c else c)
  | .vred n o => .vred n { o with d := v o.d, a := v o.a }
  | .vscan n o => .vscan n { o with d := v o.d, a := v o.a }
  | .voq n x a => .voq n x (if x = .lane0 then v a else a)
  | .vacr n dst rm sat cl d a b => .vacr n dst rm sat cl (v d) a (r b)
  | .vacw n src acc d a b => .vacw n src acc d (v a) (r b)
  | .mmag n d a c cyc => .mmag n d a (r c) cyc
  | .sclaim n (.mask x) => .sclaim n (.mask (r x))
  | .srls n (.mask x) => .srls n (.mask (r x))
  | i => i
where
  f1 (o : Vf1) : Vf1 := { o with d := v o.d, a := v o.a }
  f2 (o : Vf2) : Vf2 := { o with d := v o.d, a := v o.a, b := v o.b }
  f3 (o : Vf3) : Vf3 := { o with d := v o.d, a := v o.a, b := v o.b, c := v o.c }
  i2 (o : Vi2) : Vi2 := { o with d := v o.d, a := v o.a, b := v o.b }

/-- The word of an entry with its registers as mapped at its push (R148, R193). -/
def Entry.mapped (e : Entry) : Instr :=
  mapRegs (fun j => BitVec.ofNat 10 (physV e.vb j.toNat)) (fun j => BitVec.ofNat 6 (physS (BitVec.ofNat 64 (e.sb * 256)) j)) e.i

/-- What an entry adds to the scalar it read at its push, in its first captured value. -/
def Entry.added (e : Entry) : Word :=
  match e.i, e.blk with
  | .vld _ _ _ _ _, some b | .vst _ _ _ _ _, some b => BitVec.ofNat 64 b.base
  | .vld _ _ _ _ imm, none | .vst _ _ _ _ imm, none | .vldb _ _ _ _ imm, _ | .vstm _ _ _ _ _ imm, _ => sext64 imm
  | .vbcast _ _ _ (.imm x), _ => x.setWidth 64
  | _, _ => 0
/-- The scalar values an entry read at its push, in field order. -/
def Entry.scalars (e : Entry) : Word × Word :=
  match e.i with
  | .srls _ (.mask _) => (BitVec.ofNat 64 e.slots, 0)
  | _ => (e.x0 - e.added, e.x1)

/-- A substituted block as 384 bits; its markers have been applied and read zero. -/
def Block.bits (b : Block) : Nat :=
  ((List.range 4).foldl (fun a d =>
      a + (wrap 36 (b.stride.getD d 0) + b.ext.getD d 0 % 2 ^ 20 * 2 ^ 36) * 2 ^ (56 * d)) 0) +
    b.edge % 256 * 2 ^ 264 + b.efmt.toNat * 2 ^ 272 + b.base % 2 ^ 40 * 2 ^ 280

/-- The 128-byte record of an unbegun entry (R363). -/
def Entry.save (e : Entry) (ahead : Nat) : Nat :=
  let w := match encode e.mapped with | some w => w.toNat | none => 0
  w + (e.pred.toNat + e.rm.code.toNat * 2 + e.en * 16) * 2 ^ 96 + e.scalars.1.toNat * 2 ^ 128 + e.scalars.2.toNat * 2 ^ 192 +
    (match e.blk with | some b => b.bits | none => 0) * 2 ^ 320 + ahead % 2 ^ 32 * 2 ^ 704

/-- An entry as its record gives it; what the record does not hold stays as it was. A word that nobody changed names the physical
registers it named at its push, also those that its fields do not show (R148). -/
def Entry.load (e : Entry) (x : Nat) : Entry :=
  let i := (extract (RawWord.ofBits (BitVec.ofNat 96 x))).getD e.mapped
  let same := i == e.mapped
  let blk : Option Block := e.blk.map fun _ =>
    let b := nfld x 320 384
    { rawBlock b with base := nfld b 280 40 }
  let e := { e with
    i := if same then e.i else i, vb := if same then e.vb else 0, sb := if same then e.sb else 0, pred := x.testBit 96, rm := (Rm.ofCode (BitVec.ofNat 3 (nfld x 97 3))).getD e.rm,
    en := nfld x 100 5, blk := blk, x1 := BitVec.ofNat 64 (nfld x 192 64) }
  match e.i with
  | .srls _ (.mask _) => { e with slots := nfld x 128 32 }
  | _ => { e with x0 := BitVec.ofNat 64 (nfld x 128 64) + e.added }

/-- The parts that stand before a part which has not begun. -/
def Core.ahead (k : Core) (part : Nat) : Nat := (k.parts.takeWhile fun p => p.id != part).length
/-- The entries in the order of the area: VL, VX, VS, MX, each in queue order. -/
def Core.queued (k : Core) : List Entry :=
  [Eng.vl, Eng.vx, Eng.vs, Eng.mx].flatMap fun g => k.q.filter fun e => e.eng == g
/-- The number of entries of an engine. -/
def Core.qlen (k : Core) (g : Eng) : Nat := (k.q.filter fun e => e.eng == g).length

/-- RHDR: the header of the section whose first part begins next: with no first part still to begin, the current one. -/
def Core.rhdr (k : Core) : Part :=
  match (k.parts ++ k.cur.toList).find? fun p => p.first with
  | some p => p
  | none =>
    { id := k.partNo, sec := k.ctx.ord, first := true, hdr := k.ctx.hdr, hdrAddr := k.ctx.hdrAddr, since := 0, fmts := 0,
      vcmps := 0, mpops := 0, voqs := 0 }

/-- A channel's 32 bytes. -/
def Chan.save (x : Chan) : Nat :=
  let st := if x.phase = .awaiting then 1 else if x.fault.isSome then 2 else 0
  let (code, ta) := match x.fault with | some f => (f.code, f.addr) | none => (0, 0)
  x.gen + st * 2 ^ 32 + code * 2 ^ 40 + x.recVa * 2 ^ 64 + x.guard * 2 ^ 128 + ta * 2 ^ 192

/-- The claims of a core, bit q for slot q. -/
def State.claims (s : State) (c : Nat) : Nat :=
  (s.team (teamOf c)).owner.foldl (fun m o => if o.2 = c then m ||| 2 ^ o.1 else m) 0

/-- The fixed dwords of the area, by offset. -/
def State.saveWords (s : State) (c : Nat) : List (Nat × Nat) :=
  let k := s.core c
  let bits (l : List Bool) : Nat := l.zipIdx.foldl (fun a b => a + b.1.toNat * 2 ^ b.2) 0
  [(0x00, 1), (0x08, cPREEMPT), (0x10, s.gtc), (0x18, k.pc), (0x20, k.rhdr.hdrAddr), (0x28, k.ccc), (0x30, k.rrb.toNat),
   (0x38, k.fpcr.toNat), (0x40, k.fpsr.toNat), (0x48, k.qstat.toNat), (0x50, k.slip), (0x58, k.dlost.toNat),
   (0x60, k.p.toNat + k.mskdepth * 2 ^ 8 + k.outcnt * 2 ^ 16), (0x68, k.defm.toNat), (0x70, s.claims c),
   (0x78, (List.range 8).foldl (fun a i => a + k.tok.get 0 i * 2 ^ (8 * i)) 0),
   (0x80, k.qlen .vl + k.qlen .vx * 2 ^ 8 + k.qlen .vs * 2 ^ 16 + k.qlen .mx * 2 ^ 24 + k.fmtq.length * 2 ^ 32 +
      k.outq.length * 2 ^ 40),
   (0x88, bits k.outq), (0x90, k.livemap.toNat), (0x100, k.tvec.toNat), (0x108, k.mcsw.toNat), (0x110, k.tlog.toNat)] ++
  ((List.range 4).map fun n => (0x118 + 8 * n, (k.watch.get 0 n).toNat)) ++
  ((List.range 4).map fun n => (0x138 + 8 * n, (k.watchctl.get 0 n).toNat)) ++
  ((List.range 64).map fun j => (0x200 + 8 * j, (k.rdP j).toNat)) ++
  ((List.range 32).map fun j => (0x400 + 8 * j, (k.fmtq.getD j 0).toNat)) ++
  (k.masks.reverse.zipIdx.flatMap fun m => (List.range 6).map fun j => (0x500 + 48 * m.2 + 8 * j, fld m.1 (64 * j) 64)) ++
  ((List.range 8).flatMap fun ch => (List.range 4).map fun j => (0xB00 + 32 * ch + 8 * j, nfld (k.chan ch).save (64 * j) 64)) ++
  ((List.range 64).map fun j =>
    (0xC40 + 8 * j, match k.defer.find j with
      | some d => if k.isDef j then d.1 % 2 ^ 55 + d.2.code.toNat * 2 ^ 56 else 0
      | none => 0)) ++
  (k.queued.zipIdx.flatMap fun e =>
    (List.range 16).map fun j => (0x5000 + 128 * e.2 + 8 * j, nfld (e.1.save (k.ahead e.1.part)) (64 * j) 64))

/-- Bytes as words, by offset divided by 8. -/
def packWords (l : List (Nat × Byte)) : AMap Nat :=
  l.foldl (fun m p => AMap.upd m (p.1 / 8) (AMap.get 0 m (p.1 / 8) + p.2.toNat * 256 ^ (p.1 % 8))) []

/-- The aligned words that HOME watchpoints watch. -/
def State.watchedWords (s : State) : List Nat :=
  s.watchers.flatMap fun x => (List.range ((x.2.2.1 + x.2.2.2.1 + 7) / 8 - x.2.2.1 / 8)).map fun i => x.2.2.1 / 8 + i

/-- Replace the contents of every aligned word in a set by given words, zero where none is given: the words that are listed
or watched anywhere are written by an agent, so that floors, home sequences and HOME watchpoints see it (R225, R238). -/
def State.putWords (s : State) (a : Nat) (here : Nat → Bool) (ws : AMap Nat) : KMap × State :=
  let known : List Nat := s.hist.map fun h => h.1
  let listed : List Nat := s.mem.map fun c => c.1 / 8
  let given : List Nat := ws.map fun w => w.1
  ((known ++ listed ++ given ++ s.watchedWords).filter here).dedup.foldl (fun r w =>
    let s := r.2.homeWrite a (8 * w) 8 (ws.get 0 w) []
    (AMap.upd r.1 w (s.wordHist w).ws.length, s)) ([], s)

/-- The aligned words of a byte range. -/
def wordsIn (lo n : Nat) (w : Nat) : Bool := lo ≤ 8 * w && 8 * w < lo + n

/-- Write a range of the save area: words by offset divided by 8. -/
def State.putArea (s : State) (c off n : Nat) (ws : AMap Nat) : State :=
  let lo := kHbm ((s.core c).area + off)
  (s.putWords (srcOf c 0) (wordsIn lo n) (ws.map fun w => (lo / 8 + w.1, w.2))).2

/-- The bytes memory lists in a range, by offset, moved by a function of the offset. -/
def State.bytesIn (s : State) (lo n : Nat) (f : Nat → Option Nat) : List (Nat × Byte) :=
  s.mem.filterMap fun c => if lo ≤ c.1 ∧ c.1 < lo + n then (f (c.1 - lo)).map fun o => (o, c.2) else none

/-- The slice of a core that a team offset lies in, and the byte within it (R99); and the way back. -/
def sliceByte (core off : Nat) : Option Nat := if off / 128 % 4 = core then some (off / 512 * 128 + off % 128) else none
def teamByte (core k : Nat) : Nat := k / 128 * 512 + core * 128 + k % 128

/-- Words of a vector register. -/
def vregWords (v : VBits) : AMap Nat :=
  (splitBits 64 192 v.toNat).zipIdx.filterMap fun p => if p.1 = 0 then none else some (p.2, p.1)

/-- Write a core's save area (R363). Nothing is written where its memory is not in service (R386). The manual gives no layout for the operand log's entries of 64 bytes: its bytes are open values, and
the accesses themselves stay in the model's list of requests (log entry 29). -/
def State.saveArea (s : State) (c : Nat) : State :=
  let k := s.core c
  let tm := teamOf c
  if !s.areaServed k.area then s else
  let (oplog, s) := s.freeBytes 2048 8
  let s := s.putArea c 0x1000 0x4000 (oplog.zipIdx.map fun p => (p.2, p.1))
  let s := (s.saveWords c).foldl (fun s w => s.homeWrite (srcOf c 0) (kHbm (k.area + w.1)) 8 (w.2 % 2 ^ 64) []) s
  let s := ((List.range 1024).filter fun j => k.livebits.getLsbD j).foldl (fun s j =>
    s.putArea c (0x10000 + 1536 * j) 1536 (vregWords (k.vreg j))) s
  let s := s.putArea c 0x190000 0x100000 k.frames
  let s := s.putArea c 0x290000 0x200000 (packWords (s.bytesIn (kSpad tm 0) (2 ^ 23) (sliceByte (c % 4))))
  (maskSlots (s.claims c)).foldl (fun s q =>
    s.putArea c (0x490000 + 0x10800 * q) 0x10800 (packWords (s.bytesIn (kSlot tm q 0) 0x10800 some))) s

-- The crew counts as pre-empted (R361, R377).

/-- What stands for a saved core's number wherever the machine holds one: it is no core of the package. -/
def savedCore (e key : Nat) : Nat := 2 ^ 26 * (1 + e) + key
/-- The key of a core in a crew's tables. -/
def Core.keyOf (k : Core) (c : Nat) : Nat := k.leg * 1024 + c

/-- Rename a core in all that a crew instance has left at units: its requests, heats, runs and relay work. -/
def State.renameCore (s : State) (inst old new : Nat) : State :=
  { s with
    reqs := s.reqs.map fun r =>
      if r.core = old then { r with core := new, agent := if new < Config.cores then srcOf new (r.agent / 4 % 8) else r.agent } else r
    heats := s.heats.map fun h =>
      (h.1, { h.2 with members := h.2.members.map fun m => if m.core = old ∧ m.inst = inst then { m with core := new } else m })
    graphs := s.graphs.map fun g =>
      (g.1, { g.2 with runs := g.2.runs.map fun r => if r.core = old ∧ r.inst = inst then { r with core := new } else r })
    relays := s.relays.map fun u =>
      (u.1, { u.2 with work := u.2.work.map fun w => if w.core = old ∧ w.inst = inst then { w with core := new } else w }) }

/-- Write the buffer counts of a team into the area of the crew's lowest core there (R363). -/
def State.saveCounts (s : State) (e : Nat) : State :=
  let l := (s.cores.filter fun c => c.2.crew == some e).map fun c => c.1
  l.foldl (fun s c =>
    let k := s.core c
    let first := !l.any fun x => teamOf x == teamOf c && decide (x < c)
    if k.contained || k.wait != .preempt || !s.areaServed k.area then s
    else
      let cnt (n : Nat) : Nat := if first then (s.team (teamOf c)).counts.get 0 (bufKey e n) else 0
      s.putArea c 0xC00 64 ((List.range 8).map fun j =>
        (j, (List.range 8).foldl (fun a i => a + cnt (8 * j + i) * 256 ^ i) 0))) s

/-- The crew counts as pre-empted: its cores are freed, and it waits in its pool. -/
def State.preemptDone (s : State) (e : Nat) : State :=
  let inst := s.inst e
  let s := s.saveCounts e
  let l := (s.cores.filter fun c => c.2.crew == some e).map fun c => c.1
  let s := l.foldl (fun s c =>
    let k := s.core c
    let key := k.keyOf c
    let x := s.crew e
    let s := s.setCrew e { x with
      saved := AMap.upd x.saved key k
      savedViews := (List.range 6).foldl (fun m n => AMap.upd m (8 * key + n) (s.view (srcOf c n))) x.savedViews
      legs := AMap.upd x.legs k.leg (.saved k.origin) }
    (s.renameCore inst c (savedCore e key)).freeCore c) s
  let s : State := { s with
    teams := s.teams.map fun t => (t.1, { t.2 with counts := t.2.counts.filter fun b => b.1 / 64 != e }) }
  let x := s.crew e
  let s := s.setCrew e { x with preempt := false, waitFrom := s.gtc, cls0 := x.cls }
  { s with agenda := .preempt :: .retire :: s.agenda }

/-- Has a core of a pre-empted crew saved, or has it nothing to save? -/
def State.hasSaved (s : State) (e c : Nat) : Bool :=
  let k := s.core c
  s.coreOver c || ((s.crew e).saved.find (k.keyOf c)).isSome
/-- The crew is pre-empted once every core has saved (R361). -/
def State.preemptAll (s : State) (e : Nat) : State :=
  if s.cores.all fun y => y.2.crew != some e || s.hasSaved e y.1 then s.preemptDone e else s

/-- PREEMPT_TAKE: the pacer stops, and its wait for the team's array is over (R174); once everything R361 names has come to rest it
writes its save area; the crew is pre-empted once every core has saved (R360, R361). -/
def State.preemptTake (s : State) (c : Nat) : State :=
  let k := s.core c
  match k.crew with
  | none => s
  | some e =>
    if k.wait ≠ .preempt then
      if !s.preemptNow c then s
      else
        let tm := s.team (teamOf c)
        let s := s.setTeam (teamOf c) { tm with reqs := tm.reqs.filter fun r => r.2.2.1 != c }
        { s.setCore c { k with wait := .preempt, relFabric := none, woken := false, answered := [] } with
          reqs := s.reqs.filter fun r => !r.asks c }
    else if ((s.crew e).saved.find (k.keyOf c)).isSome then s.preemptAll e
    else if k.frozen || k.contained || !s.preemptQuiet c then s
    else
      let s := s.saveArea c
      let x := s.crew e
      (s.setCrew e { x with saved := AMap.upd x.saved (k.keyOf c) k }).preemptAll e

/-- PREEMPT_TAKE. -/
def execPreemptTake (core : Nat) (s : State) : Host.Outcome State Fault Refusal := .next (s.preemptTake core)

-- Resumption (R361, R364, R377, R378).

/-- The discardable entries that cover a section (R45). -/
def Crew.discards (x : Crew) (sec : Nat) : List (BitVec 128) :=
  x.disc.filter fun d => fld d 0 12 ≤ sec && sec ≤ fld d 12 12
/-- Is a team scratchpad byte discardable? -/
def discByte (ds : List (BitVec 128)) (off : Nat) : Bool :=
  ds.any fun d => fld d 24 2 == 0 && fld d 64 23 ≤ off && off < fld d 64 23 + fld d 96 24
/-- Does a discardable range reach a core's slice? -/
def discSlice (ds : List (BitVec 128)) (core : Nat) : Bool :=
  ds.any fun d => fld d 24 2 == 0 && (List.range (fld d 96 24 / 128)).any fun i => (fld d 64 23 / 128 + i) % 4 == core
/-- Is a frame discardable? -/
def discFrame (ds : List (BitVec 128)) (f : Nat) : Bool := ds.any fun d => fld d 24 2 == 1 && bit d (32 + f)

/-- A channel as its 32 bytes give it. -/
def Chan.load (x : Chan) (w : Nat) : Chan :=
  let st := nfld w 32 2
  { x with
    gen := nfld w 0 32
    phase := if st = 1 then .awaiting else .idle
    recVa := nfld w 64 64
    guard := nfld w 128 64
    fault := if st = 2 then some { (x.fault.getD (tr 0 0 0 5)) with code := nfld w 40 8, addr := nfld w 192 64 } else none }

/-- The registers of a core from its save area at `b`; what the area does not hold is as it was saved (R363, R364). -/
def State.loadCore (s : State) (x : Crew) (k : Core) (b : Nat) : Core :=
  let g (off : Nat) : Nat := s.mem.getNat (kHbm (b + off)) 8
  let w (off : Nat) : BitVec 64 := BitVec.ofNat 64 (g off)
  let ds := x.discards k.rhdr.hdr.sec.toNat
  let q := (List.range k.queued.length).map fun i =>
    s.mem.getNat (kHbm (b + 0x5000 + 128 * i)) 128
  { k with
    pc := g 0x18, ccc := g 0x28, rrb := w 0x30, fpcr := w 0x38, fpsr := w 0x40, qstat := w 0x48, slip := g 0x50, dlost := w 0x58,
    p := BitVec.ofNat 8 (g 0x60), mskdepth := nfld (g 0x60) 8 6, outcnt := nfld (g 0x60) 16 5,
    tok := (List.range 8).map fun i => (i, nfld (g 0x78) (8 * i) 8),
    outq := (List.range (nfld (g 0x80) 40 5)).map fun i => (g 0x88).testBit i,
    livemap := w 0x90, tvec := w 0x100, mcsw := w 0x108, tlog := w 0x110,
    watch := (List.range 4).map fun n => (n, w (0x118 + 8 * n)),
    watchctl := (List.range 4).map fun n => (n, w (0x138 + 8 * n)),
    s := (List.range 64).map fun j => (j, w (0x200 + 8 * j)),
    fmtq := (List.range (nfld (g 0x80) 32 6)).map fun j => w (0x400 + 8 * j),
    masks := ((List.range k.masks.length).map fun m => BitVec.ofNat 384 (s.mem.getNat (kHbm (b + 0x500 + 48 * m)) 48)).reverse,
    chans := (List.range 8).map fun ch => (ch, (k.chan ch).load (s.mem.getNat (kHbm (b + 0xB00 + 32 * ch)) 32)),
    defer := ((List.range 64).filter fun j => (g 0x68).testBit j).map fun j =>
      (j, nfld (g (0xC40 + 8 * j)) 0 55, (Width.ofCode (BitVec.ofNat 3 (nfld (g (0xC40 + 8 * j)) 56 3))).getD .d64),
    q := k.queued.zip q |>.map fun p => p.1.load p.2,
    v := ((List.range 1024).filter fun j => k.livebits.getLsbD j).map fun j =>
      (j, BitVec.ofNat 12288 (s.mem.getNat (kHbm (b + 0x10000 + 1536 * j)) 1536)),
    frames := ((List.range 8).filter fun f => !discFrame ds f).flatMap fun f => (List.range 16384).map fun i =>
      (16384 * f + i, g (0x190000 + 8 * (16384 * f + i)) % 2 ^ 52) }

/-- The bytes of the area's range, by offset. -/
def State.areaBytes (s : State) (b off n : Nat) (f : Nat → Option Nat) : AMap Nat :=
  packWords (s.bytesIn (kHbm (b + off)) n f)

/-- The reads of a save area, as HOME watchpoints see them (R238). -/
def State.areaRead (s : State) (a b : Nat) : State :=
  (s.watchedWords.filter (wordsIn (kHbm b) areaLen)).dedup.foldl (fun s w => s.watchRead a (8 * w) 8) s

/-- Put a saved core back, on core `c` (R361, R364). Where the memory of its save area is not in service nothing is read: the core is
contained when its leg has resumed (R386). -/
def State.restoreCore (s : State) (e leg lo old c : Nat) : State :=
  let x := s.crew e
  let key := leg * 1024 + old
  let inst := s.inst e
  match x.saved.find key with
  | none => s
  | some k =>
    let a := launchSrc (e / 256)
    let tm := teamOf c
    let ptr := if x.pool.isSome then poolPtr x.pool c else k.saveptr
    let place (k : Core) : Core :=
      { k with crew := some e, leg := leg, origin := lo, tlb := [], frozen := false, fly := [], begun := [], busy := [] }
    let core := k.rhdr.hdr.sec.toNat
    let ds := x.discards core
    let gone := k.wait == .ended || k.contained
    let b := k.area
    let (ks, s) :=
      if gone || !s.areaServed b then ([], s.setCore c (place k))
      else
        let k' := place (s.loadCore x k b)
        let s := s.areaRead a b
        let spad := discSlice ds (c % 4)
        let one := rGang x.rcd == 0
        let dl := setFld (setFld k'.dlost 32 16 (fld k'.dlost 32 16 + 1)) 0 2
          (fld k'.dlost 0 2 ||| (spad.toNat + 2 * one.toNat))
        let s := s.setCore c { k' with wait := .none, saveptr := ptr, dlost := dl }
        let slice := (s.areaBytes b 0x290000 0x200000 fun i =>
            let o := teamByte (c % 4) i
            if discByte ds o then none else some o).map fun w => (kSpad tm 0 / 8 + w.1, w.2)
        let (k1, s) := s.putWords a (fun w =>
          wordsIn (kSpad tm 0) (2 ^ 23) w && (8 * w - kSpad tm 0) / 128 % 4 == c % 4) slice
        let cl := s.savedClaims k
        let s := s.setTeam tm { s.team tm with owner := (maskSlots cl).foldl (fun o q => AMap.upd o q c) (s.team tm).owner }
        let (k2, s) := (List.range 32).foldl (fun r q =>
          let s := r.2
          match (s.team tm).owner.find q with
          | some o =>
            if o ≠ c then (r.1, s)
            else
              let ws := (s.areaBytes b (0x490000 + 0x10800 * q) 0x10800 some).map fun w => (kSlot tm q 0 / 8 + w.1, w.2)
              let (m, s) := s.putWords a (wordsIn (kSlot tm q 0) 0x10800) ws
              (kJoin r.1 m, s)
          | none =>
            let (m, s) := s.putWords a (wordsIn (kSlot tm q 0) 0x10800) []
            (kJoin r.1 m, s)) ([], s)
        let s := s.setTeam tm { s.team tm with
          counts := (List.range 64).foldl (fun m n =>
            let v := (s.mem.get (kHbm (b + 0xC00 + n))).toNat
            if v = 0 then m else AMap.upd m (bufKey e n) (AMap.get 0 m (bufKey e n) + v)) (s.team tm).counts }
        (kJoin k1 k2, s)
    let s := (List.range 6).foldl (fun s n => s.setView (srcOf c n) ((x.savedViews.get View.reset (8 * key + n)).join ks)) s
    let s := s.renameCore inst (savedCore e key) c
    let x := s.crew e
    s.setCrew e { x with
      saved := AMap.del x.saved key
      exited := match x.exited.find key with
        | some m => AMap.upd (AMap.del x.exited key) (leg * 1024 + c) { m with agent := srcOf c 0 }
        | none => x.exited }

/-- Rename a leg's cores in a crew's arrivals and losses. -/
def Crew.moveLeg (x : Crew) (leg old lo : Nat) : Crew :=
  { x with
    arrivals := x.arrivals.map fun r =>
      if r.2.1 = leg then (r.1, r.2.1, r.2.2.1, lo + (r.2.2.2.1 - old),
        { r.2.2.2.2 with agent := srcOf (lo + (r.2.2.2.1 - old)) 0 }) else r
    lost := x.lost.map fun l => if l.1 = leg then (l.1, lo + (l.2.1 - old), l.2.2) else l }

/-- Arm again the HOME watchpoints that a resumed core's WATCHCTL registers enable (R354). -/
def State.rearm (s : State) (c : Nat) : State :=
  (List.range 4).foldl (fun s n =>
    let v := (s.core c).watchctl.get 0 n
    if bit v 0 ∧ bit v 1 then (s.writeWatchctl c n v).getD (s.csrRefused c (0x114 + n) v) else s) s

/-- Resume one leg at cores `lo` up: all its cores in one step. The bytes of other slices of their teams stay as they are (R364). -/
def State.resumeLeg (s : State) (e leg old lo : Nat) : State :=
  let x := s.crew e
  let z := rSize x.rcd
  let s := (List.range ((z + 3) / 4)).foldl (fun s i =>
    s.setTeam (lo / 4 + i) { s.team (lo / 4 + i) with lastAsid := some (rAsid x.rcd) }) s
  let s := (List.range z).foldl (fun s i => s.restoreCore e leg lo (old + i) (lo + i)) s
  let x := (s.crew e).moveLeg leg old lo
  let s := s.setCrew e { x with legs := AMap.upd x.legs leg (.running lo), waitFrom := s.gtc, cls0 := x.cls }
  let s := (List.range z).foldl (fun s i => s.rearm (lo + i)) s
  let bad := ((List.range z).map fun i => lo + i).filter fun c =>
    let k := s.core c
    !k.contained && k.wait == .preempt
  { s with agenda := bad.map (fun c => .containment c cECCU) ++ s.agenda }

/-- CREW_RESUME: the die's unit puts back the next saved leg of a crew, by the choice of R256, with the placement of R361. -/
def State.crewResume (s : State) (e : Nat) : State :=
  match s.nextStart (e / 256) with
  | some (e', (leg, lo) :: _) =>
    match (s.crew e).legs.find leg with
    | some (.saved old) =>
      let held := (s.crew e).saved.any fun k => k.2.leg == leg && s.areaHeld k.2.area
      if e' = e && !held then s.resumeLeg e leg old lo else s
    | _ => s
  | _ => s

/-- CREW_RESUME. -/
def execCrewResume (crew : Nat) (s : State) : Host.Outcome State Fault Refusal := .next (s.crewResume crew)

end Sys2Proof.Machine
end

