-- ==== Sys2Proof/Machine/Shake.lean ====
section
/-! DEFINITION. SHAKE256 (R39, R281, R382), as the standard it names defines it (log entry 6). -/
namespace Sys2Proof.Machine

/-- Rotation offsets, lane x + 5y. -/
def keccakRot : List Nat :=
  [0, 1, 62, 28, 27, 36, 44, 6, 55, 20, 3, 10, 43, 25, 39, 41, 45, 15, 21, 8, 18, 2, 61, 56, 14]
/-- Round constants. -/
def keccakRc : List (BitVec 64) :=
  [0x0000000000000001, 0x0000000000008082, 0x800000000000808A, 0x8000000080008000, 0x000000000000808B, 0x0000000080000001,
   0x8000000080008081, 0x8000000000008009, 0x000000000000008A, 0x0000000000000088, 0x0000000080008009, 0x000000008000000A] ++
  [0x000000008000808B, 0x800000000000008B, 0x8000000000008089, 0x8000000000008003, 0x8000000000008002, 0x8000000000000080,
   0x000000000000800A, 0x800000008000000A, 0x8000000080008081, 0x8000000000008080, 0x0000000080000001, 0x8000000080008008]

/-- One round on 25 lanes. -/
def keccakRound (a : List (BitVec 64)) (rc : BitVec 64) : List (BitVec 64) :=
  let g (i : Nat) : BitVec 64 := a.getD i 0
  let c := (List.range 5).map fun x => g x ^^^ g (x + 5) ^^^ g (x + 10) ^^^ g (x + 15) ^^^ g (x + 20)
  let t := (List.range 25).map fun i =>
    g i ^^^ c.getD ((i % 5 + 4) % 5) 0 ^^^ (c.getD ((i % 5 + 1) % 5) 0).rotateLeft 1
  let b := (List.range 25).map fun i =>
    let j := (3 * (i / 5) + i % 5) % 5 + 5 * (i % 5)
    (t.getD j 0).rotateLeft (keccakRot.getD j 0)
  (List.range 25).map fun i =>
    let y := i / 5
    let x := i % 5
    b.getD i 0 ^^^ (~~~ b.getD ((x + 1) % 5 + 5 * y) 0 &&& b.getD ((x + 2) % 5 + 5 * y) 0) ^^^ (if i = 0 then rc else 0)

/-- The permutation. -/
def keccakF (a : List (BitVec 64)) : List (BitVec 64) := keccakRc.foldl keccakRound a

/-- The padded message: 0x1F, zeros, and 0x80 in the last byte of a 136-byte block. -/
def shakePad (m : List Byte) : List Byte :=
  let z := 135 - m.length % 136
  if z = 0 then m ++ [0x9F] else m ++ 0x1F :: List.replicate (z - 1) 0 ++ [0x80]

/-- Absorb blocks of 136 bytes. -/
def shakeAbsorb : Nat → List Byte → List (BitVec 64) → List (BitVec 64)
  | 0, _, a => a
  | n + 1, m, a =>
    if m.isEmpty then a
    else
      let b := m.take 136
      let a := a.zipIdx.map fun x => x.1 ^^^ BitVec.ofNat 64 (ofLeBytes ((b.drop (8 * x.2)).take 8))
      shakeAbsorb n (m.drop 136) (keccakF a)

/-- The sponge after a message. -/
def shakeState (m : List Byte) : List (BitVec 64) := shakeAbsorb (m.length / 136 + 1) (shakePad m) (List.replicate 25 0)

/-- The first 16 bytes of SHAKE256, as a little-endian number. -/
def shake256 (m : List Byte) : Nat :=
  let a := shakeState m
  (a.getD 0 0).toNat + (a.getD 1 0).toNat * 2 ^ 64

/-- The first 32 bytes of SHAKE256. -/
def shake32 (m : List Byte) : List Byte := ((shakeState m).take 4).flatMap fun w => leBytes 8 w.toNat

end Sys2Proof.Machine
end

