-- ==== Sys2Proof/Machine/Xmss.lean ====
section
/-! DEFINITION. The XMSS signature test of R382: XMSS-SHAKE256 with n = 32 and tree height 20. The manual gives the scheme by its
standard's name: the hash functions, addresses and trees below are that standard's, and not the manual's words (log entry 35). -/
namespace Sys2Proof.Machine

/-- A number as big-endian bytes. -/
def beBytes (n w : Nat) : List Byte := (leBytes n w).reverse
/-- The number that big-endian bytes give. -/
def ofBeBytes (l : List Byte) : Nat := ofLeBytes l.reverse

/-- A keyed hash of the scheme, by its domain: 0 F, 1 H, 2 the message hash, 3 the pseudorandom function. -/
def xmssHash (domain : Nat) (key m : List Byte) : List Byte := shake32 (beBytes 32 domain ++ key ++ m)

/-- A hash address: its type, and the four numbers that stand at its end. -/
def xmssAddr (type a b c mask : Nat) : List Byte := beBytes 12 0 ++ [type, a, b, c, mask].flatMap (beBytes 4)

/-- Bytes combined by exclusive or. -/
def xorBytes (x y : List Byte) : List Byte := List.zipWith (fun a b => a ^^^ b) x y

/-- Steps `j` up to `j + n - 1` of the hash chain `i` of one-time key `ots`. -/
def xmssChain (seed : List Byte) (ots i : Nat) : Nat → Nat → List Byte → List Byte
  | 0, _, x => x
  | n + 1, j, x =>
    let prf (m : Nat) : List Byte := xmssHash 3 seed (xmssAddr 0 ots i j m)
    xmssChain seed ots i n (j + 1) (xmssHash 0 (prf 0) (xorBytes x (prf 1)))

/-- The hash of two nodes, at an address of type 1 (an L-tree) or 2 (the tree). -/
def xmssNode (seed : List Byte) (type tree height index : Nat) (l r : List Byte) : List Byte :=
  let prf (m : Nat) : List Byte := xmssHash 3 seed (xmssAddr type tree height index m)
  xmssHash 1 (prf 0) (xorBytes l (prf 1) ++ xorBytes r (prf 2))

/-- One level of an L-tree, from the left; a last node without a pair rises as it is. -/
def xmssPairs (seed : List Byte) (tree height : Nat) : Nat → List (List Byte) → List (List Byte)
  | i, l :: r :: rest => xmssNode seed 1 tree height i l r :: xmssPairs seed tree height (i + 1) rest
  | _, l => l

/-- The root of an L-tree. -/
def xmssLtree (seed : List Byte) (tree : Nat) : Nat → Nat → List (List Byte) → List Byte
  | 0, _, l => l.headD []
  | n + 1, h, l => xmssLtree seed tree n (h + 1) (xmssPairs seed tree h 0 l)

/-- The 67 base-16 digits that are signed: 64 of the message digest, and 3 of their checksum. -/
def xmssDigits (m : List Byte) : List Nat :=
  let d := m.flatMap fun b => [b.toNat / 16, b.toNat % 16]
  let sum := (d.map fun x => 15 - x).foldl (fun a b => a + b) 0
  d ++ [sum / 256 % 16, sum / 16 % 16, sum % 16]

/-- Element `i` of a list of 32-byte values. -/
def chunk32 (l : List Byte) (i : Nat) : List Byte := (l.drop (32 * i)).take 32

/-- The root that the path of a leaf gives. -/
def xmssPath (seed : List Byte) (auth : List Byte) : Nat → Nat → Nat → List Byte → List Byte
  | 0, _, _, x => x
  | n + 1, k, idx, x =>
    let a := chunk32 auth k
    xmssPath seed auth n (k + 1) (idx / 2)
      (if idx % 2 = 0 then xmssNode seed 2 0 k (idx / 2) x a else xmssNode seed 2 0 k (idx / 2) a x)

/-- Does a signature of 2820 bytes (leaf number, randomiser, one-time signature, path) verify over a message (R382)? -/
def xmssVerify (root seed msg sig : List Byte) : Bool :=
  let idx := ofBeBytes (sig.take 4)
  let ots := (sig.drop 36).take 2144
  let m := xmssHash 2 ((sig.drop 4).take 32 ++ root ++ beBytes 32 idx) msg
  let pk := (xmssDigits m).zipIdx.map fun d => xmssChain seed idx d.2 (15 - d.1) d.1 (chunk32 ots d.2)
  let leaf := xmssLtree seed idx 7 0 pk
  sig.length == 2820 && decide (idx < 2 ^ 20) && xmssPath seed (sig.drop 2180) 20 0 idx leaf == root

/-- R382's signature test: over SHAKE256 of the bytes, under the public key in the Pier die's boot ROM. -/
def signatureOk (bytes sig : List Byte) : Bool :=
  xmssVerify (beBytes 32 Config.xmssRoot) (beBytes 32 Config.xmssSeed) (shake32 bytes) sig

end Sys2Proof.Machine
end

