-- ==== Sys2Proof/Machine/HostCmd.lean ====
section
/-! DEFINITION. The command front end (R63, R72, R282, R360, R367, R374–R378, R382, R384, R385, R388, R389). Firmware core 0 runs
the ring. -/
namespace Sys2Proof.Machine

-- The ring (R374, R375).

/-- The firmware core that executes commands, as an agent. -/
def cmdSrc : Nat := fwSrc 0
/-- A coherent read of host memory by the firmware. -/
def State.hostRead (s : State) (pa n : Nat) : Nat × State :=
  let r := (splitWords (kHost pa) n).foldl (fun (r : Nat × List Msg × State) p =>
    let (v, ms, s) := r.2.2.scopedRead cmdSrc p.1 p.2.2
    (r.1 + v * 2 ^ (8 * p.2.1), r.2.1 ++ ms, s)) (0, [], s)
  (r.1, r.2.2.acquire cmdSrc 15 r.2.1)
/-- The number of the next command, counted from 1, and the slot it stands in. -/
def State.cmdNo (s : State) : Nat := (s.cdone + 1) % 2 ^ 32
def State.cmdSlot (s : State) : Nat := s.cmdNo % 2 ^ s.crsize.toNat
/-- The command at the head of the ring as it stands in host memory. -/
def State.headWord (s : State) : BitVec 512 :=
  BitVec.ofNat 512 (s.mem.getNat (kHost (s.crbase.toNat + 64 * s.cmdSlot)) 64)
/-- The step that executes a command, by OPC; any other OPC is completed by the first. -/
def opcStep (opc : Nat) : Instr :=
  match opc with
  | 0x02 => .preempt
  | 0x03 => .kill
  | 0x04 => .setvec
  | 0x05 => .setroot
  | 0x06 => .bias
  | 0x07 => .specflush
  | 0x08 => .fwstage
  | 0x09 => .fwactivate
  | 0x0A => .retire
  | 0x0B => .logread
  | 0x0C => .setsave
  | _ => .launchCommand
/-- The step that executes the command at the head, if one is outstanding and the firmware is not changing over (R389). -/
def State.ringNext (s : State) : List Instr :=
  if s.outstanding && s.barMode != 2 then [opcStep (fld s.headWord 0 8)] else []

-- Completion statuses (R375).
abbrev stOK : Nat := 0
abbrev stBADCMD : Nat := 1
abbrev stBADARG : Nat := 2
abbrev stREFUSED : Nat := 3
abbrev stAUTHFAIL : Nat := 5

/-- Write the completion of the command at the head, a release at scope 15, and go on to the next (R375). -/
def State.completeCmd (s : State) (status result : Nat) : State :=
  let v := fld s.headWord 16 16 + status * 2 ^ 16 + result * 2 ^ 64
  let s := s.homeWrite cmdSrc (kHost (s.cpbase.toNat + 16 * s.cmdSlot)) 16 v (s.relMsgs cmdSrc (some 15))
  let s := { s with cdone := s.cmdNo }
  { s with agenda := s.ringNext ++ s.agenda }

/-- The arguments of a command. -/
structure CmdArgs where
  a0 : Nat
  a1 : Nat
  deriving DecidableEq, Repr

/-- Execute the command at the head if it is this one (R375, R376, R384): the body answers STATUS and RESULT, or none while the
command is not complete. -/
def State.command (s : State) (step : Instr) (body : CmdArgs → State → Option (Nat × Nat) × State) : State :=
  if !s.outstanding || s.barMode = 2 then s
  else
    let opc := fld s.headWord 0 8
    if opcStep opc ≠ step then s
    else
    let (x, s) := s.hostRead (s.crbase.toNat + 64 * s.cmdSlot) 64
    let w := BitVec.ofNat 512 x
    if opc = 0 ∨ 0x0C < opc ∨ fld w 8 8 ≠ 0 ∨ fld w 32 32 ≠ 0 ∨ fld w 256 256 ≠ 0 then s.completeCmd stBADCMD 0
    else if s.barMode = 1 ∧ opc ≠ 0x08 ∧ opc ≠ 0x09 ∧ opc ≠ 0x0B then s.completeCmd stREFUSED 0
    else
      match body { a0 := fld w 64 64, a1 := fld w 128 64 } s with
      | (some (st, r), s) => s.completeCmd st r
      | (none, s) => s

/-- DOOR: the host names the last command written; the firmware turns to the ring (R374, R375). -/
def execDoor (v : Word) (s : State) : Host.Outcome State Fault Refusal :=
  let s := s.bar0Write 0x18 v
  .next { s with agenda := s.ringNext ++ s.agenda }

-- LAUNCH, PREEMPT, KILL.

/-- What a unit's access that could not be made means for a LAUNCH: the host is asked, or a row is in repair, and the command is not
complete; any other failure of the record's page gives LSTAT XLATE (R72, R376, R387, log entry 52). -/
def State.launchStop (s : State) (e : Stop) : Option (Nat × Nat) × State :=
  match e with
  | .snoop a lines => (none, s.askSnoops none a lines)
  | .wait => (none, s)
  | _ => (some (stOK, lXLATE), s)

/-- LAUNCH: the record is read in the context that ARG1 names (R376). The launch unit sees what the firmware has acquired from the
host. -/
def State.cmdLaunch (x : CmdArgs) (s : State) : Option (Nat × Nat) × State :=
  if 64 ≤ x.a1 ∨ x.a0 % 128 ≠ 0 then (some (stBADARG, 0), s)
  else
    match s.readVa cmdSrc 0 x.a1 x.a0 128 true with
    | .error e => s.launchStop e
    | .ok (r, s) =>
      let r := BitVec.ofNat 1024 r
      if rAsid r ≠ x.a1 then (some (stBADARG, 0), s)
      else
        let d := if rAny r then 0 else dieOf (rOrigin r) % 8
        let m : Msg := { agent := launchSrc d, scope := 3, k := (s.view hostSrc).k.filter fun e => carriesIn s.fabric 3 e.1 }
        let s := s.setView (launchSrc d) ((s.view (launchSrc d)).join (s.view cmdSrc).k)
        match s.accept (launchSrc d) d none none false m r with
        | .error e => s.launchStop e
        | .ok (h, s) => (some (stOK, h.toNat), (s.endSnoops cmdSrc).endSnoops (launchSrc d))

/-- LAUNCH_COMMAND. -/
def execLaunchCommand (s : State) : Host.Outcome State Fault Refusal := .next (s.command .launchCommand State.cmdLaunch)

/-- The pool entry that a handle names, if its generation is the entry's (R249). -/
def State.handleEntry (s : State) (h : Nat) : Option Nat :=
  let e := nfld h 8 3 * 256 + nfld h 16 8
  if nfld h 0 8 ≠ 0 ∨ nfld h 11 5 ≠ 0 ∨ nfld h 24 8 ≠ 0 ∨ (s.crew e).gen ≠ nfld h 32 32 then none else some e

/-- The running cores of a crew. -/
def State.crewCores (s : State) (e : Nat) : List Nat := (s.cores.filter fun c => c.2.crew == some e).map fun c => c.1

/-- The steps by which a crew's stalled cores notice a pending pre-emption (R360). -/
def State.preemptWakes (s : State) (e : Nat) : List Instr :=
  (s.crewCores e).map fun c =>
    match (s.core c).wait with
    | .waita .. => .waitaPoll c
    | .waitch .. => .waitchReturn c
    | .popw .. => .popwRetry c
    | .tickw .. => .tickwDeadline c
    | .rlyTake .. => .rlyTakeRetry c
    | .rlyWait .. => .rlyWaitReturn c
    | .heatWait .. => .heatWaitReturn c
    | .collWait .. => .collWaitReturn c
    | _ => .preemptTake c

/-- End a crew from outside: every replica is contained, and those that wait for cores end (R254, R376). Of a pre-empted one nothing is
in flight but writes that their homes have performed. -/
def State.killCrew (s : State) (e : Nat) : State :=
  let x := s.crew e
  let s := s.setCrew e { x with killed := true, preempt := false }
  let s := (s.crewCores e).foldl (fun s c => s.contain c 0) s
  let x := s.crew e
  let dead := x.saved.map fun p => savedCore e p.1
  let s : State := { s with
    reqs := s.reqs.filter fun r => !dead.contains r.core }
  let x : Crew := { x with
    saved := [], savedViews := []
    legs := (List.range (rLegs x.rcd)).map fun l =>
      (l, match x.legs.get .waiting l with
        | .waiting | .saved _ => LegState.killed
        | t => t) }
  let s := s.setCrew e x
  if x.allOver then { s with agenda := .crewEnd e :: s.agenda } else s

/-- PREEMPT: the request is pending until the crew counts as pre-empted or has ended; meanwhile firmware may end a crew that
reaches no section start (R360, R376). -/
def State.cmdPreempt (x : CmdArgs) (s : State) : Option (Nat × Nat) × State :=
  match s.handleEntry x.a0 with
  | none => (some (stBADARG, 0), s)
  | some e =>
    let y := s.crew e
    let l := s.crewCores e
    if !y.live || y.status.isSome || l.isEmpty then (some (stOK, 0), s)
    else if y.preempt then
      let (n, s) := s.choice
      if n % 2 = 1 ∧ l.any fun c => (s.core c).wait != .preempt then (some (stOK, 0), s.killCrew e) else (none, s)
    else if l.any fun c => !bit (s.core c).saveptr 0 then (some (stREFUSED, 0), s)
    else
      let s := s.setCrew e { y with preempt := true }
      (none, { s with agenda := s.preemptWakes e ++ s.agenda })

/-- PREEMPT. -/
def execPreempt (s : State) : Host.Outcome State Fault Refusal := .next (s.command .preempt State.cmdPreempt)

/-- KILL. -/
def State.cmdKill (x : CmdArgs) (s : State) : Option (Nat × Nat) × State :=
  match s.handleEntry x.a0 with
  | none => (some (stBADARG, 0), s)
  | some e => (some (stOK, 0), if (s.crew e).live && (s.crew e).status.isNone then s.killCrew e else s)
/-- KILL. -/
def execKill (s : State) : Host.Outcome State Fault Refusal := .next (s.command .kill State.cmdKill)

-- Registrations and settings.

/-- SETVEC (R367, R376). -/
def State.cmdSetvec (x : CmdArgs) (s : State) : Option (Nat × Nat) × State :=
  if 64 ≤ x.a0 ∨ x.a1.testBit 1 ∨ 2 ^ 55 ≤ x.a1 then (some (stBADARG, 0), s)
  else (some (stOK, 0), { s with vecs := s.vecs.upd x.a0 (BitVec.ofNat 64 x.a1) })
/-- SETVEC. -/
def execSetvec (s : State) : Host.Outcome State Fault Refusal := .next (s.command .setvec State.cmdSetvec)

/-- SETROOT: the root pointer of a context on every die, with the purge of R63. -/
def State.cmdSetroot (x : CmdArgs) (s : State) : Option (Nat × Nat) × State :=
  let v := BitVec.ofNat 64 x.a1
  if 64 ≤ x.a0 || !ptbaseOk v then (some (stBADARG, 0), s)
  else (some (stOK, 0), (List.range 8).foldl (fun s d => s.setRoot d x.a0 v) s)
/-- SETROOT. -/
def execSetroot (s : State) : Host.Outcome State Fault Refusal := .next (s.command .setroot State.cmdSetroot)

/-- BIAS: the region's bit; an access passes the bias check and is performed in one step, so none admitted before is unfinished. What the
host answered before the flip counts no more (R72). -/
def State.cmdBias (x : CmdArgs) (s : State) : Option (Nat × Nat) × State :=
  if 512 ≤ x.a0 ∨ 2 ≤ x.a1 then (some (stBADARG, 0), s)
  else
    (some (stOK, 0), { s with
      bias := s.bias.upd x.a0 (x.a1 == 1)
      reqs := s.reqs.map fun r => if r.apt = 0 ∧ biasRegion r.key = x.a0 then { r with snooped := false } else r
      snoops := s.snoops.map fun y => if biasRegion (64 * y.line) = x.a0 then { y with done := false } else y
      cores := s.cores.map fun k =>
        (k.1, { k.2 with answered := k.2.answered.filter fun y => biasRegion (64 * y.2) != x.a0 }) })
/-- BIAS. -/
def execBias (s : State) : Host.Outcome State Fault Refusal := .next (s.command .bias State.cmdBias)

/-- SPECFLUSH: every unpinned entry of a context, or of all (R282, R376). -/
def State.cmdSpecflush (x : CmdArgs) (s : State) : Option (Nat × Nat) × State :=
  if 64 ≤ x.a0 ∧ x.a0 ≠ 0xFFFF then (some (stBADARG, 0), s)
  else
    (some (stOK, 0), { s with
      spec := s.spec.filter fun p => !(p.2.pins.isEmpty && (x.a0 == 0xFFFF || p.2.asid == x.a0)) })
/-- SPECFLUSH. -/
def execSpecflush (s : State) : Host.Outcome State Fault Refusal := .next (s.command .specflush State.cmdSpecflush)

/-- SETSAVE (R378). -/
def State.cmdSetsave (x : CmdArgs) (s : State) : Option (Nat × Nat) × State :=
  let last := x.a1 + Config.cores * Config.saveSize - 1
  if 64 ≤ x.a0 then (some (stBADARG, 0), s)
  else if x.a1 = 0 then (some (stOK, 0), { s with pools := s.pools.del x.a0 })
  else if x.a1 % 65536 ≠ 0 ∨ 2 ^ 39 ≤ x.a1 ∨ x.a1 / 2 ^ 36 ≠ last / 2 ^ 36 then (some (stBADARG, 0), s)
  else (some (stOK, 0), { s with pools := s.pools.upd x.a0 x.a1 })
/-- SETSAVE. -/
def execSetsave (s : State) : Host.Outcome State Fault Refusal := .next (s.command .setsave State.cmdSetsave)

/-- LOGREAD: the oldest records move to host memory (R376, R385). -/
def State.cmdLogread (x : CmdArgs) (s : State) : Option (Nat × Nat) × State :=
  if x.a1 < 1 ∨ 4096 < x.a1 ∨ 2 ^ 52 < x.a0 + 64 * x.a1 then (some (stBADARG, 0), s)
  else
    let l := s.log.take x.a1
    let s := l.zipIdx.foldl (fun s r => s.homeWrite cmdSrc (kHost (x.a0 + 64 * r.2)) 64 r.1.toNat []) s
    (some (stOK, l.length), { s with log := s.log.drop l.length })
/-- LOGREAD. -/
def execLogread (s : State) : Host.Outcome State Fault Refusal := .next (s.command .logread State.cmdLogread)

-- Firmware images (R382, R384, R389).

/-- A configuration record's signed bytes (R383). -/
def CfgRecord.signed (r : CfgRecord) : List Byte :=
  Config.recordBytes ([r.device, r.minver, r.threshold, r.coreThreshold, r.tickPeriod] ++ r.hostBias ++
    r.spares.flatMap fun p => [p.1, p.2])
/-- The configuration record in force: the newest that boot has found good (R383). -/
def State.cfg (s : State) : Option CfgRecord := s.cfgs.head?
/-- A firmware slot: 0 is A, 1 is B. -/
def State.fslot (s : State) (k : Nat) : FwSlot := s.slots.get FwSlot.reset k
/-- The image's bytes as they are signed: VERSION, LENGTH and the image. -/
def FwSlot.signed (x : FwSlot) : List Byte := leBytes 4 x.version ++ leBytes 4 x.image.length ++ x.image
/-- R382's test: the signature verifies, and VERSION is at least MINVER. An empty slot holds no image. -/
def State.slotValid (s : State) (x : FwSlot) : Bool :=
  !x.image.isEmpty && signatureOk x.signed x.signature &&
    (match s.cfg with | some r => decide (r.minver ≤ x.version) | none => true)

/-- FWSTAGE: verify the image and write it to the slot that is not running (R382). Its first eight bytes are VERSION and LENGTH,
then the image, then the signature. -/
def State.cmdFwstage (x : CmdArgs) (s : State) : Option (Nat × Nat) × State :=
  if x.a1 < 8 ∨ 2 ^ 52 < x.a0 + x.a1 then (some (stBADARG, 0), s)
  else
    let (h, s) := s.hostRead x.a0 8
    let len := nfld h 32 32
    if x.a1 < 8 + len then (some (stAUTHFAIL, 0), s)
    else
      let (im, s) := s.hostRead (x.a0 + 8) len
      let (sg, s) := s.hostRead (x.a0 + 8 + len) (x.a1 - 8 - len)
      let f : FwSlot := { version := nfld h 0 32, image := leBytes len im, signature := leBytes (x.a1 - 8 - len) sg }
      if s.slotValid f then (some (stOK, 0), { s with slots := s.slots.upd (1 - s.runSlot) f })
      else (some (stAUTHFAIL, 0), s)
/-- FWSTAGE. -/
def execFwstage (s : State) : Host.Outcome State Fault Refusal := .next (s.command .fwstage State.cmdFwstage)

/-- Start an image on the four firmware cores together: the state is handed over, and the entry point is the image's own
(R389). -/
def State.startFirmware (s : State) (slot : Nat) : State :=
  (List.range 4).foldl (fun s k =>
    let (n, s) := s.choice
    s.setFwc k { s.fwc k with pc := BitVec.ofNat 64 (2 * n), machine := true })
    { s with runSlot := slot, fwChange := some s.gtc, barMode := 2 }

/-- FWACTIVATE: refused with no valid staged image; in dock mode the module resets and boots again (R384); else the change over
begins once the command is complete (R389). -/
def State.cmdFwactivate (s : State) : State :=
  if !s.slotValid (s.fslot (1 - s.runSlot)) then s.completeCmd stREFUSED 0
  else if s.barMode = 1 then
    let s := s.completeCmd stOK 0
    { State.reset with
      slots := s.slots, cfgs := s.cfgs, spare := s.spare, certs := s.certs, log := s.log, doe := none, mem := s.mem.filter fun c => kSpace c.1 == 2,
      free := s.free, count := s.count, now := s.now, gtc := s.gtc, gtcBase := s.gtcBase, agenda := [.boot] }
  else (s.completeCmd stOK 0).startFirmware (1 - s.runSlot)

/-- FWACTIVATE; while BAR0 MODE reads 2 it is the end of the changeover, after at most 10 ms, and the firmware turns to the ring
again (R389). -/
def execFwactivate (s : State) : Host.Outcome State Fault Refusal :=
  if s.barMode = 2 then
    let s := { s with barMode := 0 }
    .next { s with agenda := s.ringNext ++ s.agenda }
  else
    .next (if s.outstanding && opcStep (fld s.headWord 0 8) == Instr.fwactivate &&
        fld s.headWord 8 8 == 0 && fld s.headWord 32 32 == 0 && fld s.headWord 256 256 == 0 then s.cmdFwactivate
      else s.command .fwactivate fun _ s => (none, s))

/-- FIRMWARE_ROLLBACK: 1 s after the change, an image that has not reported healthy gives way to the old slot, with a TYPE 3
record (R389). Whether it has is open. -/
def execFirmwareRollback (s : State) : Host.Outcome State Fault Refusal :=
  match s.fwChange with
  | none => .next s
  | some t =>
    if s.gtc < t + 1000000000 then .next s
    else
      let (n, s) := s.choice
      if n % 2 = 0 then .next { s with fwChange := none }
      else
        let s := (s.startFirmware (1 - s.runSlot)).logPut (logRecord s.gtc (s.ext cmdSrc) 3 0 0)
        .next { s with fwChange := none }

-- RETIRE (R386, R388).

/-- Set a bit of the readiness map. A change of a port's bit is a change of the port's state, after which the fabric is discovered
again (R380, R386). -/
def State.setReady (s : State) (b : Nat) (v : Bool) : State :=
  let port := 688 ≤ b ∧ b < 712 ∧ s.ready.getLsbD b ≠ v
  { s with ready := setFld s.ready b 1 v.toNat, portAt := if port then some (s.portAt.getD s.gtc) else s.portAt }

/-- The configuration records once a spare map is updated: the newest holds the map under a signature that the manual does not
give, and the record before it is the older copy (R383, R388, log entry 35). -/
def sparedCfgs (l : List CfgRecord) (map : AMap Nat) : List CfgRecord :=
  match l with
  | [] => []
  | r :: _ =>
    let x : CfgRecord := { r with spares := map }
    [{ x with signature := Config.recordSignature x.signed }, r]

/-- A retired core's place is taken by a spare of its die, if one is left: the spare map in flash says so, and the readiness bit is set
again (R3, R388). -/
def State.spareIn (s : State) (c : Nat) : State :=
  let s : State := { s with retiring := s.retiring.filter fun x => x != c }
  match (List.range 4).find? fun j => (s.spare.find (4 * dieOf c + j)).isNone with
  | some j =>
    let m := s.spare.upd (4 * dieOf c + j) c
    { s with spare := m, cfgs := sparedCfgs s.cfgs m }.setReady c true
  | none => s

/-- The retirements that can finish: no crew occupies the core. -/
def State.retireDue (s : State) : Option Nat := s.retiring.find? fun c => (s.core c).crew.isNone

/-- A function's readiness bit is cleared, and the retirement logged (R385, R386, R388). -/
def State.retireBit (s : State) (b : Nat) : State := (s.setReady b false).logPut (logRecord s.gtc (s.ext cmdSrc) 4 0 b)

/-- A core is retired: its bit is cleared; the pre-emption of a crew that occupies it is requested where it can be; a free core's place is
taken at once (R388). -/
def State.retireCore (s : State) (c : Nat) : State :=
  let s := s.retireBit c
  if s.retiring.contains c then s
  else
    let s : State := { s with retiring := s.retiring ++ [c] }
    match (s.core c).crew with
    | none => s.spareIn c
    | some e =>
      if (s.crewCores e).all fun c => bit (s.core c).saveptr 0 then
        let s := s.setCrew e { s.crew e with preempt := true }
        { s with agenda := s.preemptWakes e ++ s.agenda }
      else s

/-- RETIRE (R376, R388). -/
def State.cmdRetire (x : CmdArgs) (s : State) : Option (Nat × Nat) × State :=
  let lim := match x.a0 with | 0 => 640 | 1 => 8 | 2 => 32 | 3 => 24 | _ => 0
  if lim ≤ x.a1 then (some (stBADARG, 0), s)
  else if x.a0 = 0 then (some (stOK, 0), s.retireCore x.a1)
  else (some (stOK, 0), s.retireBit ((match x.a0 with | 1 => 648 | 2 => 656 | _ => 688) + x.a1))

/-- Firmware's own decision to retire a core that it finds at its threshold, outside dock mode (R388, log entry 31). -/
def State.retireWorn (s : State) : State :=
  let c := (Config.coreErrors s.count).1 % Config.cores
  match s.cfg with
  | some r =>
    if s.booted ∧ s.barMode = 0 ∧ s.ready.getLsbD c ∧ r.coreThreshold ≤ (Config.coreErrors s.count).2 then
      s.retireCore c
    else s
  | none => s

/-- RETIRE: a retirement that waited for its core to be freed finishes; else the command at the head; else firmware's own decision
(R388). -/
def execRetire (s : State) : Host.Outcome State Fault Refusal :=
  match s.retireDue with
  | some c => .next (s.spareIn c)
  | none =>
    if s.outstanding && opcStep (fld s.headWord 0 8) == Instr.retire then .next (s.command .retire State.cmdRetire)
    else .next s.retireWorn

end Sys2Proof.Machine
end

