-- ==== Sys2Proof/Machine/Firmware.lean ====
section
/-! DEFINITION. The four instructions of the firmware cores, and the trap entry they share (R381, R385). The executing firmware core
is `actor` modulo 4. -/
namespace Sys2Proof.Machine

/-- The executing firmware core. -/
def State.fwNo (s : State) : Nat := s.actor % 4
/-- An integer register; x0 reads zero. -/
def FwCore.rd (k : FwCore) (r : BitVec 5) : Word := if r = 0 then 0 else k.x.get 0 r.toNat
/-- Write an integer register; a write to x0 is discarded. -/
def FwCore.wr (k : FwCore) (r : BitVec 5) (v : Word) : FwCore := if r = 0 then k else { k with x := k.x.upd r.toNat v }

/-- A synchronous trap of a firmware core: mepc, mcause, mtval; MPP and MPIE keep the mode and MIE, which becomes 0; the pc goes to
the base of mtvec (log entry 5); the trap is logged (R385). -/
def State.fwTrap (s : State) (cause : Nat) : State :=
  let n := s.fwNo
  let k := s.fwc n
  let m := setFld (setFld (setFld k.mstatus 7 1 (fld k.mstatus 3 1)) 3 1 0) 11 2 (if k.machine then 3 else 0)
  let s := s.setFwc n { k with
    mepc := k.pc, mcause := BitVec.ofNat 64 cause, mtval := 0, mstatus := m, machine := true,
    pc := BitVec.ofNat 64 (k.mtvec.toNat / 4 * 4) }
  s.logPut (logRecord s.gtc (s.ext (fwSrc n)) 2 cause k.pc.toNat)

/-- The core goes on after an instruction of `n` bytes: its pc and its counters. -/
def FwCore.past (k : FwCore) (n : Nat) : FwCore :=
  { k with pc := k.pc + BitVec.ofNat 64 n, mcycle := k.mcycle + 1, minstret := k.minstret + 1 }

/-- Run one of the four: in user mode it traps as illegal; a trap changes nothing else (R381). -/
def State.fwRun (s : State) (body : FwCore → State → Except Nat State) : State :=
  let n := s.fwNo
  let k := s.fwc n
  if !k.machine then s.fwTrap 2
  else
    match body k s with
    | .error c => s.fwTrap c
    | .ok s => s.setFwc n ((s.fwc n).past 4)
/-- Write a register of the executing firmware core. -/
def State.fwWr (s : State) (r : BitVec 5) (v : Word) : State := s.setFwc s.fwNo ((s.fwc s.fwNo).wr r v)

/-- WX.GTC. -/
def execWxGtc (rd : BitVec 5) (s : State) : Host.Outcome State Fault Refusal :=
  .next (s.fwRun fun _ s => .ok (s.fwWr rd (BitVec.ofNat 64 s.gtc)))

/-- The readiness bit of the unit that a source number names; none where it names no unit (R5, R6, R366). Firmware cores have no
bit. -/
def unitBit (src : Nat) : Option (Option Nat) :=
  let d := src / 4096
  let t := src / 128 % 32
  let c := src / 32 % 4
  let e := src / 4 % 8
  if src % 4 ≠ 0 then none
  else if d < 8 then
    if t < 20 then (if e < 6 then some (some (coreOfSrc src)) else none)
    else if t = 29 then (if e = 6 then some (some (713 + d)) else none)
    else if t = 30 then (if c = 0 ∧ e = 6 then some (some (640 + d)) else none)
    else if t = 31 then (if e = 7 ∨ (c = 0 ∧ e = 6) then some (some (640 + d)) else none)
    else none
  else if d = 8 ∧ c = 0 ∧ e = 0 then
    if t < 4 then some none
    else if t = 4 then some (some 712)
    else if t = 5 then some (some 721)
    else if t < 30 then some (some (682 + t))
    else none
  else none

/-- WX.SEND: 64 bytes at a physical address of the local HBM view go to a unit (R381). Whether the unit is busy is open. Memory out of
service gives an access fault (R386, log entry 4); while a row is in repair the word does not run (R387). -/
def execWxSend (rd rs1 rs2 : BitVec 5) (s : State) : Host.Outcome State Fault Refusal :=
  .next (s.attempt [] fun s => s.fwRun fun k s =>
    let pa := (k.rd rs1).toNat
    let src := fld (k.rd rs2) 0 16
    if pa % 64 ≠ 0 then .error 4
    else
      match unitBit src with
      | none => .error 24
      | some b =>
        if (match b with | some n => !s.ready.getLsbD n | none => false) then .error 24
        else
          let (n, s) := s.choice
          let key := kHbm (hbmLocal (pa % 2 ^ 40))
          if Config.unitBusy n then .ok (s.fwWr rd 1)
          else if !s.inService key then .error 5
          else
            let (v, s) := (if s.repairing key then s.hold .wait else s).phaseRead (fwSrc s.fwNo) key 64
            .ok ({ s with fwMail := s.fwMail ++ [(src, v)] }.fwWr rd 0))

/-- WX.FENCE: a release and an acquire (R235, R381). -/
def execWxFence (rs1 : BitVec 5) (s : State) : Host.Outcome State Fault Refusal :=
  .next (s.fwRun fun k s =>
    let a := fwSrc s.fwNo
    let n := (k.rd rs1).toNat
    if 16 ≤ n then .error 25 else .ok ((s.fenceRel a n).fenceAcq a n))

/-- WX.READY (R381, R386). -/
def execWxReady (rs1 rs2 : BitVec 5) (s : State) : Host.Outcome State Fault Refusal :=
  .next (s.fwRun fun k s =>
    let n := (k.rd rs1).toNat
    if 721 < n then .error 26 else .ok (s.setReady n (bit (k.rd rs2) 0)))

end Sys2Proof.Machine
end

