-- ==== Sys2Proof/Machine/Fabric.lean ====
section
/-! DEFINITION. Boot, the host link, host accesses, attestation, and the fabric (R7, R72, R223, R224, R372, R373, R379–R385,
R387). -/
namespace Sys2Proof.Machine

-- Boot (R382–R384).

/-- The valid slot of the higher version, A on a tie (R382). -/
def State.bootSlot (s : State) : Option Nat :=
  let a := s.fslot 0
  let b := s.fslot 1
  match s.slotValid a, s.slotValid b with
  | true, true => some (if a.version < b.version then 1 else 0)
  | true, false => some 0
  | false, true => some 1
  | false, false => none

/-- Record `i` of the flash as the boot ROM first reads it: the manual gives no values (log entry 35). -/
def flashRecord (i : Nat) : CfgRecord :=
  let f (j : Nat) : Nat := Config.flash (64 * i + j)
  let spares := (List.range 32).filterMap fun j => if f (8 + j) % 81 < 80 then some (j, 80 * (j / 4) + f (8 + j) % 81) else none
  { device := f 0 % 0xFFF, minver := f 1 % 2 ^ 32, spares := spares, threshold := f 2, coreThreshold := f 3, tickPeriod := f 4,
    hostBias := (List.range 512).filter fun r => (f 5).testBit r, signature := leBytes (f 6) (f 7) }

/-- The configuration records that the boot ROM reads: the newest, and its older copy, where their signatures verify (R383); the spare
map in force is that of the newest that does; and the certificate chain (R385). -/
def State.readFlash (s : State) : State :=
  let l := (if s.cfgs.isEmpty then [flashRecord 0, flashRecord 1] else s.cfgs).filter fun r => signatureOk r.signed r.signature
  { s with
    cfgs := l
    spare := match l with | r :: _ => r.spares | [] => s.spare
    certs := if s.certs.isEmpty then leBytes (Config.flash 128) (Config.flash 129) else s.certs }

/-- A GTC reading at a time, with an offset: it fits in 64 bits and never moves backwards (R7). -/
def gtcAt (last now : Nat) (base : Int) : Nat := Nat.max last (Nat.min (2 ^ 64 - 1) ((now / 6 : Nat) + base).toNat)

/-- BOOT: the boot ROM logs each slot that fails and boots the valid slot of the higher version, or enters dock mode (R382, R384).
The image sets the GTC once, every region's bias but those the configuration record keeps, and the tick schedule (R7, R72, R265,
R383). -/
def execBoot (s : State) : Host.Outcome State Fault Refusal :=
  if s.booted then .next s
  else
    let s := s.readFlash
    let s : State := { s with booted := true, identity := some (Config.identityKey Config.deviceSecret) }
    let s := ([0, 1].filter fun k => !s.slotValid (s.fslot k)).foldl (fun s k =>
      s.logPut (logRecord s.gtc (s.ext (fwSrc 0)) 3 0 k)) s
    match s.bootSlot with
    | none => .next { s with barMode := 1 }
    | some k =>
      let (n, s) := s.choice
      let base := s.gtcBase + n % 2 ^ 62
      let keep := match s.cfg with | some r => r.hostBias | none => []
      let period := match s.cfg with | some r => r.tickPeriod | none => 0
      let s := s.startFirmware k
      let s : State := { s with
        barMode := 0, fwChange := none, gtcBase := base, gtc := gtcAt s.gtc s.now base,
        bias := (List.range 512).map fun r => (r, !keep.contains r) }
      .next (if period < 1000 ∨ 2 ^ 32 ≤ period then s
        else (List.range 8).foldl (fun s d =>
          let v := BitVec.ofNat 64 period
          s.setDie d { s.die d with tickcfg := v, tickno := tickCount v s.gtc }) s)

-- The host link and host accesses (R72, R223, R372, R373).

/-- LINK_TRAINING: 16 lanes, else 8, else 4; no link at all with fewer (R372). -/
def execLinkTraining (lanes : Nat) (s : State) : Host.Outcome State Fault Refusal :=
  .next { s with linkLanes := if 16 ≤ lanes then 16 else if 8 ≤ lanes then 8 else if 4 ≤ lanes then 4 else 0 }

/-- May the host reach a byte: its own memory, or, outside dock mode, a stack in service (R373, R384, R386)? -/
def State.hostReaches (s : State) (key : Nat) : Bool :=
  kSpace key == 2 || (kSpace key == 0 && key < 2 ^ 39 && s.barMode != 1 && s.inService key)

/-- HOST_MEMORY_ACCESS: the host reads or writes one byte, of its own memory or of the HBM, as an agent at scope 15 (R223, R373). A
copy that the device holds of the line is the home's own: the access sees the home as it stands (R72). While the row is in repair
it does not happen (R387). -/
def execHostMemoryAccess (write : Bool) (addr : Nat) (v : Byte) (s : State) : Host.Outcome State Fault Refusal :=
  if !s.hostReaches addr || s.repairing addr then .next s
  else if write then .next (s.homeWrite hostSrc addr 1 v.toNat (s.relMsgs hostSrc (some 15)))
  else
    let (_, ms, s) := s.scopedRead hostSrc addr 1
    .next ((s.acquire hostSrc 15 ms).watchHome hostSrc addr 1 true false)

/-- SPDM_REQUEST: the measurements, signed with the identity key, with its certificate chain (R385). -/
def execSpdmRequest (nonce : Nat) (s : State) : Host.Outcome State Fault Refusal :=
  let slot := Config.measure (s.fslot s.runSlot).signed
  let cfg := match s.cfg with | some r => Config.measure r.signed | none => 0
  let x : SpdmAnswer :=
    { nonce := nonce, slotDigest := slot, cfgDigest := cfg, spares := s.spare, certs := s.certs,
      signature := Config.attestSignature (s.identity.getD 0) ([nonce, slot, cfg] ++ s.spare.flatMap fun p => [p.1, p.2]) }
  .next { s with doe := some x }

-- The fabric (R379, R380, R387).

/-- PORT_STATE_CHANGE: a port comes up, goes down, or runs on at 4 lanes; the change is logged (R380, R385, R387). -/
def execPortStateChange (port lanes : Nat) (up : Bool) (s : State) : Host.Outcome State Fault Refusal :=
  if 24 ≤ port then .next s
  else
    let x : Port := { up := up && 4 ≤ lanes, lanes := if 8 ≤ lanes then 8 else 4, retries := 0 }
    .next (({ s with ports := s.ports.upd port x, portAt := some (s.portAt.getD s.gtc) } : State).logPut (logRecord s.gtc (s.ext (fwSrc 0)) 6 0 port))

/-- The graph that adverts describe: other devices, each once, at a positive distance (R379, R380). -/
def fabricOf (own : Nat) : List (Nat × Nat) → List (Nat × Nat)
  | [] => []
  | (d, h) :: l =>
    let r := fabricOf own l
    if d = own ∨ 0xFFF ≤ d ∨ h = 0 ∨ r.any fun x => x.1 == d then r else (d, h) :: r

/-- SCOPETAB_n for a graph (R224). -/
def scopetabOf (g : List (Nat × Nat)) (n : Nat) : BitVec 64 :=
  if n < 4 then scopetabReset n
  else if n < 15 then BitVec.ofNat 64 (n - 3 + ((g.filter fun d => d.2 ≤ n - 3).length + 1) % 2 ^ 12 * 2 ^ 8)
  else BitVec.ofNat 64 (255 + (g.length + 1) % 2 ^ 12 * 2 ^ 8 + 2 ^ 32)

/-- The ports over which a device has neighbours: trained, and not retired (R380, R386). -/
def State.linked (s : State) : Bool := (List.range 24).any fun p => (s.ports.get Port.reset p).up && s.ready.getLsbD (688 + p)

/-- The base that discovery gives the GTC (R7): a device alone in its graph is its own root and keeps it. Any other takes the root's
time; as the GTC never moves back and ends within 50 ns of the root's, the root's time is at most 50 ns behind this device's, and this
device's reading stands until the root has come to it. -/
def State.rootBase (s : State) (alone : Bool) (rootGtc : Nat) : Int :=
  if alone then s.gtcBase else (Nat.max rootGtc (s.gtc - 50) : Nat) - (s.now / 6 : Nat)

/-- FABRIC_DISCOVERY: every device holds the same graph, itself alone with no working link; the sixteen tables are written in one step;
the GTC takes the root's time (R7); and accesses in flight to a device that has dropped out end (R224, R380). -/
def execFabricDiscovery (hops : List (Nat × Nat)) (rootGtc : Nat) (s : State) : Host.Outcome State Fault Refusal :=
  let g := if s.linked then fabricOf s.dev hops else []
  let lost (key : Nat) : Bool := kSpace key == 3 && !g.any fun d => d.1 == peerOf key
  let base : Int := s.rootBase g.isEmpty rootGtc
  .next { s with
    fabric := g
    peers := s.peers ++ (g.map fun d => d.1).filter fun d => !s.peers.contains d
    portAt := none
    discovered := true
    scopetab := (List.range 16).map fun n => (n, scopetabOf g n)
    gtc := if g.isEmpty then s.gtc else gtcAt s.gtc s.now base
    gtcBase := base
    reqs := s.reqs.map fun r => if lost r.key ∧ r.phase ≠ .acked then { r with phase := .failed } else r }

end Sys2Proof.Machine
end

