-- ==== Sys2Proof/Machine/IntOps.lean ====
section
/-! DEFINITION. The integer instructions, opcodes 0x00–0x1E (R196–R198). -/
namespace Sys2Proof.Machine

/-- A two-operand function at every width. -/
abbrev Fn2 := (n : Nat) → BitVec n → BitVec n → BitVec n

/-- Apply at width 64, or at width 32 with the result sign-extended (R196). -/
def alu2 (w : Bool) (f : Fn2) (a b : Word) : Word :=
  if w then (f 32 (a.setWidth 32) (b.setWidth 32)).signExtend 64 else f 64 a b
/-- A one-operand function, the same way. -/
def alu1 (w : Bool) (f : (n : Nat) → BitVec n → BitVec n) (a : Word) : Word :=
  if w then (f 32 (a.setWidth 32)).signExtend 64 else f 64 a

/-- Write s[D] and go on. -/
def writeSeq (d : SReg) (v : Word) : M Flow := fun s => .ok (.seq, s.setMe (s.me.wr d v))

/-- An INT word that never traps: s[D] := f(a, b) (R196). -/
def intWord (n : Ann) (o : IntOp) (f : Fn2) (s : State) : Host.Outcome State Fault Refusal :=
  pacerWord n 12 (o.a :: srcRegs o.b) false (fun s => writeSeq o.d (alu2 o.w f (s.me.rd o.a) (s.me.srcB o.b)) s) s

/-- A division: DIVZ when b is zero at the operation's width, s[D] unchanged (R196). -/
def divWord (n : Ann) (o : IntOp) (f : Fn2) (s : State) : Host.Outcome State Fault Refusal :=
  pacerWord n 12 (o.a :: srcRegs o.b) false (fun s =>
    let b := s.me.srcB o.b
    if (if o.w then b.setWidth 32 == 0#32 else b == 0) then (.error (.trap (tr cDIVZ)))
    else writeSeq o.d (alu2 o.w f (s.me.rd o.a) b) s) s

def fAdd : Fn2 := fun _ a b => a + b
def fSub : Fn2 := fun _ a b => a - b
def fMul : Fn2 := fun _ a b => a * b
/-- High half of the signed product. -/
def fMulh : Fn2 := fun n a b => (a.signExtend (n + n) * b.signExtend (n + n)).extractLsb' n n
/-- High half of the unsigned product. -/
def fMulhn : Fn2 := fun n a b => (a.setWidth (n + n) * b.setWidth (n + n)).extractLsb' n n
def fDiv : Fn2 := fun _ a b => a.sdiv b
def fDivn : Fn2 := fun _ a b => a / b
def fRem : Fn2 := fun _ a b => a.srem b
def fRemn : Fn2 := fun _ a b => a % b
def fAnd : Fn2 := fun _ a b => a &&& b
def fOr : Fn2 := fun _ a b => a ||| b
def fXor : Fn2 := fun _ a b => a ^^^ b
def fAndn : Fn2 := fun _ a b => a &&& ~~~ b
def fShl : Fn2 := fun n a b => a <<< (b.toNat % n)
def fShr : Fn2 := fun n a b => a >>> (b.toNat % n)
def fSar : Fn2 := fun n a b => a.sshiftRight (b.toNat % n)
def fRot : Fn2 := fun n a b => a.rotateLeft (b.toNat % n)
def fMin : Fn2 := fun _ a b => if b.slt a then b else a
def fMax : Fn2 := fun _ a b => if a.slt b then b else a
def fMinn : Fn2 := fun _ a b => if b.ult a then b else a
def fMaxn : Fn2 := fun _ a b => if a.ult b then b else a

/-- ADD. -/
def execAdd (n : Ann) (o : IntOp) (s : State) : Host.Outcome State Fault Refusal := intWord n o fAdd s
/-- SUB. -/
def execSub (n : Ann) (o : IntOp) (s : State) : Host.Outcome State Fault Refusal := intWord n o fSub s
/-- MUL. -/
def execMul (n : Ann) (o : IntOp) (s : State) : Host.Outcome State Fault Refusal := intWord n o fMul s
/-- MULH. -/
def execMulh (n : Ann) (o : IntOp) (s : State) : Host.Outcome State Fault Refusal := intWord n o fMulh s
/-- MULHN. -/
def execMulhn (n : Ann) (o : IntOp) (s : State) : Host.Outcome State Fault Refusal := intWord n o fMulhn s
/-- DIV: −2^(n−1) / −1 gives −2^(n−1). -/
def execDiv (n : Ann) (o : IntOp) (s : State) : Host.Outcome State Fault Refusal := divWord n o fDiv s
/-- DIVN. -/
def execDivn (n : Ann) (o : IntOp) (s : State) : Host.Outcome State Fault Refusal := divWord n o fDivn s
/-- REM: the sign of a. -/
def execRem (n : Ann) (o : IntOp) (s : State) : Host.Outcome State Fault Refusal := divWord n o fRem s
/-- REMN. -/
def execRemn (n : Ann) (o : IntOp) (s : State) : Host.Outcome State Fault Refusal := divWord n o fRemn s
/-- AND. -/
def execAnd (n : Ann) (o : IntOp) (s : State) : Host.Outcome State Fault Refusal := intWord n o fAnd s
/-- OR. -/
def execOr (n : Ann) (o : IntOp) (s : State) : Host.Outcome State Fault Refusal := intWord n o fOr s
/-- XOR. -/
def execXor (n : Ann) (o : IntOp) (s : State) : Host.Outcome State Fault Refusal := intWord n o fXor s
/-- ANDN: a AND NOT b. -/
def execAndn (n : Ann) (o : IntOp) (s : State) : Host.Outcome State Fault Refusal := intWord n o fAndn s
/-- SHL. -/
def execShl (n : Ann) (o : IntOp) (s : State) : Host.Outcome State Fault Refusal := intWord n o fShl s
/-- SHR. -/
def execShr (n : Ann) (o : IntOp) (s : State) : Host.Outcome State Fault Refusal := intWord n o fShr s
/-- SAR. -/
def execSar (n : Ann) (o : IntOp) (s : State) : Host.Outcome State Fault Refusal := intWord n o fSar s
/-- ROT: left. -/
def execRot (n : Ann) (o : IntOp) (s : State) : Host.Outcome State Fault Refusal := intWord n o fRot s
/-- MIN, signed. -/
def execMin (n : Ann) (o : IntOp) (s : State) : Host.Outcome State Fault Refusal := intWord n o fMin s
/-- MAX, signed. -/
def execMax (n : Ann) (o : IntOp) (s : State) : Host.Outcome State Fault Refusal := intWord n o fMax s
/-- MINN, unsigned. -/
def execMinn (n : Ann) (o : IntOp) (s : State) : Host.Outcome State Fault Refusal := intWord n o fMinn s
/-- MAXN, unsigned. -/
def execMaxn (n : Ann) (o : IntOp) (s : State) : Host.Outcome State Fault Refusal := intWord n o fMaxn s

/-- SEL: a if pK is 1, else b (R196). -/
def execSel (n : Ann) (k : BitVec 3) (o : IntOp) (s : State) : Host.Outcome State Fault Refusal :=
  pacerWord n 12 (o.a :: srcRegs o.b) false (fun s =>
    writeSeq o.d (alu2 o.w (fun _ a b => if s.me.pred k then a else b) (s.me.rd o.a) (s.me.srcB o.b)) s) s

/-- LI: a<31:0> in the high half, IMM in the low half; under W the low 32 bits sign-extended (R196). -/
def execLi (n : Ann) (w : Bool) (d a : SReg) (imm : BitVec 32) (s : State) : Host.Outcome State Fault Refusal :=
  pacerWord n 12 [a] false (fun s =>
    let r : Word := (s.me.rd a).setWidth 32 ++ imm
    writeSeq d (if w then (r.setWidth 32).signExtend 64 else r) s) s

/-- LEA: the byte address of its word (of the MCALL's word in an expansion) plus b (R196). -/
def execLea (n : Ann) (w : Bool) (d : SReg) (b : SrcB) (s : State) : Host.Outcome State Fault Refusal :=
  pacerWord n 12 (srcRegs b) false (fun s =>
    writeSeq d (alu2 w fAdd (BitVec.ofNat 64 s.me.pc) (s.me.srcB b)) s) s

/-- BFX on n-bit values (R197). -/
def bfxOp (sx : Bool) (n : Nat) (a : BitVec n) (pos width : Nat) : BitVec n :=
  let f := (a.toNat >>> pos) % 2 ^ width
  if sx then BitVec.ofInt n (signed width f) else BitVec.ofNat n f
/-- BFI on n-bit values (R197). -/
def bfiOp (n : Nat) (d a : BitVec n) (pos width : Nat) : BitVec n := setFld d pos width a.toNat

/-- A bit-field word: an illegal descriptor in a register traps RANGE (R197). -/
def bfWord (n : Ann) (o : IntOp) (extra : List SReg) (r : Core → Nat → Nat → Word) (s : State) :
    Host.Outcome State Fault Refusal :=
  pacerWord n 12 (o.a :: srcRegs o.b ++ extra) false (fun s =>
    let b := s.me.srcB o.b
    if bfLegal (if o.w then 32 else 64) b then writeSeq o.d (r s.me (fld b 0 6) (fld b 8 7)) s
    else (.error (.trap (tr cRANGE)))) s

/-- BFX: extract a field, zero- or sign-extended (R197). -/
def execBfx (n : Ann) (sx : Bool) (o : IntOp) (s : State) : Host.Outcome State Fault Refusal :=
  bfWord n o [] (fun c pos width => alu1 o.w (fun n a => bfxOp sx n a pos width) (c.rd o.a)) s
/-- BFI: insert a field into s[D], which it reads (R197). -/
def execBfi (n : Ann) (o : IntOp) (s : State) : Host.Outcome State Fault Refusal :=
  bfWord n o [o.d] (fun c pos width => alu2 o.w (fun n d a => bfiOp n d a pos width) (c.rd o.d) (c.rd o.a)) s

/-- A one-source INT word. -/
def intWord1 (n : Ann) (o : IntOp1) (f : (n : Nat) → BitVec n → BitVec n) (s : State) :
    Host.Outcome State Fault Refusal :=
  pacerWord n 12 [o.a] false (fun s => writeSeq o.d (alu1 o.w f (s.me.rd o.a)) s) s

/-- Trailing zeros, n for zero. -/
def ctzNat (n : Nat) (a : BitVec n) : Nat := ((List.range n).takeWhile fun k => !a.getLsbD k).length
/-- Leading zeros, n for zero. -/
def clzNat (n : Nat) (a : BitVec n) : Nat := ((List.range n).takeWhile fun k => !a.getLsbD (n - 1 - k)).length
/-- One bits. -/
def popNat (n : Nat) (a : BitVec n) : Nat := ((List.range n).filter fun k => a.getLsbD k).length

/-- CLZ. -/
def execClz (n : Ann) (o : IntOp1) (s : State) : Host.Outcome State Fault Refusal :=
  intWord1 n o (fun n a => BitVec.ofNat n (clzNat n a)) s
/-- CTZ. -/
def execCtz (n : Ann) (o : IntOp1) (s : State) : Host.Outcome State Fault Refusal :=
  intWord1 n o (fun n a => BitVec.ofNat n (ctzNat n a)) s
/-- POPC. -/
def execPopc (n : Ann) (o : IntOp1) (s : State) : Host.Outcome State Fault Refusal :=
  intWord1 n o (fun n a => BitVec.ofNat n (popNat n a)) s

/-- PSET: pD := cond(a, b) (R198). -/
def execPset (n : Ann) (c : PCond) (w : Bool) (pd : BitVec 3) (a : SReg) (b : SrcB) (s : State) :
    Host.Outcome State Fault Refusal :=
  pacerWord n 12 (a :: srcRegs b) false (fun s =>
    .ok (.seq, s.setMe (s.me.setPred pd (condW w c (s.me.rd a) (s.me.srcB b))))) s
/-- PLOG: pD := op(pA, pB) (R198). -/
def execPlog (n : Ann) (op : PLop) (pd pa pb : BitVec 3) (s : State) : Host.Outcome State Fault Refusal :=
  pacerWord n 12 [] false (fun s =>
    .ok (.seq, s.setMe (s.me.setPred pd (plogOp op (s.me.pred pa) (s.me.pred pb))))) s

end Sys2Proof.Machine
end

