-- ==== Sys2Proof/Machine/SpecUse.lean ====
section
/-! DEFINITION. Which scalar and predicate registers a word of the stream names as sources and as destinations, beside its PR
(R196–R214, R244–R267, R295–R314, R335–R342, and the engine, copy and quay entries). -/
namespace Sys2Proof.Machine

/-- The registers a word reads and writes. -/
structure Uses where
  sr : List SReg
  sw : List SReg
  pr : List (BitVec 3)
  pw : List (BitVec 3)
  deriving DecidableEq, Repr

/-- Scalars read, scalars written. -/
def uses (sr sw : List SReg) : Uses := { sr := sr, sw := sw, pr := [], pw := [] }

/-- The registers of an INT word with two sources. -/
def IntOp.uses (o : IntOp) : Uses := Machine.uses (o.a :: srcRegs o.b) [o.d]
/-- The slot set's scalar. -/
def SlotSet.uses : SlotSet → Uses
  | .one _ => Machine.uses [] []
  | .mask r => Machine.uses [r] []

/-- The stage predicates that LOOP writes (R201). -/
def stagePreds : List (BitVec 3) := [4, 5, 6, 7]

/-- What each word of the stream reads and writes; a row that is no word of the stream names nothing. -/
def usesOf : Instr → Uses
  | .add _ o | .sub _ o | .mul _ o | .mulh _ o | .mulhn _ o | .div _ o | .divn _ o | .rem _ o | .remn _ o | .and _ o
  | .or _ o | .xor _ o | .andn _ o | .shl _ o | .shr _ o | .sar _ o | .rot _ o | .min _ o | .max _ o | .minn _ o
  | .maxn _ o | .bfx _ _ o => IntOp.uses o
  | .bfi _ o => uses (o.d :: o.a :: srcRegs o.b) [o.d]
  | .sel _ k o => { IntOp.uses o with pr := [k] }
  | .li _ _ d a _ => uses [a] [d]
  | .lea _ _ d b => uses (srcRegs b) [d]
  | .clz _ o | .ctz _ o | .popc _ o => uses [o.a] [o.d]
  | .pset _ _ _ pd a b => { uses (a :: srcRegs b) [] with pw := [pd] }
  | .plog _ _ pd pa pb => { uses [] [] with pr := [pa, pb], pw := [pd] }
  | .jmp _ a _ | .jmpr _ a _ | .ret _ a => uses [a] []
  | .call _ d _ => uses [] [d]
  | .loop _ _ true _ d a _ => { uses [a] [d] with pw := stagePreds }
  | .loop _ _ false _ d _ _ => { uses [d] [d] with pw := stagePreds }
  | .ld _ _ _ d a _ | .lda _ _ _ _ d a _ => uses [a] [d]
  | .st _ _ _ a b _ | .str _ _ _ _ a b _ => uses [a, b] []
  | .chkd _ a => uses [a] [a]
  | .atom _ _ _ _ _ d a b => uses [a, b] [d]
  | .cas _ _ _ _ _ d a b c => uses [a, b, c] [d]
  | .waita _ _ _ _ _ psel _ d a b dl => { uses [a, b, dl] [d] with pw := [psel] }
  | .csrr _ d _ => uses [] [d]
  | .csrw _ a _ => uses [a] []
  | .csrx _ _ d a _ => uses [a] [d]
  | .fmt _ a | .rlyClose _ a | .heatClose _ a | .collLoadDrop _ a => uses [a] []
  | .launch _ _ d a | .waitch _ _ d a | .rlyOpen _ d a | .rlyStat _ d a | .collLoad _ d a | .cpcan _ d a => uses [a] [d]
  | .feed _ d a b | .heatJoin _ d a b | .rlyGpost _ d a b => uses [a, b] [d]
  | .popw _ d a c | .rlyTake _ d a c | .rlyGtake _ d a c | .rlyWait _ d a c | .collWait _ d a c => uses [a, c] [d]
  | .ackw _ a b | .collClaimSeal _ a b | .cphint _ _ a b _ => uses [a, b] []
  | .tickw _ next d a c => uses (if next then [c] else [a, c]) [d]
  | .rlyPost _ d a b c | .heatGive _ d a b c | .heatWait _ d a b c | .collRun _ d a b c | .collClaim _ d a b c =>
      uses [a, b, c] [d]
  | .vld _ _ _ a _ | .vst _ _ a _ _ | .vldb _ _ _ a _ | .vstm _ _ a _ _ _ => uses [a] []
  | .vldg _ _ _ _ _ b => uses [b] []
  | .sld _ _ _ a b _ => uses [a, b] []
  | .vsts _ _ _ _ c => uses [c] []
  | .vbcast _ _ _ b => uses (srcRegs b) []
  | .vacr _ _ _ _ _ _ _ b | .vacw _ _ _ _ _ b => uses [b] []
  | .mmag _ _ _ c _ => uses [c] []
  | .sclaim _ t | .srls _ t => SlotSet.uses t
  | .cpgo _ d _ b c | .cpone _ _ _ _ d _ b c _ => uses [b, c] [d]
  | .cpwait _ _ d _ => uses [] [d]
  | .qop _ _ _ _ d a b _ => uses [d, a, b] []
  | .qred _ _ _ _ d a _ | .qfill _ _ d a _ => uses [d, a] []
  | _ => uses [] []

/-- The INT class (R196): OP 0x00–0x1E. -/
def isInt (op : BitVec 8) : Bool := op.toNat ≤ 0x1E

/-- Does a word write RRB (R148, R214)? -/
def writesRrb : Instr → Bool
  | .csrw _ _ n | .csrx _ _ _ _ n => n == 0x004
  | _ => false

/-- The word with operand b as an immediate, for the opcodes whose two forms mean the same (R272). -/
def withImm (x : BitVec 32) : Instr → Option Instr
  | .add n o => some (.add n { o with b := .imm x })
  | .sub n o => some (.sub n { o with b := .imm x })
  | .mul n o => some (.mul n { o with b := .imm x })
  | .mulh n o => some (.mulh n { o with b := .imm x })
  | .mulhn n o => some (.mulhn n { o with b := .imm x })
  | .div n o => some (.div n { o with b := .imm x })
  | .divn n o => some (.divn n { o with b := .imm x })
  | .rem n o => some (.rem n { o with b := .imm x })
  | .remn n o => some (.remn n { o with b := .imm x })
  | .and n o => some (.and n { o with b := .imm x })
  | .or n o => some (.or n { o with b := .imm x })
  | .xor n o => some (.xor n { o with b := .imm x })
  | .andn n o => some (.andn n { o with b := .imm x })
  | .shl n o => some (.shl n { o with b := .imm x })
  | .shr n o => some (.shr n { o with b := .imm x })
  | .sar n o => some (.sar n { o with b := .imm x })
  | .rot n o => some (.rot n { o with b := .imm x })
  | .min n o => some (.min n { o with b := .imm x })
  | .max n o => some (.max n { o with b := .imm x })
  | .minn n o => some (.minn n { o with b := .imm x })
  | .maxn n o => some (.maxn n { o with b := .imm x })
  | .sel n k o => some (.sel n k { o with b := .imm x })
  | .pset n c w pd a _ => some (.pset n c w pd a (.imm x))
  | _ => none

/-- Operand b, where it is a register of an INT word. -/
def regB (i : Instr) : Option SReg :=
  match i with
  | .add _ o | .sub _ o | .mul _ o | .mulh _ o | .mulhn _ o | .div _ o | .divn _ o | .rem _ o | .remn _ o | .and _ o
  | .or _ o | .xor _ o | .andn _ o | .shl _ o | .shr _ o | .sar _ o | .rot _ o | .min _ o | .max _ o | .minn _ o
  | .maxn _ o | .sel _ _ o => (match o.b with | .reg r => some r | .imm _ => none)
  | .pset _ _ _ _ _ b => (match b with | .reg r => some r | .imm _ => none)
  | _ => none

end Sys2Proof.Machine
end

