-- ==== Sys2Proof/Machine/Specialise.lean ====
section
/-! DEFINITION. The launch specialiser: the values it follows, what it does to each word, the layout of residual code, and the cache
(R269–R286, R398). -/
namespace Sys2Proof.Machine

-- What is known at a point (R271). Keys: 1–63 the physical scalar registers, 65–71 p1–p7, 72 RRB.

/-- A pass of an unrolled loop: its INIT word, its back edge, the pass. -/
structure SLoop where
  init : Nat
  back : Nat
  pass : Nat
  deriving DecidableEq, Repr

/-- A point of the stream as the specialiser follows it: the section's header and the unrolled loops around it, and the word (or the
header itself) and the unrolled loops around that. Innermost loops first. -/
structure SNode where
  hdr : Nat
  inst : List SLoop
  addr : Nat
  ctx : List SLoop
  deriving DecidableEq, Repr

/-- Known values, and a bit for each key whose value is of dynamic origin. -/
structure SEnv where
  known : AMap Word
  dyn : Nat
  deriving DecidableEq, Repr

def kP (p : BitVec 3) : Nat := 64 + p.toNat
def kRrb : Nat := 72

/-- A key's value, if known; s0 is 0 and p0 is 1. -/
def SEnv.val (e : SEnv) (k : Nat) : Option Word := if k = 0 then some 0 else if k = 64 then some 1 else e.known.find k
/-- Is a key's value of dynamic origin? -/
def SEnv.isDyn (e : SEnv) (k : Nat) : Bool := e.dyn.testBit k
/-- A known value of static origin. -/
def SEnv.put (e : SEnv) (k : Nat) (v : Word) : SEnv :=
  if k = 0 ∨ k = 64 then e
  else { known := e.known.upd k v, dyn := if e.dyn.testBit k then e.dyn - 2 ^ k else e.dyn }
/-- Values that become unknown. -/
def SEnv.lose (e : SEnv) (ks : List Nat) (dyn : Bool) : SEnv :=
  ks.foldl (fun e k =>
    if k = 0 ∨ k = 64 then e
    else
      { known := e.known.del k
        dyn := if dyn then e.dyn ||| 2 ^ k else if e.dyn.testBit k then e.dyn - 2 ^ k else e.dyn }) e
/-- Values that become unknown, of the origin they had (R271). -/
def SEnv.forget (e : SEnv) (ks : List Nat) : SEnv := ks.foldl (fun e k => e.lose [k] (e.isDyn k)) e
/-- What a word writes becomes unknown (R271): of the word's own origin, and of the origin it had where the word may leave it as it is:
`may` says that of the word, and an unknown RRB of every name from s48 up. -/
def SEnv.written (e : SEnv) (ks : List Nat) (dyn may : Bool) : SEnv :=
  ks.foldl (fun f k => f.lose [k] (dyn || ((may || (48 ≤ k && k < 64 && (e.known.find 72).isNone)) && e.isDyn k))) e
/-- Where paths meet: known only if every path gives the same value. -/
def SEnv.meet (a b : SEnv) : SEnv :=
  { known := a.known.filter fun p => b.known.find p.1 == some p.2, dyn := a.dyn ||| b.dyn }

/-- The keys that a scalar name may mean: one, or with an unknown RRB all of s48–s63. -/
def SEnv.sKeys (e : SEnv) (r : SReg) : List Nat :=
  if r.toNat < 48 then [r.toNat]
  else match e.val kRrb with
    | some v => [physS v r]
    | none => (List.range 16).map (48 + ·)
/-- The name of a physical register under the known RRB. -/
def SEnv.name (e : SEnv) (p : Nat) : SReg :=
  BitVec.ofNat 6 (if p < 48 then p
    else match e.val kRrb with
      | some v => 48 + (p - 48 + 16 - fld v 8 4) % 16
      | none => p)

/-- A core that holds the known values, to compute results with the instructions' own meanings. -/
def SEnv.scratch (e : SEnv) : State :=
  let k : Core := { Core.reset with
    s := e.known.filter fun p => p.1 < 64
    p := (List.range 7).foldl (fun b i => setFld b (i + 1) 1 (((e.val (65 + i)).getD 0).toNat)) 1
    rrb := (e.val kRrb).getD 0
    ctx := { SecCtx.none with hdr := { Header.zero with magic := 0xA, len := 4095 }, atHdr := false } }
  State.reset.setCore 0 k
/-- Take results back. -/
def SEnv.absorb (e : SEnv) (k : Core) (ks : List Nat) : SEnv :=
  ks.foldl (fun e x =>
    e.put x (if x < 64 then k.rdP x else if x < 72 then (if k.pred (BitVec.ofNat 3 x) then 1 else 0) else k.rrb)) e
/-- Run a word on known values; none where it traps. -/
def SEnv.runs (e : SEnv) (f : State → Host.Outcome State Fault Refusal) : Option Core :=
  match f e.scratch with
  | .next s => if s.agenda.isEmpty then some (s.core 0) else none
  | _ => none

/-- The meaning of an INT-class word (R196–R198). -/
def intMeaning (i : Instr) (s : State) : Host.Outcome State Fault Refusal :=
  match i with
  | .add n o => execAdd n o s | .sub n o => execSub n o s | .mul n o => execMul n o s | .mulh n o => execMulh n o s
  | .mulhn n o => execMulhn n o s | .div n o => execDiv n o s | .divn n o => execDivn n o s | .rem n o => execRem n o s
  | .remn n o => execRemn n o s | .and n o => execAnd n o s | .or n o => execOr n o s | .xor n o => execXor n o s
  | .andn n o => execAndn n o s | .shl n o => execShl n o s | .shr n o => execShr n o s | .sar n o => execSar n o s
  | .rot n o => execRot n o s | .min n o => execMin n o s | .max n o => execMax n o s | .minn n o => execMinn n o s
  | .maxn n o => execMaxn n o s | .sel n k o => execSel n k o s | .li n w d a x => execLi n w d a x s
  | .bfx n sx o => execBfx n sx o s | .bfi n o => execBfi n o s | .clz n o => execClz n o s | .ctz n o => execCtz n o s
  | .popc n o => execPopc n o s | .pset n c w pd a b => execPset n c w pd a b s | .plog n op pd a b => execPlog n op pd a b s
  | _ => .next s

-- What is read, and what the crew brings.

/-- What a build works on: the machine as it stands, the die, and the crew. -/
structure SIn where
  s : State
  die : Nat
  x : Crew
  unroll : Nat
  deriving DecidableEq, Repr

def SIn.stream (b : SIn) : Nat := rStream b.x.rcd
/-- Bytes of the stream, read in the crew's context (R279 REASON 8). -/
def SIn.peek (b : SIn) (va n : Nat) : Option Nat :=
  if va % 4 ≠ 0 then none
  else
    match b.s.xlateRange b.die (rAsid b.x.rcd) va n .rd true with
    | .error _ => none
    | .ok (ps, _) => some (ps.foldl (fun (r : Nat × Nat) p => (r.1 + b.s.mem.getNat p.2.2.key p.2.1 * 2 ^ (8 * r.2), r.2 + p.2.1)) (0, 0)).1
/-- A section's header. -/
def SIn.header (b : SIn) (va : Nat) : Option Header := (b.peek va 8).map fun w => Header.ofBits (BitVec.ofNat 64 w)

/-- Leave the unrolled loops that do not hold an address. -/
def unwind (addr : Nat) (ctx : List SLoop) : List SLoop := ctx.filter fun l => l.init < addr && addr ≤ l.back
/-- The header node at an address. -/
def hdrNode (a : Nat) (ctx : List SLoop) : SNode :=
  let c := unwind a ctx
  { hdr := a, inst := c, addr := a, ctx := c }
/-- The node at a word address of the same section; at the section's end, the next header. -/
def SNode.at (n : SNode) (len a : Nat) (ctx : List SLoop) : SNode :=
  if n.hdr + 8 + 12 * len ≤ a then hdrNode a ctx else { n with addr := a, ctx := unwind a ctx }

-- Loops (R275).

/-- The back edge of a loop: the first LOOP word after INIT, in the order of the stream, that names the same counter without INIT.
Also the registers that words up to it write. -/
def SIn.scan (b : SIn) (d : SReg) : Nat → Nat → Nat → List SReg → List (BitVec 3) → Bool → Option (Nat × Bool × Nat × List SReg × List (BitVec 3) × Bool)
  | 0, _, _, _, _, _ => none
  | n + 1, hdrEnd, a, sw, pw, rb =>
    if hdrEnd ≤ a then
      match b.header a with
      | some h => if h.legal then b.scan d n (a + 8 + 12 * h.len.toNat) (a + 8) sw pw rb else none
      | none => none
    else
      match b.peek a 12 with
      | none => none
      | some w =>
        let w : IWord := BitVec.ofNat 96 w
        match decodeWord w with
        | .error _ => b.scan d n hdrEnd (a + 12) (BitVec.ofNat 6 (fld w 62 10) :: sw) pw rb
        | .ok i =>
          match i with
          | .loop n' _ init s1 d' _ _ =>
            if d' = d then (if init then none else some (a, n'.bt, s1.toNat + 1, sw, pw, rb))
            else b.scan d n hdrEnd (a + 12) (d' :: sw) (stagePreds ++ pw) true
          | .mcall _ num md ma mb mc imm =>
            let ops := match b.x.mdir.find num.toNat with
              | some (st, ct) => (List.range ct).filterMap fun j =>
                  let m : MCall := { start := st, count := ct, idx := j, d := md, a := ma, b := mb, c := mc, imm := imm }
                  (decodeRaw (m.word (b.x.micro.get 0 (st + j)))).toOption
              | none => []
            b.scan d n hdrEnd (a + 12) (ops.flatMap (fun o => (usesOf o).sw) ++ sw) (ops.flatMap (fun o => (usesOf o).pw) ++ pw) rb
          | _ => b.scan d n hdrEnd (a + wordBytes i) ((usesOf i).sw ++ sw) ((usesOf i).pw ++ pw) (rb || writesRrb i)

/-- What is known of the loop that an INIT word begins. -/
structure SBody where
  back : Nat
  /-- its back edge is marked BT = 1 -/
  bt : Bool
  stages : Nat
  /-- the keys that its body and its LOOP words write -/
  writes : List Nat
  deriving DecidableEq, Repr

/-- Words that a scan may read. -/
def scanFuel : Nat := 2 ^ 20
/-- The loop after an INIT word at `a`. -/
def SIn.body (b : SIn) (hdrEnd a : Nat) (d : SReg) : Option SBody :=
  (b.scan d scanFuel hdrEnd (a + 12) [] [] false).map fun r =>
    let (back, bt, st, sw, pw, _) := r
    let all48 := (List.range 16).map (48 + ·)
    { back := back, bt := bt, stages := st,
      writes := d.toNat :: kRrb :: (stagePreds.map kP) ++ pw.map kP ++
        sw.flatMap fun r => if r.toNat < 48 then [r.toNat] else all48 }

-- One word.

/-- Where a copied word goes. -/
inductive STarget where
  | none
  /-- word of the same residual section, from an index base (JMP's s[A]) -/
  | word (n : SNode) (base : Int)
  | header (n : SNode)
  /-- a word index outside every section, from an index base: the word traps SECT (R25, R278) -/
  | bad (base : Int)
  deriving DecidableEq, Repr

/-- A word that is emitted: its bits (with a parameter block where it has one), and its target. -/
structure SCopy where
  w : Nat
  words : Nat
  target : STarget
  deriving DecidableEq, Repr

/-- What the specialiser does at a word. -/
structure SAct where
  /-- REASON, where the specialiser stops here (R279) -/
  stop : Option Nat
  /-- registers to be written before it, or all (R274) -/
  need : List Nat
  needAll : Bool
  copy : Option SCopy
  /-- a LEA with an unknown predicate: its words, each carrying the predicate (R273) -/
  lea : List Nat
  /-- keys that become known by a fold, to be written later; keys that are no longer pending -/
  pend : List Nat
  drop : List Nat
  env : SEnv
  /-- what is known at the jump, where it differs -/
  jenv : Option SEnv
  /-- the values at the word's end, where what is known after it is less (a kept loop's body, R275) -/
  out : Option SEnv
  fall : Option SNode
  jump : Option SNode
  fold : Bool
  resid : Bool
  /-- a loop occurrence with a known trip count, and whether it is unrolled -/
  occ : Option Bool
  deriving DecidableEq, Repr

/-- A word that is dropped. -/
def SAct.dropped (e : SEnv) (fall : Option SNode) : SAct :=
  { stop := none, need := [], needAll := false, copy := none, lea := [], pend := [], drop := [], env := e, jenv := none, out := none, fall := fall,
    jump := none, fold := true, resid := false, occ := none }
/-- The specialiser stops. -/
def SAct.stops (e : SEnv) (r : Nat) : SAct := { SAct.dropped e none with stop := some r, fold := false }

/-- Is a word's result of dynamic origin whatever its sources: a CSR read, memory, an engine, copy or quay instruction, a unit's
answer (R271)? -/
def alwaysDyn (i : Instr) : Bool :=
  match encodeRaw i with
  | some r => !isInt r.op && !(match i with | .loop .. | .csrw .. => true | _ => false)
  | none => true

/-- The block of a word with P = 1, the markers whose register is known applied (R29, R272), and the registers of those kept. -/
def substBlock (e : SEnv) (blk : Nat) : Nat × List Nat :=
  let r := (List.range 4).foldl (fun (r : Nat × List Nat × List Nat) i =>
    let m := marker blk i
    if mkOpk m = 0 ∨ 2 < mkOpk m ∨ 8 < mkTgt m then r
    else
      let tgt := mkTgt m
      let ks := e.sKeys (mkSreg m)
      let keep := (r.1, r.2.1 ++ ks, tgt :: r.2.2)
      match ks with
      | [k] =>
        match e.val k with
        | none => keep
        | some v =>
          let raw := rawBlock r.1
          let x := (if mkOpk m = 2 then blockGet raw tgt else 0) + v.toInt
          let lim := blockLim tgt
          if r.2.2.contains tgt ∨ x < lim.1 ∨ lim.2 < x then keep
          else
            let pos := if tgt < 4 then (56 * tgt + 36, 20) else if tgt < 8 then (56 * (tgt - 4), 36) else (280, 40)
            let b : BitVec 384 := BitVec.ofNat 384 r.1
            ((setFld (setFld b pos.1 pos.2 (wrap pos.2 x)) (368 - 16 * i) 16 0).toNat, r.2)
      | _ => keep) (blk, [], [])
  (r.1, r.2.1)

/-- Operand b rewritten as an immediate where its register is known and the value fits (R272). -/
def SEnv.rewrite (e : SEnv) (i : Instr) : Instr :=
  match regB i with
  | none => i
  | some r =>
    match e.sKeys r with
    | [k] =>
      match e.val k with
      | some v => if (v.setWidth 32).signExtend 64 = v then (withImm (v.setWidth 32) i).getD i else i
      | none => i
    | _ => i

/-- The bits of an instruction's word. -/
def wordOf (i : Instr) : Nat := ((encode i).getD 0).toNat
/-- Fits in a sign-extended 32-bit immediate. -/
def fits32 (v : Word) : Bool := (v.setWidth 32).signExtend 64 == v
/-- The words that give a register a value (R274), under a predicate. -/
def matWords (e : SEnv) (pr : BitVec 3) (k : Nat) (v : Word) : List Nat :=
  let n : Ann := { bt := false, pr := pr }
  if k < 64 then
    let r := e.name k
    if fits32 v then [wordOf (.li n true r 0 (v.setWidth 32))]
    else [wordOf (.li n false r 0 (v.extractLsb' 32 32)), wordOf (.li n false r r (v.setWidth 32))]
  else [wordOf (.pset n .eq false (BitVec.ofNat 3 k) 0 (.imm (if v = 0 then 1 else 0)))]

/-- What the context of one word is. -/
structure SAt where
  b : SIn
  n : SNode
  len : Nat
  e : SEnv
  w : IWord
  deriving DecidableEq, Repr

/-- The next word's node. -/
def SAt.next (t : SAt) (bytes : Nat) : SNode := t.n.at t.len (t.n.addr + bytes) t.n.ctx
/-- The node of a branch form's target (R25, R49). -/
def SAt.target (t : SAt) (hdr : Bool) (imm : BitVec 32) (ctx : List SLoop) : STarget :=
  if hdr then .header (hdrNode (BitVec.ofNat 64 t.n.addr + sext64 imm).toNat ctx)
  else if 0 ≤ imm.toInt ∧ imm.toInt < t.len then .word (t.n.at t.len (t.n.hdr + 8 + 12 * imm.toNat) ctx) 0
  else .bad 0
/-- The node of a target. -/
def STarget.node : STarget → Option SNode
  | .word n _ => some n
  | .header n => some n
  | _ => Option.none
def STarget.isHdr : STarget → Bool
  | .header _ => true
  | _ => false
def STarget.isBad : STarget → Bool
  | .bad _ => true
  | _ => false

/-- The keys of a list of scalar names and predicates. -/
def SEnv.keys (e : SEnv) (sr : List SReg) (pr : List (BitVec 3)) : List Nat := sr.flatMap e.sKeys ++ pr.map kP

/-- A copied word: it reads its registers at run time, and what it writes becomes unknown (R271, R272, R274). `i'` is the word as it is
copied. Values of s48–s63 are written before a word that writes RRB: afterwards no name is known for them (log entry 34). -/
def SAt.copiedAs (t : SAt) (i i' : Instr) (pr : BitVec 3) (resid : Bool) : SAct :=
  let e := t.e
  let u := usesOf i
  let off := e.val (kP pr) == some 0
  let dests := e.keys u.sw u.pw ++ (if writesRrb i then [kRrb] else [])
  let srcs := e.keys u.sr u.pr
  let dyn := e.isDyn (kP pr) || alwaysDyn i || srcs.any e.isDyn
  let blk := if wordBytes i = 60 then some (substBlock e ((t.b.peek (t.n.addr + 12) 48).getD 0)) else none
  let need := kP pr :: (if off then [] else e.keys (usesOf i').sr (usesOf i').pr ++ (match blk with | some x => x.2 | none => [])) ++
    (if (e.val (kP pr)).isNone then dests else []) ++ (if writesRrb i then (List.range 16).map (48 + ·) else [])
  let w := if i' = i then t.w.toNat else wordOf i'
  { SAct.dropped (if off then e else e.written dests dyn (e.val (kP pr)).isNone) (some (t.next (wordBytes i))) with
    need := need
    copy := some
      { w := (match blk with | some x => w + x.1 * 2 ^ 96 | none => w), words := wordBytes i / 12, target := .none }
    drop := if off then [] else dests
    fold := false
    resid := resid }

/-- A copied word, with b as an immediate where R272 says so. -/
def SAt.copied (t : SAt) (i : Instr) (pr : BitVec 3) (resid : Bool) : SAct := t.copiedAs i (t.e.rewrite i) pr resid

/-- A copied word that branches (R272, R274). `always`: it goes to its target, whatever else. -/
def SAt.branches (t : SAt) (i : Instr) (pr : BitVec 3) (resid : Bool) (tg : STarget) (falls : Bool) (runtime : Bool) : SAct :=
  let a := t.copied i pr resid
  let off := t.e.val (kP pr) == some 0
  let on := t.e.val (kP pr) == some 1
  { a with
    needAll := !off && (runtime || !on || tg.isHdr)
    copy := a.copy.map fun c => { c with target := tg }
    fall := if off || falls || !on || tg.isBad then a.fall else none
    jump := if off then none else tg.node }

/-- A word whose fold would trap is kept as it stands (R278). -/
def SAt.traps (t : SAt) (i : Instr) (pr : BitVec 3) (tg : STarget) : SAct :=
  let a := t.copiedAs i i pr false
  { a with env := t.e.lose a.drop false, copy := a.copy.map fun c => { c with target := tg } }

/-- LEA (R273). -/
def SAt.lea (t : SAt) (i : Instr) (n : Ann) (w : Bool) (d : SReg) (b : SrcB) : SAct :=
  let e := t.e
  let bv := match b with
    | .imm x => some (sext64 x)
    | .reg r => match e.sKeys r with | [k] => e.val k | _ => none
  match bv with
  | none => SAct.stops e 4
  | some v =>
    let r := alu2 w fAdd (BitVec.ofNat 64 t.n.addr) v
    let fall := some (t.next (wordBytes i))
    match e.val (kP n.pr), e.sKeys d with
    | some 0, _ => SAct.dropped e fall
    | some _, [k] => { SAct.dropped (e.put k r) fall with pend := if k = 0 then [] else [k] }
    | _, ks =>
      let ws := if d = 0 then [] else
        if fits32 r then [wordOf (.li { bt := false, pr := n.pr } true d 0 (r.setWidth 32))]
        else [wordOf (.li { bt := false, pr := n.pr } false d 0 (r.extractLsb' 32 32)),
          wordOf (.li { bt := false, pr := n.pr } false d d (r.setWidth 32))]
      { SAct.dropped (e.written ks (e.isDyn (kP n.pr)) (e.val (kP n.pr)).isNone) fall with
        need := kP n.pr :: ks, lea := ws, drop := ks }

/-- LOOP with every source known (R272, R275, R276); `unroll` is the decision on this occurrence. A back edge that falls through clears
its counter at most, and writes neither predicate nor RRB (R201). -/
def SAt.loop (t : SAt) (i : Instr) (n : Ann) (hdr init : Bool) (s1 : BitVec 2) (d a : SReg) (imm : BitVec 32) (unroll : Bool) :
    SAct :=
  let e := t.e
  let w := [d.toNat, kRrb] ++ stagePreds.map kP
  let copy (tg : STarget) : SAct := { t.copied i n.pr false with copy := some { w := t.w.toNat, words := 1, target := tg } }
  match e.runs (execLoop { n with pr := 0 } true init s1 d a 0) with
  | none => t.traps i n.pr (t.target hdr imm t.n.ctx)
  | some k =>
    let went := k.ctx.atHdr
    let e' := e.absorb k (if init || (e.val kRrb).isNone then w.filter (· != kRrb) else w)
    if init then
      let tg := t.target hdr imm t.n.ctx
      if went then
        { copy tg with env := e', fall := none, jump := tg.node, needAll := hdr }
      else
        match t.b.body (t.n.hdr + 8 + 12 * t.len) t.n.addr d with
        | none => { copy tg with env := e.forget w }
        | some y =>
          let passes := (e'.val d.toNat).getD 0 |>.toNat
          let total := passes + y.stages - 1
          if unroll && y.bt && total ≤ t.b.unroll && t.n.ctx.length < 3 then
            let ctx := { init := t.n.addr, back := y.back, pass := 0 } :: t.n.ctx
            { copy tg with env := e', fall := some (t.n.at t.len (t.n.addr + 12) ctx), occ := some true }
          else { copy tg with env := e'.forget y.writes, out := some e', occ := some false }
    else
      let here := t.n.ctx.find? fun l => l.back == t.n.addr
      let up := match here with
        | some l => { l with pass := l.pass + 1 } :: t.n.ctx.filter fun x => x != l
        | none => t.n.ctx
      let tg := t.target hdr imm up
      if went then { copy tg with env := e', fall := none, jump := tg.node, needAll := hdr }
      else
        { copy (t.target hdr imm t.n.ctx) with
          env := e.absorb k [d.toNat], drop := if e.val d.toNat = some 0 then [] else [d.toNat] }

/-- What the specialiser does at a decoded word (R272–R275). -/
def SAt.act (t : SAt) (i : Instr) (unroll : Bool) : SAct :=
  let e := t.e
  let raw := RawWord.ofBits t.w
  let u := usesOf i
  let pk := kP raw.pr
  let fall := some (t.next (wordBytes i))
  let srcs := pk :: e.keys u.sr u.pr
  let listed := isInt raw.op || (match i with | .br .. | .jmp .. | .loop .. => true | _ => false)
  if raw.bt && (e.val kRrb).isNone && (u.sr ++ u.sw).any (fun r => decide (48 ≤ r.toNat)) then SAct.stops e 3
  else
    match i with
    | .jmpr .. | .call .. | .ret .. => SAct.stops e 3
    | .lea n w d b => t.lea i n w d b
    | _ =>
      let folds := raw.bt && listed
      if folds && srcs.any e.isDyn then SAct.stops e 2
      else
        let known := folds && srcs.all fun k => (e.val k).isSome
        let resid := folds && !known
        let off := known && e.val pk == some 0
        match i with
        | .br n hdr imm =>
          let tg := t.target hdr imm t.n.ctx
          if off then SAct.dropped e fall
          else if known then
            (match tg.node with
              | some m => { SAct.dropped e none with jump := some m }
              | none => t.traps i n.pr tg)
          else t.branches i n.pr resid tg false false
        | .jmp n a imm =>
          (match e.sKeys a with
            | [k] =>
              match e.val k with
              | none => SAct.stops e 3
              | some v =>
                let x := v.toInt + imm.toInt
                let tg : STarget :=
                  if 0 ≤ x ∧ x < t.len then .word (t.n.at t.len (t.n.hdr + 8 + 12 * x.toNat) t.n.ctx) v.toInt
                  else .bad v.toInt
                if off then SAct.dropped e fall
                else if known then
                  (match tg.node with
                    | some m => { SAct.dropped e none with jump := some m }
                    | none => t.traps i n.pr tg)
                else t.branches i n.pr resid tg false false
            | _ => SAct.stops e 3)
        | .loop n hdr init s1 d a imm =>
          if known && !off then t.loop i n hdr init s1 d a imm unroll
          else
            let r := t.branches i n.pr resid (t.target hdr imm t.n.ctx) true true
            if e.val pk == some 0 then r
            else if init then
              match t.b.body (t.n.hdr + 8 + 12 * t.len) t.n.addr d with
              | some y => { r with env := r.env.forget y.writes }
              | none => { r with env := r.env.forget [kRrb] }
            else
              let taken := r.env.forget [kRrb]
              let keeps := stagePreds.map kP
              { r with env := keeps.foldl (fun f k => f.lose [k] (f.isDyn k || e.isDyn k)) taken, jenv := some taken, drop := kRrb :: r.drop }
        | .brq n hdr _ imm => t.branches i n.pr false (t.target hdr imm t.n.ctx) true true
        | .squash n imm => t.branches i n.pr false (t.target true imm t.n.ctx) false true
        | .exit n =>
          { t.copied i n.pr false with needAll := true, fall := if e.val pk = some 1 then none else fall }
        | .mcall n num md ma mb mc imm =>
          let raws := match t.b.x.mdir.find num.toNat with
            | some (st, ct) => (List.range ct).map fun j =>
                let m : MCall := { start := st, count := ct, idx := j, d := md, a := ma, b := mb, c := mc, imm := imm }
                m.word (t.b.x.micro.get 0 (st + j))
            | none => []
          if raws.any fun o => o.op == 0x17 then SAct.stops e 4
          else
            let r := t.copied i n.pr false
            if e.val pk = some 0 then { r with needAll := true }
            else
              raws.foldl (fun (r : SAct) w =>
                match decodeRaw w with
                | .error _ => r
                | .ok o =>
                  let f := r.env
                  let v := usesOf o
                  let q := kP w.pr
                  let ds := f.keys v.sw v.pw ++ (if writesRrb o then [kRrb] else [])
                  let dyn := e.isDyn pk || f.isDyn q || alwaysDyn o || (f.keys v.sr v.pr).any f.isDyn
                  if f.val q = some 0 then r
                  else { r with env := f.written ds dyn ((e.val pk).isNone || (f.val q).isNone), drop := ds ++ r.drop })
                { r with needAll := true, env := e }
        | _ =>
          if off then SAct.dropped e fall
          else if known then
            (match e.runs (intMeaning i) with
              | none => t.traps i raw.pr .none
              | some k =>
                let ds := e.keys u.sw u.pw
                { SAct.dropped (e.absorb k ds) fall with pend := ds.filter fun k => k != 0 && k != 64 })
          else t.copied i raw.pr resid

/-- What the specialiser does at a node; none where the stream cannot be read (R279 REASON 8). -/
def SIn.actAt (b : SIn) (n : SNode) (e : SEnv) (unroll : SNode → Bool) : Option SAct :=
  match b.header n.hdr with
  | none => none
  | some h =>
    if n.addr = n.hdr then
      some { SAct.dropped e (if h.legal then some { n with addr := n.hdr + 8 } else none) with fold := false }
    else
      match b.peek n.addr 12 with
      | none => none
      | some w =>
        let t : SAt := { b := b, n := n, len := h.len.toNat, e := e, w := BitVec.ofNat 96 w }
        match decodeWord t.w with
        | .error _ =>
          let d := e.sKeys (BitVec.ofNat 6 (fld t.w 62 10))
          some { SAct.dropped (e.lose d true) (some (t.next 12)) with
            copy := some { w := w, words := 1, target := .none }, drop := d, fold := false }
        | .ok i =>
          if wordBytes i = 60 ∧ (b.peek (n.addr + 12) 48).isNone then none else some (t.act i (unroll n))

-- Every path (R271).

/-- A map by node. -/
abbrev SMap (α : Type) := List (SNode × α)
def SMap.find {α : Type} (m : SMap α) (n : SNode) : Option α := (m.find? fun p => p.1 == n).map fun p => p.2
def SMap.set {α : Type} : SMap α → SNode → α → SMap α
  | [], n, v => [(n, v)]
  | (k, x) :: m, n, v => if k = n then (n, v) :: m else (k, x) :: SMap.set m n v

/-- Why nothing is built: a stop with the node that decided it, a page that cannot be read, or the word limit (R279). -/
inductive SStop where
  | at (reason : Nat) (n : SNode)
  | unreadable
  | growth
  deriving DecidableEq, Repr

/-- Turns that following the stream may take. -/
def flowFuel : Nat := 2 ^ 40

/-- Follow every path until nothing changes: what is known at each node. -/
def SIn.flow (b : SIn) (unroll : SNode → Bool) : Nat → List SNode → SMap SEnv → Except SStop (SMap SEnv)
  | 0, _, _ => .error .growth
  | _ + 1, [], m => .ok m
  | f + 1, n :: todo, m =>
    match m.find n with
    | none => b.flow unroll f todo m
    | some e =>
      match b.actAt n e unroll with
      | none => .error .unreadable
      | some a =>
        let outs := (a.fall.toList.map fun x => (x, a.env)) ++ a.jump.toList.map fun x => (x, a.jenv.getD a.env)
        let r := outs.foldl (fun (r : List SNode × SMap SEnv) x =>
          match r.2.find x.1 with
          | none => (x.1 :: r.1, r.2.set x.1 x.2)
          | some e' =>
            let e'' := e'.meet x.2
            if e'' = e' then r else (x.1 :: r.1, r.2.set x.1 e'')) (todo, m)
        b.flow unroll f r.1 r.2

-- Laying out (R274, R280, R285, R398).

/-- An item of residual code. -/
structure SItem where
  hdr : Bool
  w : Nat
  words : Nat
  target : STarget
  bm : BitVec 64
  deriving DecidableEq, Repr

/-- A layout in progress: items so far, newest first; the section and word number that come next; where each node's code begins; words
of this section and headers still to be laid out; the loop occurrences met, newest first; the first stop met; the counts. -/
structure SLay where
  items : List SItem
  sec : Nat
  wi : Nat
  place : SMap (Nat × Nat)
  words : List SNode
  hdrs : List SNode
  occ : List (SNode × Bool)
  stop : Option SStop
  nfold : Nat
  nmat : Nat
  nresid : Nat
  total : Nat
  deriving DecidableEq, Repr

/-- A back-map entry (R285). -/
def backEntry (stream off : Nat) (mat hdr : Bool) (ctx : List SLoop) : BitVec 64 :=
  let it (j : Nat) : Nat := match ctx[j]? with | some l => l.pass % 256 | none => 0
  BitVec.ofNat 64 ((off + 2 ^ 64 - stream) % 2 ^ 28 + 2 ^ 28 + mat.toNat * 2 ^ 29 + hdr.toNat * 2 ^ 30 + ctx.length % 8 * 2 ^ 32 +
    it 0 * 2 ^ 40 + it 1 * 2 ^ 48 + it 2 * 2 ^ 56)

/-- Add an item. -/
def SLay.add (l : SLay) (i : SItem) : SLay := { l with items := i :: l.items, wi := l.wi + i.words, total := l.total + i.words }
/-- Add materialising words for a node. -/
def SLay.mats (l : SLay) (stream : Nat) (n : SNode) (ws : List Nat) : SLay :=
  ws.foldl (fun l w =>
    { l.add { hdr := false, w := w, words := 1, target := .none, bm := backEntry stream n.addr true false n.ctx } with nmat := l.nmat + 1 }) l
/-- Materialise the pending registers of a set, in register order (R274). -/
def SLay.materialise (l : SLay) (stream : Nat) (n : SNode) (e : SEnv) (ks : List Nat) : SLay :=
  let name (k : Nat) : Nat := if k < 64 then (e.name k).toNat else k
  ((List.range 72).flatMap fun j => ks.filter fun k => name k == j).foldl (fun l k => l.mats stream n (matWords e 0 k ((e.val k).getD 0))) l
/-- A joining word: `br` under p0 to a node; `at` is the branch it stands for, or where the paths meet. -/
def SLay.join (l : SLay) (stream : Nat) (orig : SNode) (tg : STarget) : SLay :=
  l.add { hdr := false, w := wordOf (.br { bt := false, pr := 0 } tg.isHdr 0), words := 1, target := tg,
          bm := backEntry stream orig.addr false false orig.ctx }

/-- What a layout is made from. -/
structure SPlan where
  b : SIn
  envs : SMap SEnv
  /-- nodes that more than one path reaches, and nodes that some word branches to -/
  merges : List SNode
  branched : List SNode
  deriving DecidableEq, Repr

def SPlan.env (p : SPlan) (n : SNode) : SEnv := (p.envs.find n).getD { known := [], dyn := 0 }
def SPlan.off (p : SPlan) : Nat := p.b.stream

/-- Close the section: one with no words holds the no-op word (R280). -/
def SLay.close (l : SLay) : SLay :=
  if l.wi = 0 then
    match l.items with
    | h :: _ => l.add { hdr := false, w := 0, words := 1, target := .none, bm := h.bm &&& ~~~ (BitVec.ofNat 64 (2 ^ 30)) }
    | [] => l
  else l

/-- Where the layout goes on. -/
inductive SNext where
  | start (n : SNode)
  | word (n : SNode) (pend : List Nat) (orig : Option SNode)
  | pick
  | stop
  deriving DecidableEq, Repr

/-- Begin a residual section (R280). -/
def SPlan.start (p : SPlan) (l : SLay) (n : SNode) : SLay × SNext :=
  match p.b.header n.hdr with
  | none => (l, .stop)
  | some h =>
    let l := { l with sec := l.sec + 1, wi := 0, words := [] }
    let l := { l with place := l.place.set n (l.sec, 0) }
    let h' : Header := if h.legal then { h with flags := h.flags ||| 2 } else h
    let l := l.add { hdr := true, w := h'.bits.toNat, words := 0, target := .none, bm := backEntry p.off n.addr false true n.ctx }
    (l, if h.legal then .word { n with addr := n.hdr + 8 } [] none else .pick)

/-- A path reaches a node: at a header it ends this section or joins; at a word that others reach it materialises what is pending, and
joins where that word is already laid out (R274, R398). `orig` is the folded branch that led here. -/
def SPlan.reach (p : SPlan) (l : SLay) (e : SEnv) (n : SNode) (pend : List Nat) (orig : Option SNode) : SLay × SNext :=
  let isH := n.addr = n.hdr
  let all := isH || p.merges.contains n
  let done := (l.place.find n).isSome
  let l := if all then l.materialise p.off (if done then orig.getD n else n) e pend else l
  let pend := if all then [] else pend
  if isH then
    let held := l.place.any fun q => q.2.1 == l.sec && q.2.2 == l.wi && q.1.addr != q.1.hdr && p.branched.contains q.1
    if done || !l.words.isEmpty || held then
      ({ l.join p.off (orig.getD n) (.header n) with hdrs := if done || l.hdrs.contains n then l.hdrs else l.hdrs ++ [n] }, .pick)
    else (l.close, .start n)
  else if done then (l.join p.off (orig.getD n) (.word n 0), .pick)
  else (l, .word n pend orig)

/-- Lay out one word and go on (R272–R275). -/
def SPlan.lay (p : SPlan) (unroll : SNode → Bool) (l : SLay) (n : SNode) (pend : List Nat) : SLay × SNext :=
  let e := p.env n
  let l := { l with place := l.place.set n (l.sec, l.wi), words := l.words.filter (· != n) }
  match p.b.actAt n e unroll with
  | none => (l, .stop)
  | some a =>
    match a.stop with
    | some r => ({ l with stop := some (l.stop.getD (.at r n)) }, .pick)
    | none =>
    let meets (m : SNode) : Bool := p.merges.contains m || (l.place.find m).isSome
    let all := a.needAll || (a.copy.isSome && (match a.jump with | some m => meets m | none => false))
    let ks := pend.filter fun k => all || a.need.contains k
    let l := l.materialise p.off n e ks
    let pend := (pend.filter fun k => !ks.contains k && !a.drop.contains k && !a.pend.contains k) ++ a.pend.eraseDups
    let l := l.mats p.off n a.lea
    let l := match a.copy with
      | some c => l.add { hdr := false, w := c.w, words := c.words, target := c.target, bm := backEntry p.off n.addr false false n.ctx }
      | none => l
    let l := { l with
      nfold := l.nfold + a.fold.toNat, nresid := l.nresid + a.resid.toNat
      occ := match a.occ with | some t => (n, t) :: l.occ | none => l.occ }
    let end_ := a.out.getD a.env
    let lost := match a.out, a.fall with
      | some _, some f => if p.merges.contains f then [] else pend.filter fun k => (a.env.val k).isNone
      | _, _ => []
    let l := l.materialise p.off (a.fall.getD n) end_ lost
    let pend := pend.filter fun k => !lost.contains k
    match a.fall, a.jump with
    | some f, some j =>
      let l := if (l.place.find j).isSome then l
        else if j.addr = j.hdr then { l with hdrs := if l.hdrs.contains j then l.hdrs else l.hdrs ++ [j] }
        else { l with words := if l.words.contains j then l.words else l.words ++ [j] }
      p.reach l end_ f pend none
    | some f, none => p.reach l end_ f pend none
    | none, some j =>
      if a.copy.isNone then p.reach l end_ j pend (some n)
      else if (l.place.find j).isSome then (l, .pick)
      else if j.addr = j.hdr then ({ l with hdrs := j :: l.hdrs.filter (· != j) }, .pick)
      else (l, .word j pend none)
    | none, none => (l, .pick)

/-- Lay everything out: the path in hand, then the words still owed to this section, then the headers still owed. -/
def SPlan.layout (p : SPlan) (unroll : SNode → Bool) : Nat → SNext → SLay → Option SLay
  | 0, _, _ => none
  | _ + 1, .stop, _ => none
  | f + 1, .start n, l => let r := p.start l n; p.layout unroll f r.2 r.1
  | f + 1, .word n pend _, l => let r := p.lay unroll l n pend; p.layout unroll f r.2 r.1
  | f + 1, .pick, l =>
    match l.words with
    | n :: rest =>
      let l := { l with words := rest }
      if (l.place.find n).isSome then p.layout unroll f .pick l else p.layout unroll f (.word n [] none) l
    | [] =>
      match l.hdrs with
      | n :: rest =>
        let l := { l with hdrs := rest }
        if (l.place.find n).isSome then p.layout unroll f .pick l else p.layout unroll f (.start n) (l.close)
      | [] => some (l.close)

-- Resolving targets, and the limits (R276).

/-- The byte offsets of the items. -/
def offsets : Nat → List SItem → List Nat
  | _, [] => []
  | a, i :: l => a :: offsets (a + (if i.hdr then 8 else 12 * i.words)) l

/-- Words of each section, in order. -/
def secLens : List SItem → List Nat
  | [] => []
  | i :: l => if i.hdr then ((l.takeWhile fun x => !x.hdr).map fun x => x.words).sum :: secLens l else secLens l

/-- Granules of an item with its target filled in, with their back-map entries: one at the first granule of the header, or of each of its
words, a parameter block's among them (R285). -/
def granules (place : SMap (Nat × Nat)) (hdrOffs lens : List Nat) (off sec : Nat) (i : SItem) : List (BitVec 32 × BitVec 64) :=
  let w : Nat :=
    if i.hdr then
      let h := BitVec.ofNat 64 i.w
      if (Header.ofBits h).legal then (setFld h 36 12 (lens.getD (sec - 1) 0)).toNat else i.w
    else
      let put (x : Int) : Nat := i.w / 2 ^ 32 * 2 ^ 32 + wrap 32 x
      match i.target with
      | .none => i.w
      | .bad base => put (if -1 - base = signed 32 (wrap 32 (-1 - base)) then -1 - base else 0)
      | .word n base => match place.find n with | some q => put (q.2 - base) | none => i.w
      | .header n => match place.find n with | some q => put ((hdrOffs.getD (q.1 - 1) 0 : Nat) - (off : Int)) | none => i.w
  let n := if i.hdr then 2 else 3 * i.words
  (List.range n).map fun k => (BitVec.ofNat 32 (w / 2 ^ (32 * k)),
    if k % 3 = 0 then setFld i.bm 0 28 (fld i.bm 0 28 + 4 * k) else 0)

/-- The granules of a finished layout. -/
def SLay.granules (l : SLay) : List (BitVec 32 × BitVec 64) :=
  let is := l.items.reverse
  let os := offsets 0 is
  let hs := (is.zip os).filterMap fun p => if p.1.hdr then some p.2 else none
  let lens := secLens is
  ((is.zip os).foldl (fun (r : List (List (BitVec 32 × BitVec 64)) × Nat) p =>
    let sec := if p.1.hdr then r.2 + 1 else r.2
    (Machine.granules l.place hs lens p.2 sec p.1 :: r.1, sec)) ([], 0)).1.reverse.flatten

/-- The start of the crew (R270, R271): parameter i stands in s(i+1). -/
def SIn.startEnv (b : SIn) (mask : Nat) : SEnv :=
  (List.range (rNparam b.x.rcd)).foldl (fun e i =>
    if mask.testBit i then e.put (i + 1) (paramOf b.x.rcd b.x.tbl i) else e.lose [i + 1] true)
    { known := (List.range 7).map (fun i => (65 + i, 0)) ++ [(kRrb, 0)], dyn := 0 }

/-- Edges of the graph that is followed. -/
def SIn.edges (b : SIn) (envs : SMap SEnv) (unroll : SNode → Bool) : List (SNode × Bool) :=
  envs.flatMap fun p =>
    match b.actAt p.1 p.2 unroll with
    | some a => (a.fall.toList.map fun n => (n, false)) ++ a.jump.toList.map fun n => (n, a.copy.isSome)
    | none => []

/-- One layout under given decisions. -/
def SIn.build (b : SIn) (mask : Nat) (unroll : SNode → Bool) : Except SStop (SLay × SMap SEnv) :=
  let n0 := hdrNode b.stream []
  match b.flow unroll flowFuel [n0] [(n0, b.startEnv mask)] with
  | .error x => .error x
  | .ok envs =>
    let es := (n0, false) :: b.edges envs unroll
    let ns := es.map fun x => x.1
    let p : SPlan :=
      { b := b, envs := envs,
        merges := (envs.map fun x => x.1).filter fun n => 2 ≤ (ns.filter fun m => m == n).length,
        branched := (es.filter fun x => x.2).map fun x => x.1 }
    match p.layout unroll flowFuel (.start n0)
        { items := [], sec := 0, wi := 0, place := [], words := [], hdrs := [], occ := [], stop := none, nfold := 0, nmat := 0, nresid := 0,
          total := 0 } with
    | none => .error .growth
    | some l => .ok (l, envs)

/-- Does a layout keep the word limit, and each section the length its header can hold? -/
def SLay.fits (l : SLay) (limit : Nat) : Bool := l.total ≤ limit && (secLens l.items.reverse).all fun n => n ≤ 4095

/-- Decide the loop occurrences in the order in which the residual code meets them, the later ones being kept meanwhile (R276). -/
def SIn.decide (b : SIn) (mask limit : Nat) : Nat → SMap Bool → Except SStop (SLay × SMap SEnv)
  | 0, _ => .error .growth
  | f + 1, ds =>
    match b.build mask (fun n => (ds.find n).getD false) with
    | .error x => .error x
    | .ok (l, envs) =>
      match l.occ.reverse.find? fun o => (ds.find o.1).isNone with
      | none =>
        (match l.stop with
          | some x => .error x
          | none => if l.fits limit then .ok (l, envs) else .error .growth)
      | some (n, _) =>
        let good : Bool :=
          match b.build mask (fun m => (SMap.find (SMap.set ds n true) m).getD false) with
          | .ok (l', _) => l'.fits limit && l'.occ.contains (n, true)
          | .error _ => false
        b.decide mask limit f (SMap.set ds n good)

/-- The residual code: every occurrence unrolled where that keeps every limit, else decided one by one (R276). -/
def SIn.residual (b : SIn) (mask limit : Nat) : Except SStop (SLay × SMap SEnv) :=
  match b.build mask fun _ => true with
  | .ok (l, envs) => if l.stop.isNone && l.fits limit then .ok (l, envs) else b.decide mask limit flowFuel []
  | .error _ => b.decide mask limit flowFuel []

-- The cache (R281–R284).

/-- SPECSTAT (R284); NVIOL is filled in at the crew's start. -/
def specStat (mode : Nat) (hit : Bool) (reason voff : Nat) : BitVec 64 :=
  BitVec.ofNat 64 (mode + hit.toNat * 4 + reason * 16 + voff * 2 ^ 32)
/-- Bytes of an entry: record, code, back-map. -/
def SpecEntry.size (x : SpecEntry) : Nat := 64 + 12 * x.code.length
/-- Bytes of a die's cache (R282). -/
def specCache : Nat := 2 ^ 22

/-- Evict the least recently used unpinned entries of a die until `need` bytes are free: whether they are, and what is left (R282). -/
def specRoom (die need : Nat) : Nat → List (Nat × SpecEntry) → Bool × List (Nat × SpecEntry)
  | 0, l => (false, l)
  | f + 1, l =>
    let mine := l.filter fun p => p.1 == die
    if need + (mine.map fun p => p.2.size).sum ≤ specCache then (true, l)
    else
      let free := mine.filter fun p => p.2.pins.isEmpty
      match free.find? fun p => !free.any fun q => q.2.used < p.2.used with
      | none => (false, l)
      | some p => specRoom die need f (l.filter fun q => !(q.1 == die && q.2.rid == p.2.rid))

/-- GROW and UNROLL in effect (R42, R276). -/
def effGrow (x : Crew) : Nat := if tGrow x.tbl = 0 then 8 else tGrow x.tbl
def effUnroll (x : Crew) : Nat := if tUnroll x.tbl = 0 then 256 else tUnroll x.tbl

/-- The static mask: the first word of the first section, where it is a static-set word (R270). -/
def SIn.mask (b : SIn) : Option Nat :=
  match b.peek (b.stream + 8) 12 with
  | none => none
  | some w => some (if w / 2 ^ 16 = 0x160180000000000000000000 / 2 ^ 16 then w % 2 ^ 16 else 0)

/-- The configuration word of the key (R281). -/
def specConfig (x : Crew) : Nat :=
  rStream x.rcd + rAsid x.rcd * 2 ^ 55 + effGrow x * 2 ^ 64 + effUnroll x * 2 ^ 68 + 2 ^ 80
/-- The cache key (R281). -/
def specKey (x : Crew) (mask : Nat) : Nat :=
  shake256 (leBytes 16 (fld x.rcd 384 128) ++
    (((List.range (rNparam x.rcd)).filter fun i => mask.testBit i).map fun i => leBytes 8 (paramOf x.rcd x.tbl i).toNat).flatten ++
    leBytes 16 (specConfig x))

/-- Stream words: SLEN's where it is given, else those of the sections that were followed (R276, R283). -/
def SIn.olen (b : SIn) (envs : SMap SEnv) : Nat :=
  let rec walk : Nat → Nat → Nat → Nat
    | 0, _, n => n
    | f + 1, a, n =>
      if b.stream + tSlen b.x.tbl ≤ a then n
      else match b.header a with
        | some h => walk f (a + 8 + 12 * h.len.toNat) (n + h.len.toNat)
        | none => n
  if b.x.hasTbl && tSlen b.x.tbl != 0 then walk (tSlen b.x.tbl) b.stream 0
  else
    ((envs.filterMap fun p => if p.1.addr = p.1.hdr then some p.1.hdr else none).eraseDups.map fun a =>
      match b.header a with | some h => h.len.toNat | none => 0).sum

/-- The specialisation record (R283). -/
def specRecord (x : Crew) (key rid olen mask : Nat) (l : SLay) : BitVec 512 :=
  let sat (bits n : Nat) : Nat := Nat.min n (2 ^ bits - 1)
  let count (v : Bool) : Nat := (l.occ.filter fun o => o.2 == v).length
  BitVec.ofNat 512 (key + rid % 2 ^ 31 * 2 ^ 128 + l.total * 2 ^ 160 + olen % 2 ^ 27 * 2 ^ 192 + sat 8 (count true) * 2 ^ 224 +
    sat 8 (count false) * 2 ^ 232 + sat 16 l.nmat * 2 ^ 240 + sat 16 l.nfold * 2 ^ 256 + sat 16 l.nresid * 2 ^ 272 +
    (64 + 4 * l.granules.length) * 2 ^ 288 + rStream x.rcd * 2 ^ 320 + rAsid x.rcd * 2 ^ 375 + effGrow x * 2 ^ 384 +
    effUnroll x * 2 ^ 388 + mask * 2 ^ 400)

/-- The digest of R39 over what stands in memory; none where a page cannot be read. -/
def SIn.digest (b : SIn) : Option Nat := do
  let n := tSlen b.x.tbl
  let st ← b.peek b.stream n
  let micro := rMicro b.x.rcd
  let mb : List Byte ← if micro = 0 then some [] else do
    let dir ← b.peek micro 1024
    let ops ← b.peek (micro + 1024) (16 * Nat.min (dirEnd dir) 2048)
    some (leBytes 1024 dir ++ leBytes (16 * Nat.min (dirEnd dir) 2048) ops)
  some (shake256 (leBytes n st ++ mb))

/-- Build an entry: REASON and VOFF where nothing is built (R279). -/
def SIn.entry (b : SIn) (key rid mask : Nat) : Except (Nat × Nat) SpecEntry :=
  let none_ := 0xFFFFFFFF
  let x := b.x
  let micro := rMicro x.rcd
  if micro ≠ 0 ∧ (b.peek micro (1024 + 16 * (x.mdir.foldl (fun m d => Nat.max m (d.2.1 + d.2.2)) 0))).isNone then .error (8, none_)
  else
    let wrong : Except (Nat × Nat) Bool :=
      if x.hasTbl && tSlen x.tbl != 0 then
        match b.digest with
        | none => .error (8, none_)
        | some d => .ok (d != fld x.rcd 384 128)
      else .ok false
    match wrong with
    | .error r => .error r
    | .ok true => .error (7, none_)
    | .ok false =>
      let fail (st : SStop) : Nat × Nat :=
        match st with
        | .at r n => (r, (n.addr + 2 ^ 64 - b.stream) % 2 ^ 32)
        | .unreadable => (8, none_)
        | .growth => (5, none_)
      match b.build mask fun _ => false with
      | .error st => .error (fail st)
      | .ok (_, envs) =>
        let olen := b.olen envs
        match b.residual mask (Nat.min (effGrow x * olen) 65536) with
        | .error st => .error (fail st)
        | .ok (l, _) =>
          let g := l.granules
          .ok
            { key := key, rid := rid, asid := rAsid x.rcd, rcd := specRecord x key rid olen mask l,
              code := g.map fun p => p.1, bmap := g.map fun p => p.2, pins := [], used := b.s.gtc }

/-- The crew's cores of a die run the stream as written, for a reason (R279). -/
def State.specFail (s : State) (e d reason voff : Nat) : State :=
  let x := s.crew e
  let s : State := if reason = 2 then { s with specViol := s.specViol.upd d (s.specViol.get 0 d + 1) } else s
  s.setCrew e { x with spec := AMap.upd x.spec d (0, specStat 2 false reason voff) }
/-- They run an entry of the die's cache, which is pinned (R282). -/
def State.specRun (s : State) (e d rid : Nat) (hit : Bool) : State :=
  let x := s.crew e
  let s := s.setCrew e { x with spec := AMap.upd x.spec d (2 ^ 63 + rid % 2 ^ 31 * 2 ^ 32, specStat 1 hit 0 0xFFFFFFFF) }
  { s with spec := s.spec.map fun p =>
      if p.1 = d ∧ p.2.rid = rid then (p.1, { p.2 with pins := e :: p.2.pins.filter (· != e), used := s.gtc }) else p }

/-- The specialiser of a die, for a crew about to start there (R269, R279–R284). -/
def State.specDie (s : State) (e d : Nat) : State :=
  let x := s.crew e
  let b : SIn := { s := s, die := d, x := x, unroll := effUnroll x }
  if x.hasTbl && tNospec x.tbl then s.specFail e d 1 0xFFFFFFFF
  else
    match b.mask with
    | none => s.specFail e d 8 0xFFFFFFFF
    | some mask =>
      let key := specKey x mask
      match s.spec.find? fun p => p.1 == d && p.2.key == key with
      | some p => s.specRun e d p.2.rid true
      | none =>
        match b.entry key (s.nextRid % 2 ^ 31) mask with
        | .error (r, v) => s.specFail e d r v
        | .ok y =>
          match specRoom d y.size (s.spec.length + 1) s.spec with
          | (false, l) => ({ s with spec := l } : State).specFail e d 6 0xFFFFFFFF
          | (true, l) => ({ s with spec := l ++ [(d, y)], nextRid := s.nextRid + 1 } : State).specRun e d y.rid false

/-- SPECIALISE: the next die on which the crew that is to start has cores looks up or builds its residual code (R269). -/
def State.specialise (s : State) (e : Nat) : State :=
  match s.nextStart (e / 256) with
  | some (e', l) =>
    if e' ≠ e then s
    else
      match (s.crew e).specOwed l with
      | d :: _ => s.specDie e d
      | [] => s
  | none => s

/-- SPECIALISE. -/
def execSpecialise (crew : Nat) (s : State) : Host.Outcome State Fault Refusal := .next (s.specialise crew)

end Sys2Proof.Machine
end

