-- ==== Sys2Proof/Machine/Dispatch.lean ====
section
/-! DEFINITION. The dispatch: one arm for each row of the opcode table, each a direct call of that row's meaning. -/
namespace Sys2Proof.Machine

/-- Execute one instruction or step. -/
def exec (i : Instr) (s : State) : Host.Outcome State Fault Refusal :=
  match i with
  | .add n o => Sys2Proof.Machine.execAdd n o s
  | .sub n o => Sys2Proof.Machine.execSub n o s
  | .mul n o => Sys2Proof.Machine.execMul n o s
  | .mulh n o => Sys2Proof.Machine.execMulh n o s
  | .mulhn n o => Sys2Proof.Machine.execMulhn n o s
  | .div n o => Sys2Proof.Machine.execDiv n o s
  | .divn n o => Sys2Proof.Machine.execDivn n o s
  | .rem n o => Sys2Proof.Machine.execRem n o s
  | .remn n o => Sys2Proof.Machine.execRemn n o s
  | .and n o => Sys2Proof.Machine.execAnd n o s
  | .or n o => Sys2Proof.Machine.execOr n o s
  | .xor n o => Sys2Proof.Machine.execXor n o s
  | .andn n o => Sys2Proof.Machine.execAndn n o s
  | .shl n o => Sys2Proof.Machine.execShl n o s
  | .shr n o => Sys2Proof.Machine.execShr n o s
  | .sar n o => Sys2Proof.Machine.execSar n o s
  | .rot n o => Sys2Proof.Machine.execRot n o s
  | .min n o => Sys2Proof.Machine.execMin n o s
  | .max n o => Sys2Proof.Machine.execMax n o s
  | .minn n o => Sys2Proof.Machine.execMinn n o s
  | .maxn n o => Sys2Proof.Machine.execMaxn n o s
  | .sel n k o => Sys2Proof.Machine.execSel n k o s
  | .li n w d a imm => Sys2Proof.Machine.execLi n w d a imm s
  | .lea n w d b => Sys2Proof.Machine.execLea n w d b s
  | .bfx n sx o => Sys2Proof.Machine.execBfx n sx o s
  | .bfi n o => Sys2Proof.Machine.execBfi n o s
  | .clz n o => Sys2Proof.Machine.execClz n o s
  | .ctz n o => Sys2Proof.Machine.execCtz n o s
  | .popc n o => Sys2Proof.Machine.execPopc n o s
  | .pset n c w pd a b => Sys2Proof.Machine.execPset n c w pd a b s
  | .plog n op pd pa pb => Sys2Proof.Machine.execPlog n op pd pa pb s
  | .br n hdr imm => Sys2Proof.Machine.execBr n hdr imm s
  | .jmp n a imm => Sys2Proof.Machine.execJmp n a imm s
  | .jmpr n a imm => Sys2Proof.Machine.execJmpr n a imm s
  | .call n d imm => Sys2Proof.Machine.execCall n d imm s
  | .ret n a => Sys2Proof.Machine.execRet n a s
  | .loop n hdr init s1 d a imm => Sys2Proof.Machine.execLoop n hdr init s1 d a imm s
  | .brq n hdr z imm => Sys2Proof.Machine.execBrq n hdr z imm s
  | .squash n imm => Sys2Proof.Machine.execSquash n imm s
  | .mcall n num d a b c imm => Sys2Proof.Machine.execMcall n num d a b c imm s
  | .exit n => Sys2Proof.Machine.execExit n s
  | .instanceEnd core => Sys2Proof.Machine.execInstanceEnd core s
  | .ld n spec wd d a imm => Sys2Proof.Machine.execLd n spec wd d a imm s
  | .st n h wd a b imm => Sys2Proof.Machine.execSt n h wd a b imm s
  | .chkd n a => Sys2Proof.Machine.execChkd n a s
  | .lda n ord sc wd d a imm => Sys2Proof.Machine.execLda n ord sc wd d a imm s
  | .str n ord sc wd a b imm => Sys2Proof.Machine.execStr n ord sc wd a b imm s
  | .atom n op ty ord sc d a b => Sys2Proof.Machine.execAtom n op ty ord sc d a b s
  | .cas n w32 facq ord sc d a b c => Sys2Proof.Machine.execCas n w32 facq ord sc d a b c s
  | .fence n ord sc => Sys2Proof.Machine.execFence n ord sc s
  | .waita n c w32 ord sc psel bk d a b dl => Sys2Proof.Machine.execWaita n c w32 ord sc psel bk d a b dl s
  | .waitaPoll core => Sys2Proof.Machine.execWaitaPoll core s
  | .bufuse n buf => Sys2Proof.Machine.execBufuse n buf s
  | .bufrel n buf => Sys2Proof.Machine.execBufrel n buf s
  | .csrr n d num => Sys2Proof.Machine.execCsrr n d num s
  | .csrw n a num => Sys2Proof.Machine.execCsrw n a num s
  | .csrx n op d a num => Sys2Proof.Machine.execCsrx n op d a num s
  | .registerWrite t v => Sys2Proof.Machine.execRegisterWrite t v s
  | .ptbaseWrite core v => Sys2Proof.Machine.execPtbaseWrite core v s
  | .tickcfgWrite core v => Sys2Proof.Machine.execTickcfgWrite core v s
  | .fpsrAccess core v => Sys2Proof.Machine.execFpsrAccess core v s
  | .watchctlWrite core k v => Sys2Proof.Machine.execWatchctlWrite core k v s
  | .tlogWrite core v => Sys2Proof.Machine.execTlogWrite core v s
  | .trap n num => Sys2Proof.Machine.execTrap n num s
  | .eret n => Sys2Proof.Machine.execEret n s
  | .bkpt n num => Sys2Proof.Machine.execBkpt n num s
  | .fmt n a => Sys2Proof.Machine.execFmt n a s
  | .launch n det d a => Sys2Proof.Machine.execLaunch n det d a s
  | .waitch n t d a => Sys2Proof.Machine.execWaitch n t d a s
  | .waitchReturn core => Sys2Proof.Machine.execWaitchReturn core s
  | .feed n d a b => Sys2Proof.Machine.execFeed n d a b s
  | .popw n d a c => Sys2Proof.Machine.execPopw n d a c s
  | .popwRetry core => Sys2Proof.Machine.execPopwRetry core s
  | .ackw n a b => Sys2Proof.Machine.execAckw n a b s
  | .bar n legs => Sys2Proof.Machine.execBar n legs s
  | .barRelease core => Sys2Proof.Machine.execBarRelease core s
  | .tickw n next d a c => Sys2Proof.Machine.execTickw n next d a c s
  | .tick die => Sys2Proof.Machine.execTick die s
  | .rlyOpen n d a => Sys2Proof.Machine.execRlyOpen n d a s
  | .rlyTake n d a c => Sys2Proof.Machine.execRlyTake n d a c s
  | .rlyTakeRetry core => Sys2Proof.Machine.execRlyTakeRetry core s
  | .rlyPost n d a b c => Sys2Proof.Machine.execRlyPost n d a b c s
  | .rlyGtake n d a c => Sys2Proof.Machine.execRlyGtake n d a c s
  | .rlyGpost n d a b => Sys2Proof.Machine.execRlyGpost n d a b s
  | .rlyStat n d a => Sys2Proof.Machine.execRlyStat n d a s
  | .rlyWait n d a c => Sys2Proof.Machine.execRlyWait n d a c s
  | .rlyWaitReturn core => Sys2Proof.Machine.execRlyWaitReturn core s
  | .rlyClose n a => Sys2Proof.Machine.execRlyClose n a s
  | .heatJoin n d a b => Sys2Proof.Machine.execHeatJoin n d a b s
  | .heatGive n d a b c => Sys2Proof.Machine.execHeatGive n d a b c s
  | .heatDeadline home => Sys2Proof.Machine.execHeatDeadline home s
  | .heatWait n d a b c => Sys2Proof.Machine.execHeatWait n d a b c s
  | .heatWaitReturn core => Sys2Proof.Machine.execHeatWaitReturn core s
  | .heatClose n a => Sys2Proof.Machine.execHeatClose n a s
  | .collLoad n d a => Sys2Proof.Machine.execCollLoad n d a s
  | .collLoadDrop n a => Sys2Proof.Machine.execCollLoadDrop n a s
  | .collRun n d a b c => Sys2Proof.Machine.execCollRun n d a b c s
  | .collWait n d a c => Sys2Proof.Machine.execCollWait n d a c s
  | .collWaitReturn core => Sys2Proof.Machine.execCollWaitReturn core s
  | .collClaim n d a b c => Sys2Proof.Machine.execCollClaim n d a b c s
  | .collClaimSeal n a b => Sys2Proof.Machine.execCollClaimSeal n a b s
  | .collStepBegin graph run rank stepNo => Sys2Proof.Machine.execCollStepBegin graph run rank stepNo s
  | .collStepComplete graph run rank stepNo => Sys2Proof.Machine.execCollStepComplete graph run rank stepNo s
  | .vld n p d a imm => Sys2Proof.Machine.execVld n p d a imm s
  | .vldg n f clamp d a b => Sys2Proof.Machine.execVldg n f clamp d a b s
  | .vldb n f d a imm => Sys2Proof.Machine.execVldb n f d a imm s
  | .sld n sideband q a b imm => Sys2Proof.Machine.execSld n sideband q a b imm s
  | .vst n p a b imm => Sys2Proof.Machine.execVst n p a b imm s
  | .vsts n f a b c => Sys2Proof.Machine.execVsts n f a b c s
  | .vstm n f a b c imm => Sys2Proof.Machine.execVstm n f a b c imm s
  | .vadd n o => Sys2Proof.Machine.execVadd n o s
  | .vsub n o => Sys2Proof.Machine.execVsub n o s
  | .vmul n o => Sys2Proof.Machine.execVmul n o s
  | .vfma n o => Sys2Proof.Machine.execVfma n o s
  | .vfms n o => Sys2Proof.Machine.execVfms n o s
  | .vfnma n o => Sys2Proof.Machine.execVfnma n o s
  | .vmin n o => Sys2Proof.Machine.execVmin n o s
  | .vmax n o => Sys2Proof.Machine.execVmax n o s
  | .vabs n o => Sys2Proof.Machine.execVabs n o s
  | .vneg n o => Sys2Proof.Machine.execVneg n o s
  | .vdiv n o => Sys2Proof.Machine.execVdiv n o s
  | .vsqrt n o => Sys2Proof.Machine.execVsqrt n o s
  | .vrsq n o => Sys2Proof.Machine.execVrsq n o s
  | .vrcp n o => Sys2Proof.Machine.execVrcp n o s
  | .vexp2 n o => Sys2Proof.Machine.execVexp2 n o s
  | .vlog2 n o => Sys2Proof.Machine.execVlog2 n o s
  | .viadd n o => Sys2Proof.Machine.execViadd n o s
  | .visub n o => Sys2Proof.Machine.execVisub n o s
  | .vimul n o => Sys2Proof.Machine.execVimul n o s
  | .vimad n o => Sys2Proof.Machine.execVimad n o s
  | .vimin n o => Sys2Proof.Machine.execVimin n o s
  | .vimax n o => Sys2Proof.Machine.execVimax n o s
  | .vand n o => Sys2Proof.Machine.execVand n o s
  | .vor n o => Sys2Proof.Machine.execVor n o s
  | .vxor n o => Sys2Proof.Machine.execVxor n o s
  | .vshl n o => Sys2Proof.Machine.execVshl n o s
  | .vshr n o => Sys2Proof.Machine.execVshr n o s
  | .vsar n o => Sys2Proof.Machine.execVsar n o s
  | .vclz n o => Sys2Proof.Machine.execVclz n o s
  | .vpopc n o => Sys2Proof.Machine.execVpopc n o s
  | .vcmp n c f nest a b => Sys2Proof.Machine.execVcmp n c f nest a b s
  | .vsel n d a b => Sys2Proof.Machine.execVsel n d a b s
  | .vcvt n dst rm sat d a src part => Sys2Proof.Machine.execVcvt n dst rm sat d a src part s
  | .vmov n d a => Sys2Proof.Machine.execVmov n d a s
  | .vbcast n f d b => Sys2Proof.Machine.execVbcast n f d b s
  | .vperm n f d a b c => Sys2Proof.Machine.execVperm n f d a b c s
  | .vrot n f d a imm => Sys2Proof.Machine.execVrot n f d a imm s
  | .vsort n f desc kv d a c => Sys2Proof.Machine.execVsort n f desc kv d a c s
  | .vred n o => Sys2Proof.Machine.execVred n o s
  | .vscan n o => Sys2Proof.Machine.execVscan n o s
  | .minv n => Sys2Proof.Machine.execMinv n s
  | .mpop n => Sys2Proof.Machine.execMpop n s
  | .mskip n imm => Sys2Proof.Machine.execMskip n imm s
  | .voq n src a => Sys2Proof.Machine.execVoq n src a s
  | .vacr n dst rm sat clr d a b => Sys2Proof.Machine.execVacr n dst rm sat clr d a b s
  | .vacw n src acc d a b => Sys2Proof.Machine.execVacw n src acc d a b s
  | .mma n d a b cyc => Sys2Proof.Machine.execMma n d a b cyc s
  | .mmag n d a c cyc => Sys2Proof.Machine.execMmag n d a c cyc s
  | .sclaim n set => Sys2Proof.Machine.execSclaim n set s
  | .srls n set => Sys2Proof.Machine.execSrls n set s
  | .fzero n d => Sys2Proof.Machine.execFzero n d s
  | .lrel n => Sys2Proof.Machine.execLrel n s
  | .cpgo n d ch b c => Sys2Proof.Machine.execCpgo n d ch b c s
  | .cpone n p g sc d ch b c imm => Sys2Proof.Machine.execCpone n p g sc d ch b c imm s
  | .cpcan n d a => Sys2Proof.Machine.execCpcan n d a s
  | .cphint n ev a b tag => Sys2Proof.Machine.execCphint n ev a b tag s
  | .cpwait n t d ch => Sys2Proof.Machine.execCpwait n t d ch s
  | .qop n op f sat d a b cnt => Sys2Proof.Machine.execQop n op f sat d a b cnt s
  | .qred n op f o32 d a cnt => Sys2Proof.Machine.execQred n op f o32 d a cnt s
  | .qfill n w d a cnt => Sys2Proof.Machine.execQfill n w d a cnt s
  | .quayElementStep die n e => Sys2Proof.Machine.execQuayElementStep die n e s
  | .quayInstructionComplete die n => Sys2Proof.Machine.execQuayInstructionComplete die n s
  | .wxGtc rd => Sys2Proof.Machine.execWxGtc rd s
  | .wxSend rd rs1 rs2 => Sys2Proof.Machine.execWxSend rd rs1 rs2 s
  | .wxFence rs1 => Sys2Proof.Machine.execWxFence rs1 s
  | .wxReady rs1 rs2 => Sys2Proof.Machine.execWxReady rs1 rs2 s
  | .sectionHeader h => Sys2Proof.Machine.execSectionHeader h s
  | .partBegin core => Sys2Proof.Machine.execPartBegin core s
  | .engineEntryBegin core e => Sys2Proof.Machine.execEngineEntryBegin core e s
  | .engineEntryWriteback core e => Sys2Proof.Machine.execEngineEntryWriteback core e s
  | .leaseRequest core => Sys2Proof.Machine.execLeaseRequest core s
  | .leaseEnd core => Sys2Proof.Machine.execLeaseEnd core s
  | .chainStart core ch => Sys2Proof.Machine.execChainStart core ch s
  | .recordFetch core ch e => Sys2Proof.Machine.execRecordFetch core ch e s
  | .notbeforeExpiry core ch => Sys2Proof.Machine.execNotbeforeExpiry core ch s
  | .granuleLanding core ch e => Sys2Proof.Machine.execGranuleLanding core ch e s
  | .recordComplete core ch => Sys2Proof.Machine.execRecordComplete core ch s
  | .homeStep n e => Sys2Proof.Machine.execHomeStep n e s
  | .rowRepair stack row => Sys2Proof.Machine.execRowRepair stack row s
  | .tableWalk die e => Sys2Proof.Machine.execTableWalk die e s
  | .writeAcknowledgement n => Sys2Proof.Machine.execWriteAcknowledgement n s
  | .writeRefused n => Sys2Proof.Machine.execWriteRefused n s
  | .operandLogReissue n => Sys2Proof.Machine.execOperandLogReissue n s
  | .flitCrcFail link => Sys2Proof.Machine.execFlitCrcFail link s
  | .trapHandlerEntry core => Sys2Proof.Machine.execTrapHandlerEntry core s
  | .sectionEndTrap core => Sys2Proof.Machine.execSectionEndTrap core s
  | .asyncTrap core => Sys2Proof.Machine.execAsyncTrap core s
  | .containment core cause => Sys2Proof.Machine.execContainment core cause s
  | .preemptTake core => Sys2Proof.Machine.execPreemptTake core s
  | .crewResume crew => Sys2Proof.Machine.execCrewResume crew s
  | .replicaStart crew leg => Sys2Proof.Machine.execReplicaStart crew leg s
  | .classPromotion crew => Sys2Proof.Machine.execClassPromotion crew s
  | .crewEnd crew => Sys2Proof.Machine.execCrewEnd crew s
  | .specialise crew => Sys2Proof.Machine.execSpecialise crew s
  | .relaySeed u leg => Sys2Proof.Machine.execRelaySeed u leg s
  | .relaySweepBegin u => Sys2Proof.Machine.execRelaySweepBegin u s
  | .relayStep u => Sys2Proof.Machine.execRelayStep u s
  | .relayEndStateWrite u => Sys2Proof.Machine.execRelayEndStateWrite u s
  | .relayRetire u leg => Sys2Proof.Machine.execRelayRetire u leg s
  | .relayDeadline u => Sys2Proof.Machine.execRelayDeadline u s
  | .relayOwedFeed u leg => Sys2Proof.Machine.execRelayOwedFeed u leg s
  | .launchCommand => Sys2Proof.Machine.execLaunchCommand s
  | .preempt => Sys2Proof.Machine.execPreempt s
  | .kill => Sys2Proof.Machine.execKill s
  | .setvec => Sys2Proof.Machine.execSetvec s
  | .setroot => Sys2Proof.Machine.execSetroot s
  | .bias => Sys2Proof.Machine.execBias s
  | .specflush => Sys2Proof.Machine.execSpecflush s
  | .fwstage => Sys2Proof.Machine.execFwstage s
  | .fwactivate => Sys2Proof.Machine.execFwactivate s
  | .firmwareRollback => Sys2Proof.Machine.execFirmwareRollback s
  | .retire => Sys2Proof.Machine.execRetire s
  | .logread => Sys2Proof.Machine.execLogread s
  | .setsave => Sys2Proof.Machine.execSetsave s
  | .door v => Sys2Proof.Machine.execDoor v s
  | .hostMemoryAccess write addr v => Sys2Proof.Machine.execHostMemoryAccess write addr v s
  | .spdmRequest nonce => Sys2Proof.Machine.execSpdmRequest nonce s
  | .linkTraining lanes => Sys2Proof.Machine.execLinkTraining lanes s
  | .portStateChange port lanes up => Sys2Proof.Machine.execPortStateChange port lanes up s
  | .fabricDiscovery hops rootGtc => Sys2Proof.Machine.execFabricDiscovery hops rootGtc s
  | .boot => Sys2Proof.Machine.execBoot s
  | .tickwDeadline core => Sys2Proof.Machine.execTickwDeadline core s
  | .loadDataReturn core e => Sys2Proof.Machine.execLoadDataReturn core e s
  | .rowRepairComplete stack row => Sys2Proof.Machine.execRowRepairComplete stack row s
  | .hostSnoopResponse n => Sys2Proof.Machine.execHostSnoopResponse n s

end Sys2Proof.Machine
end

