-- ==== Sys2Proof/Machine/Clock.lean ====
section
/-! DEFINITION. The time base: what one core cycle of 10 sixths of a nanosecond does (R7, R10, R33, R86, R101, R102, R172, R173,
R188, R215, R217, R221), and the steps whose condition time or the machine's own state has made true. -/
namespace Sys2Proof.Machine

/-- The GTC reading of a time (R7): never backwards, within 2 ns from place to place. -/
def State.tickGtc (s : State) : State :=
  { s with gtc := gtcAt s.gtc s.now (s.gtcBase + (Config.gtcSkew s.count % 3 : Nat)) }

/-- A core that runs: it has a crew and is not contained. -/
def Core.runs (k : Core) : Bool := k.crew.isSome && !k.contained

/-- The start of a core's cycle: CCC counts it, unless a guard holds the VL entry that would begin: then the cycle does not happen
(R86, R215). -/
def Core.cycle (k : Core) : Core :=
  if !k.runs then k
  else
    let k' := { k with ccc := k.ccc + 1 }
    if k'.freezers.isEmpty then { k' with frozen := false } else k'.freeze

/-- The cores whose cycle happens. -/
def State.runners (s : State) : List Nat :=
  s.cores.filterMap fun k => if k.2.runs && !k.2.frozen then some k.1 else none

/-- The order of one cycle: leases end and are asked for, parts begin, the engines' write-backs, the entries' beginnings, the tile
commands' reads (R188), and at the end of the cycle the scratchpad and slot writes, the lowest source number last (R102). -/
def cycleSteps (cs : List Nat) : List Instr :=
  cs.map Instr.leaseEnd ++ cs.map Instr.leaseRequest ++ cs.map Instr.partBegin ++
    cs.flatMap (fun c => [Eng.mx, .vl, .vx].map fun e => Instr.engineEntryWriteback c e) ++
    cs.map (fun c => Instr.engineEntryBegin c .mx) ++ cs.map Instr.leaseEnd ++
    cs.flatMap (fun c => [Eng.mx, .vl, .vx, .vs].map fun e => Instr.engineEntryBegin c e) ++
    (cs.map fun c => Instr.engineEntryWriteback c .mx) ++
    cs.reverse.map fun c => Instr.engineEntryWriteback c .vs

/-- Does a sleep of a core end without a record: at its deadline, or for a pending pre-emption (R261, R338)? -/
def State.sleepOver (s : State) (c dl : Nat) : Bool := (dl != 0 && dl ≤ s.gtc) || s.preemptPending c

/-- What a stalled or interrupted pacer may now do. -/
def State.coreDue (s : State) (c : Nat) : List Instr :=
  let k := s.core c
  if k.crew.isNone then []
  else if k.contained then (if k.leaving then [.containment c cECCU] else []) ++ [.instanceEnd c]
  else
    (match k.wait with
      | .waita .. => [Instr.waitaPoll c]
      | .waitch .. => [.waitchReturn c]
      | .popw _ _ dl _ => if s.sleepOver c dl then [.popwRetry c] else []
      | .bar .. => [.barRelease c]
      | .tickw .. => [.tickwDeadline c]
      | .rlyTake _ _ _ _ dl _ => if s.sleepOver c dl then [.rlyTakeRetry c] else []
      | .rlyWait .. => [.rlyWaitReturn c]
      | .heatWait .. => [.heatWaitReturn c]
      | .collWait .. => [.collWaitReturn c]
      | .answered .. => [.loadDataReturn c .none]
      | .exit => [.instanceEnd c]
      | .drain _ => [.trapHandlerEntry c]
      | .chanFault _ => [.sectionEndTrap c]
      | _ => []) ++
    (if k.secFault.isSome || k.frozeFault.isSome then [.sectionEndTrap c] else []) ++
    (if k.asyncPeer.isSome || !k.asyncWatch.isEmpty then [.asyncTrap c] else []) ++
    ((List.range 8).flatMap fun ch =>
      match (k.chan ch).phase with
      | .notBefore => [.notbeforeExpiry c ch]
      | .awaiting => [.chainStart c ch]
      | _ => []) ++
    (if s.preemptPending c then [.preemptTake c] else [])

/-- What a die's launch unit may now do: residual code is looked up before the replica starts (R256, R269, R377). -/
def State.launchDue (s : State) (d : Nat) : List Instr :=
  match s.nextStart d with
  | none => []
  | some (e, l) =>
    if !((s.crew e).specOwed l).isEmpty then [.specialise e]
    else
      match l with
      | [] => []
      | (leg, _) :: _ =>
        match (s.crew e).legs.get .waiting leg with
        | .saved _ => [.crewResume e]
        | _ => [.replicaStart e leg]

/-- Every step whose condition holds: ticks, deadlines, owed records, sleepers, waits, launches, the host's ring, retirements, a fabric
discovery at boot and within 1 ms of a port's change (R380), the firmware's changes. A step whose condition fails after all changes
nothing. -/
def State.due (s : State) : List Instr :=
  (if s.booted then [] else [Instr.boot]) ++
    ((List.range 8).filter fun d => !s.tickOff d && (s.die d).tickno < tickCount (s.die d).tickcfg s.gtc).map Instr.tick ++
    (s.heats.filter fun h => s.heatDue h.1).map (fun h => Instr.heatDeadline h.1) ++
    (s.relays.filter fun u => s.rlyDue u.1).map (fun u => Instr.relayDeadline u.1) ++
    s.relays.filterMap (fun u => (s.rlyOwes u.1).map fun leg => Instr.relayOwedFeed u.1 leg) ++
    s.relays.filterMap (fun u => s.rlyNext u.1) ++
    s.sleepersDue ++
    s.cores.flatMap (fun k => s.coreDue k.1) ++
    (s.crews.filter fun x => x.2.live && x.2.status.isNone && x.2.allOver).map (fun x => Instr.crewEnd x.1) ++
    (s.crews.filter fun x => x.2.waits && x.2.cls < 3).map (fun x => Instr.classPromotion x.1) ++
    (List.range 8).flatMap s.launchDue ++
    (if s.retireDue.isSome then [.retire] else s.ringNext) ++
    (match s.portAt with
      | some t =>
        if s.booted && s.barMode != 1 && (!s.discovered || t + 999990 ≤ s.gtc) then
          [.fabricDiscovery (Config.adverts s.count) (Config.rootGtc s.count)]
        else []
      | none => []) ++
    (match s.fwChange with
      | none => if s.barMode = 2 then [.fwactivate] else []
      | some t =>
        (if s.barMode = 2 ∧ t + 10000000 ≤ s.gtc then [.fwactivate] else []) ++
          (if t + 1000000000 ≤ s.gtc then [.firmwareRollback] else []))

/-- One core cycle: time moves on, every core's cycle starts, and its steps happen next, then the steps that are due. -/
def State.cycle (s : State) : State :=
  let s := ({ s with now := s.now + 10, cpLanded := [] } : State).tickGtc
  let s : State := { s with cores := s.cores.map fun k => (k.1, k.2.cycle) }
  { s with agenda := s.agenda ++ cycleSteps s.runners ++ s.due }

end Sys2Proof.Machine
end

