-- ==== Sys2Proof/Machine/RvFloat.lean ====
section
/-! DEFINITION. The floating-point instructions of the firmware cores, as functions of register contents: the F and D extensions of
RV64GC (R381). The manual names the instruction set only: PRESUMED, the RISC-V manual's rules (log entry 54). -/
namespace Sys2Proof.Machine

/-- The layout of a binary format: its precision, its smallest normal exponent, its bits. -/
structure RvFmt where
  p : Nat
  emin : Int
  bits : Nat
  deriving DecidableEq, Repr

/-- Double or single precision. -/
def rvFmt (d : Bool) : RvFmt := if d then { p := 53, emin := -1022, bits := 64 } else { p := 24, emin := -126, bits := 32 }
def RvFmt.inf (f : RvFmt) : Nat := 2 ^ (f.bits - 1) - 2 ^ (f.p - 1)
/-- The canonical NaN. -/
def RvFmt.nan (f : RvFmt) : Nat := f.inf + 2 ^ (f.p - 2)
def RvFmt.sign (f : RvFmt) (neg : Bool) : Nat := if neg then 2 ^ (f.bits - 1) else 0

/-- The value that an encoding stands for. -/
def RvFmt.decode (f : RvFmt) (b : Nat) : FVal :=
  let neg := nfld b (f.bits - 1) 1 == 1
  let mag := nfld b 0 (f.bits - 1)
  let fr := nfld mag 0 (f.p - 1)
  let e := mag / 2 ^ (f.p - 1)
  let sgn (m : Nat) : Int := if neg then -(m : Int) else m
  if mag = 0 then .zero neg
  else if f.inf < mag then .nan (nfld mag (f.p - 2) 1 == 0)
  else if mag = f.inf then .inf neg
  else if e = 0 then .fin (sgn fr) (f.emin - f.p + 1)
  else .fin (sgn (2 ^ (f.p - 1) + fr)) ((e : Int) - 1 + f.emin - f.p + 1)

/-- Round to a format: the encoding and the flags. A result is tiny where it would be below the smallest normal number after rounding
with an exponent without bounds. -/
def RvFmt.round (f : RvFmt) (x : FVal) (mode : Rm) : Nat × Nat :=
  match x with
  | .nan _ => (f.nan, 0)
  | .zero n => (f.sign n, 0)
  | .inf n => (f.sign n + f.inf, 0)
  | .fin m e =>
    let neg : Bool := m < 0
    let a := m.natAbs
    let l : Int := a.log2 + e
    let q := max l f.emin - f.p + 1
    let bits := (q - (f.emin - f.p + 1)).toNat * 2 ^ (f.p - 1) + roundTo neg a e q mode
    if f.inf ≤ bits then
      let down := mode == .rtz || (mode == .rdn && !neg) || (mode == .rup && neg)
      (f.sign neg + f.inf - down.toNat, fOF ||| fNX)
    else
      let tiny := l < f.emin && !(l + 1 == f.emin && roundTo neg a e (l - f.p + 1) mode == 2 ^ f.p)
      (f.sign neg + bits, if exactAt a e q then 0 else fNX ||| (if tiny then fUF else 0))

/-- The flags in the order that fflags has them: NX, UF, OF, DZ, NV. -/
def rvFlags (fl : Nat) : Nat := (List.range 5).foldl (fun n i => n + if fl.testBit i then 2 ^ (4 - i) else 0) 0

/-- A rounding mode by its code, with the one that frm holds for the dynamic code; none where it is reserved. -/
def rvRm (rm frm : Nat) : Option Rm :=
  match (if rm = 7 then frm else rm) with
  | 0 => some .rne
  | 1 => some .rtz
  | 2 => some .rdn
  | 3 => some .rup
  | 4 => some .rna
  | _ => none

/-- A register's single-precision value: NaN-boxed, else the canonical NaN. -/
def rvUnbox (d : Bool) (v : Word) : Nat :=
  if d then v.toNat else if fld v 32 32 = 2 ^ 32 - 1 then fld v 0 32 else (rvFmt false).nan
/-- An encoding as a register holds it. -/
def rvBox (d : Bool) (n : Nat) : Word := if d then BitVec.ofNat 64 n else BitVec.ofNat 64 (n % 2 ^ 32 + (2 ^ 32 - 1) * 2 ^ 32)

/-- What a floating-point instruction writes: an integer register or a floating-point one; and its flags. -/
structure RvRes where
  toX : Bool
  val : Word
  flags : Nat
  deriving DecidableEq, Repr

/-- A rounded result. -/
def rvRound (d : Bool) (x : FVal × Nat) (mode : Rm) : RvRes :=
  let r := (rvFmt d).round x.1 mode
  { toX := false, val := rvBox d r.1, flags := rvFlags (r.2 ||| x.2) }

/-- Scaled up by a power of two that is taken off the exponent again: so many more bits of a quotient or a root. -/
def rvWide (k : Nat) : FVal → FVal
  | .fin m e => .fin (m * 2 ^ k) (e - k)
  | x => x

/-- The comparison of numbers: the zeros are equal. -/
def rvCmp (a b : FVal) : Ordering :=
  match a, b with
  | .zero _, .zero _ => .eq
  | _, _ => a.cmp b

/-- The smaller or the larger number: a NaN operand gives the other one. -/
def rvMinMax (d max : Bool) (a b : Nat) : RvRes :=
  let x := (rvFmt d).decode a
  let y := (rvFmt d).decode b
  let v :=
    if x.isNan && y.isNan then (rvFmt d).nan
    else if x.isNan then b
    else if y.isNan then a
    else if (x.cmp y == .gt) == max then a else b
  { toX := false, val := rvBox d v, flags := rvFlags (x.sig ||| y.sig) }

/-- The ten classes of FCLASS. -/
def rvClass (f : RvFmt) (b : Nat) : Nat :=
  let sub := nfld b 0 (f.bits - 1) < 2 ^ (f.p - 1)
  match f.decode b with
  | .inf n => if n then 2 ^ 0 else 2 ^ 7
  | .fin m _ => if m < 0 then (if sub then 2 ^ 2 else 2 ^ 1) else (if sub then 2 ^ 5 else 2 ^ 6)
  | .zero n => if n then 2 ^ 3 else 2 ^ 4
  | .nan s => if s then 2 ^ 8 else 2 ^ 9

/-- To an integer of 32 or 64 bits, signed or not: what is out of range gives the nearest bound, a NaN the largest number. -/
def rvToInt (x : FVal) (wide uns : Bool) (mode : Rm) : Word × Nat :=
  let n : Nat := if wide then 64 else 32
  let lo : Int := if uns then 0 else -2 ^ (n - 1)
  let hi : Int := if uns then 2 ^ n - 1 else 2 ^ (n - 1) - 1
  let put (y : Int) : Word := if wide then BitVec.ofInt 64 y else (BitVec.ofInt 32 y).signExtend 64
  match x with
  | .nan _ => (put hi, fNV)
  | .inf neg => (put (if neg then lo else hi), fNV)
  | .zero _ => (0, 0)
  | .fin m e =>
    let r := roundTo (m < 0) m.natAbs e 0 mode
    let y : Int := if m < 0 then -(r : Int) else r
    if y < lo then (put lo, fNV) else if hi < y then (put hi, fNV) else (put y, if exactAt m.natAbs e 0 then 0 else fNX)

/-- An integer register's value as an integer of 32 or 64 bits. -/
def rvOfInt (v : Word) (wide uns : Bool) : FVal :=
  FVal.of (if wide then (if uns then (v.toNat : Int) else v.toInt)
    else (if uns then (fld v 0 32 : Int) else (v.setWidth 32).toInt)) 0

/-- The fused multiply-adds, with the signs of the product and of the addend. -/
def rvFma (d negP negC : Bool) (a b c : Word) (mode : Rm) : RvRes :=
  let f (v : Word) : FVal := (rvFmt d).decode (rvUnbox d v)
  let p := fmul (f a) (f b)
  let x := exactSum (mode == .rdn) [if negP then p.1.neg else p.1, if negC then (f c).neg else f c]
  rvRound d (x.1, x.2 ||| p.2) mode

/-- An OP-FP word, from the contents of its floating-point registers `a`, `b` and its integer register `x`; none where it is illegal. -/
def rvOpFp (w : BitVec 32) (frm : Nat) (a b x : Word) : Option RvRes :=
  let d := bit w 25
  let f := rvFmt d
  let rs2 := fld w 20 5
  let f3 := fld w 12 3
  let na := rvUnbox d a
  let nb := rvUnbox d b
  let fa := f.decode na
  let fb := f.decode nb
  let float (v flags : Nat) : RvRes := { toX := false, val := rvBox d v, flags := flags }
  let int (v : Word) (flags : Nat) : RvRes := { toX := true, val := v, flags := flags }
  let sum (y : FVal) : Option RvRes := (rvRm f3 frm).map fun m => rvRound d (exactSum (m == .rdn) [fa, y]) m
  let order (ok : Ordering → Bool) (quiet : Bool) : Option RvRes :=
    let nan := fa.isNan || fb.isNan
    let bad := if quiet then fa.sig ||| fb.sig else if nan then fNV else 0
    some (int (BitVec.ofNat 64 (!nan && ok (rvCmp fa fb)).toNat) (rvFlags bad))
  if 1 < fld w 25 2 then none
  else
    match fld w 27 5 with
    | 0x00 => sum fb
    | 0x01 => sum fb.neg
    | 0x02 => (rvRm f3 frm).map fun m => rvRound d (fmul fa fb) m
    | 0x03 => (rvRm f3 frm).map fun m => rvRound d (fdiv (rvWide 128 fa) fb) m
    | 0x0B => if rs2 = 0 then (rvRm f3 frm).map fun m => rvRound d (fsqrt (rvWide 128 fa)) m else none
    | 0x04 =>
      let mag := nfld na 0 (f.bits - 1)
      let sa := na / 2 ^ (f.bits - 1) == 1
      let sb := nb / 2 ^ (f.bits - 1) == 1
      match f3 with
      | 0 => some (float (f.sign sb + mag) 0)
      | 1 => some (float (f.sign (!sb) + mag) 0)
      | 2 => some (float (f.sign (sa ^^ sb) + mag) 0)
      | _ => none
    | 0x05 => if f3 = 0 then some (rvMinMax d false na nb) else if f3 = 1 then some (rvMinMax d true na nb) else none
    | 0x08 =>
      if rs2 = (!d).toNat then
        let y := (rvFmt !d).decode (rvUnbox (!d) a)
        (rvRm f3 frm).map fun m => rvRound d (y, y.sig) m
      else none
    | 0x14 =>
      match f3 with
      | 0 => order (fun o => o != .gt) false
      | 1 => order (fun o => o == .lt) false
      | 2 => order (fun o => o == .eq) true
      | _ => none
    | 0x18 =>
      if rs2 < 4 then
        (rvRm f3 frm).map fun m => let r := rvToInt fa (rs2.testBit 1) (rs2.testBit 0) m; int r.1 (rvFlags r.2)
      else none
    | 0x1A =>
      if rs2 < 4 then (rvRm f3 frm).map fun m => rvRound d (rvOfInt x (rs2.testBit 1) (rs2.testBit 0), 0) m else none
    | 0x1C =>
      if rs2 ≠ 0 then none
      else if f3 = 0 then some (int (if d then a else (a.setWidth 32).signExtend 64) 0)
      else if f3 = 1 then some (int (BitVec.ofNat 64 (rvClass f na)) 0)
      else none
    | 0x1E => if rs2 = 0 ∧ f3 = 0 then some (float (if d then x.toNat else fld x 0 32) 0) else none
    | _ => none

end Sys2Proof.Machine
end

