-- ==== Sys2Proof/Machine/Rv64.lean ====
section
/-! DEFINITION. The instructions of RV64GC that the firmware cores run beside the four of R381: the integer set with M, A, C, Zicsr and
Zifencei, and the accesses of F and D. The manual names the instruction set only: PRESUMED, the RISC-V manual's rules (log entry 54). -/
namespace Sys2Proof.Machine

-- Compressed words.

/-- An I-type word. -/
def rvI (op f3 rd rs1 : Nat) (imm : Int) : BitVec 32 :=
  BitVec.ofNat 32 (op + rd * 2 ^ 7 + f3 * 2 ^ 12 + rs1 * 2 ^ 15 + wrap 12 imm * 2 ^ 20)
/-- An R-type word. -/
def rvR (op f3 f7 rd rs1 rs2 : Nat) : BitVec 32 :=
  BitVec.ofNat 32 (op + rd * 2 ^ 7 + f3 * 2 ^ 12 + rs1 * 2 ^ 15 + rs2 * 2 ^ 20 + f7 * 2 ^ 25)
/-- An S-type word. -/
def rvS (op f3 rs1 rs2 imm : Nat) : BitVec 32 :=
  BitVec.ofNat 32 (op + imm % 32 * 2 ^ 7 + f3 * 2 ^ 12 + rs1 * 2 ^ 15 + rs2 * 2 ^ 20 + imm / 32 % 128 * 2 ^ 25)
/-- A B-type word that compares with x0. -/
def rvB (f3 rs1 : Nat) (imm : Int) : BitVec 32 :=
  let i := wrap 13 imm
  BitVec.ofNat 32 (0x63 + nfld i 11 1 * 2 ^ 7 + nfld i 1 4 * 2 ^ 8 + f3 * 2 ^ 12 + rs1 * 2 ^ 15 + nfld i 5 6 * 2 ^ 25 +
    nfld i 12 1 * 2 ^ 31)
/-- A jump with no link. -/
def rvJ (imm : Int) : BitVec 32 :=
  let i := wrap 21 imm
  BitVec.ofNat 32 (0x6F + nfld i 12 8 * 2 ^ 12 + nfld i 11 1 * 2 ^ 20 + nfld i 1 10 * 2 ^ 21 + nfld i 20 1 * 2 ^ 31)

/-- Quadrant 0: accesses relative to a register, and the address of a stack slot. -/
def rvQuad0 (w : BitVec 16) : Option (BitVec 32) :=
  let rd := 8 + fld w 2 3
  let rs := 8 + fld w 7 3
  let i4 := fld w 10 3 * 8 + fld w 6 1 * 4 + fld w 5 1 * 64
  let i8 := fld w 10 3 * 8 + fld w 5 2 * 64
  match fld w 13 3 with
  | 0 =>
    let i := fld w 11 2 * 16 + fld w 7 4 * 64 + fld w 6 1 * 4 + fld w 5 1 * 8
    if i = 0 then none else some (rvI 0x13 0 rd 2 i)
  | 1 => some (rvI 0x07 3 rd rs i8)
  | 2 => some (rvI 0x03 2 rd rs i4)
  | 3 => some (rvI 0x03 3 rd rs i8)
  | 5 => some (rvS 0x27 3 rs rd i8)
  | 6 => some (rvS 0x23 2 rs rd i4)
  | 7 => some (rvS 0x23 3 rs rd i8)
  | _ => none

/-- The register-register and shift words of quadrant 1. -/
def rvQuad1Alu (w : BitVec 16) : Option (BitVec 32) :=
  let rd := 8 + fld w 7 3
  let rs := 8 + fld w 2 3
  let i6 := fld w 2 5 + fld w 12 1 * 32
  match fld w 10 2 with
  | 0 => some (rvI 0x13 5 rd rd i6)
  | 1 => some (rvI 0x13 5 rd rd (i6 + 1024))
  | 2 => some (rvI 0x13 7 rd rd (signed 6 i6))
  | _ =>
    match fld w 12 1 * 4 + fld w 5 2 with
    | 0 => some (rvR 0x33 0 0x20 rd rd rs)
    | 1 => some (rvR 0x33 4 0 rd rd rs)
    | 2 => some (rvR 0x33 6 0 rd rd rs)
    | 3 => some (rvR 0x33 7 0 rd rd rs)
    | 4 => some (rvR 0x3B 0 0x20 rd rd rs)
    | 5 => some (rvR 0x3B 0 0 rd rd rs)
    | _ => none

/-- Quadrant 1: immediates, jumps and branches. -/
def rvQuad1 (w : BitVec 16) : Option (BitVec 32) :=
  let rd := fld w 7 5
  let i6 := signed 6 (fld w 2 5 + fld w 12 1 * 32)
  let ib := signed 9 (fld w 2 1 * 32 + fld w 3 2 * 2 + fld w 5 2 * 64 + fld w 10 2 * 8 + fld w 12 1 * 256)
  match fld w 13 3 with
  | 0 => some (rvI 0x13 0 rd rd i6)
  | 1 => if rd = 0 then none else some (rvI 0x1B 0 rd rd i6)
  | 2 => some (rvI 0x13 0 rd 0 i6)
  | 3 =>
    let i := signed 10 (fld w 2 1 * 32 + fld w 3 2 * 128 + fld w 5 1 * 64 + fld w 6 1 * 16 + fld w 12 1 * 512)
    if rd = 2 then (if i = 0 then none else some (rvI 0x13 0 2 2 i))
    else if i6 = 0 then none
    else some (BitVec.ofNat 32 (0x37 + rd * 2 ^ 7 + wrap 20 i6 * 2 ^ 12))
  | 4 => rvQuad1Alu w
  | 5 => some (rvJ (signed 12 (fld w 2 1 * 32 + fld w 3 3 * 2 + fld w 6 1 * 128 + fld w 7 1 * 64 + fld w 8 1 * 1024 +
      fld w 9 2 * 256 + fld w 11 1 * 16 + fld w 12 1 * 2048)))
  | 6 => some (rvB 0 (8 + fld w 7 3) ib)
  | _ => some (rvB 1 (8 + fld w 7 3) ib)

/-- Quadrant 2: accesses relative to the stack pointer, register jumps, moves and sums. -/
def rvQuad2 (w : BitVec 16) : Option (BitVec 32) :=
  let rd := fld w 7 5
  let rs := fld w 2 5
  let l4 := fld w 12 1 * 32 + fld w 4 3 * 4 + fld w 2 2 * 64
  let l8 := fld w 12 1 * 32 + fld w 5 2 * 8 + fld w 2 3 * 64
  let s4 := fld w 9 4 * 4 + fld w 7 2 * 64
  let s8 := fld w 10 3 * 8 + fld w 7 3 * 64
  match fld w 13 3 with
  | 0 => some (rvI 0x13 1 rd rd (fld w 2 5 + fld w 12 1 * 32 : Nat))
  | 1 => some (rvI 0x07 3 rd 2 l8)
  | 2 => if rd = 0 then none else some (rvI 0x03 2 rd 2 l4)
  | 3 => if rd = 0 then none else some (rvI 0x03 3 rd 2 l8)
  | 4 =>
    match bit w 12, rs == 0, rd == 0 with
    | false, true, true => none
    | false, true, false => some (rvI 0x67 0 0 rd 0)
    | false, false, _ => some (rvR 0x33 0 0 rd 0 rs)
    | true, true, true => some 0x00100073
    | true, true, false => some (rvI 0x67 0 1 rd 0)
    | true, false, _ => some (rvR 0x33 0 0 rd rd rs)
  | 5 => some (rvS 0x27 3 2 rs s8)
  | 6 => some (rvS 0x23 2 2 rs s4)
  | _ => some (rvS 0x23 3 2 rs s8)

/-- The 32-bit word that a compressed one stands for; none where it is illegal. -/
def rvExpand (w : BitVec 16) : Option (BitVec 32) :=
  match fld w 0 2 with
  | 0 => rvQuad0 w
  | 1 => rvQuad1 w
  | _ => rvQuad2 w

-- Memory, as a firmware core reaches it: physical addresses of the local HBM view.

/-- The runs of bytes that lie together, as keys and byte counts; none outside the view. Firmware tests a stack before it sets the
stack's readiness bit: its own fetches, loads and stores need no bit (R386, log entry 4). -/
def rvRuns (pa n : Nat) : Option (List (Nat × Nat)) :=
  if 2 ^ 40 < pa + n then none else some ((vaBlocks pa n).map fun p => (kHbm (hbmLocal p.1), p.2))
/-- Does an access meet a row in repair (R387)? -/
def State.rvHeld (s : State) (pa n : Nat) : Bool := ((rvRuns pa n).getD []).any fun p => s.repairing p.1
/-- The instruction waits where its access meets a row in repair (R387). -/
def State.rvWaits (s : State) (pa n : Nat) : State := if s.rvHeld pa n then s.hold .wait else s

/-- The word at the pc as memory holds it, 16 bits of it where it is compressed, or the cause of the trap. -/
def State.rvFetch (s : State) : Except Nat (BitVec 32) :=
  let pc := (s.fwc s.fwNo).pc.toNat
  let get (n : Nat) : Except Nat Nat :=
    match rvRuns pc n with
    | none => .error 1
    | some l => .ok (l.foldr (fun p x => s.mem.getNat p.1 p.2 + x * 2 ^ (8 * p.2)) 0)
  match get 2 with
  | .error c => .error c
  | .ok h => if h % 4 = 3 then (get 4).map (BitVec.ofNat 32) else .ok (BitVec.ofNat 32 h)

/-- A load (R225). -/
def State.rvLoad (s : State) (pa n : Nat) : Except Nat (Nat × State) :=
  match rvRuns pa n with
  | none => .error 5
  | some l =>
    let r := l.foldl (fun (r : Nat × Nat × State) p =>
      let (v, s) := r.2.2.seenRead (fwSrc s.fwNo) p.1 p.2
      (r.1 + v * 2 ^ (8 * r.2.1), r.2.1 + p.2, s)) (0, 0, s)
    .ok (r.1, r.2.2.rvWaits pa n)

/-- A store. -/
def State.rvStore (s : State) (pa n v : Nat) : Except Nat State :=
  match rvRuns pa n with
  | none => .error 7
  | some l =>
    .ok (l.foldl (fun (r : Nat × State) p =>
      (r.1 + p.2, r.2.homeWrite (fwSrc s.fwNo) p.1 p.2 (v / 2 ^ (8 * r.1) % 2 ^ (8 * p.2)) [])) (0, s.rvWaits pa n)).2

/-- The value that an AMO writes, on `n`-byte operands; none where the operation is illegal. -/
def rvAmo (op : Nat) (n : Nat) (old src : Nat) : Option Nat :=
  let a := old % 2 ^ (8 * n)
  let b := src % 2 ^ (8 * n)
  let less := signed (8 * n) a < signed (8 * n) b
  match op with
  | 0x00 => some (a + b)
  | 0x01 => some b
  | 0x04 => some (a ^^^ b)
  | 0x08 => some (a ||| b)
  | 0x0C => some (a &&& b)
  | 0x10 => some (if less then a else b)
  | 0x14 => some (if less then b else a)
  | 0x18 => some (Nat.min a b)
  | 0x1C => some (Nat.max a b)
  | _ => none

/-- A value of 4 or 8 bytes as a register takes it. -/
def rvSext (n v : Nat) : Word := BitVec.ofInt 64 (signed (8 * n) v)

/-- The A extension: LR, SC and the AMOs, each one step at its home; `aq` acquires and `rl` releases at scope 15. -/
def State.rvAtomic (s : State) (w : BitVec 32) (s1 : State) : Except Nat State :=
  let k := s.fwc s.fwNo
  let a := fwSrc s.fwNo
  let n := if fld w 12 3 = 2 then 4 else 8
  let rd := w.extractLsb' 7 5
  let rs2 := w.extractLsb' 20 5
  let pa := (k.rd (w.extractLsb' 15 5)).toNat
  let op := fld w 27 5
  let acq (s : State) (ms : List Msg) : State := if bit w 26 then s.acquire a 15 ms else s
  let rels (s : State) : List Msg := s.relMsgs a (if bit w 25 then some 15 else none)
  let key := kHbm (hbmLocal pa)
  let writes (s : State) : Nat := (s.wordHist (key / 8)).ws.length
  if fld w 12 3 ≠ 2 ∧ fld w 12 3 ≠ 3 then .error 2
  else if op = 2 ∧ rs2 ≠ 0 then .error 2
  else if op ≠ 2 ∧ op ≠ 3 ∧ (rvAmo op n 0 0).isNone then .error 2
  else if pa % n ≠ 0 then .error (if op = 2 then 4 else 6)
  else if (rvRuns pa n).isNone then .error (if op = 2 then 5 else 7)
  else
  let s1 := s1.rvWaits pa n
  if op = 2 then
    let (v, ms, s2) := s1.scopedRead a key n
    let s2 := (acq s2 ms).watchRead a key n
    let s2 := s2.fwWr rd (rvSext n v)
    .ok (s2.setFwc s.fwNo { s2.fwc s.fwNo with resv := some (key, n, writes s2) })
  else if op = 3 then
    let s2 := s1.setFwc s.fwNo { s1.fwc s.fwNo with resv := none }
    if k.resv = some (key, n, writes s) then
      .ok ((s2.homeWrite a key n ((k.rd rs2).toNat % 2 ^ (8 * n)) (rels s2)).fwWr rd 0)
    else .ok (s2.fwWr rd 1)
  else
    let (v, ms, s2) := s1.scopedRead a key n
    let x := (rvAmo op n v (k.rd rs2).toNat).getD 0 % 2 ^ (8 * n)
    let s2 := ((s2.homeWord a key n x true (rels s2)).watchHome a key n true true)
    .ok ((acq s2 ms).fwWr rd (rvSext n v))

-- Control and status registers.

/-- The value of a CSR; none where the core has no such register. -/
def State.rvCsr (s : State) (num : Nat) : Option Word :=
  let k := s.fwc s.fwNo
  match num with
  | 0x001 => some (BitVec.ofNat 64 (k.fcsr % 32))
  | 0x002 => some (BitVec.ofNat 64 (k.fcsr / 32 % 8))
  | 0x003 => some (BitVec.ofNat 64 (k.fcsr % 256))
  | 0x300 => some (k.mstatus ||| 2 <<< 32 ||| (if fld k.mstatus 13 2 = 3 then 1 <<< 63 else 0))
  | 0x301 => some (2 <<< 62 ||| 0x10112D)
  | 0x304 => some k.mie
  | 0x305 => some k.mtvec
  | 0x306 => some k.mcounteren
  | 0x340 => some k.mscratch
  | 0x341 => some k.mepc
  | 0x342 => some k.mcause
  | 0x343 => some k.mtval
  | 0x344 => some 0
  | 0xB00 | 0xC00 => some k.mcycle
  | 0xB02 | 0xC02 => some k.minstret
  | 0xC01 => some (BitVec.ofNat 64 s.gtc)
  | 0xF11 | 0xF12 | 0xF13 | 0xF15 => some 0
  | 0xF14 => some (BitVec.ofNat 64 s.fwNo)
  | _ => if (0xB03 ≤ num ∧ num ≤ 0xB1F) ∨ (0xC03 ≤ num ∧ num ≤ 0xC1F) ∨ (0x323 ≤ num ∧ num ≤ 0x33F) then some 0 else none

/-- A CSR after a write of `v`: fields that cannot hold a value keep a legal one. -/
def FwCore.rvCsrWrite (k : FwCore) (num : Nat) (v : Word) : FwCore :=
  let dirty (k : FwCore) : FwCore := { k with mstatus := k.mstatus ||| 0x6000 }
  match num with
  | 0x001 => dirty { k with fcsr := k.fcsr / 32 * 32 + fld v 0 5 }
  | 0x002 => dirty { k with fcsr := fld v 0 3 * 32 + k.fcsr % 32 }
  | 0x003 => dirty { k with fcsr := fld v 0 8 }
  | 0x300 =>
    let m := v &&& 0x226088
    { k with mstatus := m ||| (if fld v 11 2 = 3 then 0x1800 else if fld v 11 2 = 0 then 0 else k.mstatus &&& 0x1800) }
  | 0x304 => { k with mie := v &&& 0x888 }
  | 0x305 => { k with mtvec := if fld v 0 2 < 2 then v else setFld v 0 2 (fld k.mtvec 0 2) }
  | 0x306 => { k with mcounteren := v &&& 0xFFFFFFFF }
  | 0x340 => { k with mscratch := v }
  | 0x341 => { k with mepc := setFld v 0 1 0 }
  | 0x342 => { k with mcause := v }
  | 0x343 => { k with mtval := v }
  | 0xB00 => { k with mcycle := v }
  | 0xB02 => { k with minstret := v }
  | _ => k

/-- May the core, in its mode, access a CSR: with the floating-point unit off its CSRs are out of reach, and a counter that mcounteren
closes is out of user mode's? -/
def FwCore.rvCsrOpen (k : FwCore) (num : Nat) (wr : Bool) : Bool :=
  (k.machine || num / 256 % 4 == 0) && !(wr && num / 1024 == 3) && !(num ≤ 3 && fld k.mstatus 13 2 == 0) &&
    (k.machine || num / 256 != 0xC || bit k.mcounteren (num % 32))

/-- The six CSR instructions. -/
def State.rvCsrOp (s : State) (w : BitVec 32) (s1 : State) : Except Nat State :=
  let k := s.fwc s.fwNo
  let num := fld w 20 12
  let f3 := fld w 12 3
  let rs1 := w.extractLsb' 15 5
  let src : Word := if 4 ≤ f3 then rs1.setWidth 64 else k.rd rs1
  let wr := f3 % 4 == 1 || rs1 != 0
  match s.rvCsr num with
  | none => .error 2
  | some old =>
    if !k.rvCsrOpen num wr then .error 2
    else
      let new := match f3 % 4 with | 1 => src | 2 => old ||| src | _ => old &&& ~~~ src
      let s2 := if wr then s1.setFwc s.fwNo ((s1.fwc s.fwNo).rvCsrWrite num new) else s1
      .ok (s2.fwWr (w.extractLsb' 7 5) old)

/-- SYSTEM: the environment call, the breakpoint, the return from a trap, a wait that ends at once, and the CSR instructions. -/
def State.rvSystem (s : State) (w : BitVec 32) (s1 : State) : Except Nat State :=
  let n := s.fwNo
  let k := s.fwc n
  if fld w 12 3 = 4 then .error 2
  else if fld w 12 3 ≠ 0 then s.rvCsrOp w s1
  else
    match w.toNat with
    | 0x00000073 => .error (if k.machine then 11 else 8)
    | 0x00100073 => .error 3
    | 0x10500073 => if k.machine || !bit k.mstatus 21 then .ok s1 else .error 2
    | 0x30200073 =>
      if !k.machine then .error 2
      else
        let up := fld k.mstatus 11 2 == 3
        let m := setFld (setFld (setFld k.mstatus 3 1 (fld k.mstatus 7 1)) 7 1 1) 11 2 0
        .ok (s1.setFwc n { s1.fwc n with
          machine := up, pc := k.mepc, mstatus := if up then m else setFld m 17 1 0 })
    | _ => .error 2

-- The integer set.

/-- The register-register and register-immediate operations of 64 bits; none where illegal. -/
def rvAlu (f3 : Nat) (alt : Bool) (a b : Word) : Word :=
  match f3 with
  | 0 => if alt then a - b else a + b
  | 1 => a <<< (b.toNat % 64)
  | 2 => BitVec.ofNat 64 (a.slt b).toNat
  | 3 => BitVec.ofNat 64 (a.ult b).toNat
  | 4 => a ^^^ b
  | 5 => if alt then a.sshiftRight (b.toNat % 64) else a >>> (b.toNat % 64)
  | 6 => a ||| b
  | _ => a &&& b
/-- The same on the low 32 bits, the result sign-extended: sums and shifts only. -/
def rvAluW (f3 : Nat) (alt : Bool) (a b : BitVec 32) : Word :=
  (match f3 with
    | 0 => if alt then a - b else a + b
    | 1 => a <<< (b.toNat % 32)
    | _ => if alt then a.sshiftRight (b.toNat % 32) else a >>> (b.toNat % 32)).signExtend 64

/-- The M extension at a width: a division by zero and an overflow have the results that RISC-V gives them. -/
def rvMul (n f3 : Nat) (a b : BitVec n) : BitVec n :=
  match f3 with
  | 0 => a * b
  | 1 => fMulh n a b
  | 2 => BitVec.ofInt n (a.toInt * (b.toNat : Int) / 2 ^ n)
  | 3 => fMulhn n a b
  | 4 => if b = 0 then BitVec.allOnes n else a.sdiv b
  | 5 => if b = 0 then BitVec.allOnes n else a / b
  | 6 => if b = 0 then a else a.srem b
  | _ => if b = 0 then a else a % b

/-- OP and OP-32: the value of rd; none where illegal. -/
def rvOp (w : BitVec 32) (narrow : Bool) (a b : Word) : Option Word :=
  let f3 := fld w 12 3
  let f7 := fld w 25 7
  let short (x : Word) : BitVec 32 := x.setWidth 32
  if f7 = 1 then
    if narrow then (if f3 = 0 ∨ 4 ≤ f3 then some ((rvMul 32 f3 (short a) (short b)).signExtend 64) else none)
    else some (rvMul 64 f3 a b)
  else if f7 ≠ 0 ∧ (f7 ≠ 0x20 ∨ (f3 ≠ 0 ∧ f3 ≠ 5)) then none
  else if narrow then (if f3 = 0 ∨ f3 = 1 ∨ f3 = 5 then some (rvAluW f3 (f7 == 0x20) (short a) (short b)) else none)
  else some (rvAlu f3 (f7 == 0x20) a b)

/-- OP-IMM and OP-IMM-32: the value of rd; none where illegal. -/
def rvOpImm (w : BitVec 32) (narrow : Bool) (a : Word) : Option Word :=
  let f3 := fld w 12 3
  let imm : Word := (w.extractLsb' 20 12).signExtend 64
  let hi := if narrow then fld w 25 7 else fld w 26 6 * 2
  let alt := f3 == 5 && hi == 0x20
  if (f3 = 1 ∧ hi ≠ 0) ∨ (f3 = 5 ∧ hi ≠ 0 ∧ hi ≠ 0x20) then none
  else if narrow then
    (if f3 = 0 ∨ f3 = 1 ∨ f3 = 5 then some (rvAluW f3 alt (a.setWidth 32) (imm.setWidth 32)) else none)
  else some (rvAlu f3 alt a imm)

/-- Is a branch taken? None where its condition is illegal. -/
def rvTaken (f3 : Nat) (a b : Word) : Option Bool :=
  match f3 with
  | 0 => some (a == b)
  | 1 => some (a != b)
  | 4 => some (a.slt b)
  | 5 => some (!a.slt b)
  | 6 => some (a.ult b)
  | 7 => some (!a.ult b)
  | _ => none

/-- The floating-point words but loads and stores: the registers, the flags, and the state of the unit follow. -/
def State.rvFp (s : State) (w : BitVec 32) (s1 : State) : Except Nat State :=
  let n := s.fwNo
  let k := s.fwc n
  let fr (lo : Nat) : Word := k.f.get 0 (fld w lo 5)
  let frm := k.fcsr / 32 % 8
  let op := fld w 0 7
  let r : Option RvRes :=
    if op = 0x53 then rvOpFp w frm (fr 15) (fr 20) (k.rd (w.extractLsb' 15 5))
    else if 1 < fld w 25 2 then none
    else
      (rvRm (fld w 12 3) frm).map
        (rvFma (bit w 25) (op == 0x4B || op == 0x4F) (op == 0x47 || op == 0x4F) (fr 15) (fr 20) (fr 27))
  match r with
  | none => .error 2
  | some r =>
    let k1 := s1.fwc n
    let k1 := if r.toX then k1.wr (w.extractLsb' 7 5) r.val else { k1 with f := k1.f.upd (fld w 7 5) r.val }
    .ok (s1.setFwc n { k1 with fcsr := k1.fcsr ||| r.flags, mstatus := k1.mstatus ||| 0x6000 })

/-- A load or a store of an integer or a floating-point register. -/
def State.rvMemory (s : State) (w : BitVec 32) (s1 : State) : Except Nat State :=
  let n := s.fwNo
  let k := s.fwc n
  let f3 := fld w 12 3
  let base := k.rd (w.extractLsb' 15 5)
  let size := 2 ^ (f3 % 4)
  let li := (base + (w.extractLsb' 20 12).signExtend 64).toNat
  let si := (base + (w.extractLsb' 25 7 ++ w.extractLsb' 7 5).signExtend 64).toNat
  match fld w 0 7 with
  | 0x03 =>
    if f3 = 7 then .error 2
    else
      match s1.rvLoad li size with
      | .error c => .error c
      | .ok (v, s1) => .ok (s1.fwWr (w.extractLsb' 7 5) (if f3 < 4 then rvSext size v else BitVec.ofNat 64 v))
  | 0x23 => if 3 < f3 then .error 2 else s1.rvStore si size ((k.rd (w.extractLsb' 20 5)).toNat % 2 ^ (8 * size))
  | 0x07 =>
    if f3 ≠ 2 ∧ f3 ≠ 3 then .error 2
    else
      match s1.rvLoad li size with
      | .error c => .error c
      | .ok (v, s1) =>
        let k1 := s1.fwc n
        .ok (s1.setFwc n { k1 with f := k1.f.upd (fld w 7 5) (rvBox (f3 == 3) v), mstatus := k1.mstatus ||| 0x6000 })
  | _ =>
    if f3 ≠ 2 ∧ f3 ≠ 3 then .error 2 else s1.rvStore si size ((k.f.get 0 (fld w 20 5)).toNat % 2 ^ (8 * size))

/-- One 32-bit word: `s1` is the state in which the core has gone on to the next; the cause of a trap, which changes nothing. -/
def State.rvExec (s : State) (w : BitVec 32) (s1 : State) : Except Nat State :=
  let n := s.fwNo
  let k := s.fwc n
  let rd := w.extractLsb' 7 5
  let a := k.rd (w.extractLsb' 15 5)
  let b := k.rd (w.extractLsb' 20 5)
  let f3 := fld w 12 3
  let put (v : Word) : Except Nat State := .ok (s1.fwWr rd v)
  let try_ (v : Option Word) : Except Nat State := match v with | some v => put v | none => .error 2
  let jump (s : State) (pc : Word) : State := s.setFwc n { s.fwc n with pc := pc }
  let upper : Word := (w.extractLsb' 12 20 ++ 0#12).signExtend 64
  let fpOn := fld k.mstatus 13 2 != 0
  match fld w 0 7 with
  | 0x37 => put upper
  | 0x17 => put (k.pc + upper)
  | 0x6F =>
    let imm := (w.extractLsb' 31 1 ++ w.extractLsb' 12 8 ++ w.extractLsb' 20 1 ++ w.extractLsb' 21 10 ++ 0#1).signExtend 64
    .ok (jump (s1.fwWr rd (s1.fwc n).pc) (k.pc + imm))
  | 0x67 =>
    if f3 ≠ 0 then .error 2
    else .ok (jump (s1.fwWr rd (s1.fwc n).pc) (setFld (a + (w.extractLsb' 20 12).signExtend 64) 0 1 0))
  | 0x63 =>
    let imm := (w.extractLsb' 31 1 ++ w.extractLsb' 7 1 ++ w.extractLsb' 25 6 ++ w.extractLsb' 8 4 ++ 0#1).signExtend 64
    match rvTaken f3 a b with
    | none => .error 2
    | some t => .ok (if t then jump s1 (k.pc + imm) else s1)
  | 0x03 | 0x23 => s.rvMemory w s1
  | 0x07 | 0x27 => if fpOn then s.rvMemory w s1 else .error 2
  | 0x13 => try_ (rvOpImm w false a)
  | 0x1B => try_ (rvOpImm w true a)
  | 0x33 => try_ (rvOp w false a b)
  | 0x3B => try_ (rvOp w true a b)
  | 0x0F =>
    if f3 = 0 then .ok ((s1.fenceRel (fwSrc n) 15).fenceAcq (fwSrc n) 15) else if f3 = 1 then .ok s1 else .error 2
  | 0x2F => s.rvAtomic w s1
  | 0x73 => s.rvSystem w s1
  | 0x43 | 0x47 | 0x4B | 0x4F | 0x53 => if fpOn then s.rvFp w s1 else .error 2
  | _ => .error 2

/-- The executing firmware core executes a word that is none of the four of R381: 32 bits, or 16 where its low two bits say so. -/
def State.rvStep (s : State) (w : BitVec 32) : State :=
  s.attempt [] fun s =>
    let n := s.fwNo
    let long := fld w 0 2 == 3
    match if long then some w else rvExpand (w.setWidth 16) with
    | none => s.fwTrap 2
    | some x =>
      match s.rvExec x (s.setFwc n ((s.fwc n).past (if long then 4 else 2))) with
      | .ok s => s
      | .error c => s.fwTrap c

end Sys2Proof.Machine
end

