-- ==== Sys2Proof/Machine/Turn.lean ====
section
/-! DEFINITION. What moves next, and what it does: the pacer's fetch and decode (R11, R12, R18, R23, R25, R32, R35, R269), a firmware
core's (R381), the events that other agents bring about (R390, R399), and the placing of one instruction before a fetch. -/
namespace Sys2Proof.Machine

/-- What a turn comes to. -/
inductive Pick where
  /-- this instruction or step is executed in this state -/
  | run (i : Instr) (s : State)
  /-- the turn is over -/
  | done (s : State)
  /-- the machine refuses -/
  | refuse (r : Refusal)
  deriving DecidableEq, Repr

-- The pacer.

/-- A step that a pacer at a word boundary owes before its next word: a section-end trap, an asynchronous trap, a pre-emption
(R350, R351, R360). -/
def State.owes (s : State) (c : Nat) : Option Instr :=
  let k := s.core c
  if !s.interruptible c then none
  else if k.secFault.isSome || k.frozeFault.isSome then some (.sectionEndTrap c)
  else if k.asyncPeer.isSome || !k.asyncWatch.isEmpty then some (.asyncTrap c)
  else if s.preemptNow c then some (.preemptTake c)
  else none

/-- The word that a fetch has read, executed if it is an instruction, else ILLOP (R18). -/
def State.decoded (s : State) (c : Nat) (r : Except DecodeErr Instr) : Pick :=
  match r with
  | .ok i => .run i s
  | .error _ => .done (s.preciseTrap c (tr cILLOP))

/-- The word at a pacer's program counter, decoded: the next operation of an MCALL, or a word of the section (R32). -/
def State.wordAt (s : State) (c : Nat) : Except Stop (Except DecodeErr Instr × State) :=
  let k := s.core c
  match k.mcall with
  | some m => .ok (decodeRaw (m.word (k.micro.get 0 (m.start + m.idx))), s)
  | none =>
    match s.fetch c k.pc 12 with
    | .error e => .error e
    | .ok (x, s) => .ok (decodeWord (BitVec.ofNat 96 x), s)

/-- A fetch that does not give the word: it traps, asks for a walk, or asks the host (R65, R67, R72). -/
def State.unfetched (s : State) (c : Nat) : Stop → Pick
  | .trap t => .done (s.preciseTrap c t)
  | .walk w => .done (s.askWalk w)
  | .snoop a lines => .done (s.askSnoops (some c) a lines)
  | _ => .done s

/-- The word at a pacer's program counter: a section header, or an instruction (R12, R22, R23). -/
def State.fetched (s : State) (c : Nat) : Pick :=
  let k := s.core c
  if k.mcall.isNone && k.ctx.atHdr then
    match s.fetch c k.pc 8 with
    | .error e => s.unfetched c e
    | .ok (x, s) => .run (.sectionHeader (Header.ofBits (BitVec.ofNat 64 x))) s
  else
    match s.wordAt c with
    | .error e => s.unfetched c e
    | .ok (r, s) => s.decoded c r

/-- Has a pacer waited at an access to FPSR for the entry whose fault ends this section? That access may run before the trap is taken
(R145). -/
def State.fpsrWaits (s : State) (c : Nat) : Bool :=
  let k := s.core c
  k.retry && k.quiet && (k.secFault.map fun f => f.sec) == some k.ctx.ord &&
    match s.wordAt c with
    | .ok (.ok (.csrr _ _ num), _) | .ok (.ok (.csrw _ _ num), _) | .ok (.ok (.csrx _ _ _ _ num), _) => num == 0x002
    | _ => false
/-- Does such an access run before that trap: an open choice. -/
def State.fpsrFirst (s : State) (c : Nat) : Bool := s.fpsrWaits c && s.choice.1 % 2 == 1

/-- A pacer's turn: nothing while it has no crew, is frozen, stalled or contained, or while the slip limit holds it (R86, R195,
R219, R358). -/
def State.pacerPick (s : State) (c : Nat) : Pick :=
  let s := { s with actor := c }
  let k := s.core c
  if !k.runs || k.frozen || k.wait != .none then .done s
  else
    match s.owes c with
    | some i => if s.fpsrFirst c then s.choice.2.fetched c else .run i s
    | none => if k.slipHeld && !k.retry && !k.ctx.atHdr then .done s else s.fetched c

-- The firmware cores.

/-- A firmware core's turn: nothing while the row of its word is in repair (R387); else the word at its pc in the local HBM view (log entry 4) is one of R381's four, or a word of RV64GC, 16 or 32
bits long; a malformed custom-0 word, or any such word in user mode, traps (R381). -/
def State.firmwarePick (s : State) (k : Nat) : Pick :=
  let s := { s with actor := k }
  if s.rvHeld (s.fwc k).pc.toNat 4 then .done s
  else
  match s.rvFetch with
  | .error code => .done (s.fwTrap code)
  | .ok w =>
    match decodeFirmware w with
    | .ok i => .run i s
    | .error .notWx => .done (s.rvStep w)
    | .error _ => .done (s.fwTrap 2)

-- What moves.

/-- May the environment bring this step about? Accesses and answers at homes, units and links; host and fabric; steps of units whose
guards are their own conditions; an uncorrectable error in a core's memory, which contains it (R74, R357). Words of a stream, a
firmware core's instructions, the parts of a core's cycle, and the writes that are part of a register write are not its own. -/
def envStep : Instr → Bool
  | .instanceEnd _ | .waitaPoll _ | .waitchReturn _ | .barRelease _ | .rlyWaitReturn _
  | .heatDeadline _ | .heatWaitReturn _ | .collWaitReturn _ | .collStepBegin _ _ _ _ | .collStepComplete _ _ _ _
  | .quayElementStep _ _ _ | .quayInstructionComplete _ _ | .recordFetch _ _ _ | .notbeforeExpiry _ _
  | .granuleLanding _ _ _ | .recordComplete _ _ | .homeStep _ _ | .rowRepair _ _ | .tableWalk _ _
  | .writeAcknowledgement _ | .writeRefused _ | .operandLogReissue _ | .flitCrcFail _ | .trapHandlerEntry _
  | .sectionEndTrap _ | .asyncTrap _ | .preemptTake _ | .crewResume _ | .replicaStart _ _ | .classPromotion _
  | .crewEnd _ | .specialise _ | .relaySeed _ _ | .relaySweepBegin _ | .relayStep _ | .relayEndStateWrite _
  | .relayRetire _ _ | .relayDeadline _ | .relayOwedFeed _ _ | .launchCommand | .preempt | .kill | .setvec | .setroot
  | .bias | .specflush | .fwstage | .fwactivate | .firmwareRollback | .retire | .logread | .setsave | .door _
  | .hostMemoryAccess _ _ _ | .spdmRequest _ | .linkTraining _ | .portStateChange _ _ _ | .fabricDiscovery _ _ | .boot
  | .tickwDeadline _ | .tick _ | .loadDataReturn _ _ | .rowRepairComplete _ _ | .hostSnoopResponse _ => true
  | .registerWrite (.bar0 _) _ => true
  | .containment _ cause => cause == cECCU
  | _ => false

/-- The turn that comes when no consequence of an earlier step is still to happen: the one placed by `withFetchWord`, else what the
environment does, else the clock, a pacer or a firmware core; no rule orders them (R390). -/
def State.nextTurn (s : State) : Turn :=
  match s.forced with
  | some t => t
  | none =>
    match (Config.environment s.count).filter fun i => envStep i && i.wf with
    | some i => .event i
    | none =>
      match Config.schedule s.count with
      | 0 => .clock
      | n + 1 => if n < Config.cores then .pacer n else if n < Config.cores + 4 then .firmware (n - Config.cores) else .clock

/-- No pacer and no firmware core acts. -/
def State.noActor (s : State) : State := { s with actor := Config.cores }

/-- What the next step executes: a forced turn, else the head of the agenda, else the turn that comes. -/
def State.pick (s : State) : Pick :=
  match s.forced, s.agenda with
  | none, i :: l => .run i { s with agenda := l }
  | _, _ =>
    let t := s.nextTurn
    let s := { s with forced := none }
    match t with
    | .clock => .done s.noActor.cycle
    | .pacer c => s.pacerPick c
    | .firmware k => s.firmwarePick k
    | .event i => .run i s.noActor

/-- The start of every step: it is counted, the GTC is read (R7), and the lines that answer units with an error in this step are an open
value (R74, R397). -/
def State.begin (s : State) : State := { s.tickGtc with count := s.count + 1, trouble := Config.trouble s.count }

-- Placing one instruction.

/-- Bytes of the longest instruction: a word and its parameter block (R28). -/
def longest : Nat := 60
/-- The VA, and with the leaf below the local-view address, of the header of the placed section. -/
def placeAt : Nat := 0x10000
/-- The table that holds the placed leaf, in stack 0's table region (R64). -/
def placeTable : Nat := 0xFFC000000

/-- The leaf of the placed page: device memory under device bias, for the mode that the core is in. -/
def Core.placeLeaf (k : Core) : BitVec 64 := if k.mode then 0xE0F else 0xE1F

/-- Core `c` at the placed instruction, its page translated: running, not stalled, with nothing owed, in a section of five words or at its header. -/
def Core.placed (k : Core) (hdr : Bool) : Core :=
  { k with
    crew := some (k.crew.getD 0), contained := false, frozen := false, wait := .none, retry := false, mcall := none, mcallFrom := 0,
    secFault := none, asyncPeer := none, asyncWatch := [], parts := [], relFabric := none
    tlb := { asid := k.asid, level := 2, vpn := 0, leaf := k.placeLeaf, lines := [] } :: k.tlb
    chans := k.chans.map fun x => (x.1, { x.2 with froze := false })
    pc := if hdr then placeAt else placeAt + 8,
    ctx := { k.ctx with
      hdr := { Header.zero with magic := 0xA, len := 5 }, hdrAddr := placeAt, atHdr := hdr } }

/-- A state whose next step fetches and runs the given instruction: at firmware core 0's pc for a 32-bit word; else at core 0's
program counter, with a leaf that lets core 0 fetch there (R58, R60, R63). -/
def State.place (s : State) (nbits w : Nat) : State :=
  if nbits ≤ 32 then
    let k := s.fwc 0
    let pc := if k.pc.toNat % 4 = 0 ∧ k.pc.toNat < 2 ^ 39 then k.pc else 0
    { s.setFwc 0 { k with pc := pc } with
      mem := s.mem.setNat (kHbm pc.toNat) 4 (w % 2 ^ nbits)
      ready := s.ready ||| 1 <<< (648 + pc.toNat / 2 ^ 36)
      repairs := s.repairs.filter fun r => r.1 != pc.toNat / 2 ^ 36
      forced := some (.firmware 0) }
  else
    let hdr : Bool := nbits ≤ 64
    let k := s.core 0
    let d := s.die 0
    let s : State := { s with
      mem := (s.mem.setNat placeTable 8 k.placeLeaf.toNat).setNat (if hdr then placeAt else placeAt + 8) longest (w % 2 ^ nbits)
      bias := s.bias.upd 0 true
      ready := s.ready ||| 1 <<< 648
      repairs := s.repairs.filter fun r => r.1 != 0
      snoops := s.snoops.filter fun x => x.agent != srcOf 0 0
      forced := some (.pacer 0) }
    let s := s.setDie 0 { d with
      walks := d.walks.filter fun w => w.core != 0
      roots := AMap.upd d.roots k.asid (BitVec.ofNat 64 (placeTable + 1)) }
    let s := s.setCore 0 (k.placed hdr)
    { s with crews := s.crews.upd (k.crew.getD 0) { s.crew (k.crew.getD 0) with preempt := false } }

end Sys2Proof.Machine
end

