-- ==== Sys2Proof/Machine/Step.lean ====
section
/-! DEFINITION. One step of the module: the next turn is chosen, and its instruction or step is executed. -/
namespace Sys2Proof.Machine

/-- One step. -/
def step (s : State) : Host.Outcome State Fault Refusal :=
  match s.begin.pick with
  | .run i s => exec i s
  | .done s => .next s
  | .refuse r => .refused r

/-- `s` with one instruction placed where `step` fetches next. -/
def State.withFetchWord (s : State) (nbits w : Nat) : State := s.place nbits w

end Sys2Proof.Machine
end

