-- ==== Sys2Proof/Safety.lean ====
section
/-! DEFINITION. What counts as a safe state and a safe run, and the terms that claims about one word or step are stated in. -/
namespace Sys2Proof.Machine

/-- A step that is neither a fault nor a refusal. -/
def completes (o : Host.Outcome State Fault Refusal) : Prop := ∃ t, o = .next t

/-- A state whose memory keeps its canonical form. -/
def State.memOk (s : State) : Prop := s.mem.wf = true

/-- A run of `n` steps without a fault or a refusal, through states that keep memory's canonical form. -/
def safeRun : Nat → State → Prop
  | 0, s => s.memOk
  | n + 1, s => s.memOk ∧ ∃ t, step s = .next t ∧ safeRun n t

/-- A word of the pacer issues: the slip limit does not hold it (R219), its predicate is true (R14), and none of the scalar
registers it reads holds a deferred load (R212). -/
def State.Issues (s : State) (n : Ann) (srcs : List SReg) : Prop :=
  (s.me.slipHeld = false ∨ s.me.retry = true) ∧ s.me.pred n.pr = true ∧ s.me.firstDef srcs = none

/-- The state after a word that changes its core by `f` and goes on at the next word; `ends` for a word that ends its part. -/
def State.after (s : State) (ends : Bool) (bytes : Nat) (f : Core → Core) : State :=
  (s.entered ends).setMe ((f (s.entered ends).me).advance bytes)

/-- The state after a word that goes to word `k` of its section. -/
def State.atWord (s : State) (k : Nat) : State :=
  s.setMe ({ s.me.countWord with mcall := none, retry := false, wskip := false }.goto (s.me.ctx.hdrAddr + 8 + 12 * k))

/-- The state after a word that leaves its section for the header at `a`. -/
def State.atHeader (s : State) (a : Nat) : State :=
  s.setMe ({ s.me.countWord.endPart with mcall := none, retry := false, wskip := false }.gotoHdr a)

/-- The precise trap that a word takes in place of its effect. -/
def State.trapped (s : State) (ends : Bool) (t : TrapInfo) : State := (s.entered ends).preciseTrap s.actor t

/-- An engine word is pushed: the pacer is in user mode (R349), the slip limit does not hold it (R219), its predicate is
true, no scalar it reads is deferred, and its engine's queue has room (R220). -/
def State.Pushes (s : State) (n : EAnn) (e : Eng) (srcs : List SReg) : Prop :=
  s.me.slipHeld = false ∧ s.me.mode = false ∧ s.me.pred n.pr = true ∧ s.me.firstDef srcs = none ∧
    (s.me.q.filter fun x => x.eng == e).length < queueDepth e

/-- What a push leaves: the entry at the end of the queues, the pacer at the next word, the scalar and vector registers, frames
flags and every agent's view as before; the entry holds the pacer's K, which its engine takes when it begins (R121, R230). -/
def State.Pushed (s t : State) (e : Eng) (i : Instr) (c : Capture) : Prop :=
  t.me.q = s.me.q ++ [s.me.openPart.entry e i true c (s.pushRel s.actor)] ∧
    t.me.pc = (s.me.advance (wordBytes i)).pc ∧
    t.me.s = s.me.s ∧ t.me.p = s.me.p ∧ t.me.v = s.me.v ∧ t.me.frames = s.me.frames ∧
    t.me.fpsr = s.me.fpsr ∧ t.me.fpcr = s.me.fpcr ∧
    t.views = s.views

/-- The special registers of a core, the record of a trap among them. -/
def Core.SameSpecials (k k' : Core) : Prop :=
  k'.mode = k.mode ∧ k'.fpcr = k.fpcr ∧ k'.fpsr = k.fpsr ∧ k'.slip = k.slip ∧ k'.rrb = k.rrb ∧ k'.mskdepth = k.mskdepth ∧
    k'.ccc = k.ccc ∧ k'.specstat = k.specstat ∧ k'.livemap = k.livemap ∧ k'.livebits = k.livebits ∧ k'.dlost = k.dlost ∧
    k'.qstat = k.qstat ∧ k'.tvec = k.tvec ∧ k'.tcause = k.tcause ∧ k'.tpc = k.tpc ∧ k'.topc = k.topc ∧
    k'.titer = k.titer ∧ k'.taddr = k.taddr ∧ k'.teng = k.teng ∧ k'.tsrc = k.tsrc ∧ k'.tstamp = k.tstamp ∧
    k'.asid = k.asid ∧ k'.mcsw = k.mcsw ∧ k'.readyw = k.readyw ∧ k'.watch = k.watch ∧ k'.watchctl = k.watchctl ∧
    k'.saveptr = k.saveptr ∧ k'.tlog = k.tlog

/-- The engines of a core: vector registers, frames, masks, queues, tokens and channels. -/
def Core.SameEngines (k k' : Core) : Prop :=
  k'.v = k.v ∧ k'.frames = k.frames ∧ k'.view32 = k.view32 ∧ k'.masks = k.masks ∧ k'.mskip = k.mskip ∧ k'.tok = k.tok ∧
    k'.q = k.q ∧ k'.fly = k.fly ∧ k'.fmtq = k.fmtq ∧ k'.outq = k.outq ∧ k'.outcnt = k.outcnt ∧ k'.chans = k.chans

end Sys2Proof.Machine
end

