-- ==== Sys2Proof/Certificates/Slice0/Obligations.lean ====
section
/-! DEFINITION. The statements for the provers: what the manual's rules say of this model. Each docstring cites its rule and
says where a clause is the model's own choice. -/
open Sys2Proof Sys2Proof.Machine

namespace Sys2Proof.Claims

-- Terms of the integer statements: operands read as numbers of n bits, and results reduced modulo 2^n (R196).

/-- n of R196. -/
def wid (w : Bool) : Nat := if w then 32 else 64
/-- An operand as a signed number of n bits. -/
def sgn (w : Bool) (a : Word) : Int := if w then (a.setWidth 32).toInt else a.toInt
/-- An operand as an unsigned number of n bits. -/
def uns (w : Bool) (a : Word) : Nat := a.toNat % 2 ^ wid w
/-- The result written to s[D]: exact modulo 2^n, and sign-extended from 32 bits under W. -/
def res (w : Bool) (x : Int) : Word := if w then (BitVec.ofInt 32 x).signExtend 64 else BitVec.ofInt 64 x
/-- The next state of a word that writes one scalar register and goes on. -/
def wrote (s : State) (d : SReg) (v : Word) : Host.Outcome State Fault Refusal :=
  .next (s.after false 12 fun k => k.wr d v)

/-- The INT words of two sources. -/
def intWords (n : Ann) (o : IntOp) : List Instr :=
  [.add n o, .sub n o, .mul n o, .mulh n o, .mulhn n o, .div n o, .divn n o, .rem n o, .remn n o, .and n o, .or n o,
   .xor n o, .andn n o, .shl n o, .shr n o, .sar n o, .rot n o, .min n o, .max n o, .minn n o, .maxn n o, .bfx n true o,
   .bfx n false o, .bfi n o]

end Sys2Proof.Claims

open Sys2Proof.Claims

/-- R196: ADD, SUB, MUL, MULH, MULHN, MIN, MAX, MINN and MAXN of every operand form and width complete with the exact result
modulo 2^n. -/
def Sys2Proof.Claims.IntegerArithmetic : Prop :=
  ∀ (s : State) (n : Ann) (o : IntOp), s.Issues n (o.a :: srcRegs o.b) →
    let a := s.me.rd o.a
    let b := s.me.srcB o.b
    let out (x : Int) := wrote s o.d (res o.w x)
    exec (.add n o) s = out (sgn o.w a + sgn o.w b) ∧
    exec (.sub n o) s = out (sgn o.w a - sgn o.w b) ∧
    exec (.mul n o) s = out (sgn o.w a * sgn o.w b) ∧
    exec (.mulh n o) s = out (sgn o.w a * sgn o.w b / 2 ^ wid o.w) ∧
    exec (.mulhn n o) s = out ((uns o.w a * uns o.w b / 2 ^ wid o.w : Nat)) ∧
    exec (.min n o) s = out (min (sgn o.w a) (sgn o.w b)) ∧
    exec (.max n o) s = out (max (sgn o.w a) (sgn o.w b)) ∧
    exec (.minn n o) s = out ((min (uns o.w a) (uns o.w b) : Nat)) ∧
    exec (.maxn n o) s = out ((max (uns o.w a) (uns o.w b) : Nat))

/-- R196: DIV truncates toward zero, REM takes the sign of a, DIVN and REMN are unsigned; each traps DIVZ precisely when b is 0
at the operation's width, and then nothing is written. -/
def Sys2Proof.Claims.IntegerDivision : Prop :=
  ∀ (s : State) (n : Ann) (o : IntOp), s.Issues n (o.a :: srcRegs o.b) →
    let a := s.me.rd o.a
    let b := s.me.srcB o.b
    let out (x : Int) := wrote s o.d (res o.w x)
    (uns o.w b ≠ 0 →
      exec (.div n o) s = out ((sgn o.w a).tdiv (sgn o.w b)) ∧
      exec (.divn n o) s = out ((uns o.w a / uns o.w b : Nat)) ∧
      exec (.rem n o) s = out ((sgn o.w a).tmod (sgn o.w b)) ∧
      exec (.remn n o) s = out ((uns o.w a % uns o.w b : Nat))) ∧
    (uns o.w b = 0 → ∀ i ∈ ([.div n o, .divn n o, .rem n o, .remn n o] : List Instr),
      exec i s = .next (s.trapped false (tr cDIVZ)))

/-- R196: the exact arithmetic words, and the divisions with their trap. -/
def Obligations.IntegerArithmetic : Prop :=
  Sys2Proof.Claims.IntegerArithmetic ∧ Sys2Proof.Claims.IntegerDivision

/-- R196: the logical words, the shifts and the rotation by b mod n, SEL, LI and LEA. -/
def Obligations.IntegerLogicAndShifts : Prop :=
  ∀ (s : State) (n : Ann) (o : IntOp), s.Issues n (o.a :: srcRegs o.b) →
    let a := s.me.rd o.a
    let b := s.me.srcB o.b
    let k := uns o.w b % wid o.w
    let out (x : Int) := wrote s o.d (res o.w x)
    exec (.and n o) s = out ((a &&& b).toNat : Int) ∧
    exec (.or n o) s = out ((a ||| b).toNat : Int) ∧
    exec (.xor n o) s = out ((a ^^^ b).toNat : Int) ∧
    exec (.andn n o) s = out ((a &&& ~~~ b).toNat : Int) ∧
    exec (.shl n o) s = out ((uns o.w a * 2 ^ k : Nat)) ∧
    exec (.shr n o) s = out ((uns o.w a / 2 ^ k : Nat)) ∧
    exec (.sar n o) s = out (sgn o.w a / 2 ^ k) ∧
    exec (.rot n o) s = out ((uns o.w a * 2 ^ k % 2 ^ wid o.w + uns o.w a / 2 ^ (wid o.w - k) : Nat)) ∧
    (∀ p, exec (.sel n p o) s = out (if s.me.pred p then sgn o.w a else sgn o.w b)) ∧
    (∀ imm, exec (.li n o.w o.d o.a imm) s = out ((a.toNat % 2 ^ 32 * 2 ^ 32 + imm.toNat : Nat))) ∧
    exec (.lea n o.w o.d o.b) s = out (s.me.pc + sgn o.w b)

/-- R196, R198: CLZ, CTZ and POPC of n bits; PSET writes cond(a, b) and PLOG op(pA, pB) to a predicate, and p0 keeps reading 1
(R194). -/
def Sys2Proof.Claims.CountsAndPredicates : Prop :=
  ∀ (s : State) (n : Ann),
    (∀ o : IntOp1, s.Issues n [o.a] →
      let a := s.me.rd o.a
      ∃ z c p : Nat, (∀ j, j < z → bit a (wid o.w - 1 - j) = false) ∧
        (z < wid o.w → bit a (wid o.w - 1 - z) = true) ∧ z ≤ wid o.w ∧
        (∀ j, j < c → bit a j = false) ∧ (c < wid o.w → bit a c = true) ∧ c ≤ wid o.w ∧
        p = ((List.range (wid o.w)).map fun j => (bit a j).toNat).sum ∧
        exec (.clz n o) s = wrote s o.d (res o.w z) ∧
        exec (.ctz n o) s = wrote s o.d (res o.w c) ∧
        exec (.popc n o) s = wrote s o.d (res o.w p)) ∧
    (∀ c w pd a b, s.Issues n (a :: srcRegs b) →
      let x := s.me.rd a
      let y := s.me.srcB b
      let v : Bool := match c with
        | .eq => decide (uns w x = uns w y) | .ne => decide (uns w x ≠ uns w y)
        | .lt => decide (sgn w x < sgn w y) | .ge => decide (sgn w y ≤ sgn w x)
        | .ltn => decide (uns w x < uns w y) | .gen => decide (uns w y ≤ uns w x)
        | .tst => decide (uns w (x &&& y) ≠ 0) | .ntst => decide (uns w (x &&& y) = 0)
      exec (.pset n c w pd a b) s = .next (s.after false 12 fun k => k.setPred pd v) ∧
      (∀ t, exec (.pset n c w pd a b) s = .next t → t.me.pred pd = (v || pd == 0))) ∧
    (∀ op pd pa pb, s.Issues n [] →
      let x := s.me.pred pa
      let y := s.me.pred pb
      let v : Bool := match op with
        | .pand => x && y | .por => x || y | .pxor => x != y | .pandn => x && !y | .porn => x || !y
        | .pnand => !(x && y) | .pnor => !(x || y) | .pxnor => x == y
      exec (.plog n op pd pa pb) s = .next (s.after false 12 fun k => k.setPred pd v))

/-- R197: BFX extracts and BFI inserts the field that a legal descriptor names; an illegal descriptor in a register traps
RANGE. -/
def Sys2Proof.Claims.BitFields : Prop :=
  ∀ (s : State) (n : Ann) (sx : Bool) (o : IntOp),
    let a := s.me.rd o.a
    let b := s.me.srcB o.b
    let pos := fld b 0 6
    let width := fld b 8 7
    let legal : Prop := 1 ≤ width ∧ width ≤ wid o.w ∧ pos + width ≤ wid o.w ∧ fld b 6 2 = 0 ∧ fld b 15 49 = 0
    let f := uns o.w a / 2 ^ pos % 2 ^ width
    (s.Issues n (o.a :: srcRegs o.b) →
      (legal → exec (.bfx n sx o) s = wrote s o.d (res o.w (if sx then signed width f else f))) ∧
      (¬ legal → exec (.bfx n sx o) s = .next (s.trapped false (tr cRANGE)))) ∧
    (s.Issues n (o.a :: srcRegs o.b ++ [o.d]) →
      (legal → ∃ r : Word, exec (.bfi n o) s = wrote s o.d (res o.w r.toNat) ∧
        ∀ j, j < wid o.w → bit r j = if pos ≤ j ∧ j < pos + width then bit a (j - pos) else bit (s.me.rd o.d) j) ∧
      (¬ legal → exec (.bfi n o) s = .next (s.trapped false (tr cRANGE))))

/-- R194, R196–R198: counts of bits, predicates, and bit fields. -/
def Obligations.CountsPredicatesAndFields : Prop :=
  Sys2Proof.Claims.CountsAndPredicates ∧ Sys2Proof.Claims.BitFields

/-- R193, R194, R196: the frame of the INT words of two sources. A next state is the same state (the slip
limit), a precise trap, or differs in the executing core alone: every scalar register but s[D] keeps its value (and s0 reads zero), predicates, special registers, engines and every
byte of memory stay as they were. -/
def Obligations.IntegerFrame : Prop :=
  ∀ (s t : State) (n : Ann) (o : IntOp) (i : Instr), i ∈ intWords n o → exec i s = .next t →
    t = s ∨ (∃ x, t = s.trapped false x) ∨
    (∃ k, t = s.setMe k ∧ (∀ r : SReg, physS s.me.rrb r ≠ physS s.me.rrb o.d → k.rd r = s.me.rd r) ∧ k.rdP 0 = 0 ∧
      k.p = s.me.p ∧ s.me.SameSpecials k ∧ s.me.SameEngines k ∧ k.wait = s.me.wait ∧
      (∀ a, t.mem.get a = s.mem.get a) ∧ ∀ c, c ≠ s.actor → t.core c = s.core c)

/-- R193: a value written to any named register but s0 reads back, whatever the window base is; s0 reads zero and a write to it
is discarded; a write clears the deferral. -/
def Sys2Proof.Claims.ScalarRegisters : Prop :=
  ∀ (k : Core) (r : SReg) (v : Word),
    (r ≠ 0 → (k.wr r v).rd r = v ∧ (k.wr r v).isDef (physS k.rrb r) = false) ∧
    (k.wr 0 v = k) ∧ k.rd 0 = 0 ∧
    (∀ q : SReg, physS k.rrb q ≠ physS k.rrb r → (k.wr r v).rd q = k.rd q) ∧
    (48 ≤ r.toNat → physS k.rrb r = 48 + (r.toNat - 48 + fld k.rrb 8 4) % 16)

/-- R14, R212, R219: a pacer word whose predicate is false changes nothing but its place; one that reads a deferred register
traps DFUSE with nothing of its effect; one that the slip limit holds waits. Here for ADD, BR, ST and CSRW. -/
def Sys2Proof.Claims.WordsThatDoNotIssue : Prop :=
  ∀ (s : State) (n : Ann) (o : IntOp) (h : Bool) (hint : Hint) (wd : Width) (imm : BitVec 32) (num : BitVec 12),
    (s.me.slipHeld = true → s.me.retry = false →
      exec (.add n o) s = .next s ∧ exec (.br n h imm) s = .next s ∧ exec (.st n hint wd o.a o.d imm) s = .next s ∧
        exec (.csrw n o.a num) s = .next s) ∧
    (s.me.slipHeld = false → s.me.pred n.pr = false →
      exec (.add n o) s = .next (s.skipped 12 false) ∧ exec (.br n h imm) s = .next (s.skipped 12 false) ∧
        exec (.st n hint wd o.a o.d imm) s = .next (s.skipped 12 false) ∧
        (num ≠ 0x002 → exec (.csrw n o.a num) s = .next (s.skipped 12 false)) ∧
        (s.skipped 12 false).me.s = s.me.s ∧ (s.skipped 12 false).mem = s.mem ∧
        s.me.SameSpecials (s.skipped 12 false).me) ∧
    (∀ p, s.me.slipHeld = false → s.me.pred n.pr = true → s.me.firstDef [o.a] = some p →
      exec (.ld n false wd o.d o.a imm) s = .next (s.trapped false (tr cDFUSE p)) ∧
      (num ≠ 0x002 → exec (.csrw n o.a num) s = .next (s.trapped false (tr cDFUSE p))))

/-- R14, R193, R212, R219: what a scalar register holds, and what a word that does not issue leaves.
Log entries 11 and 12: the model's own readings. -/
def Obligations.RegistersAndSkippedWords : Prop :=
  Sys2Proof.Claims.ScalarRegisters ∧ Sys2Proof.Claims.WordsThatDoNotIssue

-- Control (R22–R25, R30–R32, R199–R207).

/-- R25, R199, R200: a branch goes to word k of its section, and a word index outside the section traps SECT with nothing
changed; the header forms go to the header at the byte distance or address; CALL links the header after the calling section. -/
def Obligations.BranchesAndCalls : Prop :=
  ∀ (s : State) (n : Ann) (d a : SReg) (imm : BitVec 32),
    let u := s.entered false
    let inSec (k : Int) : Prop := 0 ≤ k ∧ k < s.me.ctx.hdr.len.toNat
    let sect (k : Int) : TrapInfo := tr cSECT (BitVec.ofInt 64 (s.me.ctx.hdrAddr + 8 + 12 * k)).toNat
    let there := (BitVec.ofNat 64 s.me.pc + imm.signExtend 64).toNat
    (s.Issues n [] →
      (inSec imm.toInt → exec (.br n false imm) s = .next (u.atWord imm.toInt.toNat)) ∧
      (¬ inSec imm.toInt → exec (.br n false imm) s = .next (s.trapped false (sect imm.toInt))) ∧
      exec (.br n true imm) s = .next (u.atHeader there) ∧
      (∃ v, exec (.call n d imm) s = .next ((u.setMe (u.me.wr d v)).atHeader there) ∧
        v = BitVec.ofNat 64 (s.me.ctx.hdrAddr + 8 + 12 * s.me.ctx.hdr.len.toNat))) ∧
    (s.Issues n [a] →
      (let k := (s.me.rd a).toInt + imm.toInt
       (inSec k → exec (.jmp n a imm) s = .next (u.atWord k.toNat)) ∧
       (¬ inSec k → exec (.jmp n a imm) s = .next (s.trapped false (sect k)))) ∧
      exec (.jmpr n a imm) s = .next (u.atHeader (s.me.rd a + imm.signExtend 64).toNat) ∧
      exec (.ret n a) s = .next (u.atHeader (s.me.rd a).toNat)) ∧
    (∀ (t : State) (k : Nat), (t.atWord k).me.pc = t.me.ctx.hdrAddr + 8 + 12 * k ∧ (t.atWord k).mem = t.mem ∧
      (t.atWord k).me.s = t.me.s ∧ (t.atHeader k).me.pc = k ∧ (t.atHeader k).me.ctx.atHdr = true ∧
      (t.atHeader k).mem = t.mem ∧ (t.atHeader k).me.s = t.me.s)

/-- R201: LOOP's INIT form writes the trip count and stage predicates or leaves for its target, and its back edge advances the
pass index, recomputes p4–p7 and raises both window bases, or falls through; a count no INIT formed traps LOOPBAD. With the H hint the
target is the header at the distance, without it a word of the section, outside which the branch traps SECT with nothing changed. -/
def Obligations.CountedLoops : Prop :=
  ∀ (s : State) (n : Ann) (h : Bool) (s1 : BitVec 2) (d a : SReg) (imm : BitVec 32), d ≠ 0 → d.toNat < 48 →
    let u := s.entered false
    let inSec : Prop := 0 ≤ imm.toInt ∧ imm.toInt < s.me.ctx.hdr.len.toNat
    let sect : TrapInfo := tr cSECT (BitVec.ofInt 64 (s.me.ctx.hdrAddr + 8 + 12 * imm.toInt)).toNat
    let there (v : State) : Prop :=
      if h then v.me.pc = (BitVec.ofNat 64 s.me.pc + imm.signExtend 64).toNat ∧ v.me.ctx.atHdr = true
      else v.me.pc = s.me.ctx.hdrAddr + 8 + 12 * imm.toInt.toNat ∧ v.me.ctx.hdrAddr = s.me.ctx.hdrAddr
    let stage (i t : Int) (k : Core) : Prop := ∀ j : Nat, 1 ≤ j → j ≤ 4 →
      k.pred (BitVec.ofNat 3 (3 + j)) = decide (0 ≤ i - (j - 1) ∧ i - (j - 1) < t)
    (s.Issues n [a] →
      let t := (s.me.rd a).toInt
      (t > 2 ^ 31 → exec (.loop n h true s1 d a imm) s = .next (s.trapped false (tr cLOOPBAD))) ∧
      (t ≤ 0 → h = true ∨ inSec → ∃ v, exec (.loop n h true s1 d a imm) s = .next v ∧ v.me.rd d = 0 ∧ stage 0 0 v.me ∧
        there v ∧ v.me.rrb = s.me.rrb ∧ v.mem = s.mem) ∧
      (t ≤ 0 → h = false → ¬ inSec → exec (.loop n h true s1 d a imm) s = .next (s.trapped false sect)) ∧
      (0 < t → t ≤ 2 ^ 31 → ∃ v, exec (.loop n h true s1 d a imm) s = .next v ∧ v.me.pc = (s.me.advance 12).pc ∧
        v.me.rd d = BitVec.ofInt 64 t ∧ stage 0 t v.me ∧ v.me.rrb = s.me.rrb ∧ v.mem = s.mem)) ∧
    (s.Issues n [d] →
      let x := s.me.rd d
      let t := fld x 0 32
      let i := fld x 32 32
      let st := s1.toNat + 1
      (x = 0 → exec (.loop n h false s1 d 0 imm) s = .next (s.after false 12 fun k => k)) ∧
      (x ≠ 0 → (t = 0 ∨ t > 2 ^ 31 ∨ t + st ≤ i + 1) →
        exec (.loop n h false s1 d 0 imm) s = .next (s.trapped false (tr cLOOPBAD))) ∧
      (1 ≤ t → t ≤ 2 ^ 31 → i + 2 < t + st → h = true ∨ inSec →
        ∃ v, exec (.loop n h false s1 d 0 imm) s = .next v ∧
          v.me.rd d = BitVec.ofNat 64 ((i + 1) * 2 ^ 32 + t) ∧ stage (i + 1) t v.me ∧
          fld v.me.rrb 0 8 = (fld s.me.rrb 0 8 + 1) % 256 ∧ fld v.me.rrb 8 4 = (fld s.me.rrb 8 4 + 1) % 16 ∧
          there v ∧ v.mem = s.mem) ∧
      (1 ≤ t → t ≤ 2 ^ 31 → i + 2 < t + st → h = false → ¬ inSec →
        exec (.loop n h false s1 d 0 imm) s = .next (s.trapped false sect)) ∧
      (1 ≤ t → t ≤ 2 ^ 31 → i + 2 = t + st →
        exec (.loop n h false s1 d 0 imm) s = .next (s.after false 12 fun k => k.wr d 0) ∧ u.mem = s.mem))

/-- R203, R204: BRQ traps QUNF with no outcome owed, waits for the oldest outcome, and pops and branches on it, to the header at the
distance with the H hint and to a word of the section without it, outside which the branch traps SECT with nothing popped; SQUASH
discards every part that has ended and not begun, and traps SECT where one of them lacks SQOK. -/
def Sys2Proof.Claims.OutcomesAndSquash : Prop :=
  ∀ (s : State) (n : Ann) (h : Bool) (imm : BitVec 32), s.Issues n [] → s.me.retry = false →
    let u := s.entered true
    let inSec : Prop := 0 ≤ imm.toInt ∧ imm.toInt < s.me.ctx.hdr.len.toNat
    let there := (BitVec.ofNat 64 s.me.pc + imm.signExtend 64).toNat
    (∀ z, (s.me.outcnt = 0 → exec (.brq n h z imm) s = .next (s.trapped true (tr cQUNF))) ∧
      (s.me.outcnt ≠ 0 → s.me.outq = [] → exec (.brq n h z imm) s = .next u ∧ u.me.cur = none) ∧
      (∀ o l, s.me.outcnt ≠ 0 → s.me.outq = o :: l → o = z ∨ h = true ∨ inSec →
        ∃ t, exec (.brq n h z imm) s = .next t ∧ t.me.outq = l ∧ t.me.outcnt = s.me.outcnt - 1 ∧ t.mem = s.mem ∧ t.me.s = s.me.s ∧
          (o = z → t.me.pc = (s.me.advance 12).pc) ∧ (o ≠ z → h = true → t.me.pc = there ∧ t.me.ctx.atHdr = true) ∧
          (o ≠ z → h = false → t.me.pc = s.me.ctx.hdrAddr + 8 + 12 * imm.toInt.toNat ∧ t.me.ctx.hdrAddr = s.me.ctx.hdrAddr)) ∧
      (∀ o l, s.me.outcnt ≠ 0 → s.me.outq = o :: l → o ≠ z → h = false → ¬ inSec → exec (.brq n h z imm) s = .next
        (s.trapped true (tr cSECT (BitVec.ofInt 64 (s.me.ctx.hdrAddr + 8 + 12 * imm.toInt)).toNat)))) ∧
    ((u.me.parts.any fun p => !p.hdr.sqok) = true → exec (.squash n imm) s = .next (s.trapped true (tr cSECT s.me.pc))) ∧
    ((u.me.parts.any fun p => !p.hdr.sqok) = false → ∃ t, exec (.squash n imm) s = .next t ∧ t.me.parts = [] ∧
      (∀ e ∈ t.me.q, e ∈ s.me.q ∧ ∀ p ∈ u.me.parts, e.part ≠ p.id) ∧
      (∀ e ∈ s.me.q, (∀ p ∈ u.me.parts, e.part ≠ p.id) → e ∈ t.me.q) ∧
      t.me.pc = there ∧ t.me.ctx.atHdr = true ∧ t.me.s = s.me.s ∧ t.me.p = s.me.p ∧ t.me.rrb = s.me.rrb ∧ t.mem = s.mem)

/-- R32, R353: MCALL of a directory entry starts its expansion at the entry's first operation, or after a return at the operation where
the return says (log entry 16), and an empty or absent entry traps ILLOP. -/
def Sys2Proof.Claims.Microprograms : Prop :=
  ∀ (s : State) (n : Ann) (num : BitVec 8) (d a b c : BitVec 10) (imm : BitVec 32), s.Issues n [] →
    (s.me.mdir.find num.toNat = none → exec (.mcall n num d a b c imm) s = .next (s.trapped false (tr cILLOP))) ∧
    (∀ start, s.me.mdir.find num.toNat = some (start, 0) →
      exec (.mcall n num d a b c imm) s = .next (s.trapped false (tr cILLOP))) ∧
    (∀ start count, s.me.mdir.find num.toNat = some (start, count + 1) → ∃ t, exec (.mcall n num d a b c imm) s = .next t ∧
      (let from_ := if s.me.mcallFrom < count + 1 then s.me.mcallFrom else 0
       t.me.mcall = some { start := start, count := count + 1, idx := from_, d := d, a := a, b := b, c := c, imm := imm }) ∧
      t.me.pc = s.me.pc ∧ t.me.s = s.me.s ∧ t.mem = s.mem)

/-- R32, R203, R204: branches on outcomes, SQUASH and MCALL.
Log entry 16: the model's own readings. -/
def Obligations.SquashAndMicroprograms : Prop :=
  Sys2Proof.Claims.OutcomesAndSquash ∧ Sys2Proof.Claims.Microprograms

/-- R207, R254: EXIT ends its part and stalls the pacer; once the core's work is done, INSTANCE_END ends the core's instance: an
end release at scope 3 is made, and the core no longer waits at EXIT.
Log entry 19: the model's own readings. -/
def Obligations.ExitAndInstanceEnd : Prop :=
  (∀ (s : State) (n : Ann), s.Issues n [] → s.me.retry = false → ∃ t, exec (.exit n) s = .next t ∧ t.me.wait = .exit ∧ t.me.cur = none ∧
    t.me.pc = s.me.pc ∧ t.me.s = s.me.s ∧ t.mem = s.mem) ∧
  (∀ (s : State) (c e : Nat),
    let k := s.core c
    k.crew = some e → k.contained = false → k.wait = .exit → k.frozen = false → k.secFault = none →
    (∀ ch, ch < 8 → (k.chan ch).fault = none) → s.exitQuiet c = true →
    (k.mode = true ∨ (k.asyncPeer = none ∧ k.asyncWatch = [])) → (∀ r ∈ s.reqs, r.core ≠ c) →
    ∃ t, exec (.instanceEnd c) s = .next t ∧
      (t.crew e).exited.find (k.leg * 1024 + c) =
        some (s.release (srcOf c 0) (if (s.crew e).host then 15 else 3)) ∧
      (t.core c).wait ≠ .exit ∧ (s.reqs = [] → t.mem = s.mem))

-- Scalar memory and synchronisation (R208–R213, R225–R242).

namespace Sys2Proof.Claims

/-- The releases that a scoped write of the executing pacer makes: its own, of the carried set that its scope admits, where its order
releases, and those of the release fences before it (R228, R235). -/
def ownRels (s : State) (o : Ord) (sc : BitVec 4) : List Msg :=
  let a := srcOf s.actor 0
  (if o = .rel ∨ o = .ar then
    [{ agent := a, scope := scopeAt a sc.toNat, k := (s.view a).k.filter fun e => carriesIn (s.fabricFor a) (scopeAt a sc.toNat) e.1 }]
   else []) ++ (s.view a).fences.map fun f => { agent := a, scope := f.1, k := f.2 }

/-- An access of the executing pacer is in flight, of the releases `rels`, and nothing else of the core's registers, engines or memory has
changed. -/
def Sent (s t : State) (kind : ReqKind) (g : Target) (size va : Nat) (ordinary : Bool) (rels : List Msg) (ar : Option Nat)
    (posted : Bool) : Prop :=
  ∃ r : Req, r.rels = rels ∧ r.ar = ar ∧ r.posted = posted ∧ t.views = s.views ∧ t.reqs = s.reqs ++ [r] ∧ r.id = s.nextReq ∧ r.core = s.actor ∧ r.agent = srcOf s.actor 0 ∧ r.kind = kind ∧
    r.key = g.key ∧ r.size = size ∧ r.va = va ∧ r.ordinary = ordinary ∧ r.phase = .sent ∧
    (∀ a, t.mem.get a = s.mem.get a) ∧ t.me.s = s.me.s ∧ t.me.p = s.me.p ∧ s.me.SameSpecials t.me ∧ s.me.SameEngines t.me

/-- Nothing that a release of this order and scope waits for is outstanding (R229). -/
def Released (s : State) (o : Ord) (sc : BitVec 4) : Prop :=
  o = .rel ∨ o = .ar → (∀ r ∈ s.reqs, r.core = s.actor → s.relWaits sc.toNat r = false) ∧
    ∀ j ∈ (s.die (dieOf s.actor)).jobs, j.core ≠ s.actor

end Sys2Proof.Claims

/-- R209, R210, R211: LD whose address passes its checks sends one read of its width and stalls for the answer; ST sends the low
bytes of s[B] and goes on; a failing check traps and, for a speculative load, as does a page of APT 2 or 3, defers: s[D] reads zero,
DEF is set and the VA and width are recorded. -/
def Sys2Proof.Claims.LoadsAndStores : Prop :=
  ∀ (s : State) (n : Ann) (wd : Width) (d a b : SReg) (imm : BitVec 32) (h : Hint),
    let u := s.entered false
    let va := (s.me.rd a + imm.signExtend 64).toNat
    let z := widthBytes wd
    let p := physS s.me.rrb d
    (s.Issues n [a] →
      (∀ g, xlate va z z .rd u = .ok (g, u) → s.logCount s.actor < 256 →
        ∃ t, exec (.ld n false wd d a imm) s = .next t ∧ Sent s t .read g z va true [] none false ∧
          t.me.wait = .data p wd s.nextReq none false) ∧
      (∀ x, xlate va z z .rd u = .error (.trap x) → exec (.ld n false wd d a imm) s = .next (s.trapped false x)) ∧
      (∀ x, xlate va z z .rd (u.setMe { u.me with wskip := true }) = .error (.trap x) → p ≠ 0 →
        ∃ t, exec (.ld n true wd d a imm) s = .next t ∧ t.me.rd d = 0 ∧ t.me.defer.find p = some (va, wd) ∧
          t.me.pc = (s.me.advance 12).pc ∧ t.me.wait = s.me.wait ∧ t.mem = s.mem) ∧
      (∀ g, xlate va z z .rd (u.setMe { u.me with wskip := true }) = .ok (g, u.setMe { u.me with wskip := true }) →
        (g.apt = 2 ∨ g.apt = 3 → p ≠ 0 → ∃ t, exec (.ld n true wd d a imm) s = .next t ∧ t.me.rd d = 0 ∧
          t.me.defer.find p = some (va, wd) ∧ t.me.pc = (s.me.advance 12).pc ∧ t.reqs = s.reqs ∧ t.mem = s.mem) ∧
        (g.apt ≠ 2 → g.apt ≠ 3 → s.logCount s.actor < 256 → ∃ t, exec (.ld n true wd d a imm) s = .next t ∧
          Sent s t .read g z va true [] none false ∧ t.me.wait = .data p wd s.nextReq none true))) ∧
    (s.Issues n [a, b] →
      (∀ g, xlate va z z .wr u = .ok (g, u) → s.logCount s.actor < 256 →
        ∃ t, exec (.st n h wd a b imm) s = .next t ∧
          Sent s t (.write ((s.me.rd b).toNat % 2 ^ (8 * z))) g z va true [] none (g.apt == 3 && lCp g.leaf == 2) ∧ t.me.pc = (s.me.advance 12).pc) ∧
      (∀ x, xlate va z z .wr u = .error (.trap x) → exec (.st n h wd a b imm) s = .next (s.trapped false x)))

/-- R212: CHKD of a register with no deferred load has no effect, and of one with a deferred load performs it at the recorded
address with every check. -/
def Sys2Proof.Claims.DeferredLoads : Prop :=
  ∀ (s : State) (n : Ann) (a : SReg), s.Issues n [] →
    let u := s.entered false
    let p := physS s.me.rrb a
    (s.me.defer.find p = none → exec (.chkd n a) s = .next (s.after false 12 fun k => k)) ∧
    (∀ va wd g, s.me.defer.find p = some (va, wd) → xlate va (widthBytes wd) (widthBytes wd) .rd u = .ok (g, u) →
      s.logCount s.actor < 256 → ∃ t, exec (.chkd n a) s = .next t ∧ Sent s t .read g (widthBytes wd) va true [] none false ∧
        t.me.wait = .data p wd s.nextReq none false) ∧
    (∀ va wd x, s.me.defer.find p = some (va, wd) →
      xlate va (widthBytes wd) (widthBytes wd) .rd u = .error (.trap x) → exec (.chkd n a) s = .next (s.trapped false x))

/-- R209–R212: LD, ST, speculative loads and CHKD.
Log entries 11 and 14: the model's own readings. -/
def Obligations.LoadsAndStores : Prop :=
  Sys2Proof.Claims.LoadsAndStores ∧ Sys2Proof.Claims.DeferredLoads

/-- R228, R231–R235: LDA, STR, ATOM and CAS send one scoped access with the value and order their words give, once a release's waits are
over (R229): under REL and AR a write makes a release at scope N of what the pacer carries there, a relaxed one makes none of its own,
and each makes those of the release fences before it. LDA, ATOM and CAS stall for the answer, with the scope at which it acquires; an
address that fails its checks traps with nothing sent. -/
def Obligations.ScopedAccesses : Prop :=
  ∀ (s : State) (n : Ann) (o : Ord) (sc : BitVec 4) (wd : Width) (op : AOp) (ty : ATyp) (w32 facq : Bool) (d a b c : SReg)
    (imm : BitVec 32), s.logCount s.actor < 256 →
    let u := s.entered false
    let va := (s.me.rd a + imm.signExtend 64).toNat
    let va' := (s.me.rd a).toNat
    let z := widthBytes wd
    let zt := match ty with | .w32 | .f32 => 4 | .w64 | .a48 => 8
    let zc := if w32 then 4 else 8
    let p := physS s.me.rrb d
    let acq := if o = .acq ∨ o = .ar then some sc.toNat else none
    let ar := if o = .ar then some sc.toNat else none
    (s.Issues n [a] →
      (∀ g, xlate va z z .rd u = .ok (g, u) → ∃ t, exec (.lda n o sc wd d a imm) s = .next t ∧ Sent s t .read g z va false [] none false ∧
        t.me.wait = .data p wd s.nextReq acq false) ∧
      (∀ x, xlate va z z .rd u = .error (.trap x) → exec (.lda n o sc wd d a imm) s = .next (s.trapped false x))) ∧
    (s.Issues n [a, b] →
      (∀ g, xlate va z z .wr u = .ok (g, u) → Released s o sc → ∃ t, exec (.str n o sc wd a b imm) s = .next t ∧
        Sent s t (.write ((s.me.rd b).toNat % 2 ^ (8 * z))) g z va false (ownRels s o sc) none false ∧ t.me.pc = (s.me.advance 12).pc) ∧
      (∀ x, xlate va z z .wr u = .error (.trap x) → exec (.str n o sc wd a b imm) s = .next (s.trapped false x)) ∧
      (∀ g, xlate va' zt zt .atomic u = .ok (g, u) → Released s o sc → ∃ t, exec (.atom n op ty o sc d a b) s = .next t ∧
        Sent s t (.atom op ty ((s.me.rd b).toNat % 2 ^ (8 * zt))) g zt va' false (ownRels s o sc) ar false ∧
        t.me.wait = .rmw p (ty == .w32) s.nextReq acq false 0 sc.toNat) ∧
      (∀ x, xlate va' zt zt .atomic u = .error (.trap x) → exec (.atom n op ty o sc d a b) s = .next (s.trapped false x))) ∧
    (s.Issues n [a, b, c] →
      (∀ g, xlate va' zc zc .atomic u = .ok (g, u) → Released s o sc → ∃ t, exec (.cas n w32 facq o sc d a b c) s = .next t ∧
        Sent s t (.cas ((s.me.rd b).toNat % 2 ^ (8 * zc)) ((s.me.rd c).toNat % 2 ^ (8 * zc))) g zc va' false (ownRels s o sc) ar false ∧
        t.me.wait = .rmw p w32 s.nextReq acq facq ((s.me.rd b).toNat % 2 ^ (8 * zc)) sc.toNat) ∧
      (∀ x, xlate va' zc zc .atomic u = .error (.trap x) → exec (.cas n w32 facq o sc d a b c) s = .next (s.trapped false x)))

/-- R195, R209, R211, R227, R233, R234: the answer of a stalled load, atomic or CAS completes its word: s[D] takes the value read,
extended as the width code says, or no register does where D is 0; memory is unchanged. A scoped acquire acquires from the releases of
the value read: each that its scope and the reader's cover raises the reader's floors and carried set to what it carries, and no floor
falls; an answer that acquires nothing leaves the floors as they were.
Log entry 18: the model's own readings. -/
def Obligations.LoadAnswers : Prop :=
  ∀ (s : State) (c d id : Nat) (r : Req), (s.core c).frozen = false → s.req id = some r → r.phase = .performed →
    let a := srcOf c 0
    let completed (t : State) (v : Word) : Prop :=
      (d ≠ 0 → (t.core c).rdP d = v ∧ (t.core c).isDef d = false) ∧ (t.core c).wait = .none ∧ t.req id = none ∧
        (∀ x, t.mem.get x = s.mem.get x) ∧ ∀ q, q ≠ d ∨ d = 0 → (t.core c).rdP q = (s.core c).rdP q
    let acquires (t : State) (n : Option Nat) : Prop :=
      (n = none → (t.view a).floor = (s.view a).floor ∧ (t.view a).k = (s.view a).k) ∧
      (∀ m, n = some m → (∀ w, (s.view a).floor.get 0 w ≤ (t.view a).floor.get 0 w) ∧
        ∀ x ∈ r.msgs, covers x.scope x.agent a = true → covers (scopeAt a m) a x.agent = true →
          ∀ e ∈ x.k, e.2 ≤ (t.view a).floor.get 0 e.1 ∧ e.2 ≤ (t.view a).k.get 0 e.1)
    (∀ wd acq spec, (s.core c).wait = .data d wd id acq spec → ∃ t, exec (.loadDataReturn c .none) s = .next t ∧
      completed t (match wd with
        | .n8 | .n16 | .n32 | .d64 => BitVec.ofNat 64 r.old
        | .i8 => BitVec.ofInt 64 (signed 8 r.old) | .i16 => BitVec.ofInt 64 (signed 16 r.old)
        | .i32 => BitVec.ofInt 64 (signed 32 r.old)) ∧
      (r.ordinary = true → t.views = s.views) ∧ (r.ordinary = false → acquires t acq)) ∧
    (∀ w32 acq facq exp sc, (s.core c).wait = .rmw d w32 id acq facq exp sc → ∃ t,
      exec (.loadDataReturn c .none) s = .next t ∧
      completed t (if w32 then BitVec.ofInt 64 (signed 32 r.old) else BitVec.ofNat 64 r.old) ∧
      acquires t (match r.kind with
        | .cas x _ => if r.old = x then acq else if facq = true ∧ exp ≠ r.old then some sc else none
        | _ => acq))

/-- R229, R235: FENCE with nothing to wait for goes on, and changes no memory; REL remembers the carried set for later scoped writes,
and ACQ ends every phase of the pacer. A releasing one waits for the writes it must wait for, under the fabric that stood when it was
issued (R380). -/
def Sys2Proof.Claims.Fences : Prop :=
  ∀ (s : State) (n : Ann) (o : Ord) (sc : BitVec 4), s.Issues n [] →
    let a := srcOf s.actor 0
    (o = .rel ∨ o = .ar → (∃ r ∈ s.reqs, r.core = s.actor ∧ s.relWaits sc.toNat r = true) →
      (∀ r ∈ s.reqs, r.core = s.actor → r.phase ≠ .failed ∧ r.phase ≠ .dead) →
      ∃ t, exec (.fence n o sc) s = .next t ∧ t.me.pc = s.me.pc ∧ t.me.relFabric = some (s.me.relFabric.getD s.fabric) ∧
        t.reqs = s.reqs ∧ t.mem = s.mem ∧ t.me.s = s.me.s) ∧
    (Released s o sc → ∃ t, exec (.fence n o sc) s = .next t ∧ t.me.pc = (s.me.advance 12).pc ∧ (∀ x, t.mem.get x = s.mem.get x) ∧
      t.me.s = s.me.s ∧ s.me.SameSpecials t.me ∧ s.me.SameEngines t.me ∧
      ((o = .acq ∨ o = .ar) → (t.view a).pinned = []) ∧
      ((o = .rel ∨ o = .ar) → (t.view a).fences.find sc.toNat =
        some ((s.view a).k.filter fun e => carriesIn (s.fabricFor a) (scopeAt a sc.toNat) e.1)))

/-- R236: WAITA sends its first poll and stalls; a poll whose backoff has passed, or whose deadline has come, is sent again; the
answer of a poll whose condition holds completes the word with the value read and writes the predicate. -/
def Sys2Proof.Claims.WaitsOnMemory : Prop :=
  ∀ (s : State) (n : Ann) (cd : PCond) (w32 : Bool) (o : Ord) (sc : BitVec 4) (ps : BitVec 3) (bk : BitVec 4) (d a b l : SReg),
    (s.Issues n [a, b, l] → s.logCount s.actor < 256 → s.me.owed = [] →
      let z := if w32 then 4 else 8
      ∀ g, xlate (s.me.rd a).toNat z z .rd (s.entered false) = .ok (g, s.entered false) →
        ∃ t, exec (.waita n cd w32 o sc ps bk d a b l) s = .next t ∧ Sent s t .read g z (s.me.rd a).toNat false [] none false ∧
          ∃ pos, t.me.wait = .waita (physS s.me.rrb d) cd w32 (o == .acq) sc.toNat ps bk.toNat (s.me.rd a).toNat g (s.me.rd b)
            (s.me.rd l).toNat (some s.nextReq) 1 s.gtc pos) ∧
    (∀ c d' acq va g cmp dl polls last pos, (s.core c).owed = [] → s.logCount c < 256 →
      (s.core c).wait = .waita d' cd w32 acq sc.toNat ps bk.toNat va g cmp dl none polls last pos →
      (last + 64 * 2 ^ Nat.min (polls - 1) bk.toNat ≤ s.gtc ∨ (dl ≠ 0 ∧ dl ≤ s.gtc)) →
      ∃ t r, exec (.waitaPoll c) s = .next t ∧ t.reqs = s.reqs ++ [r] ∧ r.key = g.key ∧ r.kind = .read ∧ r.va = va ∧
        (∃ h, (t.core c).wait = .waita d' cd w32 acq sc.toNat ps bk.toNat va g cmp dl (some s.nextReq) (polls + 1) s.gtc h) ∧
        t.mem = s.mem) ∧
    (∀ c d' acq va g cmp dl polls last pos id r, (s.core c).frozen = false → s.req id = some r → r.phase = .performed →
      d' ≠ 0 → (s.core c).wait = .waita d' cd w32 acq sc.toNat ps bk.toNat va g cmp dl (some id) polls last pos →
      condW w32 cd (if w32 then (BitVec.ofNat 32 r.old).signExtend 64 else BitVec.ofNat 64 r.old) cmp = true →
      ∃ t, exec (.loadDataReturn c .none) s = .next t ∧
        (t.core c).rdP d' = (if w32 then (BitVec.ofNat 32 r.old).signExtend 64 else BitVec.ofNat 64 r.old) ∧
        (t.core c).wait = .none ∧ (ps ≠ 0 → (t.core c).pred ps = true) ∧ t.mem = s.mem)

/-- R235, R236: FENCE, WAITA and its polls.
Log entries 18 and 55: the model's own readings. -/
def Obligations.FencesAndWaitsOnMemory : Prop :=
  Sys2Proof.Claims.Fences ∧ Sys2Proof.Claims.WaitsOnMemory

-- Control and status registers, exceptions (R63, R143–R148, R214, R215, R265, R345–R355).

/-- R214, R215, R365: CSRR of an assigned register that the mode may read completes with the register's value (FPSR after every
engine entry pushed before it has completed); a supervisor register in user mode traps PRIV with its number. -/
def Obligations.CsrReads : Prop :=
  ∀ (s : State) (n : Ann) (d : SReg) (num : BitVec 12), s.Issues n [] → csrAssigned num.toNat = true →
    let e := num == 0x002
    let k := s.me
    (num.toNat < 0x100 ∨ k.mode = true → (num = 0x002 → k.quiet = true) →
      exec (.csrr n d num) s = .next (s.after e 12 fun k => k.wr d (s.csrRead s.actor num.toNat))) ∧
    (num = 0x002 → k.quiet = false → exec (.csrr n d num) s = .next (s.entered true)) ∧
    (0x100 ≤ num.toNat → k.mode = false → exec (.csrr n d num) s = .next (s.trapped e (tr cPRIV num.toNat))) ∧
    (let x := s.csrRead s.actor 0x000
     bit x 0 = k.mode ∧ bit x 1 = k.ctx.hdr.resid ∧ bit x 2 = s.leased s.actor ∧ fld x 4 12 = k.ctx.hdr.sec.toNat) ∧
    s.csrRead s.actor 0x001 = k.fpcr ∧ s.csrRead s.actor 0x002 = k.fpsr ∧ s.csrRead s.actor 0x004 = k.rrb ∧
    s.csrRead s.actor 0x007 = BitVec.ofNat 64 s.gtc ∧ s.csrRead s.actor 0x101 = k.tcause ∧ s.csrRead s.actor 0x102 = k.tpc ∧
    s.csrRead s.actor 0x10B = (s.die (s.actor / 80)).roots.get 0 k.asid

namespace Sys2Proof.Claims

/-- A register that CSRW and CSRX store in the core: its number, the bits that a program writes, the further limits of its value, and
the store (R215). -/
structure CoreCsr where
  num : BitVec 12
  bits : Word
  ok : Core → Word → Bool
  put : Word → Core → Core

/-- Those registers (R143, R146, R148, R214, R215, R347, R354, R355, R362, R365, R366). -/
def coreCsrs : List CoreCsr :=
  [⟨0x001, 0x1F7, fun _ v => fld v 0 3 ≤ 4, fun v k => { k with fpcr := v }⟩,
   ⟨0x003, 0x7F, fun _ v => 1 ≤ v.toNat && v.toNat ≤ 64, fun v k => { k with slip := v.toNat }⟩,
   ⟨0x004, 0xFFF, fun _ _ => true, fun v k => { k with rrb := v }⟩,
   ⟨0x00D, 3, fun _ _ => true, fun v k => { k with dlost := k.dlost &&& ~~~ 3 ||| v }⟩,
   ⟨0x00E, 0xF, fun _ _ => true, fun v k => { k with qstat := v }⟩,
   ⟨0x100, 0x7FFFFFFFFFFFFD, fun _ _ => true, fun v k => { k with tvec := v }⟩,
   ⟨0x102, -1, fun _ _ => true, fun v k => { k with tpc := v, tpcWritten := true }⟩,
   ⟨0x105, -1, fun _ _ => true, fun v k => { k with taddr := v, tpcWritten := true }⟩,
   ⟨0x10A, 0x3F, fun _ _ => true, fun v k => { k with asid := v.toNat }⟩,
   ⟨0x10E, 7, fun _ _ => true, fun v k => { k with mcsw := v }⟩,
   ⟨0x10F, 0x1F, fun _ v => v.toNat ≤ 22, fun v k => { k with readyw := v.toNat }⟩,
   ⟨0x118, 0xFFFFFFFFF0001, fun _ v =>
      fld v 16 36 * 65536 < 2 ^ 39 && fld v 16 36 * 65536 / 2 ^ 36 == (fld v 16 36 * 65536 + Config.saveSize - 1) / 2 ^ 36,
    fun v k => { k with saveptr := v }⟩,
   ⟨0x119, 0x7FFFFFFFFFF001, fun _ _ => true, fun v k => { k with tlog := v }⟩] ++
  (List.range 4).map fun i => ⟨BitVec.ofNat 12 (0x110 + i), 0x7FFFFFFFFFFFFF, fun k _ => !bit (k.watchctl.get 0 i) 0,
    fun v k => { k with watch := k.watch.upd i v }⟩

end Sys2Proof.Claims

/-- R143, R144, R148, R214, R215, R347, R354, R355, R362: CSRW and CSRX of the registers that the core holds store a legal value and
nothing else, CSRX with the old value to s[D]; a read-only register, a reserved bit or a value outside the limits traps RANGE and changes
nothing; a supervisor register in user mode traps PRIV. CSRW of PTBASE, TICKCFG and WATCHCTL is the register's own write and the advance,
and an arming of WATCHCTL that finds no translation leaves EN = 0. FPSR is written once every entry pushed before has completed. -/
def Sys2Proof.Claims.CsrWrites : Prop :=
  ∀ (s : State) (n : Ann) (a d : SReg) (op : CsrOp) (num : BitVec 12), s.Issues n [a] →
    let v := s.me.rd a
    let range := Host.Outcome.next (φ := Fault) (ρ := Refusal) (s.trapped false (tr cRANGE))
    let done (i : Instr) (o : Host.Outcome State Fault Refusal) : Prop := ∃ t, o = .next t ∧ exec i s = .next (t.setMe (t.me.advance 12))
    let u := s.entered false
    (∀ e ∈ coreCsrs, e.num.toNat < 0x100 ∨ s.me.mode = true →
      let old := s.csrRead s.actor e.num.toNat
      let x := match op with | .swap => v | .set => old &&& e.bits ||| v | .clr => old &&& e.bits &&& ~~~ v
      exec (.csrw n a e.num) s = (if v &&& ~~~ e.bits = 0 ∧ e.ok s.me v = true then .next (s.after false 12 (e.put v)) else range) ∧
      exec (.csrx n op d a e.num) s = if x &&& ~~~ e.bits = 0 ∧ e.ok s.me x = true then
        .next (s.after false 12 fun k => (e.put x k).wrP (physS s.me.rrb d) old) else range) ∧
    (s.me.quiet = true → exec (.csrw n a 0x002) s =
      if v.toNat < 32 then .next (s.after true 12 fun k => { k with fpsr := v }) else .next (s.trapped true (tr cRANGE))) ∧
    (s.me.quiet = false → exec (.csrw n a 0x002) s = .next (s.entered true)) ∧
    (s.me.mode = true →
      (if ptbaseOk v = true then done (.csrw n a 0x10B) (exec (.ptbaseWrite s.actor v) u) else exec (.csrw n a 0x10B) s = range) ∧
      (if fld v 62 2 = 0 ∧ (fld v 0 32 = 0 ∨ (1000 ≤ fld v 0 32 ∧ fld v 32 30 < fld v 0 32))
       then done (.csrw n a 0x10C) (exec (.tickcfgWrite s.actor v) u) else exec (.csrw n a 0x10C) s = range) ∧
      ∀ i, i < 4 →
        let word := exec (.csrw n a (BitVec.ofNat 12 (0x114 + i))) s
        let legal : Prop := fld v 8 56 = 0 ∧ fld v 4 3 ≠ 7 ∧ fld (s.me.watch.get 0 i) 0 55 % 2 ^ fld v 4 3 = 0
        let free : State := { u with watchers := u.watchers.filter fun w => !(w.1 == s.actor && w.2.1 == i) }
        let found := free.walkTables (s.actor / 80) s.me.asid (fld (s.me.watch.get 0 i) 0 55)
        (¬ legal → word = range) ∧
        (legal → bit v 0 = false → done (.csrw n a (BitVec.ofNat 12 (0x114 + i))) (exec (.watchctlWrite s.actor i v) u)) ∧
        (∀ w, legal → bit v 0 = true → bit v 1 = false → found = .ok w →
          (∀ code, leafCheck free w.level w.leaf (fld (s.me.watch.get 0 i) 0 55) .rd false = some code → code ≠ cXLATE ∧ code ≠ cAPTBAD) →
          ∃ t, word = .next t ∧ t.me.watchctl.get 0 i = v ∧ t.me.s = s.me.s ∧ t.mem = s.mem) ∧
        (∀ code, legal → bit v 0 = true → found = .error code → ∃ t : State, word = .next (t.preciseTrap s.actor (tr cRANGE)) ∧
          bit (t.me.watchctl.get 0 i) 0 = false ∧ t.me.s = s.me.s ∧ t.mem = s.mem)) ∧
    (num.toNat < 0x100 ∨ s.me.mode = true → csrRO num.toNat = true →
      exec (.csrw n a num) s = range ∧ exec (.csrx n op d a num) s = range) ∧
    (0x100 ≤ num.toNat → s.me.mode = false →
      exec (.csrw n a num) s = .next (s.trapped false (tr cPRIV num.toNat)) ∧
      exec (.csrx n op d a num) s = .next (s.trapped false (tr cPRIV num.toNat)))

/-- R63, R144, R265, R354, R355, R374: the register writes that are steps of their own. A legal PTBASE changes its own die's root of
the core's context alone and leaves no cached translation of that context on the die; an illegal one changes nothing; TICKCFG, FPSR,
WATCHCTL, TLOG, a CSR and a BAR0 register take the value written. -/
def Sys2Proof.Claims.RegisterWriteSteps : Prop :=
  ∀ (s : State) (c k : Nat) (v : Word),
    let d := c / 80
    (ptbaseOk v = true → ∃ t, exec (.ptbaseWrite c v) s = .next t ∧ (t.die d).roots.get 0 (s.core c).asid = v ∧
      (∀ a, a ≠ (s.core c).asid → (t.die d).roots.get 0 a = (s.die d).roots.get 0 a) ∧
      (∀ d', d' ≠ d → t.die d' = s.die d') ∧ (∀ x ∈ (t.die d).wtlb, x.asid ≠ (s.core c).asid) ∧
      (∀ y ∈ t.cores, y.1 / 80 = d → ∀ x ∈ y.2.tlb, x.asid ≠ (s.core c).asid) ∧ t.mem = s.mem) ∧
    (ptbaseOk v = false → exec (.ptbaseWrite c v) s = .next s) ∧
    (fld v 62 2 = 0 → fld v 0 32 = 0 ∨ (1000 ≤ fld v 0 32 ∧ fld v 32 30 < fld v 0 32) →
      ∃ t, exec (.tickcfgWrite c v) s = .next t ∧ (t.die d).tickcfg = v ∧
        (t.die d).tickno = (if fld v 0 32 = 0 ∨ s.gtc < fld v 32 30 then 0 else (s.gtc - fld v 32 30) / fld v 0 32 + 1) ∧
        t.mem = s.mem) ∧
    ((s.core c).quiet = true → v.toNat < 32 → ∃ t, exec (.fpsrAccess c (some v)) s = .next t ∧ (t.core c).fpsr = v ∧
      t.mem = s.mem) ∧
    (fld v 1 11 = 0 → fld v 55 9 = 0 → ∃ t, exec (.tlogWrite c v) s = .next t ∧ (t.core c).tlog = v ∧ t.mem = s.mem) ∧
    (fld v 8 56 = 0 → bit v 0 = false → fld v 4 3 ≠ 7 → fld ((s.core c).watch.get 0 k) 0 55 % 2 ^ fld v 4 3 = 0 →
      ∃ t, exec (.watchctlWrite c k v) s = .next t ∧ (t.core c).watchctl.get 0 k = v ∧
        (∀ w ∈ t.watchers, ¬ (w.1 = c ∧ w.2.1 = k)) ∧ t.mem = s.mem) ∧
    (v.toNat < 2 ^ 12 → exec (.registerWrite (.csr c 0x004) v) s = .next (s.setCore c { s.core c with rrb := v })) ∧
    (s.cdone = s.doorv → ∃ t, exec (.registerWrite (.bar0 0) v) s = .next t ∧ t.crbase.toNat = fld v 6 46 * 64 ∧
      t.mem = s.mem) ∧
    (s.cdone ≠ s.doorv → exec (.registerWrite (.bar0 0) v) s = .next s)

/-- R63, R143, R144, R148, R214, R215, R265, R347, R354, R355, R374: the words that write special registers, and the steps that perform such a write.
Log entry 15: the model's own readings. -/
def Obligations.CsrWrites : Prop :=
  Sys2Proof.Claims.CsrWrites ∧ Sys2Proof.Claims.RegisterWriteSteps

/-- R345, R347, R348: taking a precise trap with TVEC.EN = 1 in user mode writes the record, saves the mode in MCSW.PMODE, enters
supervisor mode, ends the part and waits for the entries that drain; no register, predicate, engine or byte of memory changes. -/
def Sys2Proof.Claims.TakingATrap : Prop :=
  ∀ (s : State) (c : Nat) (x : TrapInfo), bit (s.core c).tvec 0 = true → (s.core c).mode = false → (s.core c).pc + 12 < 2 ^ 63 →
    x.code < 256 →
    let t := s.preciseTrap c x
    let k := s.core c
    let k' := t.core c
    fld k'.tcause 0 8 = x.code ∧ bit k'.tcause 8 = false ∧
    k'.tpc = BitVec.ofNat 64 (if (x.code = 0x16 ∨ x.code = 0x17) ∧ k.mcall = none then k.pc + 12 else k.pc) ∧ k'.topc = k'.tpc ∧
    k'.taddr = BitVec.ofNat 64 x.addr ∧ k'.teng = BitVec.ofNat 64 x.eng ∧ k'.tstamp = BitVec.ofNat 64 s.gtc ∧
    (x.src = none → k'.tsrc = BitVec.ofNat 64 (s.dev * 65536 + srcOf c 0)) ∧
    bit k'.mcsw 0 = false ∧ bit k'.mcsw 1 = false ∧ k'.mode = true ∧ k'.cur = none ∧ k'.wait = .drain none ∧ k'.saved = k.ctx ∧
    k'.s = k.s ∧ k'.p = k.p ∧ k.SameEngines k' ∧ k'.fpcr = k.fpcr ∧ k'.fpsr = k.fpsr ∧ k'.rrb = k.rrb ∧
    (∀ a, t.mem.get a = s.mem.get a) ∧ ∀ c', c' ≠ c → t.core c' = s.core c'

/-- R345, R357: with TVEC.EN = 0, or in supervisor mode, the pacer is contained instead: its containment comes next, and no record
register is written. -/
def Sys2Proof.Claims.TrapsThatContain : Prop :=
  ∀ (s : State) (c : Nat) (x : TrapInfo), bit (s.core c).tvec 0 = false ∨ (s.core c).mode = true →
    let t := s.preciseTrap c x
    t.agenda = .containment c x.code :: s.agenda ∧ (s.core c).SameSpecials (t.core c) ∧ (t.core c).s = (s.core c).s ∧
      (∀ a, t.mem.get a = s.mem.get a)

/-- R345, R347, R348, R357: what a trap saves and where it goes, and when it contains the core instead.
Log entries 11 and 16: the model's own readings. -/
def Obligations.TakingATrap : Prop :=
  Sys2Proof.Claims.TakingATrap ∧ Sys2Proof.Claims.TrapsThatContain

/-- R352: TRAP and BKPT. Their words are those with FN 0, no token bit, no operand field and IMM<31:16> zero. With a true predicate the word
traps precisely in either mode, with TADDR := n and TPC 12 above the word, or, under MODE = 1, contains the pacer; with a false one it is
a no-op. -/
def Obligations.TrapWords : Prop :=
  (∀ (w : IWord) (op : BitVec 8) (f : Ann → BitVec 16 → Instr), (op, f) ∈ [((0x43 : BitVec 8), Instr.trap), (0x45, Instr.bkpt)] →
    w.extractLsb' 88 8 = op →
    let plain : Prop := w.extractLsb' 80 8 = 0 ∧ w.extractLsb' 75 4 = 0 ∧ w.extractLsb' 32 40 = 0 ∧ w.extractLsb' 16 16 = 0
    (plain → decodeWord w = .ok (f { bt := w.getLsbD 79, pr := w.extractLsb' 72 3 } (w.extractLsb' 0 16))) ∧
    (¬ plain → ∃ e, decodeWord w = .error e)) ∧
  decodeWord 0x430000000000000000000005 = .ok (.trap { bt := false, pr := 0 } 5) ∧
  decodeWord 0x450000000000000000000001 = .ok (.bkpt { bt := false, pr := 0 } 1) ∧
  (∀ (s : State) (n : Ann) (num : BitVec 16) (i : Instr) (code : Nat),
    (i, code) ∈ [(Instr.trap n num, 0x17), (Instr.bkpt n num, 0x16)] →
    (s.Issues n [] → exec i s = .next (s.trapped false (tr code num.toNat)) ∧
      (s.me.mode = false → bit s.me.tvec 0 = true → ∃ t, exec i s = .next t ∧ t.me.taddr = num.setWidth 64 ∧
        (s.me.mcall = none → t.me.tpc = BitVec.ofNat 64 (s.me.pc + 12)) ∧ fld t.me.tcause 0 8 = code) ∧
      (s.me.mode = true → ∃ t, exec i s = .next t ∧ t.agenda = .containment s.actor code :: s.agenda)) ∧
    (s.me.slipHeld = false → s.me.pred n.pr = false → exec i s = .next (s.skipped 12 false)))

/-- R353: ERET in user mode traps PRIV; in supervisor mode it restores the mode from MCSW.PMODE and the section context of the trap,
goes to TPC, or to TADDR after a section-end trap, goes on with an MCALL's expansion where TITER says so, and after a section-end trap
that stopped an expansion at the operation it stopped at (log entry 16), makes a kept section-end fault pending (R350), and leaves
registers and memory alone. -/
def Sys2Proof.Claims.ReturnFromTrap : Prop :=
  ∀ (s : State) (n : Ann), s.Issues n [] →
    let send := bit s.me.mcsw 1
    let eng := decide (1 ≤ fld s.me.teng 0 3 ∧ fld s.me.teng 0 3 ≤ 4)
    let op := decide (0x80 ≤ fld s.me.titer 56 8)
    (s.me.mode = false → exec (.eret n) s = .next (s.trapped false (tr cPRIV))) ∧
    (s.me.mode = true → ∃ t, exec (.eret n) s = .next t ∧ t.me.mode = bit s.me.mcsw 0 ∧
      t.me.pc = (if bit s.me.mcsw 1 then s.me.taddr.toNat else s.me.tpc.toNat) ∧
      t.me.ctx.hdr = s.me.saved.hdr ∧ t.me.ctx.hdrAddr = s.me.saved.hdrAddr ∧ t.me.ctx.ord = s.me.saved.ord ∧
      (s.me.tpcWritten = true → t.me.ctx.atHdr = true) ∧
      t.me.mcall = (if s.me.tpcWritten || (send && !eng) || (!send && (!op || eng)) then none
        else if send then s.me.savedMcall else s.me.savedMcall.map fun m => { m with idx := fld s.me.titer 56 5 }) ∧
      t.me.mcallFrom = (if !s.me.tpcWritten && !send && eng && op then fld s.me.titer 56 5 else 0) ∧
      t.me.secFault = s.me.kept ∧
      t.me.wskip = bit s.me.mcsw 2 ∧ bit t.me.mcsw 2 = false ∧
      t.me.s = s.me.s ∧ t.me.p = s.me.p ∧ s.me.SameEngines t.me ∧ t.me.tvec = s.me.tvec ∧ t.me.tcause = s.me.tcause ∧
      ∀ a, t.mem.get a = s.mem.get a)

/-- R175, R176, R214: FMT pushes a valid format word at the end of the format queue, traps FMTBAD on another word, and QOVF at 32
words. -/
def Sys2Proof.Claims.FormatWords : Prop :=
  ∀ (s : State) (n : Ann) (a : SReg), s.Issues n [a] →
    let w := s.me.rd a
    (fwOk w = false → exec (.fmt n a) s = .next (s.trapped false (tr cFMTBAD))) ∧
    (fwOk w = true → 32 ≤ s.me.fmtq.length → exec (.fmt n a) s = .next (s.trapped false (tr cQOVF 8))) ∧
    (fwOk w = true → s.me.fmtq.length < 32 → ∃ t, exec (.fmt n a) s = .next t ∧ t.me.fmtq = s.me.fmtq ++ [w] ∧
      t.me.q = s.me.q ∧ t.me.s = s.me.s ∧ t.me.p = s.me.p ∧ s.me.SameSpecials t.me ∧ t.me.pc = (s.me.advance 12).pc ∧
      ∀ x, t.mem.get x = s.mem.get x)

/-- R82, R345, R348, R350, R351: the steps by which pending traps are taken. With TVEC.EN = 1 a section-end fault takes its trap with
TPC at the entry's word, TADDR at the resume point and MCSW.SEND set; a pending PEERLOST is taken asynchronously before a WATCH, and a
pending section-end fault is kept;
once the entries have drained the pacer goes to the header at TVEC. -/
def Sys2Proof.Claims.PendingTraps : Prop :=
  ∀ (s : State) (c : Nat),
    let k := s.core c
    (s.interruptible c = true → bit k.tvec 0 = true →
      (∀ f, k.secFault = some f → (∀ ch, k.wait ≠ .chanFault ch) → ∃ t, exec (.sectionEndTrap c) s = .next t ∧
        fld (t.core c).tcause 0 8 = f.code % 256 ∧ (t.core c).tpc = BitVec.ofNat 64 f.addr ∧
        (t.core c).taddr = BitVec.ofNat 64 k.pc ∧ bit (t.core c).mcsw 1 = true ∧ (t.core c).mode = true ∧
        (t.core c).wait = .drain (some f.sec) ∧ (∀ a, t.mem.get a = s.mem.get a)) ∧
      (∀ va src, k.asyncPeer = some (va, src) → ∃ t, exec (.asyncTrap c) s = .next t ∧
        fld (t.core c).tcause 0 9 = 0x11C ∧ (t.core c).tpc = BitVec.ofNat 64 k.pc ∧
        (t.core c).taddr = BitVec.ofNat 64 va ∧ (t.core c).tsrc = BitVec.ofNat 64 src ∧ (t.core c).mode = true ∧
        (t.core c).asyncWatch = k.asyncWatch ∧ (t.core c).kept = k.kept.or k.secFault ∧ (∀ a, t.mem.get a = s.mem.get a))) ∧
    (∀ send, k.wait = .drain send → k.frozen = false → k.contained = false → k.drained send = true →
      ∃ t, exec (.trapHandlerEntry c) s = .next t ∧ (t.core c).pc = fld k.tvec 2 53 * 4 ∧ (t.core c).ctx.atHdr = true ∧
        (t.core c).wait = .none ∧ (t.core c).mode = k.mode ∧ t.mem = s.mem)

/-- R82, R345, R348, R350, R351, R353: the steps that take pending traps, and ERET.
Log entries 16 and 28: the model's own readings. -/
def Obligations.PendingTrapsAndReturns : Prop :=
  Sys2Proof.Claims.PendingTraps ∧ Sys2Proof.Claims.ReturnFromTrap

-- Launches, feeds, barriers, ticks, buffers (R120–R122, R243–R267).

/-- R120, R121, R122: BUFUSE of a buffer of the crew with no landing in progress on it raises its count by one, traps RANGE at 255 and
for a buffer the crew does not have; BUFREL with everything complete lowers it by one and traps RANGE at 0. -/
def Sys2Proof.Claims.BufferCounts : Prop :=
  ∀ (s : State) (n : Ann) (b : BitVec 6) (off len : Nat), s.Issues n [] →
    let tm := s.actor / 4
    let e := s.me.crew.getD 0
    let key := e * 64 + b.toNat
    let cnt := (s.team tm).counts.get 0 key
    ((s.crew e).buf.find b.toNat = none → exec (.bufuse n b) s = .next (s.trapped false (tr cRANGE)) ∧
      exec (.bufrel n b) s = .next (s.trapped true (tr cRANGE))) ∧
    ((s.crew e).buf.find b.toNat = some (off, len) →
      (cnt = 255 → exec (.bufuse n b) s = .next (s.trapped false (tr cRANGE))) ∧
      (cnt ≠ 255 → (∀ l ∈ (s.team tm).landings, ¬ (l.2.2.1 < off + len ∧ off < l.2.2.2)) →
        ∃ t, exec (.bufuse n b) s = .next t ∧ (t.team tm).counts.get 0 key = cnt + 1 ∧ t.me.s = s.me.s ∧
          (∀ j, j ≠ key → (t.team tm).counts.get 0 j = (s.team tm).counts.get 0 j) ∧ ∀ a, t.mem.get a = s.mem.get a) ∧
      (cnt = 0 → exec (.bufrel n b) s = .next (s.trapped true (tr cRANGE))) ∧
      (cnt ≠ 0 → s.me.quiet = true → Released s .rel 1 →
        ∃ t, exec (.bufrel n b) s = .next t ∧ (t.team tm).counts.get 0 key = cnt - 1 ∧ t.me.s = s.me.s ∧
          (∀ j, j ≠ key → (t.team tm).counts.get 0 j = (s.team tm).counts.get 0 j) ∧ ∀ a, t.mem.get a = s.mem.get a))

/-- R120–R122, R175, R176, R214: FMT, BUFUSE and BUFREL. -/
def Obligations.FormatsAndBufferCounts : Prop :=
  Sys2Proof.Claims.FormatWords ∧ Sys2Proof.Claims.BufferCounts

/-- R246, R247, R249, R287, R289: LAUNCH first reads its record, in flight as a pacer read once the pacer's own stores have reached their
homes; then a record that passes the checks takes the lowest free entry of the die's pool, fills it with what was read, and writes the
handle; one that breaks a check of its own writes BADREC and takes no entry.
Log entries 24 and 49: the model's own readings. -/
def Obligations.LaunchAccepted : Prop :=
  ∀ (s u2 : State) (n : Ann) (det : Bool) (d a : SReg) (g : Target) (r e : Nat) (x : Crew), s.Issues n [a] → d ≠ 0 →
    s.actor < 640 → (∀ q ∈ s.reqs, ¬ (q.core = s.actor ∧ q.chan = none ∧ q.writes = true ∧ q.pending = true)) →
    let u := s.entered false
    let c := s.actor
    let va := (s.me.rd a).toNat
    let rc := BitVec.ofNat 1024 r
    xlate va 128 128 .rd u = .ok (g, u) →
    (s.readAnswer c (va, 128, g) = .ok none → s.logBusy c < 256 → ∃ t q, exec (.launch n det d a) s = .next t ∧
      t.reqs = s.reqs ++ [q] ∧ q.kind = .read ∧ q.ordinary = true ∧ q.key = g.key ∧ q.size = 128 ∧ q.core = c ∧
      t.me.pc = s.me.pc ∧ t.mem = s.mem) ∧
    (s.readAnswer c (va, 128, g) = .ok (some r) →
      (recordOk rc = false → ∃ t, exec (.launch n det d a) s = .next t ∧ t.me.rd d = 3 ∧ t.crews = s.crews ∧ t.mem = s.mem) ∧
      (recordOk rc = true → (s.me.mode = true ∨ s.me.asid = rAsid rc) → Released s .rel 3 →
        u.launchTables (srcOf c 0) (c / 80) rc = .ok (x, u2) → placeOk rc = true →
        (∀ p, s.me.crew = some p → (u2.crew p).depth + 1 ≤ (u2.crew p).limit) → e / 256 = c / 80 →
        (u2.crew e).live = false → (∀ e', e' / 256 = c / 80 → e' < e → (u2.crew e').live = true) →
        ∃ t, exec (.launch n det d a) s = .next t ∧
          (let y := t.crew e
           y.live = true ∧ y.gen = ((u2.crew e).gen + 1) % 2 ^ 32 ∧ y.rcd = x.rcd ∧ y.tbl = x.tbl ∧ y.parent = s.me.crew ∧
           y.stamp = u2.gtc ∧ y.cls = rPrio rc ∧ y.msg.scope = 3 ∧ y.msg.agent = srcOf c 0 ∧
           t.me.rd d = BitVec.ofNat 64 (e / 256 * 2 ^ 8 + e % 256 * 2 ^ 16 + y.gen * 2 ^ 32)) ∧
          (∀ e', e' ≠ e → t.crew e' = u2.crew e') ∧ t.mem = u2.mem ∧ (State.reset.crew e).gen = 0))

/-- R255: WAITCH of a handle that names no child of the crew traps RANGE; of an ended child it returns the status and frees the entry; of
one that has not ended, TEST returns 0xFF and the plain form stalls until WAITCH_RETURN finds the status.
Log entry 24: the model's own readings. -/
def Obligations.CollectingChildren : Prop :=
  ∀ (s : State) (n : Ann) (t : Bool) (d a : SReg) (e : Nat), s.Issues n [a] → d ≠ 0 →
    let h := s.me.rd a
    let x := s.crew e
    let mine : Prop := fld h 0 8 = 0 ∧ fld h 11 5 = 0 ∧ fld h 24 8 = 0 ∧ x.gen = fld h 32 32 ∧ x.live = true ∧ x.det = false ∧
      s.me.crew ≠ none ∧ x.parent = s.me.crew
    e = fld h 8 3 * 256 + fld h 16 8 →
    (¬ mine → exec (.waitch n t d a) s = .next (s.trapped false (tr cRANGE))) ∧
    (∀ v, mine → x.status = some v → ∃ u, exec (.waitch n t d a) s = .next u ∧ u.me.rd d = BitVec.ofNat 64 v ∧
      (u.crew e).live = false ∧ ∀ a, u.mem.get a = s.mem.get a) ∧
    (mine → x.status = none → t = true → exec (.waitch n t d a) s = wrote s d 0xFF) ∧
    (mine → x.status = none → t = false → s.preemptPending s.actor = false → ∃ u, exec (.waitch n t d a) s = .next u ∧
      u.me.wait = .waitch (physS s.me.rrb d) e x.gen ∧ u.mem = s.mem ∧ u.me.s = s.me.s) ∧
    (∀ c p v, (s.core c).wait = .waitch p e x.gen → x.status = some v → (s.core c).frozen = false → p ≠ 0 →
      ∃ u, exec (.waitchReturn c) s = .next u ∧ (u.core c).rdP p = BitVec.ofNat 64 v ∧ (u.core c).wait = .none ∧
        (u.crew e).live = false ∧ u.mem = s.mem)

/-- R41, R253, R254, R256, R367: a replica that heads the pool starts on every core of its gang with the state R253 gives, and the vector
that the crew's start took; a waiting crew rises a class for each 1,000,000 ns; a crew whose replicas have all ended gets its end status
once its completion record and what ends with it can be written, and its residual code is unpinned.
Log entries 3 and 24: the model's own readings. -/
def Obligations.ReplicasAndCrewEnds : Prop :=
  (∀ (s : State) (e leg lo : Nat),
    let x := s.crew e
    s.nextStart (e / 256) = some (e, [(leg, lo)]) → x.legs.get .waiting leg = .waiting → x.specOwed [(leg, lo)] = [] →
    ∃ t, exec (.replicaStart e leg) s = .next t ∧ ((t.crew e).legs.get .waiting leg) = .running lo ∧
      ∀ i, i < rSize x.rcd →
        let k := t.core (lo + i)
        k.crew = some e ∧ k.leg = leg ∧ k.origin = lo ∧ k.mode = false ∧ k.p = 1 ∧ k.fpcr = 0 ∧ k.fpsr = 0 ∧ k.rrb = 0 ∧
        k.mskdepth = 0 ∧ k.ccc = 0 ∧ k.q = [] ∧ k.tok = [] ∧ k.chans = [] ∧ k.wait = .none ∧ k.ctx.atHdr = true ∧
        k.slip = rSlip x.rcd ∧ k.asid = rAsid x.rcd ∧ k.defer = [] ∧ k.tvec = x.vec.getD (s.vecs.get 0 (rAsid x.rcd)) ∧
        (∀ j, j < rNparam x.rcd → k.rdP (j + 1) = paramOf x.rcd x.tbl j) ∧
        (∀ j, rNparam x.rcd < j → k.rdP j = 0) ∧
        (x.spec.find ((lo + i) / 80) = none → k.pc = rStream x.rcd)) ∧
  (∀ (s : State) (e : Nat),
    let x := s.crew e
    (x.waits = true → x.cls < 3 → x.cls0 ≤ x.cls → x.waitFrom + 1000000 * (x.cls - x.cls0 + 1) ≤ s.gtc →
      exec (.classPromotion e) s = .next (s.setCrew e { x with cls := x.cls + 1 })) ∧
    (x.live = true → x.status = none → (∀ l, l < rLegs x.rcd → x.legs.get .waiting l = .ended) → x.killed = false →
      (∃ v, s.unheld.writeDone e 0 (s.unheld.endMsgsOf e) = .ok v) → (s.unheld.crewDone e).held = [] → ∃ t, exec (.crewEnd e) s = .next t ∧ (t.crew e).status = some 0 ∧ ∀ p ∈ t.spec, e ∉ p.2.pins))

/-- R260, R261: FEED writes 1 when the queue is full, else it reads its payload, puts the record in, writes 0 and raises TAIL by one; a
word that is no queue word traps RANGE. POPW takes the payload VA of the record at HEAD, returns 0 at its deadline, and else sleeps; a
sleeping POPW that is retried takes the record, and a POPW waits for the sleepers that have been woken and not yet retried.
Log entry 25: the model's own readings. -/
def Obligations.FeedAndPop : Prop :=
  ∀ (s : State) (n : Ann) (d a b : SReg), s.Issues n [a, b] → d ≠ 0 →
    let u := s.entered false
    let k := s.me
    let c := s.actor
    let w := k.rd a
    let va := (k.rd b).toNat
    (2 ^ 11 ≤ w.toNat → exec (.feed n d a b) s = .next (s.trapped false (tr cRANGE)) ∧
      exec (.popw n d a b) s = .next (s.trapped false (tr cRANGE))) ∧
    (w.toNat < 2 ^ 11 → ∀ q u1, u.queue w.toNat k.asid (!k.mode) = .ok (q, u1) →
      (cntDiff q.tail q.acked = q.slots → ∃ t, exec (.feed n d a b) s = .next t ∧ t.me.rd d = 1 ∧ t.mem = u1.mem) ∧
      (∀ ps u2 x u3, cntDiff q.tail q.acked ≠ q.slots →
        accessRuns va (q.size - 8) .rd (!k.mode) u1 = .ok (ps, u1) →
        slotPages q (q.slot q.tail) q.size .wr u1 = .ok ((), u2) →
        ownStores u2 = .ok ((), u2) → readRuns ps u2 = .ok (x, u2) → relWait q.scope va u2 = .ok ((), u2) →
        u2.feedRecord q x (srcOf u2.actor 0) (u2.view (srcOf u2.actor 0)).k (!u2.me.mode) = .ok u3 →
        ∃ t, exec (.feed n d a b) s = .next t ∧ t.me.rd d = 0 ∧ t.mem = u3.mem) ∧
      (u.wokenOn w.toNat = true → exec (.popw n d a b) s = .next u) ∧
      (u.wokenOn w.toNat = false → q.head ≠ q.tail → ∃ t, exec (.popw n d a b) s = .next t ∧
        t.me.rd d = BitVec.ofNat 64 (q.ring + q.head % 2 ^ q.log * q.size + 8)) ∧
      (u.wokenOn w.toNat = false → q.head = q.tail → va ≠ 0 → va ≤ u1.gtc → ∃ t, exec (.popw n d a b) s = .next t ∧ t.me.rd d = 0 ∧ t.mem = u1.mem) ∧
      (u.wokenOn w.toNat = false → q.head = q.tail → va = 0 ∨ u1.gtc < va → u1.preemptPending c = false → ∃ t st, exec (.popw n d a b) s = .next t ∧
        t.me.wait = .popw (physS k.rrb d) w.toNat va st ∧ t.mem = u1.mem)) ∧
    (∀ c' p qw dl st q u1, (s.core c').wait = .popw p qw dl st → (u1.core c').frozen = false → p ≠ 0 →
      s.queue qw (s.core c').asid (!(s.core c').mode) = .ok (q, u1) → q.head ≠ q.tail →
      ∃ t, exec (.popwRetry c') s = .next t ∧ (t.core c').wait = .none ∧ (t.core c').woken = false ∧
        (t.core c').rdP p = BitVec.ofNat 64 (q.ring + q.head % 2 ^ q.log * q.size + 8))

/-- R261: what FEED, POPW and ACKW write: the TAIL of the fed queue rises by one modulo 2^32, and so does the HEAD of the popped one, as the
home holds them, and the header of the acknowledged slot becomes DONE (no HOME watchpoint being armed, whose record could lie over
them, and no walk for a later slot setting an A bit there). -/
def Sys2Proof.Claims.QueueCounts : Prop :=
  ∀ (s : State) (q : Queue), s.memOk → s.watchers = [] → q.half.key % 8 = 0 →
    (∀ payload agent k user t, s.feedRecord q payload agent k user = .ok t → t.mem.getNat (q.half.key + 8) 4 = (q.tail + 1) % 2 ^ 32) ∧
    (∀ a, (s.popRecord q a).2.mem.getNat q.half.key 4 = (q.head + 1) % 2 ^ 32 ∧
      (∀ x, x < q.half.key ∨ q.half.key + 4 ≤ x → (s.popRecord q a).2.mem.get x = s.mem.get x)) ∧
    (∀ slot h agent k user g u t, let d := queueDie q.word
      s.unitRuns (launchSrc d) d q.asid slot 8 .wr user = .ok ([(slot, 8, g)], u) → g.key % 8 = 0 →
      g.key + 8 ≤ q.half.key + 16 ∨ q.half.key + 24 ≤ g.key →
      (∀ w va f, s.writeVa (launchSrc d) d q.asid slot 8 (h % 2 ^ 32 + 2 ^ 32) user [{ agent, scope := q.scope, k := s.carried agent q.scope k }]
        = .ok w → w.walkTables d q.asid va = .ok f → needsAD f.leaf .rd = false) →
      s.ackSlot q slot h agent k user = .ok t →
      t.mem.getNat g.key 8 = h % 2 ^ 32 + 2 ^ 32)

/-- R261: ACKW of a payload VA whose slot holds a record taken and not acknowledged, with nothing to wait for (R229), marks it DONE and
goes on; another VA traps RANGE. -/
def Sys2Proof.Claims.Acknowledgements : Prop :=
  ∀ (s : State) (n : Ann) (a b : SReg), s.Issues n [a, b] →
    let u := s.entered false
    let k := s.me
    let w := k.rd a
    let va := (k.rd b).toNat
    (2 ^ 11 ≤ w.toNat → exec (.ackw n a b) s = .next (s.trapped false (tr cRANGE))) ∧
    (w.toNat < 2 ^ 11 → ∀ q u1, u.queue w.toNat k.asid (!k.mode) = .ok (q, u1) →
      (q.payload va = false → exec (.ackw n a b) s = .next (s.trapped false (tr cRANGE va))) ∧
      (∀ h u2 u3, u1.ackCheck q va (!u1.me.mode) = .ok (h, u2) → relWait q.scope va u2 = .ok ((), u2) →
        u2.ackSlot q (va - 8) h (srcOf u2.actor 0) (u2.view (srcOf u2.actor 0)).k (!u2.me.mode) = .ok u3 →
        ∃ t, exec (.ackw n a b) s = .next t ∧ t.me.s = u3.me.s ∧ t.me.pc = (u3.me.advance 12).pc ∧ t.mem = u3.mem))

/-- R261: the counts of a feed queue, and ACKW.
Log entry 25: the model's own readings. -/
def Obligations.QueueRecordsAndCounts : Prop :=
  Sys2Proof.Claims.QueueCounts ∧ Sys2Proof.Claims.Acknowledgements

/-- R262, R263: BAR arrives, with a release at the barrier's scope, and stalls; it traps RANGE for `.legs` of a crew that is not
COSCHED; once every core of the crew that takes part, a saved one among them, has arrived at its BAR of that number or ended, a stalled
core leaves it and counts it. -/
def Sys2Proof.Claims.Barriers : Prop :=
  ∀ (s : State) (n : Ann) (legs : Bool) (e : Nat), s.me.crew = some e → s.actor < 640 →
    let x := s.crew e
    let k := s.me
    let sc := if legs then 3 else rGang x.rcd
    (s.Issues n [] → legs = true → rCosched x.rcd = false → exec (.bar n legs) s = .next (s.trapped true (tr cRANGE))) ∧
    (s.Issues n [] → (legs = true → rCosched x.rcd = true) → x.barLost legs k.leg (k.bars + 1) = none →
      (∀ r ∈ x.arrivals, ¬ (r.2.1 = k.leg ∧ r.2.2.1 = k.bars + 1 ∧ r.2.2.2.1 = s.actor)) →
      Released s .rel (BitVec.ofNat 4 sc) →
      ∃ t m, exec (.bar n legs) s = .next t ∧ t.me.wait = .bar (k.bars + 1) legs ∧
        (t.crew e).arrivals = x.arrivals ++ [(legs, k.leg, k.bars + 1, s.actor, m)] ∧ m.scope = sc ∧ m.agent = srcOf s.actor 0 ∧
        t.mem = s.mem ∧ t.me.s = s.me.s) ∧
    (∀ c num, (s.core c).crew = some e → (s.core c).wait = .bar num legs → (s.core c).frozen = false →
      x.barLost legs (s.core c).leg num = none →
      (∀ y ∈ s.cores, y.2.crew = some e → (legs = true ∨ y.2.leg = (s.core c).leg) → y.2.wait = .ended ∨ y.2.contained = true ∨
        ∃ r ∈ x.arrivals, r.2.1 = y.2.leg ∧ r.2.2.1 = num ∧ r.2.2.2.1 = y.1) →
      (∀ p ∈ x.saved, (legs = true ∨ p.1 / 1024 = (s.core c).leg) → p.2.wait = .ended ∨ p.2.contained = true ∨
        ∃ r ∈ x.arrivals, r.2.1 = p.1 / 1024 ∧ r.2.2.1 = num ∧ r.2.2.2.1 = p.1 % 1024) →
      ∃ t, exec (.barRelease c) s = .next t ∧ (t.core c).wait = .none ∧ (t.core c).bars = num ∧ (t.core c).s = (s.core c).s ∧
        t.mem = s.mem)

/-- R265, R266, R267: the die's tick count rises by one at a tick; TICKW, whose target is s[A] or, under NEXT, the next count, returns the
count when ticks are off, the target or the deadline has been reached, or a pre-emption is pending, and else stalls until
TICKW_DEADLINE finds one of these. -/
def Sys2Proof.Claims.Ticks : Prop :=
  ∀ (s : State) (n : Ann) (next : Bool) (d a c : SReg), d ≠ 0 →
    let die := s.actor / 80
    let cfg := (s.die die).tickcfg
    let count := if fld cfg 0 32 = 0 ∨ s.gtc < fld cfg 32 30 then 0 else (s.gtc - fld cfg 32 30) / fld cfg 0 32 + 1
    let due (target dl : Nat) : Prop :=
      fld cfg 0 32 = 0 ∨ target ≤ count % 2 ^ 48 ∨ (dl ≠ 0 ∧ dl ≤ s.gtc) ∨ s.preemptPending s.actor = true
    let target := if next then count % 2 ^ 48 + 1 else (s.me.rd a).toNat
    let dl := (s.me.rd c).toNat
    (s.Issues n (if next then [c] else [a, c]) →
      (due target dl → exec (.tickw n next d a c) s = wrote s d (BitVec.ofNat 64 (count % 2 ^ 48))) ∧
      (¬ due target dl → ∃ t, exec (.tickw n next d a c) s = .next t ∧ t.me.wait = .tickw (physS s.me.rrb d) target dl ∧
        t.mem = s.mem ∧ t.me.s = s.me.s ∧ t.me.pc = s.me.pc)) ∧
    (∀ p target dl, p ≠ 0 → s.me.wait = .tickw p target dl →
      (due target dl → s.me.frozen = false → ∃ t, exec (.tickwDeadline s.actor) s = .next t ∧ t.me.wait = .none ∧
        t.me.rdP p = BitVec.ofNat 64 (count % 2 ^ 48) ∧ t.mem = s.mem) ∧
      (¬ due target dl → exec (.tickwDeadline s.actor) s = .next s)) ∧
    (fld cfg 0 32 ≠ 0 → (s.die die).tickno < count → ∃ t, exec (.tick die) s = .next t ∧
      (t.die die).tickno = (s.die die).tickno + 1 ∧ (t.die die).tickcfg = cfg ∧ t.mem = s.mem ∧ t.cores = s.cores)
-- Heats and collectives (R290–R314).

/-- R262, R263, R265–R267: BAR, its release, TICKW and the ticks of a die. -/
def Obligations.BarriersAndTicks : Prop :=
  Sys2Proof.Claims.Barriers ∧ Sys2Proof.Claims.Ticks

/-- R290, R294, R296, R298: JOIN of a VA that is no multiple of 128 traps ALIGN. Of a resident descriptor, a member number above MEMBERS
gives BADDESC, a member that has joined and not left gives TAKEN, and any other is bound, with the tags it gave before, and gets the
handle; a descriptor that is not resident is read and, where it passes its checks, made resident in the lowest free slot with TAG0 open,
or NOSLOT leaves the home as it was.
Log entry 25: the model's own readings. -/
def Obligations.HeatJoins : Prop :=
  ∀ (s u u2 : State) (n : Ann) (d a b : SReg) (g : Target) (v : Nat), s.Issues n [a, b] → d ≠ 0 →
    let va := (s.me.rd a).toNat
    let m := (s.me.rd b).toNat
    let home := heatHomeOf g
    let joined (t : State) (h : Nat) (desc : BitVec 1024) (gave : List Nat) : Prop :=
      (∃ l, (t.heat h).members =
        { no := m, core := s.actor, inst := (s.instOf s.actor).getD 0, left_ := false, gave := gave } :: l) ∧
      (t.heat h).desc = desc ∧ (∀ h', h' ≠ h → t.heat h' = s.heat h') ∧
      t.me.rd d = BitVec.ofNat 64 (hLevel desc * 2 ^ 8 + min (h / 1024) 8 * 2 ^ 10 + h % 1024 * 2 ^ 14 + m * 2 ^ 24 +
        (if h / 1024 < 16 then s.dev else h / 1024 - 16) * 2 ^ 40 + (t.heat h).gen % 4096 * 2 ^ 52)
    let refused (v : Word) : Prop := ∃ t, exec (.heatJoin n d a b) s = .next t ∧ t.me.rd d = v ∧ t.heats = s.heats ∧ t.mem = s.mem
    (va % 128 ≠ 0 → exec (.heatJoin n d a b) s = .next (s.trapped false (tr cALIGN va))) ∧
    (va % 128 = 0 → checkVa va .rd (s.entered false) = .ok (g, u) → ownStores u = .ok ((), u) →
      heatArrive home (((u.heatAt g).map Prod.fst).getD 0) u = .ok ((), u2) →
      (∀ h x, u.heatAt g = some (h, x) → u.heat h = x →
        (hMembers x.desc < m → refused 8) ∧
        (m ≤ hMembers x.desc → (∃ y ∈ x.members, y.no = m ∧ y.left_ = false) → refused 7) ∧
        (m ≤ hMembers x.desc → (∀ y ∈ x.members, y.no = m → y.left_ = true) →
          ∃ t, exec (.heatJoin n d a b) s = .next t ∧
            joined t h x.desc (((x.members.find? fun z => z.no == m).map fun z => z.gave).getD []) ∧
            (t.heat h).openTag = x.openTag ∧ t.mem = s.mem)) ∧
      (u.heatAt g = none → u.me.localHit va 128 true false ≠ none → exec (.heatJoin n d a b) s = .next (s.trapped false (tr cWATCH va))) ∧
      (u.heatAt g = none → u.me.localHit va 128 true false = none → readRuns [(va, 128, g)] u = .ok (v, u) →
        let desc := BitVec.ofNat 1024 v
        (heatDescOk desc = false ∨ u.heatLevelOk desc home = false → refused 8) ∧
        (∀ e, heatDescOk desc = true → u.heatLevelOk desc home = true →
          u2.heatPages (dieOf s.actor) s.me.asid desc (!s.me.mode) = .error e → e.refuses = true → refused 8) ∧
        (∀ pages u', heatDescOk desc = true → u.heatLevelOk desc home = true →
          u2.heatPages (dieOf s.actor) s.me.asid desc (!s.me.mode) = .ok (pages, u') →
          (hMembers desc < m → refused 8) ∧
          (m ≤ hMembers desc → (∀ i, i < homeSlots home → (u'.heat (home * 1024 + i)).live = true) → refused 6) ∧
          (m ≤ hMembers desc → homeStaging home < u'.stagingUsed home + heatStaging desc → refused 6) ∧
          (∀ i, m ≤ hMembers desc → i < homeSlots home → (u'.heat (home * 1024 + i)).live = false →
            (∀ j, j < i → (u'.heat (home * 1024 + j)).live = true) →
            u'.stagingUsed home + heatStaging desc ≤ homeStaging home →
            ∃ t, exec (.heatJoin n d a b) s = .next t ∧ joined t (home * 1024 + i) desc [] ∧
              (let x := t.heat (home * 1024 + i)
               x.live = true ∧ x.key = g.key ∧ x.openTag = hTag0 desc ∧ x.opened = u'.gtc ∧ x.contribs = []) ∧
              t.mem = u'.mem))))

/-- R295, R298, R299: GIVE of a stale handle traps RANGE. Otherwise, once its release's waits are over and its bytes are read, it arrives
at the home in its turn (R297), and returns EARLY, REJECTED or DUP, which only count, or OK or FOLDED, which add the contribution; an OK
at the bound closes the heat and opens the next tag. -/
def Sys2Proof.Claims.HeatGives : Prop :=
  ∀ (s u1 : State) (n : Ann) (d a b c : SReg), s.Issues n [a, b, c] → d ≠ 0 →
    let p := s.actor
    let u := s.entered false
    let va := (s.me.rd b).toNat
    (s.heatOf p (s.me.rd a) = none → exec (.heatGive n d a b c) s = .next (s.trapped false (tr cRANGE))) ∧
    (∀ h m ps v, s.heatOf p (s.me.rd a) = some (h, m) →
      let x := s.heat h
      let z := sumBytes (hCfmt x.desc)
      let msg := s.release (srcOf p 0) (hScope x.desc)
      (va % z ≠ 0 → exec (.heatGive n d a b c) s = .next (s.trapped false (tr cALIGN va))) ∧
      (va % z = 0 → accessRuns va (hN x.desc * z) .rd (!s.me.mode) u = .ok (ps, u) →
        relWait (hScope x.desc) va u = .ok ((), u) → readRuns ps u = .ok (v, u) → heatArrive (h / 1024) h u = .ok ((), u1) →
        let t := fld (s.me.rd c) 0 32
        let lag := tagDiff x.openTag t
        let gave : Prop := ∃ y ∈ x.members, y.no = m ∧ t ∈ y.gave
        let new : Contrib := { member := m, tag := t, lag := lag, vals := splitBits (8 * z) (hN x.desc) v, msg := msg }
        let turned (v : Word) : Prop := ∃ t, exec (.heatGive n d a b c) s = .next t ∧ t.me.rd d = v ∧
          t.heat h = { x with nrej := x.nrej + 1 } ∧ t.mem = s.mem
        (tagAfter t x.openTag = true → turned 3) ∧
        (tagAfter t x.openTag = false → hLag x.desc < lag → turned 2) ∧
        (tagAfter t x.openTag = false → lag ≤ hLag x.desc → gave → turned 4) ∧
        (tagAfter t x.openTag = false → lag ≤ hLag x.desc → ¬ gave →
          (lag ≠ 0 → ∃ w, exec (.heatGive n d a b c) s = .next w ∧ w.me.rd d = 1 ∧ (w.heat h).contribs = x.contribs ++ [new] ∧
            (w.heat h).openTag = x.openTag ∧ w.mem = s.mem) ∧
          (lag = 0 → x.admitted.length + 1 < x.bound → ∃ w, exec (.heatGive n d a b c) s = .next w ∧ w.me.rd d = 0 ∧
            (w.heat h).contribs = x.contribs ++ [new] ∧ (w.heat h).openTag = x.openTag ∧ w.mem = s.mem) ∧
          (lag = 0 → x.bound ≤ x.admitted.length + 1 →
            (u1.unheld.heatGive p h m t (splitBits (8 * z) (hN x.desc) v) msg).2.held = [] → ∃ w, exec (.heatGive n d a b c) s = .next w ∧ w.me.rd d = 0 ∧
            (w.heat h).contribs = [] ∧ (w.heat h).nrej = 0 ∧ (w.heat h).openTag = (x.openTag + 1) % 2 ^ 32))))

/-- R299, R300: what a closing heat writes: each element of its ring slot holds the sum of its terms in order, and its header the
tag, the state, the counts, the times and the members (no HOME watchpoint being armed; no access to the ring failing or having to wait
for the host or a repair; the vector in one page of no interleaved view, apart from the header). -/
def Sys2Proof.Claims.HeatResults : Prop :=
  ∀ (s : State) (h state ksrc : Nat),
    let x := s.heat h
    let slot := x.openTag % 2 ^ hRlog x.desc
    let z := sumBytes (hFmt x.desc)
    let hk := x.keyOf (hHdr x.desc + 256 * slot)
    let va := hDest x.desc + slot * hRstride x.desc
    let vk := x.keyOf va
    let len := hN x.desc * z
    let els := (List.range (hN x.desc)).map
      (heatElem ((sumFmt (hFmt x.desc)).getD .f32) ((sumFmt (hCfmt x.desc)).getD .f32) (hWs x.desc) x.terms)
    let t := s.heatResult h state ksrc
    s.memOk → s.watchers = [] → heatDescOk x.desc = true → va % 65536 + len ≤ 65536 →
    leafSpread 0 (x.pages.get 0 (va / 65536)) va = false → vk + len ≤ hk ∨ hk + 256 ≤ vk →
    (∀ r ∈ [(va, len), (hHdr x.desc + 256 * slot, 4), (hHdr x.desc + 256 * slot + 4, 252)],
      s.keptWaits (heatAgent (h / 1024)) x.pages r.1 r.2 = none ∧ ∀ p ∈ keptRuns x.pages r.1 r.2, s.runFails .wr p = none) →
    t.mem.getNat hk 256 = x.header state (els.foldl (fun f e => f ||| e.2) 0)
      (if state = 2 then x.opened + hDeadline x.desc else max s.gtc (s.arrived.get (0, 0) (s.heatExt (h / 1024))).1)
      ksrc % 2 ^ 2048 ∧
    (∀ i, i < hN x.desc → t.mem.getNat (vk + i * z) z = (els.getD i (0, 0)).1 % 2 ^ (8 * z)) ∧
    (∀ a, (a < hk ∨ hk + 256 ≤ a) → (a < vk ∨ vk + len ≤ a) → t.mem.get a = s.mem.get a) ∧
    x.terms.length = x.contribs.length ∧
    ∀ i c c', x.terms[i]? = some c → x.terms[i + 1]? = some c' →
      (c.lag = 0 ∧ c'.lag ≠ 0) ∨ (c.lag = 0 ∧ c'.lag = 0 ∨ c.lag ≠ 0 ∧ c'.lag ≠ 0) ∧
        (c.member < c'.member ∨ c.member = c'.member ∧ c.tag ≤ c'.tag)

/-- R295, R298–R300: HEAT.GIVE and the result that a closing heat writes.
Log entry 25: the model's own readings. -/
def Obligations.HeatGivesAndResults : Prop :=
  Sys2Proof.Claims.HeatGives ∧ Sys2Proof.Claims.HeatResults

/-- R301, R302: WAIT returns OK when the header slot of its tag holds the tag and the heat has closed, OVERRUN when it holds a
later closed heat, TIMEOUT at its deadline, PENDPRE for a pending pre-emption, and else stalls; a stalled WAIT returns OK when the
heat has closed and ENDED when the descriptor has been released. -/
def Sys2Proof.Claims.HeatWaits : Prop :=
  ∀ (s : State) (n : Ann) (d a b c : SReg) (p h m gen tag dl : Nat), d ≠ 0 → p ≠ 0 →
    let x := s.heat h
    let t := s.mem.getNat (x.keyOf (hHdr x.desc + 256 * (tag % 2 ^ hRlog x.desc))) 4
    let closed (t : Nat) : Prop := tagAfter x.openTag t = true
    let later : Prop := tagAfter t tag = true ∧ t % 2 ^ hRlog x.desc = tag % 2 ^ hRlog x.desc ∧ closed t
    (s.Issues n [a, b, c] → s.heatOf s.actor (s.me.rd a) = none →
      exec (.heatWait n d a b c) s = .next (s.trapped false (tr cRANGE))) ∧
    (s.Issues n [a, b, c] → s.heatOf s.actor (s.me.rd a) = some (h, m) → s.me.owed = [] → tag = fld (s.me.rd b) 0 32 →
      dl = (s.me.rd c).toNat →
      (t = tag → closed t → ∃ w, exec (.heatWait n d a b c) s = .next w ∧ w.me.rd d = 0 ∧ w.heats = s.heats ∧
        (s.watchers = [] → w.mem = s.mem)) ∧
      (later → exec (.heatWait n d a b c) s = wrote s d 10) ∧
      (¬ (t = tag ∧ closed t) → ¬ later → dl ≠ 0 → dl ≤ s.gtc → exec (.heatWait n d a b c) s = wrote s d 9) ∧
      (¬ (t = tag ∧ closed t) → ¬ later → (dl = 0 ∨ s.gtc < dl) → s.preemptPending s.actor = true →
        exec (.heatWait n d a b c) s = wrote s d 0xFE) ∧
      (¬ (t = tag ∧ closed t) → ¬ later → (dl = 0 ∨ s.gtc < dl) → s.preemptPending s.actor = false →
        ∃ w, exec (.heatWait n d a b c) s = .next w ∧ w.me.wait = .heatWait (physS s.me.rrb d) h m x.gen tag dl ∧
          w.mem = s.mem ∧ w.me.s = s.me.s)) ∧
    (∀ k, (s.core k).wait = .heatWait p h m gen tag dl → (s.core k).frozen = false → (s.core k).owed = [] →
      (x.live = false → ∃ w, exec (.heatWaitReturn k) s = .next w ∧ (w.core k).wait = .none ∧ (w.core k).rdP p = 5 ∧
        w.mem = s.mem) ∧
      (x.live = true → x.gen = gen → (∃ y ∈ x.members, y.no = m ∧ y.left_ = false) → t = tag → closed t →
        ∃ w, exec (.heatWaitReturn k) s = .next w ∧ (w.core k).wait = .none ∧ (w.core k).rdP p = 0 ∧
          (s.watchers = [] → w.mem = s.mem)))

/-- R299, R302: CLOSE makes its member leave, which counts toward the bound; with the last joined member the heat closes, and the
slot is freed with GEN one higher. A deadline that has come closes the open heat, and one that has not changes nothing. A close whose
result's pages must wait for the host or a repair comes later (R72, R387). -/
def Sys2Proof.Claims.HeatLeaves : Prop :=
  ∀ (s u : State) (n : Ann) (a : SReg) (h m : Nat),
    let x := s.heat h
    (s.Issues n [a] → s.heatOf s.actor (s.me.rd a) = none → exec (.heatClose n a) s = .next (s.trapped false (tr cRANGE))) ∧
    (s.Issues n [a] → s.heatOf s.actor (s.me.rd a) = some (h, m) → Released s .rel (BitVec.ofNat 4 (hScope x.desc)) →
      heatArrive (h / 1024) h (s.entered false) = .ok ((), u) →
      (u.unheld.heatLeave h m (u.ext (srcOf s.actor 0))).held = [] →
      ((∃ y ∈ x.members, y.no ≠ m ∧ y.left_ = false) → ∃ t, exec (.heatClose n a) s = .next t ∧ (t.heat h).live = true ∧
        t.me.s = s.me.s ∧ (∀ y ∈ (t.heat h).members, y.no = m → y.left_ = true) ∧
        (let left := (x.members.filter fun y => y.left_ || y.no == m).length
         (t.heat h).openTag =
          if min (hK x.desc + 1) (hMembers x.desc + 1 - left) ≤ x.admitted.length then (x.openTag + 1) % 2 ^ 32
          else x.openTag)) ∧
      ((∀ y ∈ x.members, y.no = m ∨ y.left_ = true) → ∃ t, exec (.heatClose n a) s = .next t ∧ t.me.s = s.me.s ∧
        (t.heat h).live = false ∧ (t.heat h).gen = (x.gen + 1) % 4096 ∧ (t.heat h).members = [])) ∧
    (x.live = true → hDeadline x.desc ≠ 0 → x.opened + hDeadline x.desc ≤ s.gtc →
      (s.unheld.heatShort h).held = [] → ∃ t, exec (.heatDeadline h) s = .next t ∧ (t.heat h).openTag = (x.openTag + 1) % 2 ^ 32 ∧
        (t.heat h).opened = x.opened + hDeadline x.desc ∧ (t.heat h).contribs = [] ∧
        t.mem = ((s.unheld.ownArrival (s.heatExt (h / 1024)) (x.opened + hDeadline x.desc)).heatResult h 2 0).mem) ∧
    (hDeadline x.desc = 0 ∨ s.gtc < x.opened + hDeadline x.desc → exec (.heatDeadline h) s = .next s)

/-- R299, R301, R302: HEAT.WAIT and leaving a heat.
Log entry 25: the model's own readings. -/
def Obligations.HeatWaitsAndLeaving : Prop :=
  Sys2Proof.Claims.HeatWaits ∧ Sys2Proof.Claims.HeatLeaves

/-- R305, R310, R311: LOAD traps ALIGN for a VA that is no multiple of 64, and on an image page that fails. Of an image that has been read
it returns BADIMG where the image's checks fail, changing no graph; the handle of the loaded graph with the same key and context, which
it shares; else the handle of the lowest free slot, whose graph has GEN one higher and holds the image's header, ranks and steps, with no
run; or NOSLOT where no slot is free (log entry 56). LOAD.DROP ends the graph that its handle names, and traps RANGE for any other
handle. -/
def Sys2Proof.Claims.CollectiveGraphs : Prop :=
  ∀ (s : State) (n : Ann) (d a : SReg), s.Issues n [a] → d ≠ 0 →
    (∀ e ∈ s.graphs, e.1 < 128 ∧ s.graph e.1 = e.2) →
    let va := (s.me.rd a).toNat
    let u := s.entered false
    let word := exec (.collLoad n d a) s
    let kept (w : Word) : Prop := ∃ t, word = .next t ∧ t.me.rd d = w ∧ t.graphs = s.graphs ∧ t.mem = s.mem
    (va % 64 ≠ 0 → word = .next (s.trapped false (tr cALIGN va))) ∧
    (va % 64 = 0 → ownStores u = .ok ((), u) →
      (∀ t, readMem va 64 (!s.me.mode) u = .error (.trap t) → word = .next (s.trapped false t)) ∧
      (∀ h, readMem va 64 (!s.me.mode) u = .ok (h, u) →
        let hdr := BitVec.ofNat 512 h
        (∀ t, readMem (va + 64) (imageLen hdr - 64) (!s.me.mode) u = .error (.trap t) → word = .next (s.trapped false t)) ∧
        (∀ v, readMem (va + 64) (imageLen hdr - 64) (!s.me.mode) u = .ok (v, u) →
          let ranks := splitBits 32 (gNrank hdr) v
          let steps := (splitBits 512 (gNstep hdr) (v / 2 ^ (8 * ((4 * gNrank hdr + 63) / 64 * 64)))).map (BitVec.ofNat 512)
          let same (i : Nat) : Prop :=
            (s.graph i).live = true ∧ (s.graph i).gkey = fld hdr 0 64 ∧ (s.graph i).asid = s.me.asid
          (graphHdrOk hdr = false ∨ graphOk hdr ranks steps = false → kept 2) ∧
          (graphOk hdr ranks steps = true →
            (∀ i, same i → (∀ j, same j → j = i) → kept (BitVec.ofNat 64 (i * 2 ^ 8 + (s.graph i).gen % 2 ^ 32 * 2 ^ 32))) ∧
            ((∀ i, ¬ same i) → (∀ i, i < 128 → s.graphFree i = false) → kept 1) ∧
            (∀ i, (∀ j, ¬ same j) → i < 128 → s.graphFree i = true → (∀ j, j < i → s.graphFree j = false) →
              ∃ t, word = .next t ∧ t.mem = s.mem ∧ (∀ j, j ≠ i → t.graph j = s.graph j) ∧
                let y := t.graph i
                t.me.rd d = BitVec.ofNat 64 (i * 2 ^ 8 + y.gen * 2 ^ 32) ∧ y.gen = ((s.graph i).gen + 1) % 2 ^ 32 ∧
                y.live = true ∧ y.gkey = fld hdr 0 64 ∧ y.asid = s.me.asid ∧ y.hdr = hdr ∧ y.steps = steps ∧
                y.ranks = ranks.map (fun r => (r % 2 ^ 12, r / 2 ^ 12 % 2 ^ 4)) ∧ y.runs = [] ∧ y.seals = [] ∧ y.used = []))))) ∧
    (s.graphOf (s.me.rd a) = none → exec (.collLoadDrop n a) s = .next (s.trapped false (tr cRANGE))) ∧
    (∀ i, s.graphOf (s.me.rd a) = some i → ∃ t, exec (.collLoadDrop n a) s = .next t ∧ (t.graph i).live = false ∧
      (∀ j, j ≠ i → t.graph j = s.graph j) ∧ t.mem = s.mem ∧ t.me.s = s.me.s)

/-- R308, R312: RUN, its release's waits over and its base table read, returns NOTRANK where the rank entry does not name this device and
die, BADBASE where a range of a step fails its checks, and else forms the next run of the rank and returns its handle; each step's
counter starts at DEPS. -/
def Sys2Proof.Claims.CollectiveRuns : Prop :=
  ∀ (s u3 : State) (n : Ann) (d a b c : SReg), s.Issues n [a, b, c] → d ≠ 0 →
    let p := s.actor
    let u := s.entered false
    let va := (s.me.rd b).toNat
    let rank := (s.me.rd c).toNat
    (s.graphOf (s.me.rd a) = none → exec (.collRun n d a b c) s = .next (s.trapped false (tr cRANGE))) ∧
    (∀ i ps v, s.graphOf (s.me.rd a) = some i →
      let x := s.graph i
      (va % 8 ≠ 0 → exec (.collRun n d a b c) s = .next (s.trapped false (tr cALIGN va))) ∧
      (va % 8 = 0 → accessRuns va 128 .rd (!s.me.mode) u = .ok (ps, u) →
        relWait (gScope x.hdr) va u = .ok ((), u) → x.inFlight rank < 4 → readRuns ps u = .ok (v, u) →
        (x.ranks[rank]? ≠ some (s.dev, dieOf p) → ∃ t, exec (.collRun n d a b c) s = .next t ∧ t.me.rd d = 3 ∧
          t.graph i = x ∧ t.mem = s.mem) ∧
        (x.ranks[rank]? = some (s.dev, dieOf p) →
          (∀ e, u.basesOk p x rank (splitBits 64 16 v) = .error e → e.refuses = true → ∃ t, exec (.collRun n d a b c) s = .next t ∧ t.me.rd d = 4 ∧
            t.graph i = x ∧ t.mem = s.mem) ∧
          (u.basesOk p x rank (splitBits 64 16 v) = .ok u3 → ∃ t, exec (.collRun n d a b c) s = .next t ∧
            (let q := x.started.get 0 rank + 1
             t.me.rd d = BitVec.ofNat 64 (i * 2 ^ 8 + rank * 2 ^ 16 + q * 2 ^ 32) ∧
             (t.graph i).started.get 0 rank = q ∧ t.mem = u3.mem ∧
             ∃ r, (t.graph i).runs = x.runs ++ [r] ∧ r.run = q ∧ r.rank = rank ∧ r.core = p ∧ r.base = splitBits 64 16 v ∧
               r.asid = s.me.asid ∧ r.done = false ∧ r.msg.agent = srcOf p 0 ∧
               ∀ st, st < x.steps.length → r.cnt.get 0 st = stDeps (x.steps.getD st 0))))))

/-- R308, R310–R312: loading a graph, dropping it, and running it.
Log entries 26 and 56: the model's own readings. -/
def Obligations.CollectiveGraphsAndRuns : Prop :=
  Sys2Proof.Claims.CollectiveGraphs ∧ Sys2Proof.Claims.CollectiveRuns

/-- R304, R307, R308, R314: a step whose counter is 0 and whose rank's earlier runs are complete begins once chunk buffers are free; one
that has not met these does not. A begun step whose sources have all been read completes, and each successor's counter falls by one; an
A2A step completes only when every rank has sealed it.
Log entries 26 and 53: the model's own readings. -/
def Obligations.CollectiveSteps : Prop :=
  ∀ (s : State) (g run rank st : Nat) (r : CollRun), s.runAt g run rank = some r → r.run = run → r.rank = rank →
    let x := s.graph g
    let e := x.steps.getD st 0
    let die := (x.ranks.getD rank (0, 0)).2
    let rng := stRanges (gNrank x.hdr) rank r.base e
    let ready : Prop := r.ph.get .waiting st = .waiting ∧ st < x.steps.length ∧ r.cnt.get 0 st = 0 ∧
      ∀ y ∈ x.runs, y.rank = rank → y.run < run → y.done = true
    let len := if stKind e = 4 then 64 else stBytes e * ((s.collResult g r st).getD []).length
    let sealed : Prop := ∀ q, q < gNrank x.hdr → ∃ u ∈ x.seals, u.1 = run ∧ u.2.1 = st ∧ u.2.2.1 = q
    (¬ ready → exec (.collStepBegin g run rank st) s = .next s) ∧
    (ready → s.rankHere x rank = true → homeStaging 8 < s.stagingUsed 8 + chunksFor rng.1.2 →
      exec (.collStepBegin g run rank st) s = .next s) ∧
    (ready → (s.rankHere x rank = false ∧ (stKind e = 4 → ∀ k, k < 65536 →
          s.mayArrive (s.ext seqSrc) ((x.ranks.getD rank (0, 0)).1 * 65536 + k) = true)) ∨
        (s.rankHere x rank = true ∧ s.stagingUsed 8 + chunksFor rng.1.2 ≤ homeStaging 8 ∧ ∀ e,
          (s.acquire seqSrc (gScope x.hdr) [r.msg]).readVa seqSrc die r.asid rng.1.1 rng.1.2 r.user = .error e → ∃ t, e = .trap t) →
      ∃ t r', exec (.collStepBegin g run rank st) s = .next t ∧ t.runAt g run rank = some r' ∧
        r'.ph.get .waiting st = .begun ∧ (∀ j, j ≠ st → r'.ph.get .waiting j = r.ph.get .waiting j) ∧ r'.cnt = r.cnt ∧
        r'.done = r.done) ∧
    (r.ph.get .waiting st ≠ .begun → exec (.collStepComplete g run rank st) s = .next s) ∧
    (r.ph.get .waiting st = .begun → stKind e = 4 → ¬ sealed → s.rankHere x rank = true →
      exec (.collStepComplete g run rank st) s = .next s) ∧
    (r.ph.get .waiting st = .begun → (stKind e = 4 ∧ sealed ∨ stKind e ≠ 4 ∧ s.collResult g r st ≠ none) →
      (∀ e, s.unitRuns seqSrc die r.asid rng.2.1 len .wr r.user = .error e → ∃ t, e = .trap t) →
      (∃ j, j < x.steps.length ∧ j ≠ st ∧ r.ph.get .waiting j ≠ .complete) →
      ∃ t r', exec (.collStepComplete g run rank st) s = .next t ∧ t.runAt g run rank = some r' ∧
        r'.ph.get .waiting st = .complete ∧ r'.done = false ∧
        ∀ j, r'.cnt.get 0 j = if j ∈ stSucc e then r.cnt.get 0 j - 1 else r.cnt.get 0 j)

/-- R313, R359: WAIT returns the flags of its run's writes once the run is complete, TIMEOUT at its deadline, PENDPRE for a pending
pre-emption, and else stalls; a lost rank makes it trap PEERLOST; a stalled WAIT returns when its run is complete. -/
def Sys2Proof.Claims.CollectiveWaits : Prop :=
  ∀ (s : State) (n : Ann) (d a c : SReg) (p g : Nat) (r : CollRun), d ≠ 0 → p ≠ 0 → s.runAt g r.run r.rank = some r →
    let dl := (s.me.rd c).toNat
    let word := exec (.collWait n d a c) s
    (s.Issues n [a, c] → s.runOf (s.me.rd a) = none → word = .next (s.trapped false (tr cRANGE))) ∧
    (s.Issues n [a, c] → s.runOf (s.me.rd a) = some (g, r) →
      (∀ src, s.collLost g r = some src → ∃ t, word = .next t ∧ t = ((s.entered false).collTrap s.actor src)) ∧
      (s.collLost g r = none → s.me.owed = [] →
        (r.done = true → ∃ t, word = .next t ∧ t.me.rd d = BitVec.ofNat 64 (flags4 r.flags * 2 ^ 8) ∧ t.mem = s.mem) ∧
        (r.done = false → dl ≠ 0 → dl ≤ s.gtc → word = wrote s d 7) ∧
        (r.done = false → (dl = 0 ∨ s.gtc < dl) → s.preemptPending s.actor = true → word = wrote s d 0xFE) ∧
        (r.done = false → (dl = 0 ∨ s.gtc < dl) → s.preemptPending s.actor = false → ∃ t, word = .next t ∧
          t.me.wait = .collWait (physS s.me.rrb d) g r.run r.rank dl ∧ t.mem = s.mem ∧ t.me.s = s.me.s))) ∧
    (∀ k dl', (s.core k).wait = .collWait p g r.run r.rank dl' → (s.core k).frozen = false → (s.core k).owed = [] →
      s.collLost g r = none → r.done = true → ∃ t, exec (.collWaitReturn k) s = .next t ∧ (t.core k).wait = .none ∧
        (t.core k).rdP p = BitVec.ofNat 64 (flags4 r.flags * 2 ^ 8) ∧ t.mem = s.mem)

/-- R314: CLAIM of n rows gives the next g = min(n, CAP - U) rows of the destination's area with FIRST = U, raises U by g and DROPS by
n - g, and says FULL where g < n, in its turn by stamp and source (R297); a claim after the rank's seal gives SEALED. SEAL records the rank's release once. -/
def Sys2Proof.Claims.CollectiveClaims : Prop :=
  ∀ (s : State) (n : Ann) (d a b c : SReg) (g : Nat) (r : CollRun), d ≠ 0 → s.runOf (s.me.rd a) = some (g, r) →
    let x := s.graph g
    let w := s.me.rd b
    let st := fld w 0 8
    let dst := fld w 8 12
    let rows := (s.me.rd c).toNat
    let U := (x.rows r.run st dst).1
    let got := min rows (stCount (x.steps.getD st 0) - U)
    (s.Issues n [a, b, c] →
      (fld w 20 44 ≠ 0 ∨ 65535 < rows ∨ x.isA2a st = false ∨ gNrank x.hdr ≤ dst →
        exec (.collClaim n d a b c) s = .next (s.trapped false (tr cRANGE))) ∧
      (fld w 20 44 = 0 → rows ≤ 65535 → x.isA2a st = true → dst < gNrank x.hdr →
        s.mayArrive (s.ext seqSrc) (s.ext (srcOf s.actor 0)) = true →
        (x.sealed r.run st r.rank = true → ∃ t, exec (.collClaim n d a b c) s = .next t ∧ t.me.rd d = 6 ∧ t.graphs = s.graphs ∧
          t.mem = s.mem) ∧
        (x.sealed r.run st r.rank = false → ∃ t, exec (.collClaim n d a b c) s = .next t ∧
          t.me.rd d = BitVec.ofNat 64 ((if got < rows then 5 else 0) + U * 2 ^ 8 + got * 2 ^ 28 + (rows - got) * 2 ^ 48) ∧
          (t.graph g).rows r.run st dst = (U + got, (x.rows r.run st dst).2 + (rows - got)) ∧
          (∀ q, q ≠ dst → (t.graph g).rows r.run st q = x.rows r.run st q) ∧ t.mem = s.mem))) ∧
    (s.Issues n [a, b] → w.toNat ≤ 255 → x.isA2a w.toNat = true → x.sealed r.run w.toNat r.rank = false →
      Released s .rel (BitVec.ofNat 4 (gScope x.hdr)) →
      ∃ t m, exec (.collClaimSeal n a b) s = .next t ∧ (t.graph g).seals = x.seals ++ [(r.run, w.toNat, r.rank, m)] ∧
        m.agent = srcOf s.actor 0 ∧ t.mem = s.mem ∧ t.me.s = s.me.s)

/-- R313, R314, R359: COLL.WAIT and COLL.CLAIM.
Log entries 26 and 56: the model's own readings. -/
def Obligations.CollectiveWaitsAndClaims : Prop :=
  Sys2Proof.Claims.CollectiveWaits ∧ Sys2Proof.Claims.CollectiveClaims

-- Relays (R315–R344).

/-- R321, R336, R337: OPEN traps ALIGN for a VA that is no multiple of 256, returns BADDESC where a check fails and NOUNIT where no
unit of the die is free, changing no unit, and else takes the lowest free unit with GEN one higher: RUNNING, SP 1, leg 0 SETTLED at
version 1. An OPEN whose writes, or the actions that follow it, must wait for the host or a repair comes later (R72, R387).
Log entry 27: the model's own readings. -/
def Obligations.RelayOpens : Prop :=
  ∀ (s : State) (n : Ann) (d a : SReg) (v : Nat), s.Issues n [a] → d ≠ 0 →
    let va := (s.me.rd a).toNat
    let u := s.entered false
    let x := BitVec.ofNat 2048 v
    let kept (w : Word) : Prop := ∃ t, exec (.rlyOpen n d a) s = .next t ∧ t.me.rd d = w ∧ t.relays = s.relays ∧ t.mem = s.mem
    (va % 256 ≠ 0 → exec (.rlyOpen n d a) s = .next (s.trapped false (tr cALIGN va))) ∧
    (va % 256 = 0 → ownStores u = .ok ((), u) →
      (∀ e, readMem va 256 (!s.me.mode) u = .error (.trap e) → exec (.rlyOpen n d a) s = .next (s.trapped false e)) ∧
      (readMem va 256 (!s.me.mode) u = .ok (v, u) →
        (∀ w, (State.reset.relay w).gen = 0) ∧
        (∀ e, u.rlyCheck s.actor x = .error e → e.refuses = true → kept 2) ∧
        (∀ die pages u2, u.rlyCheck s.actor x = .ok (die, pages, u2) →
          ((∀ i, i < 4 → (u2.relay (die * 4 + i)).st ≠ .free) → kept 1) ∧
          (∀ i ini w v v', i < 4 → (u2.relay (die * 4 + i)).st = .free → (∀ j, j < i → (u2.relay (die * 4 + j)).st ≠ .free) →
            readMem (yInit x) (yBytes x) (!s.me.mode) u2 = .ok (ini, u2) →
            u2.unheld.rlySetup s.actor (die * 4 + i) x pages ini = (w, v) → rlyGoM (die * 4 + i) v = .ok ((), v') → v'.held = [] →
            ∃ t, exec (.rlyOpen n d a) s = .next t ∧
              let y := t.relay (die * 4 + i)
              y.gen = ((u2.relay (die * 4 + i)).gen + 1) % 2 ^ 32 ∧
              t.me.rd d = BitVec.ofNat 64 (die * 2 ^ 8 + i * 2 ^ 11 + y.gen * 2 ^ 32) ∧ y.st = .running ∧ y.desc = x ∧
              y.asid = u2.me.asid ∧ y.sp = 1 ∧ y.top = 1 ∧
              ∃ l, y.leg? 0 = some l ∧ l.st = .settled ∧ l.ver = 1 ∧ l.exact = true ∧ l.iter = 0 ∧ l.run = false))))

/-- R318, R319: a change of a leg rewrites its baton in memory, the fields of R318 with the time of the change, and leaves CH0–CH3
and every byte outside the baton as they were (no HOME watchpoint being armed, no access to the baton failing or having to wait). -/
def Sys2Proof.Claims.Batons : Prop :=
  ∀ (s : State) (u : Nat) (l : Leg), s.memOk → s.watchers = [] → relayDescOk (s.relay u).desc = true →
    (∀ r ∈ [((s.relay u).batonVa l.leg, 64), ((s.relay u).batonVa l.leg + 96, 32)],
      s.keptWaits (relaySrc u) (s.relay u).pages r.1 r.2 = none ∧
        ∀ p ∈ keptRuns (s.relay u).pages r.1 r.2, s.runFails .wr p = none) →
    let k := (s.relay u).keyOf ((s.relay u).batonVa l.leg)
    let t := s.putLeg u l
    let st := match l.st with
      | .retired => 6 | .faulted => 7 | .settled => 5
      | .live => if l.run then 2 else if l.fver = l.ver then 3 else if l.iter = 0 then 1 else 4
    t.mem.getNat k 64 = (l.leg + st * 2 ^ 32 + l.run.toNat * 2 ^ 36 + l.held.toNat * 2 ^ 37 + l.exact.toNat * 2 ^ 38 +
      l.iter * 2 ^ 48 + l.ver * 2 ^ 64 + l.fver * 2 ^ 96 + l.gver * 2 ^ 128 + l.gpver * 2 ^ 160 + l.jump * 2 ^ 192 +
      l.rver * 2 ^ 224 + s.gtc * 2 ^ 256 + l.crewSrc * 2 ^ 320 + l.fsrc * 2 ^ 336 + l.fcode * 2 ^ 352 + l.hver * 2 ^ 384 +
      l.fstamp * 2 ^ 448) % 2 ^ 512 ∧
    t.mem.getNat (k + 96) 32 = 0 ∧ (∀ a, a < k ∨ k + 64 ≤ a ∧ a < k + 96 ∨ k + 128 ≤ a → t.mem.get a = s.mem.get a) ∧
    ∃ l', (t.relay u).leg? l.leg = some l' ∧ l'.stamp = s.gtc ∧ l'.ver = l.ver ∧ l'.run = l.run ∧ l'.st = l.st

/-- R261, R268, R324, R336, R338: TAKE and GTAKE of a stale handle trap RANGE; while a sleeper of the queue has been woken and not yet
retried they wait; of a relay that is not RUNNING, or with a pre-emption pending, they return 0 and pop nothing; of a waiting record of a
leg that has not retired they take the work, bound to the leg's VER, and return the payload VA; of an empty queue they return 0 at the
deadline and else sleep. A sleeping TAKE that is retried does the same. Where the unit's step must wait for the host or a repair, it comes
later (R72, R387). -/
def Sys2Proof.Claims.RelayTakes : Prop :=
  ∀ (s v : State) (n : Ann) (d a c : SReg) (u : Nat) (coarse : Bool), d ≠ 0 →
    let p := s.actor
    let word := exec (if coarse then .rlyGtake n d a c else .rlyTake n d a c) s
    let x := s.relay u
    let dl := (s.me.rd c).toNat
    let woken := (s.entered false).wokenOn (s.relayQueue u coarse)
    let named : Prop := s.Issues n [a, c] ∧ s.relayOf p (s.me.rd a) = some u ∧ rlyArrive u (s.entered false) = .ok ((), v)
    let open_ : Prop := named ∧ woken = false
    let still (t : State) : Prop := x.owed = [] → t.mem = s.mem ∧ t.relays = s.relays
    let free (w : State) : Prop := (w.unheld.rlyDrain u).held = []
    let bound (t : State) (l : Leg) (core : Nat) (q : Queue) : Prop :=
      (∃ w ∈ (t.relay u).work, w.core = core ∧ w.leg = l.leg ∧ w.coarse = coarse ∧ w.ver = l.ver ∧ w.cancelled = false ∧
        w.payload = q.ring + q.head % 2 ^ q.log * q.size + 8) ∧
      ∃ l', (t.relay u).leg? l.leg = some l' ∧ l'.ver = l.ver ∧ (coarse = true → l'.coarseWait = false ∧ l'.run = l.run) ∧
        (coarse = false → l'.run = true ∧ l'.rver = l.ver ∧ l'.crewSrc = srcOf core 0)
    let takes (w : State) (core : Nat) (q : Queue) (l : Leg) : Prop := ∃ h w2 w3, q.head ≠ q.tail ∧
      w.homeVa (relaySrc u) (queueDie q.word) q.asid (q.slot q.head + 8) 8 (!(s.core core).mode) = .ok (h, w2) ∧
      x.leg? (h % 2 ^ 32) = some l ∧ l.st ≠ .retired ∧
      (w2.popRecord q (srcOf core 0)).2.rlyBind core u coarse (q.slot q.head + 8) l = .ok w3 ∧ (w3.rlyDrain u).held = []
    (s.Issues n [a, c] → s.relayOf p (s.me.rd a) = none → word = .next (s.trapped false (tr cRANGE))) ∧
    (named → woken = true → word = .next (s.entered false)) ∧
    (open_ → x.st ≠ .running ∨ s.preemptPending p = true → free v → ∃ t, word = .next t ∧ t.me.rd d = 0 ∧ still t) ∧
    (∀ q u1, open_ → x.st = .running → s.preemptPending p = false →
      v.unheld.queue (s.relayQueue u coarse) s.me.asid (!s.me.mode) = .ok (q, u1) →
      (q.head = q.tail → dl ≠ 0 → dl ≤ s.gtc → free v → ∃ t, word = .next t ∧ t.me.rd d = 0 ∧ still t) ∧
      (q.head = q.tail → (dl = 0 ∨ s.gtc < dl) → free v → ∃ t, word = .next t ∧ still t ∧ t.me.s = s.me.s ∧
        t.me.wait = .rlyTake (physS s.me.rrb d) u x.gen coarse dl s.gtc) ∧
      (∀ l, takes u1 p q l → ∃ t, word = .next t ∧
          t.me.rd d = BitVec.ofNat 64 (q.ring + q.head % 2 ^ q.log * q.size + 8) ∧ bound t l p q)) ∧
    (∀ k r gen dl' st, r ≠ 0 → (s.core k).wait = .rlyTake r u gen coarse dl' st → (s.core k).frozen = false →
      s.rlyDue u = false →
      (x.gen ≠ gen ∨ x.st ≠ .running ∨ s.preemptPending k = true → free s → ∃ t, exec (.rlyTakeRetry k) s = .next t ∧
        (t.core k).wait = .none ∧ (t.core k).woken = false ∧ (t.core k).rdP r = 0 ∧ (x.owed = [] → t.mem = s.mem)) ∧
      (∀ q u1 l, x.gen = gen → x.st = .running → s.preemptPending k = false →
        s.unheld.queue (s.relayQueue u coarse) (s.core k).asid (!(s.core k).mode) = .ok (q, u1) → takes u1 k q l →
        ∃ t, exec (.rlyTakeRetry k) s = .next t ∧ (t.core k).wait = .none ∧ (t.core k).woken = false ∧
          (t.core k).rdP r = BitVec.ofNat 64 (q.ring + q.head % 2 ^ q.log * q.size + 8) ∧ bound t l k q))

/-- R318, R319, R324, R336, R338: batons, and RLY.TAKE and RLY.GTAKE.
Log entry 27: the model's own readings. -/
def Obligations.RelayTakes : Prop :=
  Sys2Proof.Claims.Batons ∧ Sys2Proof.Claims.RelayTakes

/-- R329, R330, R339: POST and GPOST of a payload that the issuer's instance has not taken trap RANGE; else, once what their release and
their acknowledgement wait for is over, they are classified by R329: ENDED, STALE, ACCEPTED, HELD, or RAISED, which makes the relay
FAULTED at the leg; where the acknowledgement, the classification or the actions that follow it (R343) must wait for the host or a repair,
all of it comes later.
Log entry 27: the model's own readings. -/
def Obligations.RelayPosts : Prop :=
  ∀ (s : State) (n : Ann) (d a b c : SReg) (u : Nat), d ≠ 0 → s.relayOf s.actor (s.me.rd a) = some u →
    let va := (s.me.rd b).toNat
    let st := (s.me.rd c).toNat
    let x := s.relay u
    let post := exec (.rlyPost n d a b c) s
    let gpost := exec (.rlyGpost n d a b) s
    let posted (coarse : Bool) (w : RlyWork) (v : State) : State :=
      let y := v.setRelay u { v.relay u with work := (v.relay u).work.filter fun y => y != w }
      let m := (s.entered false).release (srcOf s.actor 0) (yScope x.desc)
      let r := if coarse then y.rlyGpost u w m else y.rlyPost s.actor u w st m
      r.2.setMe (r.2.me.wr d (BitVec.ofNat 64 r.1))
    let goes (coarse : Bool) (w : RlyWork) : Prop := ∃ q v1 h v2 v3 v4 v5,
      relWait (yScope x.desc) va (s.entered false) = .ok ((), s.entered false) ∧
      (s.entered false).queue (s.relayQueue u coarse) s.me.asid (!s.me.mode) = .ok (q, v1) ∧
      v1.ackCheck q va (!s.me.mode) = .ok (h, v2) ∧ rlyArrive u v2 = .ok ((), v3) ∧ relWait q.scope va v3.unheld = .ok ((), v3.unheld) ∧
      v3.unheld.ackSlot q (va - 8) h (srcOf v3.actor 0) (v3.view (srcOf v3.actor 0)).k (!v3.me.mode) = .ok v4 ∧
      rlyGoM u (posted coarse w v4) = .ok ((), v5) ∧ v5.held = []
    let ans (o : Host.Outcome State Fault Refusal) (v : Word) (f : State → Prop) : Prop := ∃ t, o = .next t ∧ t.me.rd d = v ∧ f t
    let now (t : State) (l : Leg) (f : Leg → Prop) : Prop := ∃ l', (t.relay u).leg? l.leg = some l' ∧ l'.ver = l.ver ∧ f l'
    (s.Issues n [a, b, c] → s.workOf s.actor u va false = none → post = .next (s.trapped false (tr cRANGE va))) ∧
    (s.Issues n [a, b] → s.workOf s.actor u va true = none → gpost = .next (s.trapped false (tr cRANGE va))) ∧
    (∀ w, s.Issues n [a, b, c] → s.workOf s.actor u va false = some w → goes false w →
      (x.st ≠ .running → ans post 4 fun t => (t.relay u).slots = x.slots) ∧
      (x.st = .running → (w.cancelled = true ∨ ∀ l, x.leg? w.leg = some l → l.st = .retired) →
        ans post 2 fun t => (t.relay u).slots = x.slots) ∧
      (∀ l, x.st = .running → w.cancelled = false → x.leg? w.leg = some l → l.st ≠ .retired →
        (st = 0 → ans post 0 fun t => now t l fun l' => l'.run = false ∧ l'.fver = max l.fver w.ver ∧
          l'.held = (l.held && decide (w.ver < l.hver)) ∧ l'.st = l.st) ∧
        (st ≠ 0 → l.st = .settled → w.ver = l.ver → ans post 3 fun t => (t.relay u).st = .faulted ∧
          (t.relay u).faultLeg = l.leg ∧ now t l fun l' => l'.st = .faulted ∧ l'.run = false ∧ l'.hver = w.ver) ∧
        (st ≠ 0 → ¬ (l.st = .settled ∧ w.ver = l.ver) → ans post 1 fun t => (t.relay u).st = .running ∧
          now t l fun l' => l'.run = false ∧ l'.held = true ∧ l'.fcode = st % 2 ^ 32 ∧ l'.fsrc = srcOf s.actor 0 ∧
            l'.hver = w.ver ∧ l'.fstamp = s.gtc ∧ l'.st = l.st))) ∧
    (∀ w, s.Issues n [a, b] → s.workOf s.actor u va true = some w → goes true w →
      (x.st ≠ .running → ans gpost 4 fun t => (t.relay u).slots = x.slots) ∧
      (x.st = .running → (∀ l, x.leg? w.leg = some l → l.st = .retired ∨ l.ver ≠ w.ver) →
        ans gpost 2 fun t => (t.relay u).slots = x.slots) ∧
      (∀ l, x.st = .running → x.leg? w.leg = some l → l.st ≠ .retired → l.ver = w.ver →
        ans gpost 0 fun t => now t l fun l' => l'.gver = w.ver ∧ l'.run = l.run ∧ l'.st = l.st))

/-- R334, R340, R341, R342: STAT and WAIT, arrived at the unit in their turn (R315), give SP, the state and the residual, a FAULTED relay's
WAIT the faulted leg; a WAIT of a relay that goes on returns at its deadline or for a pending pre-emption and else stalls; a stalled WAIT
returns when the relay has ended. CLOSE frees the unit with GEN one higher. Where the unit's step must wait for the host or a repair, it
comes later (R72, R387). -/
def Obligations.RelayStatus : Prop :=
  ∀ (s v : State) (n : Ann) (d a c : SReg) (u : Nat), d ≠ 0 →
    let x := s.relay u
    let dl := (s.me.rd c).toNat
    let js := (x.slots.filter fun e => x.sp ≤ e.2.leg && e.2.st != .retired).map fun e => e.2.jump
    let residual := if ∃ j ∈ js, 0x7F800000 < j then 0x7FC00000 else js.foldl max 0
    let word (st res : Nat) : Word := BitVec.ofNat 64 (x.sp % 2 ^ 24 + st * 2 ^ 24 + res * 2 ^ 32)
    let code := match x.st with | .running => 1 | .done => 2 | .faulted => 3 | .stopped => 4 | .free => 0
    let open_ : Prop := s.relayOf s.actor (s.me.rd a) = some u ∧ rlyArrive u (s.entered false) = .ok ((), v)
    let drained : Prop := open_ ∧ (v.unheld.rlyDrain u).held = []
    let still (t : State) : Prop := x.owed = [] → t.mem = s.mem ∧ t.relays = s.relays
    let ended (w : Nat) : Prop := x.st = .done ∧ w = 0 ∨ x.st = .faulted ∧ w = 1 ∨ x.st = .stopped ∧ w = 2
    let res (w : Nat) : Nat := if w = 1 then x.faultLeg else residual
    (s.Issues n [a] → s.relayOf s.actor (s.me.rd a) = none → exec (.rlyStat n d a) s = .next (s.trapped false (tr cRANGE)) ∧
      exec (.rlyClose n a) s = .next (s.trapped false (tr cRANGE))) ∧
    (s.Issues n [a] → drained → ∃ t, exec (.rlyStat n d a) s = .next t ∧ t.me.rd d = word code residual ∧ still t) ∧
    (s.Issues n [a, c] → drained →
      (∀ w, ended w → ∃ t, exec (.rlyWait n d a c) s = .next t ∧ t.me.rd d = word w (res w) ∧ still t) ∧
      (x.st = .running → dl ≠ 0 → dl ≤ s.gtc → ∃ t, exec (.rlyWait n d a c) s = .next t ∧ t.me.rd d = word 3 residual ∧
        still t) ∧
      (x.st = .running → (dl = 0 ∨ s.gtc < dl) → s.preemptPending s.actor = true →
        ∃ t, exec (.rlyWait n d a c) s = .next t ∧ t.me.rd d = word 0xFE residual ∧ still t) ∧
      (x.st = .running → (dl = 0 ∨ s.gtc < dl) → s.preemptPending s.actor = false →
        ∃ t, exec (.rlyWait n d a c) s = .next t ∧ t.me.wait = .rlyWait (physS s.me.rrb d) u x.gen dl ∧ still t ∧
          t.me.s = s.me.s)) ∧
    (∀ k p gen dl' w, p ≠ 0 → (s.core k).wait = .rlyWait p u gen dl' → (s.core k).frozen = false →
      (x.gen = gen ∧ ended w ∨ x.gen ≠ gen ∧ w = 4) →
      ∃ t, exec (.rlyWaitReturn k) s = .next t ∧ (t.core k).wait = .none ∧ (t.core k).rdP p = word w (res w) ∧ t.mem = s.mem) ∧
    (s.Issues n [a] → open_ → (v.unheld.rlyClose u).held = [] → ∃ t, exec (.rlyClose n a) s = .next t ∧ (t.relay u).gen = (x.gen + 1) % 2 ^ 32 ∧
      (t.relay u).st = .free ∧ (t.relay u).work = [] ∧ (t.relay u).owed = [] ∧ (t.relay u).slots = x.slots ∧ t.me.s = s.me.s ∧
      ∀ v, v ≠ u → t.relay v = s.relay v)

/-- R322, R323, R326, R331, R332, R333: the unit's own actions happen exactly under their conditions: seeding raises TOP and makes a
leg at version 1; a sweep takes SP and TOP; a retirement makes its leg RETIRED with no run; the end state makes the relay DONE with
every leg RETIRED; a deadline that has come makes it STOPPED; an owed record is fed when its queue takes it. An action that must wait for
the host or a repair comes later (R72, R387). -/
def Sys2Proof.Claims.RelayActions : Prop :=
  ∀ (s : State) (u leg : Nat),
    let x := s.relay u
    let go : Prop := x.st = .running
    let retires : Prop := x.st = .running ∨ x.st = .faulted ∨ x.st = .stopped
    let w := s.unheld
    (¬ (go ∧ leg = x.top ∧ x.canSeed = true) → exec (.relaySeed u leg) s = .next s) ∧
    (go → leg = x.top → x.canSeed = true → (w.seedAct u leg).held = [] → ∃ t l, exec (.relaySeed u leg) s = .next t ∧ (t.relay u).top = leg + 1 ∧
      (t.relay u).sp = x.sp ∧ (t.relay u).leg? leg = some l ∧ l.st = .live ∧ l.ver = 1 ∧ l.iter = 0 ∧ l.fver = 0 ∧ l.gver = 0 ∧
      l.gpver = 0 ∧ l.rver = 0 ∧ l.jump = 0x7F800000 ∧ l.held = false ∧ l.exact = false ∧ l.run = false) ∧
    (¬ (go ∧ x.canSweep = true) → exec (.relaySweepBegin u) s = .next s) ∧
    (go → x.canSweep = true → (w.sweepAct u).held = [] → ∃ t, exec (.relaySweepBegin u) s = .next t ∧ (t.relay u).sweepNo = x.sweepNo + 1 ∧
      (t.relay u).sweepOn = true ∧ (t.relay u).sweepAt = x.sp ∧ (t.relay u).sweepTop = x.top ∧ (t.relay u).cancelled = [] ∧
      (t.relay u).slots = x.slots ∧ (x.owed = [] → t.mem = s.mem) ∧
      ∀ m l, x.sp - 1 ≤ m → m < x.top - 1 → x.leg? m = some l → 1 ≤ x.sp → (t.relay u).need.get 0 m = l.ver) ∧
    (¬ (retires ∧ x.canRetire = some leg) → exec (.relayRetire u leg) s = .next s) ∧
    (∀ l, retires → x.canRetire = some leg → x.leg? leg = some l → (w.retireAct u leg).held = [] → ∃ t l', exec (.relayRetire u leg) s = .next t ∧
      (t.relay u).leg? leg = some l' ∧ l'.st = .retired ∧ l'.run = false ∧ l'.ver = l.ver ∧ (t.relay u).st = x.st) ∧
    (¬ (go ∧ x.canEnd = true) → exec (.relayEndStateWrite u) s = .next s) ∧
    (go → x.canEnd = true → (w.endAct u).held = [] → ∃ t, exec (.relayEndStateWrite u) s = .next t ∧ (t.relay u).st = .done ∧
      ∀ m l, (t.relay u).leg? m = some l → l.st = .retired) ∧
    (s.rlyDue u = false → exec (.relayDeadline u) s = .next s) ∧
    (s.rlyDue u = true → (w.stopAct u).held = [] → ∃ t, exec (.relayDeadline u) s = .next t ∧ (t.relay u).st = .stopped ∧
      (t.relay u).slots = x.slots ∧ (t.relay u).sp = x.sp) ∧
    ((∀ o ∈ x.owed, o.2 ≠ leg) → exec (.relayOwedFeed u leg) s = .next s) ∧
    (∀ c s1, go → x.owed = [(c, leg)] → w.rlyFeed1 u c leg = (true, s1) → s1.held = [] → ∃ t, exec (.relayOwedFeed u leg) s = .next t ∧
      (t.relay u).owed = [] ∧ t.mem = s1.mem)

/-- R326, R327: a step of a sweep that cannot begin changes nothing. One that can gives the leg a start from its predecessor: the exact
result, the coarse one, or the corrected sum of each element; its JUMP and ITER; a version one higher where the start changed; and
it settles the leg, and moves SP past it, exactly when it is exact or follows a settled leg with a jump within TOL. A step that must wait
for the host or a repair comes later (R72, R387). -/
def Sys2Proof.Claims.RelaySteps : Prop :=
  ∀ (s s1 : State) (u : Nat) (m n : Leg) (T : List Nat) (exact : Bool),
    let x := s.relay u
    (¬ (x.st = .running ∧ x.canStep = true) → exec (.relayStep u) s = .next s) ∧
    (x.st = .running → x.canStep = true → x.leg? (x.sweepAt - 1) = some m → x.leg? x.sweepAt = some n →
      (s.unheld.rlyOwn u).rlyStart u m = (T, exact, s1) → (s.unheld.stepAct u).held = [] →
      let tv := ofLeBytes ((T.map (leBytes (yZ x.desc))).flatten)
      let uo := ((s1.rlyWrite u (x.tVa n.leg) (yBytes x.desc) tv []).rlyVec u (x.uVa n.leg n.ver)).1
      let j := jumpOf (yFmt x.desc) (yNorm x.desc) T uo
      let settles : Prop := exact = true ∨ m.st = .settled ∧ j ≤ yTol x.desc
      (exact = true ↔ m.st = .settled ∧ m.fver = m.ver) ∧
      ∃ t l, exec (.relayStep u) s = .next t ∧ (t.relay u).sweepAt = x.sweepAt + 1 ∧ (t.relay u).leg? n.leg = some l ∧
        l.jump = j ∧ l.iter = min (n.iter + 1) 65535 ∧
        (T = uo → l.ver = n.ver) ∧ (T ≠ uo → l.ver = n.ver + 1 ∧ l.gpver = n.gver) ∧ l.fver = n.fver ∧ l.gver = n.gver ∧
        (settles → (t.relay u).sp = n.leg + 1 ∧ l.exact = exact ∧
          (n.held = true ∧ n.hver = l.ver → l.st = .faulted ∧ (t.relay u).st = .faulted ∧ (t.relay u).faultLeg = n.leg) ∧
          (¬ (n.held = true ∧ n.hver = l.ver) → l.st = .settled ∧ (t.relay u).st = .running)) ∧
        (¬ settles → (t.relay u).sp = x.sp ∧ l.st = n.st ∧ (t.relay u).st = .running)) ∧
    (∀ (f : Fmt) (a p g : Nat), corrElem f a p g =
      let d := (roundFl f (exactSum false [decodeF f a, (decodeF f p).neg]) .rne false).1
      (roundFl f (exactSum false [decodeF f g, decodeF f d]) .rne false).1)

/-- R320–R333: seeding, sweeps, the steps of a sweep, retirement, the end state and the deadline of a relay.
Log entry 27: the model's own readings. -/
def Obligations.RelaySweeps : Prop :=
  Sys2Proof.Claims.RelayActions ∧ Sys2Proof.Claims.RelaySteps

-- Engine words and engines (R22–R34, R101–R112, R147–R192, R216–R221).

namespace Sys2Proof.Claims

/-- The VX words that check nothing at their push and capture no scalar, with the RM field that each carries. -/
def vxWords (n : EAnn) (o1 : Vf1) (o2 : Vf2) (o3 : Vf3) (i1 : Vi1) (i2 : Vi2) (i3 : Vi3) (r : VRedOp) (f g : Fmt)
    (m : Rm) (x y : Bool) (a b c d : VReg) (part : BitVec 2) (imm : BitVec 32) : List (Instr × Rm) :=
  [(.vadd n o2, o2.rm), (.vsub n o2, o2.rm), (.vmul n o2, o2.rm), (.vfma n o3, o3.rm), (.vfms n o3, o3.rm),
   (.vfnma n o3, o3.rm), (.vmin n o2, o2.rm), (.vmax n o2, o2.rm), (.vabs n o1, o1.rm), (.vneg n o1, o1.rm),
   (.vdiv n o2, o2.rm), (.vsqrt n o1, o1.rm), (.vrsq n o1, o1.rm), (.vrcp n o1, o1.rm), (.vexp2 n o1, o1.rm),
   (.vlog2 n o1, o1.rm), (.viadd n i2, .rne), (.visub n i2, .rne), (.vimul n i2, .rne), (.vimad n i3, .rne),
   (.vimin n i2, .rne), (.vimax n i2, .rne), (.vand n i2, .rne), (.vor n i2, .rne), (.vxor n i2, .rne), (.vshl n i2, .rne),
   (.vshr n i2, .rne), (.vsar n i2, .rne), (.vclz n i1, .rne), (.vpopc n i1, .rne), (.vsel n d a b, .rne),
   (.vcvt n f m x d a g part, m), (.vmov n d a, .rne), (.vperm n f d a b c, .rne), (.vrot n f d a imm, .rne),
   (.vsort n f x y d a c, .rne), (.vred n r, r.rm), (.vscan n r, r.rm), (.mskip n imm, .rne)]

/-- Every engine word but the tile commands, with the engine whose queue takes it. -/
def engineWords (vx : List (Instr × Rm)) (n : EAnn) (f g : Fmt) (m : Rm) (x y : Bool) (a b c d : VReg) (imm : BitVec 32)
    (cond : VCond) (q : VoqSrc) (fr : BitVec 3) (e e' : SReg) (sb : SrcB) (slot : BitVec 5) (set : SlotSet) : List (Eng × Instr) :=
  vx.map (fun p => (.vx, p.1)) ++
  [(.vx, .vcmp n cond f x a b), (.vx, .minv n), (.vx, .mpop n), (.vx, .voq n q a), (.vx, .vbcast n f d sb),
   (.vx, .vacr n f m x y d fr e), (.vx, .vacw n g x fr a e), (.vl, .vld n x d e imm), (.vl, .vldg n f x d a e),
   (.vl, .vldb n f d e imm), (.vl, .sld n x slot e e' imm), (.vs, .vst n x e a imm), (.vs, .vsts n f a b e),
   (.vs, .vstm n f e a c imm), (.mx, .sclaim n set), (.mx, .srls n set), (.mx, .fzero n fr), (.mx, .lrel n)]

/-- The word is pushed with this capture, and memory stays as it was. -/
def Queued (s : State) (e : Eng) (i : Instr) (c : Capture) : Prop :=
  ∃ t, exec i s = .next t ∧ s.Pushed t e i c ∧ t.mem = s.mem

/-- Element `i` of width `z` of a vector register. -/
def elemOf (z : Nat) (v : VBits) (i : Nat) : Nat := v.toNat / 2 ^ (8 * z * i) % 2 ^ (8 * z)
/-- The mask bit of element `i` of width `z`: that of the lane of its lowest byte (R152). -/
def elemOn (m : Mask) (z i : Nat) : Bool := m.getLsbD (i * z / 4)

end Sys2Proof.Claims

/-- R13, R20, R151, R153, R165, R168, R220, R349: each VX word is pushed with what it captures. VCMP, MPOP and VOQ change their depth
when pushed and trap precisely at its bound; VACR and VACW trap RANGE past the frame. In handler mode every engine word traps ILLOP. A
full queue holds up a word while it has an entry of a begun part and else traps QOVF with the queue's number: every engine word whose
predicate is false, and under a true one every word that has no push-time check of its own.
Log entry 57: the model's own readings. -/
def Obligations.VectorPushes : Prop :=
  ∀ (s : State) (n : EAnn) (o1 : Vf1) (o2 : Vf2) (o3 : Vf3) (i1 : Vi1) (i2 : Vi2) (i3 : Vi3) (ro : VRedOp) (f g : Fmt)
    (m : Rm) (x y : Bool) (a b c d : VReg) (part : BitVec 2) (imm : BitVec 32) (cond : VCond) (q : VoqSrc) (fr : BitVec 3)
    (e e' : SReg) (sb : SrcB) (slot slot' : BitVec 5) (set : SlotSet) (cyc : BitVec 8),
    let k := s.me
    let vx := vxWords n o1 o2 o3 i1 i2 i3 ro f g m x y a b c d part imm
    let words := engineWords vx n f g m x y a b c d imm cond q fr e e' sb slot set
    let tiles : List Instr := [.mma n fr slot slot' cyc, .mmag n fr slot e cyc]
    let full (g : Eng) : Prop := queueDepth g ≤ (k.q.filter fun z => z.eng == g).length
    let inBegun (g : Eng) : Prop := ∃ z ∈ k.q, z.eng = g ∧ ∃ w ∈ k.begun, w.1 = z.part
    let out (v : Nat) (i : Instr) (cap : Capture) (depth : Nat) : Prop :=
      ∃ t, exec i s = .next t ∧ s.Pushed t .vx i cap ∧ t.mem = s.mem ∧ t.me.outcnt = v ∧ t.me.mskdepth = depth
    let traps (i : Instr) (code addr : Nat) : Prop := exec i s = .next (s.trapped false (tr code addr))
    (s.Pushes n .vx [] → k.retry = false →
      (∀ p ∈ vx, out k.outcnt p.1 { Capture.none with rm := captureRm k.fpcr p.2 } k.mskdepth) ∧
      (k.mskdepth = 32 → traps (.vcmp n cond f x a b) cMSKOVF 0) ∧
      (k.mskdepth ≠ 32 → out k.outcnt (.vcmp n cond f x a b) Capture.none (k.mskdepth + 1)) ∧
      (k.mskdepth = 0 → traps (.minv n) cMSKUNF 0 ∧ traps (.mpop n) cMSKUNF 0) ∧
      (k.mskdepth ≠ 0 → out k.outcnt (.minv n) Capture.none k.mskdepth ∧
        out k.outcnt (.mpop n) Capture.none (k.mskdepth - 1)) ∧
      (k.outcnt = 16 → traps (.voq n q a) cQOVF 9) ∧
      (k.outcnt ≠ 16 → out (k.outcnt + 1) (.voq n q a) Capture.none k.mskdepth)) ∧
    (s.Pushes n .vx (srcRegs sb) → out k.outcnt (.vbcast n f d sb)
      (capture (match sb with | .reg r => k.rd r | .imm v => v.setWidth 64) 0) k.mskdepth) ∧
    (s.Pushes n .vx [e] → k.retry = false →
      ((k.rd e).toNat + 1536 / f.bytes ≤ 16384 →
        out k.outcnt (.vacr n f m x y d fr e) { capture (k.rd e) 0 with rm := captureRm k.fpcr m } k.mskdepth ∧
        out k.outcnt (.vacw n f x fr a e) (capture (k.rd e) 0) k.mskdepth) ∧
      (16384 < (k.rd e).toNat + 1536 / f.bytes →
        traps (.vacr n f m x y d fr e) cRANGE 0 ∧ traps (.vacw n f x fr a e) cRANGE 0)) ∧
    (k.slipHeld = false → k.retry = false →
      (k.mode = true → (∀ p ∈ words, traps p.2 cILLOP 0) ∧ ∀ i ∈ tiles, traps i cILLOP 0) ∧
      (k.mode = false → k.pred n.pr = false →
        (∀ p ∈ words, full p.1 → (inBegun p.1 → exec p.2 s = .next (s.entered false)) ∧
          (¬ inBegun p.1 → traps p.2 cQOVF (engCode p.1))) ∧
        (∀ i ∈ tiles, k.ctx.hdr.lease = true → k.ctx.lrel = false → k.ctx.tiles < 16 → full .mx →
          (inBegun .mx → exec i s = .next (s.entered false)) ∧ (¬ inBegun .mx → traps i cQOVF 4))) ∧
      (k.mode = false → k.pred n.pr = true →
        (∀ p ∈ vx, full .vx → (inBegun .vx → exec p.1 s = .next (s.entered false)) ∧ (¬ inBegun .vx → traps p.1 cQOVF 2)) ∧
        (∀ i ∈ [Instr.fzero n fr, .lrel n], full .mx → (inBegun .mx → exec i s = .next (s.entered false)) ∧
          (¬ inBegun .mx → traps i cQOVF 4))))

/-- R106–R112: a load or store of an engine is checked at its push and captures its base: a whole register at a multiple of 128 inside
the scratchpad, a broadcast at a multiple of its element, a gather or scatter from a base below 2^23, a slot load of whole lines;
with a parameter block, the substituted block.
Log entry 47: the model's own readings. -/
def Obligations.EngineMemoryPushes : Prop :=
  ∀ (s : State) (n : EAnn) (f : Fmt) (x sb : Bool) (d v w : VReg) (a b : SReg) (q : BitVec 5) (imm : BitVec 32),
    let k := s.me
    let A := (k.rd a).toInt + imm.toInt
    let at_ (z : Int) : Nat := (BitVec.ofInt 64 z).toNat
    let traps (i : Instr) (code addr : Nat) : Prop := exec i s = .next (s.trapped false (tr code addr))
    let whole (e : Eng) (i : Instr) : Prop := s.Pushes n e [a] →
      (A % 128 ≠ 0 → traps i cALIGN (at_ A)) ∧ (A % 128 = 0 → A < 0 ∨ 2 ^ 23 < A + 1536 → traps i cRANGE 0) ∧
      (A % 128 = 0 → 0 ≤ A → A + 1536 ≤ 2 ^ 23 → Queued s e i (capture (BitVec.ofInt 64 A) 0))
    let based (e : Eng) (i : Instr) : Prop := s.Pushes n e [b] →
      (2 ^ 23 ≤ (k.rd b).toNat → traps i cRANGE 0) ∧ ((k.rd b).toNat < 2 ^ 23 → Queued s e i (capture (k.rd b) 0))
    k.retry = false →
    whole .vl (.vld n false d a imm) ∧ whole .vs (.vst n false a v imm) ∧ whole .vs (.vstm n f a v w imm) ∧
    based .vl (.vldg n f x d v b) ∧ based .vs (.vsts n f v w b) ∧
    (s.Pushes n .vl [a] →
      (A % f.bytes ≠ 0 → traps (.vldb n f d a imm) cALIGN (at_ A)) ∧
      (A % f.bytes = 0 → A < 0 ∨ 2 ^ 23 < A + f.bytes → traps (.vldb n f d a imm) cRANGE 0) ∧
      (A % f.bytes = 0 → 0 ≤ A → A + f.bytes ≤ 2 ^ 23 →
        Queued s .vl (.vldb n f d a imm) (capture (BitVec.ofInt 64 A) 0))) ∧
    (s.Pushes n .vl [a, b] →
      let X := (k.rd a).toNat
      let Y := (k.rd b).toNat
      let len := imm.toNat
      let cap := if sb then 2048 else 65536
      let i : Instr := .sld n sb q a b imm
      (X % 128 ≠ 0 → traps i cALIGN X) ∧ (X % 128 = 0 → Y % 128 ≠ 0 → traps i cALIGN Y) ∧
      (X % 128 = 0 → Y % 128 = 0 → len % 128 = 0 →
        (len = 0 ∨ 2 ^ 23 < X + len ∨ cap < Y + len → traps i cRANGE 0) ∧
        (len ≠ 0 → X + len ≤ 2 ^ 23 → Y + len ≤ cap →
          (k.view32.getLsbD q.toNat = true → Queued s .vl i (capture (k.rd a) (k.rd b))) ∧
          (k.view32.getLsbD q.toNat = false → (s.team (teamOf s.actor)).owner.find q.toNat = none →
            traps i cSLOTFREE q.toNat) ∧
          (∀ c, k.view32.getLsbD q.toNat = false → (s.team (teamOf s.actor)).owner.find q.toNat = some c → c ≠ s.actor →
            traps i cSLOTBUSY q.toNat)))) ∧
    (∀ y u, readBlock (s.entered false) = .ok (y, u) →
      let B := (k.rd a).toInt + y.base
      let block (e : Eng) (store : Bool) (i : Instr) : Prop := s.Pushes n e [a] →
        (∀ t, blockCheck y B store u = .error (.trap t) → exec i s = .next (s.trapped false t)) ∧
        (blockCheck y B store u = .ok ((), u) → ∃ t, exec i s = .next t ∧
          s.Pushed t e i { capture (BitVec.ofInt 64 (min B (2 ^ 62))) 0 with blk := some y } ∧ t.mem = u.mem)
      block .vl false (.vld n true d a imm) ∧ block .vs true (.vst n true a v imm))

/-- R171, R180–R185, R192: the tile commands need a LEASE section with fewer than 16 of them and no LREL before, and claimed slots, and
are pushed; SCLAIM claims its slots for the core and its view, withdraws their release by the core's own pending SRLS, and waits for that
of another core of its crew; SRLS takes its slots out of the view at its push and needs them claimed; FZERO and LREL are pushed, and an
LREL counts for R171 under a false predicate too.
Log entries 57 and 58: the model's own readings. -/
def Obligations.TilePushes : Prop :=
  ∀ (s : State) (n : EAnn) (fr : BitVec 3) (a b : BitVec 5) (e : SReg) (cyc : BitVec 8) (q : BitVec 5),
    let k := s.me
    let tm := s.team (teamOf s.actor)
    let traps (i : Instr) (code addr : Nat) : Prop := exec i s = .next (s.trapped false (tr code addr))
    let tiles : Prop := k.ctx.hdr.lease = true ∧ k.ctx.lrel = false ∧ k.ctx.tiles < 16
    let mma : Instr := .mma n fr a b cyc
    let mmag : Instr := .mmag n fr a e cyc
    k.retry = false →
    (k.slipHeld = false → k.mode = false → ¬ tiles → traps mma cLEASELEN 0 ∧ traps mmag cLEASELEN 0) ∧
    (s.Pushes n .mx [] → tiles →
      (k.view32.getLsbD a.toNat = true → k.view32.getLsbD b.toNat = true → ∃ t, exec mma s = .next t ∧
        s.Pushed t .mx mma Capture.none ∧ t.me.ctx.tiles = k.ctx.tiles + 1 ∧ t.mem = s.mem) ∧
      (k.view32.getLsbD a.toNat = false → tm.owner.find a.toNat = none → traps mma cSLOTFREE a.toNat)) ∧
    (s.Pushes n .mx [e] → tiles →
      let x := k.rd e
      ((∃ j, j < 8 ∧ fld x (8 * j + 5) 2 ≠ 0) → traps mmag cRANGE 0) ∧
      ((∀ j, j < 8 → fld x (8 * j + 5) 2 = 0) → k.view32.getLsbD a.toNat = true →
        (∀ j, j < 8 → bit x (8 * j + 7) = false → k.view32.getLsbD (fld x (8 * j) 5) = true) →
        ∃ t, exec mmag s = .next t ∧ s.Pushed t .mx mmag (capture x 0) ∧ t.me.ctx.tiles = k.ctx.tiles + 1 ∧ t.mem = s.mem)) ∧
    (∀ set m, (set = .one q ∧ m = 2 ^ q.toNat ∧ s.Pushes n .mx [] ∨ set = .mask e ∧ m = (k.rd e).toNat ∧ s.Pushes n .mx [e]) →
      (2 ^ 32 ≤ m → traps (.sclaim n set) cRANGE 0 ∧ traps (.srls n set) cRANGE 0) ∧
      (m < 2 ^ 32 →
        ((∀ j, j < 32 → m.testBit j = true → tm.owner.find j = none ∨ tm.owner.find j = some s.actor) →
          ∃ t, exec (.sclaim n set) s = .next t ∧ t.me.view32 = k.view32 ||| BitVec.ofNat 32 m ∧
            (∀ j, j < 32 → m.testBit j = true → (t.team (teamOf s.actor)).owner.find j = some s.actor) ∧
            (∀ j, m.testBit j = false → (t.team (teamOf s.actor)).owner.find j = tm.owner.find j) ∧
            t.me.q.length = k.q.length + 1 ∧
            (∀ z ∈ t.me.q, ∀ j, m.testBit j = true → z.slots.testBit j = true → z.withdrawn.testBit j = true) ∧ t.me.s = k.s ∧
            t.mem = s.mem) ∧
        ((∀ j, j < 32 → m.testBit j = true → k.view32.getLsbD j = true) → ∃ t, exec (.srls n set) s = .next t ∧
          s.Pushed t .mx (.srls n set) { Capture.none with slots := m } ∧
          t.me.view32 = k.view32 &&& ~~~ (BitVec.ofNat 32 m) ∧ t.teams = s.teams ∧ t.mem = s.mem))) ∧
    (∀ c, s.Pushes n .mx [] → tm.owner.find q.toNat = some c → c ≠ s.actor →
      (¬ ((s.core c).crew = k.crew ∧ (s.core c).releasing q.toNat = true) → traps (.sclaim n (.one q)) cSLOTBUSY q.toNat) ∧
      ((s.core c).crew = k.crew → (s.core c).releasing q.toNat = true →
        exec (.sclaim n (.one q)) s = .next (s.entered false))) ∧
    (k.slipHeld = false → k.mode = false → k.pred n.pr = false → (k.q.filter fun z => z.eng == .mx).length < 32 →
      ∃ t, exec (.lrel n) s = .next t ∧ t.me.ctx.lrel = true ∧ t.mem = s.mem) ∧
    (s.Pushes n .mx [] → Queued s .mx (.fzero n fr) Capture.none ∧ ∃ t, exec (.lrel n) s = .next t ∧
      s.Pushed t .mx (.lrel n) Capture.none ∧ t.mem = s.mem ∧ t.me.ctx.lrel = true)

/-- R14, R27, R33, R86, R101, R217: the head of an engine's queue begins when its part has begun and the engine's interval is over, and
lands its latency later; a false predicate or an empty token queue makes it do nothing, and a guard over what it would read freezes
the core. A VX entry that lands writes its registers, where its mask has ones, and its flags; a store that lands writes its bytes,
and no other byte of memory changes.
Log entries 40 and 48: the model's own readings. -/
def Obligations.EngineEntries : Prop :=
  ∀ (s : State) (c : Nat) (g : Eng),
    let k := s.core c
    let able : Prop := k.frozen = false ∧ k.contained = false ∧ k.crew ≠ none
    let begun (e : Entry) : Prop := ∃ b ∈ k.begun, b.1 = e.part
    (¬ able → exec (.engineEntryBegin c g) s = .next s ∧ exec (.engineEntryWriteback c g) s = .next s) ∧
    (able → k.busy.get 0 (engCode g) ≤ k.ccc → k.freezers ≠ [] → ∃ t, exec (.engineEntryBegin c g) s = .next t ∧
      (t.core c).frozen = true ∧ (t.core c).ccc = k.ccc - 1 ∧ (t.core c).q = k.q ∧ t.mem = s.mem) ∧
    (∀ e, able → k.busy.get 0 (engCode g) ≤ k.ccc → k.freezers = [] → k.q.find? (fun e => e.eng == g) = some e →
      (¬ begun e → exec (.engineEntryBegin c g) s = .next s) ∧
      (begun e → ∃ t f, exec (.engineEntryBegin c g) s = .next t ∧ (t.core c).fly = k.fly ++ [f] ∧ f.e = e ∧ f.start = k.ccc ∧
        f.land = k.ccc + latency e.i ∧ (t.core c).q = k.q.eraseP (fun x => x.eng == g) ∧
        (t.core c).busy.get 0 (engCode g) = k.ccc + interval e.i ∧ (t.core c).v = k.v ∧ (t.core c).s = k.s ∧
        (e.pred = false → f.active = false) ∧
        (∀ qn l, popQueues e = qn :: l → k.tok.get 0 qn = 0 → f.active = false ∧ f.push = false) ∧
        (g = .vx → popQueues e = [] → e.pred = true → k.mskip = 0 → f.active = true ∧ f.push = true ∧
          f.vws = (evalVx (k.ctxOf e) e).vws ∧ f.flags = (evalVx (k.ctxOf e) e).flags))) ∧
    (∀ f w, able → k.fly.filter (fun x => decide (x.land ≤ k.ccc) && (x.e.eng == .vx && !landsLate x.e)) = [f] →
      f.active = true → f.push = false → f.vws = [w] → f.sws = [] → isTile f.e.i = false → isAcc f.e.i = false →
      (∀ n d, f.e.i ≠ .fzero n d) → ∃ t, exec (.engineEntryWriteback c .vx) s = .next t ∧
        (t.core c).vreg w.reg = (k.vreg w.reg &&& ~~~ w.mask) ||| (w.val &&& w.mask) ∧
        (∀ r, r ≠ w.reg → (t.core c).vreg r = k.vreg r) ∧ (t.core c).fpsr = k.fpsr ||| BitVec.ofNat 64 f.flags ∧
        (t.core c).s = k.s ∧ t.mem = s.mem) ∧
    (∀ f, able → k.fly.filter (fun x => decide (x.land ≤ k.ccc) && landsLate x.e) = [f] → f.active = true → rising f.sws = true → s.memOk →
      ∃ t, exec (.engineEntryWriteback c .vs) s = .next t ∧ (∀ p ∈ f.sws, t.mem.get p.1 = p.2) ∧
        (∀ a, (∀ p ∈ f.sws, p.1 ≠ a) → t.mem.get a = s.mem.get a) ∧ (t.core c).s = k.s)

/-- R152, R154, R156, R157: what the element-wise arithmetic words write: an enabled element holds the one rounding of the exact result
that the table gives (RNE for VEXP2 and VLOG2), the wrapped or clamped integer, or the bits of the logic and shift words; a disabled
element keeps its value. -/
def Sys2Proof.Claims.VectorArithmetic : Prop :=
  ∀ (k : Core) (e : Entry) (n : EAnn) (o1 : Vf1) (o : Vf2) (o3 : Vf3) (i1 : Vi1) (io : Vi2) (i3 : Vi3) (i : Nat),
    let rdn := e.rm == .rdn
    let get (f : Fmt) (r : VReg) : Nat := elemOf f.bytes (k.vreg (physV e.vb r.toNat)) i
    let gives (f : Fmt) (d : VReg) (p : Instr × Nat) : Prop :=
      ∃ w, (evalVx (k.ctxOf e) { e with i := p.1 }).vws = [w] ∧ w.reg = physV e.vb d.toNat ∧
        elemOf f.bytes ((k.writeV w).vreg w.reg) i =
          if elemOn k.top f.bytes i then p.2 % 2 ^ (8 * f.bytes) else get f d
    let rnd (f : Fmt) (v : FVal) (m : Rm) (sat : Bool) : Nat := (roundF f v m sat).1
    let sum (l : List FVal) : FVal := (exactSum rdn l).1
    let E (r : VReg) : FVal := decodeF o1.fmt (get o1.fmt r)
    let F (r : VReg) : FVal := decodeF o.fmt (get o.fmt r)
    let G (r : VReg) : FVal := decodeF o3.fmt (get o3.fmt r)
    let I (r : VReg) : Int := intVal io.fmt (get io.fmt r)
    let J (r : VReg) : Int := intVal i3.fmt (get i3.fmt r)
    let w := fmtBits io.fmt
    let w1 := fmtBits i1.fmt
    let x := get io.fmt io.a
    let y := get io.fmt io.b
    (i < 1536 / o1.fmt.bytes → ∀ p ∈ [
        (Instr.vabs n o1, rnd o1.fmt (E o1.a).abs e.rm o1.sat), (.vneg n o1, rnd o1.fmt (E o1.a).neg e.rm o1.sat),
        (.vsqrt n o1, rnd o1.fmt (fsqrt (E o1.a)).1 e.rm o1.sat), (.vrsq n o1, rnd o1.fmt (frsq (E o1.a)).1 e.rm o1.sat),
        (.vrcp n o1, rnd o1.fmt (frcp (E o1.a)).1 e.rm o1.sat), (.vexp2 n o1, rnd o1.fmt (fexp2 (E o1.a)).1 .rne o1.sat),
        (.vlog2 n o1, rnd o1.fmt (flog2 (E o1.a)).1 .rne o1.sat)], gives o1.fmt o1.d p) ∧
    (i < 1536 / o.fmt.bytes → ∀ p ∈ [
        (Instr.vadd n o, rnd o.fmt (sum [F o.a, F o.b]) e.rm o.sat),
        (.vsub n o, rnd o.fmt (sum [F o.a, (F o.b).neg]) e.rm o.sat),
        (.vmul n o, rnd o.fmt (fmul (F o.a) (F o.b)).1 e.rm o.sat), (.vdiv n o, rnd o.fmt (fdiv (F o.a) (F o.b)).1 e.rm o.sat),
        (.vmin n o, rnd o.fmt (fmin (F o.a) (F o.b)).1 e.rm o.sat),
        (.vmax n o, rnd o.fmt (fmax (F o.a) (F o.b)).1 e.rm o.sat)], gives o.fmt o.d p) ∧
    (i < 1536 / o3.fmt.bytes → ∀ p ∈ [
        (Instr.vfma n o3, rnd o3.fmt (sum [(fmul (G o3.a) (G o3.b)).1, G o3.c]) e.rm o3.sat),
        (.vfms n o3, rnd o3.fmt (sum [(fmul (G o3.a) (G o3.b)).1, (G o3.c).neg]) e.rm o3.sat),
        (.vfnma n o3, rnd o3.fmt (sum [(fmul (G o3.a).neg (G o3.b)).1, G o3.c]) e.rm o3.sat)], gives o3.fmt o3.d p) ∧
    (i < 1536 / io.fmt.bytes → ∀ p ∈ [
        (Instr.viadd n io, intResult io.fmt io.sat (I io.a + I io.b)), (.visub n io, intResult io.fmt io.sat (I io.a - I io.b)),
        (.vimul n io, intResult io.fmt io.sat (I io.a * I io.b)), (.vimin n io, intResult io.fmt io.sat (min (I io.a) (I io.b))),
        (.vimax n io, intResult io.fmt io.sat (max (I io.a) (I io.b))), (.vand n io, x &&& y), (.vor n io, x ||| y),
        (.vxor n io, x ^^^ y), (.vshl n io, if w ≤ y then 0 else x * 2 ^ y % 2 ^ w), (.vshr n io, if w ≤ y then 0 else x / 2 ^ y),
        (.vsar n io, ((BitVec.ofNat w x).sshiftRight y).toNat)], gives io.fmt io.d p) ∧
    (i < 1536 / i3.fmt.bytes →
      gives i3.fmt i3.d (.vimad n i3, intResult i3.fmt i3.sat (J i3.a * J i3.b + J i3.c))) ∧
    (i < 1536 / i1.fmt.bytes → ∀ p ∈ [
        (Instr.vclz n i1, if get i1.fmt i1.a = 0 then w1 else w1 - 1 - (get i1.fmt i1.a).log2),
        (.vpopc n i1, ((List.range w1).filter (get i1.fmt i1.a).testBit).length)], gives i1.fmt i1.d p)

/-- R152, R159, R161–R168: the other VX words. VCMP pushes a condition for every lane, under the top mask where it nests; VSEL chooses by
the mask; VMOV, VBCAST and VCVT write enabled elements, VCVT those of its part; VPERM and VROT take the elements they name; VSORT's order
is a permutation in which keys rise and equal keys keep their places, and moves the payloads with it; VRED leaves the tree of its
elements and zeros, VSCAN the tree of each prefix; MINV and VOQ read the mask; VACR reads frame entries and VACW writes them. -/
def Sys2Proof.Claims.VectorRearrangements : Prop :=
  ∀ (k : Core) (e : Entry) (n : EAnn) (o : VRedOp) (f g : Fmt) (m : Rm) (x y : Bool) (a b c d : VReg) (part : BitVec 2)
    (imm : BitVec 32) (cond : VCond) (fr : BitVec 3) (r : SReg) (sb : SrcB) (i : Nat),
    let z := f.bytes
    let get (z : Nat) (r i : Nat) : Nat := elemOf z (k.vreg (physV e.vb r)) i
    let out (ins : Instr) : VxOut := evalVx (k.ctxOf e) { e with i := ins }
    let gives (z : Nat) (d : Nat) (ws : List VWrite) (val : Nat) : Prop :=
      ∃ w ∈ ws, w.reg = physV e.vb d ∧ elemOf z ((k.writeV w).vreg w.reg) i = val % 2 ^ (8 * z)
    let keep (z : Nat) (on : Bool) (val : Nat) : Nat := if on then val else get z d.toNat i
    let holds (p q : Nat) : Bool :=
      if f.isInt then icond cond (intVal f p) (intVal f q) else (fcond cond (decodeF f p) (decodeF f q)).1
    (i < 384 →
      (∃ mk, (out (.vcmp n cond f x a b)).mop = some (.push mk) ∧
        mk.getLsbD i = (holds (get 4 a.toNat i) (get 4 b.toNat i) && (!x || k.top.getLsbD i))) ∧
      gives 4 d.toNat (out (.vsel n d a b)).vws (if k.top.getLsbD i then get 4 a.toNat i else get 4 b.toNat i) ∧
      gives 4 d.toNat (out (.vmov n d a)).vws (keep 4 (k.top.getLsbD i) (get 4 a.toNat i)) ∧
      (∃ mk, (out (.minv n)).mop = some (.minv mk) ∧
        mk.getLsbD i = (!k.top.getLsbD i && (k.masks.tail.headD (BitVec.allOnes 384)).getLsbD i)) ∧
      (out (.mpop n)).mop = some .mpop ∧ (out (.voq n .any a)).out = some (k.top != 0) ∧
      (out (.voq n .all a)).out = some (k.top == BitVec.allOnes 384) ∧
      (out (.voq n .lane0 a)).out = some (get 4 a.toNat 0 != 0)) ∧
    (i < 1536 / z →
      gives z d.toNat (out (.vbcast n f d sb)).vws (keep z (elemOn k.top z i) (written f e.x0.toNat)) ∧
      gives z d.toNat (out (.vacr n f m x y d fr r)).vws (keep z (elemOn k.top z i)
        (convert (fval (k.frames.get 0 (fr.toNat * 16384 + e.x0.toNat + i))) .a48 f e.rm x).1) ∧
      (let j := get 4 (b.toNat + i / 384) (i % 384)
       gives z d.toNat (out (.vperm n f d a b c)).vws (written f
         (if j < 1536 / z then get z a.toNat j else if j < 2 * (1536 / z) then get z c.toNat (j - 1536 / z) else 0))) ∧
      gives z d.toNat (out (.vrot n f d a imm)).vws (written f (get z a.toNat ((i + imm.toNat) % (1536 / z))))) ∧
    (part.toNat * min g.bytes z < max g.bytes z → i < 1536 / z →
      let N := 1536 / max g.bytes z
      let first := if z < g.bytes then part.toNat * N else 0
      let src := if z < g.bytes then i - first else part.toNat * N + i
      gives z d.toNat (out (.vcvt n f m x d a g part)).vws
        (keep z (decide (first ≤ i ∧ i < first + N) && elemOn k.top z i)
          (convert (get g.bytes a.toNat src) g f e.rm x).1)) ∧
    (∃ p : List Nat, p.Perm (List.range (1536 / z)) ∧
      (∀ i j, i < j → j < 1536 / z →
        let key (i : Nat) : Int := sortKey f x (get z a.toNat (p.getD i 0))
        key i < key j ∨ key i = key j ∧ p.getD i 0 < p.getD j 0) ∧
      (i < 1536 / z → gives z d.toNat (out (.vsort n f x y d a c)).vws (get z a.toNat (p.getD i 0)) ∧
        (y = true → gives z (d.toNat + 1) (out (.vsort n f x y d a c)).vws (get z c.toNat (p.getD i 0))))) ∧
    (let L := 1536 / o.fmt.bytes
     let xs : List (Nat × Nat) := (List.range L).map fun j =>
       (if elemOn k.top o.fmt.bytes j then get o.fmt.bytes o.a.toNat j else redId o.op o.fmt, 0)
     i < L →
       gives o.fmt.bytes o.d.toNat (out (.vred n o)).vws (if i = 0 then (redTree o e.rm xs).1 else 0) ∧
       (out (.vred n o)).flags = (redTree o e.rm xs).2 ∧
       gives o.fmt.bytes o.d.toNat (out (.vscan n o)).vws (quietNan o.fmt (redTree o e.rm (xs.take (i + 1))).1)) ∧
    (let key := fr.toNat * 16384 + e.x0.toNat + i
     let frames := (vacwLand k.frames f x (fr.toNat * 16384 + e.x0.toNat) (k.vreg (physV e.vb a.toNat)) k.top).1
     (i < 1536 / z → elemOn k.top z i = false → frames.get 0 key = k.frames.get 0 key) ∧
     (i < 1536 / z → elemOn k.top z i = true → x = false → frames.get 0 key = toA48 f (get z a.toNat i)) ∧
     (1536 / z ≤ i → frames.get 0 key = k.frames.get 0 key))

/-- R187, R189: what a tile command leaves in its frame when it lands: entry 128·m + n holds the sum of row m of A and column n of B, block
by block, over the entry as it stands then where its format word accumulates; rows that MMAG skips and every other frame keep their
entries. The core's MX entries land these frames. -/
def Sys2Proof.Claims.TileResults : Prop :=
  (∀ (f : Flight) (w : Word) (frames : AMap Nat) (n : EAnn) (fr : BitVec 3) (a b : BitVec 5) (r : SReg) (cyc : BitVec 8) (m col : Nat),
    let at_ (i : Instr) : AMap Nat := (tileLand { f with e := { f.e with i := i } } w frames).1
    let kb := fwKB w
    let old := frames.get 0 (fr.toNat * 16384 + 128 * m + col)
    let cell (tag slot : Nat) : Nat := (tileElem kb (fwAcc w) old (operandLine f.samp (0, opA w a.toNat) kb m)
      (operandLine f.samp (tag, opB w slot) kb col)).1
    m < 128 → col < 128 →
    (at_ (.mma n fr a b cyc)).get 0 (fr.toNat * 16384 + 128 * m + col) = cell 1 b.toNat ∧
    (at_ (.mmag n fr a r cyc)).get 0 (fr.toNat * 16384 + 128 * m + col) =
      (if mmagSkip f.e.x0 (m / 16) then old else cell (1 + m / 16) (mmagSlot f.e.x0 (m / 16))) ∧
    (∀ key, key < fr.toNat * 16384 ∨ (fr.toNat + 1) * 16384 ≤ key →
      (at_ (.mma n fr a b cyc)).get 0 key = frames.get 0 key ∧ (at_ (.mmag n fr a r cyc)).get 0 key = frames.get 0 key)) ∧
  (∀ (s : State) (c : Nat) (f : Flight) (w : Word),
    let k := s.core c
    k.frozen = false → k.contained = false → k.crew ≠ none → f.e.eng = .mx → isTile f.e.i = true → f.fw = some w →
    f.active = true → f.push = false → f.vws = [] → f.sws = [] → f.mop = none → f.out = none →
    f.start + interval f.e.i ≤ k.ccc → (∀ g ∈ k.fly, g.start = f.start → g.e.eng = .mx → g = f) →
    k.fly.filter (fun g => decide (g.land ≤ k.ccc) && (g.e.eng == .mx && !landsLate g.e)) = [f] →
    ∃ t, exec (.engineEntryWriteback c .mx) s = .next t ∧ (t.core c).frames = (tileLand f w k.frames).1 ∧
      (t.core c).v = k.v ∧ (t.core c).fpsr = k.fpsr ||| BitVec.ofNat 64 (tileLand f w k.frames).2)

/-- R152–R168, R187, R189: the results of the VX entries and of the tile commands.
Log entries 13 and 23: the model's own readings. -/
def Obligations.VectorResults : Prop :=
  Sys2Proof.Claims.VectorArithmetic ∧ Sys2Proof.Claims.VectorRearrangements ∧ Sys2Proof.Claims.TileResults

/-- R22, R23, R171–R173, R216, R217: a header that breaks R23 traps SECT, and any other opens the first part of a section one start later;
the oldest ended part begins when R217 holds, and else stays; a LEASE part asks once and is granted a free array, and the array is
free again when the leased section's commands have begun.
Log entries 16 and 40: the model's own readings. -/
def Obligations.PartsAndLeases : Prop :=
  ∀ (s : State) (h : Header) (c : Nat),
    let k := s.core c
    let tm := s.team (teamOf c)
    (h.magic ≠ 0xA ∨ h.len = 0 ∨ h.flags.toNat / 8 ≠ 0 →
      exec (.sectionHeader h) s = .next (s.preciseTrap s.actor (tr cSECT s.me.pc))) ∧
    (h.magic = 0xA → h.len ≠ 0 → h.flags.toNat / 8 = 0 → s.me.mode = false → s.me.headerFault h.afterCp.toNat = none →
      ∃ t p, exec (.sectionHeader h) s = .next t ∧ t.me.pc = s.me.pc + 8 ∧ t.me.secNo = s.me.secNo + 1 ∧
        t.me.ctx.hdr = h ∧ t.me.ctx.hdrAddr = s.me.pc ∧ t.me.ctx.ord = s.me.secNo + 1 ∧ t.me.ctx.atHdr = false ∧
        t.me.ctx.tiles = 0 ∧ t.me.cur = some p ∧ p.first = true ∧ p.hdr = h ∧ p.sec = s.me.secNo + 1 ∧
        (∀ p0, s.me.cur = some p0 → s.me.ctx.handler = false → t.me.parts = s.me.parts ++ [p0]) ∧ t.me.s = s.me.s ∧
        t.mem = s.mem) ∧
    (k.parts = [] → exec (.partBegin c) s = .next s ∧ exec (.leaseRequest c) s = .next s) ∧
    (∀ p l, k.parts = p :: l →
      (s.partReady c p = false ∨ p.hdr.lease = true ∧ tm.lease ≠ some (c, p.sec) → exec (.partBegin c) s = .next s) ∧
      (s.partReady c p = true → (p.hdr.lease = true → tm.lease = some (c, p.sec)) → ∃ t, exec (.partBegin c) s = .next t ∧
        (t.core c).parts = l ∧ (t.core c).q = k.q ∧ (t.core c).s = k.s ∧ t.mem = s.mem ∧
        ((∃ e ∈ k.q, e.part = p.id) → (p.id, p.sec) ∈ (t.core c).begun)) ∧
      (p.hdr.lease = false ∨ tm.lease = some (c, p.sec) ∨ s.partReady c p = false ∨ (∃ r ∈ tm.reqs, r.2.2 = (c, p.id)) →
        exec (.leaseRequest c) s = .next s) ∧
      (p.hdr.lease = true → s.partReady c p = true → tm.lease = none → tm.reqs = [] →
        ∃ t, exec (.leaseRequest c) s = .next t ∧ (t.team (teamOf c)).lease = some (c, p.sec) ∧ t.mem = s.mem ∧
          t.cores = s.cores) ∧
      (∀ x, p.hdr.lease = true → s.partReady c p = true → tm.lease = some x → x ≠ (c, p.sec) → (∀ r ∈ tm.reqs, r.2.2 ≠ (c, p.id)) →
        ∃ t, exec (.leaseRequest c) s = .next t ∧ (t.team (teamOf c)).lease = some x ∧
          (t.team (teamOf c)).reqs = (tm.reqs.filter fun r => r.2.2.1 != c) ++ [(s.gtc, srcOf c 4, c, p.id)] ∧ t.cores = s.cores)) ∧
    (∀ sec, tm.lease = some (c, sec) →
      (k.frozen = true ∨ k.ccc < k.busy.get 0 8 ∨ tm.lrel = false ∧ (∃ e ∈ k.q, e.eng = .mx ∧ e.sec = sec) →
        exec (.leaseEnd c) s = .next s) ∧
      (k.frozen = false → k.busy.get 0 8 ≤ k.ccc → (tm.lrel = true ∨ ∀ e ∈ k.q, e.eng = .mx → e.sec ≠ sec) →
        tm.reqs = [] → ∃ t, exec (.leaseEnd c) s = .next t ∧ (t.team (teamOf c)).lease = none ∧ t.mem = s.mem))

-- The copy engine, the quay unit, homes and walks (R58–R98, R114–R119, R222–R242, R356, R379, R387, R397).

namespace Sys2Proof.Claims

/-- The executing core takes the pending fault of a channel, which that clears (R82). -/
def takesFault (s : State) (i : Instr) (ch : Nat) (f : TrapInfo) : Prop :=
  let u := s.entered true
  exec i s = .next ((u.setMe (u.me.setChan ch { u.me.chan ch with fault := none, froze := false })).preciseTrap s.actor f)

/-- The bytes from `k` up hold `v`, and every other byte is as in `m`. -/
def Stored (m m' : Memory) (k n v : Nat) : Prop :=
  m'.getNat k n = v % 2 ^ (8 * n) ∧ ∀ a, a < k ∨ k + n ≤ a → m'.get a = m.get a

/-- Request `n` now stands as `r`. -/
def nowReq (t : State) (n : Nat) (r : Req) : Prop := t.req n = some r

end Sys2Proof.Claims

/-- R82, R84, R93–R98: the copy words. A pending fault of the channel is taken at CPGO, CPONE and CPWAIT; a busy channel makes them wait;
CPGO and CPONE check their operands, then start a chain with GEN one higher, its guard and its handle; CPCAN says 0 where it ended a
running chain and 1 otherwise; CPWAIT says 0 on an idle channel; CPHINT writes no register, asks for a page walk
that it needs first, and with EV drops every line of its tag. In a handler each traps ILLOP, and in a section with SQOK SECT (R204).
Log entries 21 and 51: the model's own readings. -/
def Obligations.CopyWords : Prop :=
  ∀ (s : State) (n : Ann) (g t : Bool) (sc : BitVec 4) (ch : BitVec 3) (a b c d : SReg) (imm : BitVec 32),
    let k := s.me
    let x := k.chan ch.toNat
    let u := s.entered true
    let go : Instr := .cpgo n d ch b c
    let one : Instr := .cpone n false g sc d ch b c imm
    let started (i : Instr) (m : Memory) (guard : Prop) (lo hi : Nat) (f : Chan → Prop) : Prop := ∃ w, exec i s = .next w ∧
      (let y := w.me.chan ch.toNat
       y.gen = (x.gen + 1) % 2 ^ 32 ∧ y.phase = .awaiting ∧ (y.act = true ↔ guard) ∧
       (guard → y.lo = lo ∧ y.hi = hi ∧ y.wm = lo) ∧ f y ∧
       w.me.rd d = BitVec.ofNat 64 (ch.toNat + srcOf s.actor 5 * 2 ^ 8 + y.gen * 2 ^ 24 + fld k.dlost 32 8 * 2 ^ 56)) ∧
      (∀ j, j ≠ ch.toNat → w.me.chan j = k.chan j) ∧ w.mem = m
    d ≠ 0 →
    (k.mode = true → ∀ i ∈ [go, one, .cpcan n d a, .cphint n t a b imm, .cpwait n t d ch],
      exec i s = .next (s.preciseTrap s.actor (tr cILLOP))) ∧
    (k.mode = false → k.ctx.hdr.sqok = true → ∀ i ∈ [go, one, .cpcan n d a, .cphint n t a b imm, .cpwait n t d ch],
      exec i s = .next (s.preciseTrap s.actor (tr cSECT k.pc))) ∧
    (k.mode = false → k.ctx.hdr.sqok = false → s.Issues n [b, c] →
      (∀ f, x.fault = some f → takesFault s go ch.toNat f ∧ takesFault s one ch.toNat f) ∧
      (x.fault = none → x.phase ≠ .idle → exec go s = .next u ∧ exec one s = .next u) ∧
      (x.fault = none → x.phase = .idle →
        let va := (k.rd b).toNat
        let w := k.rd c
        let lo := fld w 0 24
        let hi := fld w 24 24
        let legal : Prop := w = 0 ∨ fld w 48 16 = 0 ∧ lo % 128 = 0 ∧ hi % 128 = 0 ∧ lo < hi ∧ hi ≤ 2 ^ 23
        (va % 64 ≠ 0 → exec go s = .next (s.trapped true (tr cALIGN va))) ∧
        (∀ tg v, va % 64 = 0 → checkVa va .rd u = .ok (tg, v) →
          (¬ legal → exec go s = .next (s.trapped true (tr cRANGE))) ∧
          (legal → started go v.mem (w ≠ 0) lo hi fun y => y.recVa = va ∧ y.one = none)) ∧
        (addrWord (k.rd b) = none ∨ addrWord (k.rd c) = none → exec one s = .next (s.trapped true (tr cRANGE))) ∧
        (∀ p q, addrWord (k.rd b) = some p → addrWord (k.rd c) = some q →
          let bad : Prop := q.1 ≠ 1 ∨ q.2 % 128 ≠ 0 ∨ imm = 0 ∨ imm.toNat % 128 ≠ 0
          (2 ≤ p.1 ∨ (g = true ∧ bad) → exec one s = .next (s.trapped true (tr cRANGE))) ∧
          (p.1 < 2 → (g = true → ¬ bad) → started one s.mem (g = true) q.2 (q.2 + imm.toNat) fun y => ∃ z, y.one = some z ∧ z.total = imm.toNat ∧ z.srcSpace = p.1 ∧ z.srcAddr = p.2 ∧
              z.dstSpace = q.1 ∧ z.dstAddr = q.2 ∧ z.scope = sc.toNat ∧ z.done = 0)))) ∧
    (k.mode = false → k.ctx.hdr.sqok = false → s.Issues n [a] →
      let h := k.rd a
      let core := coreOfSrc (fld h 8 16)
      let y := (s.core core).chan (fld h 0 3)
      let bad : Prop := fld h 3 5 ≠ 0 ∨ fld h 8 16 ≠ srcOf core 5 ∨ 640 ≤ core ∨ (s.core core).crew ≠ k.crew
      let stale : Prop := y.phase = .idle ∨ y.gen ≠ fld h 24 32
      (fld h 56 8 ≠ fld k.dlost 32 8 → ∃ w, exec (.cpcan n d a) s = .next w ∧ w.me.rd d = 1 ∧ w.mem = s.mem) ∧
      (fld h 56 8 = fld k.dlost 32 8 → bad → exec (.cpcan n d a) s = .next (s.trapped true (tr cRANGE))) ∧
      (fld h 56 8 = fld k.dlost 32 8 → ¬ bad → stale → ∃ w, exec (.cpcan n d a) s = .next w ∧ w.me.rd d = 1 ∧
        w.mem = s.mem) ∧
      (fld h 56 8 = fld k.dlost 32 8 → ¬ bad → ¬ stale →
        (∀ r ∈ s.chanPosted core (fld h 0 3), r.phase = .failed ∨ r.phase = .dead) →
        u.cancelWaits core (fld h 0 3) = none → ∃ w, exec (.cpcan n d a) s = .next w ∧ w.me.rd d = 0 ∧
          (let z := (w.core core).chan (fld h 0 3)
           z.phase = .idle ∧ z.fault = none ∧ z.act = false ∧ (y.act = true → z.wm = y.hi)))) ∧
    (k.mode = false → k.ctx.hdr.sqok = false → s.Issues n [] →
      (∀ f, x.fault = some f → takesFault s (.cpwait n t d ch) ch.toNat f) ∧
      (x.fault = none → x.phase = .idle → ∃ w, exec (.cpwait n t d ch) s = .next w ∧ w.me.rd d = 0 ∧ w.mem = s.mem) ∧
      (x.fault = none → x.phase ≠ .idle → t = true → exec (.cpwait n t d ch) s = .next (s.after true 12 fun k => k.wr d 1)) ∧
      (x.fault = none → x.phase ≠ .idle → t = false → exec (.cpwait n t d ch) s = .next u)) ∧
    (k.mode = false → k.ctx.hdr.sqok = false → s.Issues n (if t then [] else [a, b]) →
      let v := s.entered false
      let pages := v.hintRuns s.actor (srcOf s.actor 0) [((k.rd a).toNat, Nat.min (k.rd b).toNat stagingSize)]
      (∀ miss, t = false → imm ≠ 0 → pages = .error miss → exec (.cphint n t a b imm) s = .next (v.askWalk miss)) ∧
      (t = true ∨ imm = 0 ∨ (∃ ps, pages = .ok ps) → ∃ w, exec (.cphint n t a b imm) s = .next w ∧
      w.me.s = k.s ∧ w.me.chans = k.chans ∧ w.me.pc = (k.advance 12).pc ∧ (imm = 0 → w.staging = s.staging ∧ w.mem = s.mem) ∧
      (t = true → w.mem = s.mem ∧ (imm ≠ 0 → ∀ e ∈ w.staging, e.2.1 ≠ k.asid * 2 ^ 32 + imm.toNat))))

/-- R76, R79–R82, R84, R89, R90, R239, R240: a chain starts only once its part has begun, with nothing ahead of it; a record that fails its
own address check ends the chain with a pending fault, and any other is asked for; NOTBEFORE holds the bytes; source bytes in memory are
asked for; a landing copies the source bytes to every team of the destination and raises the watermark, and no other byte of memory
changes; for a destination in memory it sends a write of them, and under CP 2 at a peer it gathers them in their line, which leaves as one
posted write after its last byte. At the end of a transfer STATUS is sent, then OWN, each as a release; then the chain goes on to the next
record or leaves the channel idle, with a fault pending where the STATUS is a trap code.
Log entries 21 and 46: the model's own readings. -/
def Obligations.CopyEvents : Prop :=
  ∀ (s : State) (c ch : Nat),
    let k := s.core c
    let x := k.chan ch
    let clear : Prop := (∀ p ∈ k.parts, p.id ≠ x.part) ∧ (∀ p, k.cur = some p → p.id ≠ x.part) ∧ k.contained = false ∧
      (∀ j ∈ (s.die (dieOf c)).jobs, j.core = c → x.quayBefore ≤ j.id) ∧
      ∀ r ∈ s.reqs, r.local0 c = true → x.quayBefore ≤ r.id
    let va := match x.cur with | some t => t.next | none => x.recVa
    let moved (t : State) (z : Xfer) (m : Nat) (f : Xfer → Prop) : Prop := ∃ y,
      ((t.core c).chan ch).cur = some y ∧ y.done = z.done + m ∧ f y ∧
      ((t.core c).chan ch).phase = (if z.done + m < z.total then .moving else .ending) ∧
      (x.act = true → ((t.core c).chan ch).wm = x.lo + (z.dstAddr + (z.done + m) - x.lo) / 128 * 128)
    let landed (t : State) (z : Xfer) (m v : Nat) (mem : Memory) : Prop :=
      let key (tm : Nat) : Nat := dstKey z tm (z.at z.done).2
      moved t z m (fun _ => True) ∧ (∀ tm ∈ z.teams, t.mem.getNat (key tm) m = v % 2 ^ (8 * m)) ∧
        ∀ a, (∀ tm ∈ z.teams, a < key tm ∨ key tm + m ≤ a) → t.mem.get a = mem.get a
    let sentTo (t : State) (z : Xfer) (g : Target) (m v : Nat) : Prop :=
      let va := (z.at z.done).2
      let lines : Prop := g.apt = 3 ∧ lCp g.leaf = 2
      t.mem = s.mem ∧
      (¬ lines → moved t z m (fun y => y.lines = z.lines) ∧
        ∃ r ∈ t.reqs, r.kind = .write v ∧ r.key = g.key ∧ r.size = m ∧ r.va = va ∧ r.apt = g.apt ∧ r.chan = some (ch, x.gen)) ∧
      (lines → z.later (va / 64) (z.done + m) = true → moved t z m fun y => ∃ l, y.lines.find (va / 64) = some l ∧
        ∀ j, j < m → l.2.1.testBit (va % 64 + j) = true ∧ l.2.2 / 2 ^ (8 * (va % 64 + j)) % 256 = v / 2 ^ (8 * j) % 256) ∧
      (lines → z.later (va / 64) (z.done + m) = false → moved t z m fun y => y.lines.find (va / 64) = none ∧
        ∃ r ∈ t.reqs, ∃ mask w, r.kind = .line mask w ∧ r.posted = true ∧ r.apt = 3 ∧ r.size = 64 ∧ r.va = 64 * (va / 64) ∧
          r.chan = some (ch, x.gen) ∧ ∀ j, j < m → mask.testBit (va % 64 + j) = true ∧
            w / 2 ^ (8 * (va % 64 + j)) % 256 = v / 2 ^ (8 * j) % 256)
    (¬ (x.phase = .awaiting ∧ clear) → exec (.chainStart c ch) s = .next s) ∧
    (x.phase = .awaiting → clear → x.one = none → ∃ t, exec (.chainStart c ch) s = .next t ∧
      ((t.core c).chan ch).phase = .fetch ∧ t.mem = s.mem ∧ (t.core c).s = k.s) ∧
    (∀ e, x.phase ≠ .fetch → exec (.recordFetch c ch e) s = .next s) ∧
    (∀ e, x.phase = .fetch → k.contained = false → x.rdReq = none →
      (∀ code, code ≠ cECCU → s.look c (srcOf c 5) va .rd true = .bad code →
        ∃ t, exec (.recordFetch c ch e) s = .next t ∧ ((t.core c).chan ch).phase = .idle ∧
          ((t.core c).chan ch).fault = some (tr code va ch 5) ∧ t.mem = s.mem) ∧
      (∀ tg, s.look c (srcOf c 5) va .rd true = .hit tg → s.logCount c < 256 →
        ∃ t r, exec (.recordFetch c ch e) s = .next t ∧ t.reqs = s.reqs ++ [r] ∧ r.kind = .read ∧ r.key = tg.key ∧ r.size = 64 ∧
          r.phase = .sent ∧ ((t.core c).chan ch).rdReq = some s.nextReq ∧ t.mem = s.mem)) ∧
    (∀ z, x.phase = .notBefore → x.cur = some z →
      (s.gtc < z.notBefore → exec (.notbeforeExpiry c ch) s = .next s) ∧
      (z.notBefore ≤ s.gtc → ∃ t, exec (.notbeforeExpiry c ch) s = .next t ∧ ((t.core c).chan ch).phase = .moving ∧
        ((t.core c).chan ch).cur = some z ∧ t.mem = s.mem)) ∧
    (∀ z, x.phase = .moving → x.cur = some z → k.contained = false → s.logCount c < 255 → s.chanPosted c ch = [] → z.hint = false →
      z.checked = z.teams → z.failed = [] → z.lchk = false → s.cpLanded = [] → s.memOk →
      let m := z.run 8 z.done
      let at_ := z.at z.done
      let key (tm : Nat) : Nat := dstKey z tm at_.2
      let apart (n : Nat) : Prop := z.dstSpace ≠ 0 ∧ z.teams.Nodup ∧
        ∀ p ∈ z.teams, ∀ q ∈ z.teams, p ≠ q → key p + n ≤ key q ∨ key q + n ≤ key p
      let memory (g : Target) : Prop := z.dstSpace = 0 ∧ z.teams = [] ∧ s.look c (srcOf c 5) at_.2 .wr true = .hit g
      (∀ v s2, z.rdReq = none → z.srcSpace = 1 → s.copyRead c ch z.scope (kSpad (teamOf c) at_.1) m = (v, s2) →
        (apart m → ∃ t, exec (.granuleLanding c ch .none) s = .next t ∧ landed t z m v s.mem) ∧
        (∀ g, memory g → ∃ t, exec (.granuleLanding c ch .none) s = .next t ∧ sentTo t z g m v)) ∧
      (∀ g, z.rdReq = none → z.srcSpace = 0 → s.look c (srcOf c 5) at_.1 .rd true = .hit g →
        z.dstSpace ≠ 0 ∨ (∃ d, memory d) →
        ∃ t r y, exec (.granuleLanding c ch .none) s = .next t ∧ t.reqs = s.reqs ++ [r] ∧ r.kind = .read ∧ r.key = g.key ∧
          r.size = m ∧ ((t.core c).chan ch).cur = some y ∧ y.rdReq = some (s.nextReq, m) ∧ y.done = z.done ∧ t.mem = s.mem) ∧
      (∀ n i r, z.rdReq = some (i, n) → s.req i = some r → r.phase = .performed → 0 < n → n ≤ 8 → at_.2 % 8 + n ≤ 8 →
        (apart n → ∃ t, exec (.granuleLanding c ch .none) s = .next t ∧ landed t z n r.old s.mem) ∧
        (∀ g, memory g → ∃ t, exec (.granuleLanding c ch .none) s = .next t ∧ sentTo t z g n r.old))) ∧
    (∀ z, x.phase = .ending → x.cur = some z → k.contained = false → z.lines = [] →
      let y (t : State) : Chan := (t.core c).chan ch
      let ends (st : Nat) : Prop := ∃ t, exec (.recordComplete c ch) s = .next t ∧ (t.core c).s = k.s ∧ t.mem = s.mem ∧
        (let ok : Prop := st = 0 ∨ st = 0xFF
         (ok → z.last = false → (y t).phase = .fetch) ∧
         (ok → z.last = true → (y t).phase = .idle ∧ (y t).fault = none ∧ (y t).act = false ∧ (x.act = true → (y t).wm = x.hi)) ∧
         (¬ ok → st ≠ cECCU → (y t).phase = .idle ∧ (y t).act = false ∧ ∃ f, (y t).fault = some f ∧ f.code = st ∧ f.detail = ch ∧
           f.eng = 5 ∧ f.addr = if z.status = 0 then z.recVa else z.taddr))
      let putIs (t : State) (f : RecPut → Prop) : Prop := t.mem = s.mem ∧ (y t).phase = .ending ∧
        ∃ z' p, (y t).cur = some z' ∧ z'.put = some p ∧ f p
      (z.put = none → s.chanPosted c ch = [] → z.words = [] → ends z.endStatus) ∧
      (z.put = none → s.chanPosted c ch = [] → z.words ≠ [] → ∃ t, exec (.recordComplete c ch) s = .next t ∧
        putIs t fun p => p.st = z.endStatus ∧ p.own = false ∧ p.req = none) ∧
      (z.put = none → (∃ r ∈ s.chanPosted c ch, s.endWaits z.scope r = true) → ∃ t, exec (.recordComplete c ch) s = .next t ∧
        t.mem = s.mem ∧ t.reqs = s.reqs ∧ (y t).phase = .ending ∧ (y t).cur = some z) ∧
      (∀ p g, z.put = some p → p.req = none → s.look c (srcOf c 5) z.recVa .wr true = .hit g → s.logCount c < 256 →
        let w (i : Nat) : Nat := (z.words.getD i 0).toNat
        ∃ t r, exec (.recordComplete c ch) s = .next t ∧ t.reqs = s.reqs ++ [r] ∧ r.size = 8 ∧ r.apt = g.apt ∧
          r.rels = [s.chanRelease c ch z.scope] ∧
          (p.own = false → r.kind = .write (w 7 / 256 * 256 + p.st) ∧ r.key = g.key + 56) ∧
          (p.own = true → r.kind = .write (w 0 / 2 * 2) ∧ r.key = g.key) ∧
          putIs t fun q => q.st = p.st ∧ q.own = p.own ∧ q.req = some s.nextReq) ∧
      (∀ p i, z.put = some p → p.req = some i →
        (∀ r, s.req i = some r → r.pending = true ∨ p.own = true ∧ r.phase = .performed → exec (.recordComplete c ch) s = .next s) ∧
        (p.own = false → s.req i = none ∨ (∃ r, s.req i = some r ∧ r.phase = .performed) →
          ∃ t, exec (.recordComplete c ch) s = .next t ∧ putIs t fun q => q.st = p.st ∧ q.own = true ∧ q.req = none) ∧
        (p.own = true → s.req i = none → ends p.st)))

/-- R114–R119: QOP, QRED and QFILL with operands in the die's own quay memory are issued behind the core's earlier ones, and wait while 64
are pending. Each element of the oldest first takes an entry of the core's operand log, where it has room, and then reads at its home, and
for QOP and QFILL writes it and no other byte; an uncorrectable error stops the instruction and contains its pacer. The completion adds
the flags to QSTAT. In a handler each traps ILLOP, and in a section with SQOK SECT (R204).
Log entry 22: the model's own readings. -/
def Obligations.QuayWords : Prop :=
  ∀ (s : State) (n : Ann) (op : QopOp) (ro : QredOp) (f : Fmt) (sat o32 : Bool) (w : BitVec 2) (d a b : SReg)
    (cnt : BitVec 24),
    let k := s.me
    let u := s.entered false
    let die := dieOf s.actor
    let opnd (r : SReg) (z len : Nat) (acc : Acc) : QOperand := { va := (k.rd r).toNat, z := z, len := len, acc := acc }
    let issued (i : Instr) (os : List QOperand) : Prop := ∀ pages v, quayAll os u = .ok (pages, v) →
      (64 ≤ s.pend s.actor → exec i s = .next u) ∧
      (s.pend s.actor < 64 → ∃ t j, exec i s = .next t ∧ (t.die die).jobs = (s.die die).jobs ++ [j] ∧ j.id = s.nextReq ∧
        j.core = s.actor ∧ j.i = i ∧ j.d = (k.rd d).toNat ∧ j.n = cnt.toNat ∧ j.done = 0 ∧ j.pages = pages ∧ t.me.s = k.s ∧
        t.mem = v.mem)
    let z := f.bytes
    let qop : Instr := .qop n op f sat d a b cnt
    let qred : Instr := .qred n ro f o32 d a cnt
    let qfill : Instr := .qfill n w d a cnt
    (k.mode = true → ∀ i ∈ [qop, qred, qfill], exec i s = .next (s.preciseTrap s.actor (tr cILLOP))) ∧
    (k.mode = false → k.ctx.hdr.sqok = true → ∀ i ∈ [qop, qred, qfill], exec i s = .next (s.preciseTrap s.actor (tr cSECT k.pc))) ∧
    (k.mode = false → k.ctx.hdr.sqok = false → s.Issues n [d, a, b] →
      issued qop ([opnd a z (z * cnt.toNat) .rd] ++
        (if op = .scal ∨ op = .cpy then [] else [opnd b z (z * cnt.toNat) .rd]) ++ [opnd d z (z * cnt.toNat) .wr])) ∧
    (k.mode = false → k.ctx.hdr.sqok = false → s.Issues n [d, a] →
      (let y := if o32 then 4 else 8
       issued qred [opnd a z (z * cnt.toNat) .rd, opnd d y y .wr]) ∧
      issued qfill [opnd d (2 ^ w.toNat) (2 ^ w.toNat * cnt.toNat) .wr]) ∧
    (∀ m j, s.quayJob die m = some j → s.watchers = [] →
      let at_ (va y : Nat) : Nat := s.mem.getNat (j.key (va + y * j.done)) y
      let stepped (mem : Memory) : Prop := ∃ t, exec (.quayElementStep die m .none) s = .next t ∧ t.mem = mem ∧
        ∃ j', (t.die die).jobs.find? (fun x => x.id == m) = some j' ∧ j'.done = j.done + 1 ∧ j'.core = j.core ∧ j'.entry = none
      let sent : Prop := j.done < j.n ∧ j.entry ≠ none
      (j.n ≤ j.done → exec (.quayElementStep die m .none) s = .next s) ∧
      (j.done < j.n → j.entry = none →
        (256 ≤ s.logCount j.core → exec (.quayElementStep die m .none) s = .next s) ∧
        (s.logCount j.core < 256 → ∃ t j', exec (.quayElementStep die m .none) s = .next t ∧
          (t.die die).jobs.find? (fun x => x.id == m) = some j' ∧ j' = { j with entry := j'.entry } ∧ j'.entry ≠ none ∧ t.mem = s.mem)) ∧
      (sent → dieOf j.core = die → ∃ t, exec (.quayElementStep die m .ecc) s = .next t ∧ (∀ x ∈ (t.die die).jobs, x.id ≠ m) ∧
        .containment j.core cECCU ∈ t.agenda ∧ t.mem = s.mem) ∧
      (sent → j.i = qop → stepped (s.mem.setNat (j.key (j.d + z * j.done)) z
        (qopElem op f sat (at_ j.a z) (if op = .scal ∨ op = .cpy then 0 else at_ j.b z) j.fill).1)) ∧
      (sent → j.i = qfill → stepped (s.mem.setNat (j.key (j.d + 2 ^ w.toNat * j.done)) (2 ^ w.toNat)
        (j.fill.toNat % 2 ^ (8 * 2 ^ w.toNat)))) ∧
      (sent → j.i = qred → stepped s.mem) ∧
      (j.done < j.n → exec (.quayInstructionComplete die m) s = .next s) ∧
      (j.n ≤ j.done → j.i = qop ∨ j.i = qfill → j.core < 640 → ∃ t, exec (.quayInstructionComplete die m) s = .next t ∧
        (t.core j.core).qstat = (s.core j.core).qstat ||| BitVec.ofNat 64 (flags4 j.flags) ∧
        (∀ x ∈ (t.die die).jobs, x.id ≠ m) ∧ t.mem = s.mem) ∧
      (j.n ≤ j.done → j.i = qred → ∃ t, exec (.quayInstructionComplete die m) s = .next t ∧
        t.mem = s.mem.setNat (j.key j.d) (if o32 then 4 else 8) (qredEnd ro o32 j.acc).1 ∧
        (∀ x ∈ (t.die die).jobs, x.id ≠ m))) ∧
    (∀ m, s.quayJob die m = none → exec (.quayElementStep die m .none) s = .next s ∧
      exec (.quayInstructionComplete die m) s = .next s)

/-- R72, R213, R222, R231–R234, R237, R241, R242, R356, R379, R387, R397: a request is performed at its home once, in its order: a write
stores its bytes and no others, an atomic and a CAS store their new value and answer the old one, an atomic makes its releases, which
under AR carry what its read acquires, and a read answers what the home holds. Host bias and a row repair hold it, in the order of
arrival; a refused or lost one fails, as does one behind a failed write of its line, and a re-issue repeats one that is still pending. -/
def Sys2Proof.Claims.Homes : Prop :=
  ∀ (s : State) (n : Nat) (r : Req), s.req n = some r → kSpace r.key < 7 → s.memOk →
    let ready : Prop := r.pending = true ∧ s.inOrder r = true ∧ s.lineLost r = false ∧ s.inService r.key = true ∧
      ¬ (r.apt = 3 ∧ (peerValid r.key = false ∨ s.reaches r.key = false))
    let open_ : Prop := ready ∧ s.repairing r.key = false ∧ ¬ (r.apt = 0 ∧ s.deviceBias r.devBias r.key = false ∧ r.snooped = false)
    let old := s.mem.getNat r.key r.size
    let does (i : Instr) (f : State → Prop) : Prop := ∃ t, exec i s = .next t ∧ f t
    let home := Instr.homeStep n .none
    let done (t : State) (old : Nat) (ms : List Msg) : Prop := nowReq t n { r with crc := (0, 0), phase := .performed, old := old, msgs := ms }
    let far : Prop := r.apt = 2 ∨ r.apt = 3
    (r.pending = false ∨ s.inOrder r = false → exec home s = .next s) ∧
    (r.pending = true → s.inOrder r = true → s.lineLost r = true → does home fun t =>
      nowReq t n { r with phase := .failed } ∧ t.mem = s.mem) ∧
    (ready → s.repairing r.key = true → (r.phase = .held → exec home s = .next s) ∧ (r.phase ≠ .held →
      does home fun t => nowReq t n { r with phase := .held, heldAt := s.count } ∧ t.mem = s.mem)) ∧
    (ready → s.repairing r.key = false → r.apt = 0 → s.deviceBias r.devBias r.key = false → r.snooped = false →
      does home fun t => nowReq t n { r with phase := .snoop } ∧ t.mem = s.mem) ∧
    (∀ v, open_ → s.watchers = [] → r.kind = .write v → r.chan = none → does home fun t =>
      Stored s.mem t.mem r.key r.size v ∧ (far → done t 0 []) ∧ (¬ far → t.req n = none)) ∧
    (open_ → s.watchers = [] → r.kind = .read → r.ordinary = false → does home fun t => t.mem = s.mem ∧ ∃ ms, done t old ms) ∧
    (open_ → s.watchers = [] → r.kind = .read → r.ordinary = true → r.chan = none → does home fun t => t.mem = s.mem ∧
      ∃ v ms, done t v ms) ∧
    (∀ op ty v, open_ → s.watchers = [] → r.kind = .atom op ty v → does home fun t =>
      Stored s.mem t.mem r.key r.size (atomNew op ty old v) ∧ ∃ ms x, done t old ms ∧
        (t.wordHist (r.key / 8)).ws.getLast? = some x ∧ ∀ m ∈ s.arRels r ms, m ∈ x.msgs) ∧
    (∀ e v, open_ → s.watchers = [] → r.kind = .cas e v → does home fun t =>
      (old = e → Stored s.mem t.mem r.key r.size v) ∧ (old ≠ e → t.mem = s.mem) ∧ ∃ ms, done t old ms) ∧
    (r.pending = true → s.inOrder r = true → r.apt = 3 → does (.homeStep n .peer) fun t =>
      nowReq t n { r with phase := .failed } ∧ t.mem = s.mem) ∧
    (r.phase = .snoop → does (.hostSnoopResponse n) fun t => nowReq t n { r with phase := .sent, snooped := true }) ∧
    (r.stores = true → r.phase = .performed → does (.writeAcknowledgement n) fun t => t.req n = none ∧ t.mem = s.mem) ∧
    (r.stores = true → r.pending = true ∨ r.phase = .performed → far → does (.writeRefused n) fun t =>
      nowReq t n { r with phase := .failed } ∧ t.mem = s.mem) ∧
    (r.pending = true ∨ r.phase = .performed → r.tries < 8 → does (.operandLogReissue n) fun t =>
      nowReq t n { r with tries := r.tries + 1 } ∧ t.mem = s.mem) ∧
    (r.pending = true → 8 ≤ r.tries → (far → does (.operandLogReissue n) fun t => nowReq t n { r with phase := .failed }) ∧
      (¬ far → does (.operandLogReissue n) fun t => nowReq t n { r with phase := .dead })) ∧
    (∀ l, s.reqs = [r] → r.apt = 3 → r.pending = true ∨ r.phase = .performed →
      let tries := if r.crc.1 = l then r.crc.2 else 0
      does (.flitCrcFail l) fun t => t.mem = s.mem ∧
        (tries < 16 → nowReq t n { r with crc := (l, tries + 1) } ∧ (t.ports.get Port.reset l).retries = tries + 1) ∧
        (16 ≤ tries → nowReq t n { r with crc := (l, 0) } ∧ t.agenda = s.agenda ++ [.operandLogReissue n])) ∧
    (∀ st row, (st, row) ∉ s.repairs → s.rowThreshold < s.corrected.get 0 (rowKey st row) → does (.rowRepair st row) fun t =>
      t.repairs = s.repairs ++ [(st, row)] ∧ t.log.length ≤ 4096 ∧ t.mem = s.mem) ∧
    (∀ st row, r.phase = .held → stackOf r.key = st → Config.rowOf r.key = row → does (.rowRepairComplete st row) fun t =>
      nowReq t n { r with phase := .sent } ∧ .homeStep n .none ∈ t.agenda ∧ (st, row) ∉ t.repairs ∧ t.mem = s.mem)

/-- R58, R65, R67–R69, R74, R387: a walk is held at a row in repair; one whose tables or checks fail is left with its trap code for the access that asked; one that finds A or D
to set sets them in the leaf and no other byte; any other is cached for the core and served. -/
def Sys2Proof.Claims.TableWalks : Prop :=
  ∀ (s : State) (d : Nat) (w : Walk), (s.die d).walks = [w] → w.slot = true → w.out = none → s.watchers = [] → s.memOk →
    let k (t : State) : Core := t.core w.core
    let fails (e : Err) (code : Nat) : Prop := ∃ t l, exec (.tableWalk d e) s = .next t ∧
      (t.die d).walks = [{ w with slot := false, out := some (code, l) }] ∧ t.mem = s.mem
    (s.walkHeld (s.walkReads d w.asid w.va) = true → ∀ e, ∃ t, exec (.tableWalk d e) s = .next t ∧ (t.die d).walks = [w] ∧
      t.mem = s.mem) ∧
    (s.walkHeld (s.walkReads d w.asid w.va) = false →
    let served : Prop := ∀ a ∈ s.walkReads d w.asid w.va, s.inService (kHbm a) = true
    (∀ e, e ≠ .none ∨ ¬ served → fails e cECCU) ∧
    (∀ code, served → s.walkTables d w.asid w.va = .error code → fails .none code) ∧
    (∀ f, served → s.walkTables d w.asid w.va = .ok f →
      (∀ code, leafCheck s f.level f.leaf w.va w.acc w.user = some code → fails .none code) ∧
      (leafCheck s f.level f.leaf w.va w.acc w.user = none →
        (needsAD f.leaf w.acc = true → ∃ t, exec (.tableWalk d .none) s = .next t ∧ (t.die d).walks = [w] ∧
          Stored s.mem t.mem (kHbm f.addr) 8
            (f.leaf ||| 0x200 ||| (if w.acc = .wr ∨ w.acc = .atomic then 0x400 else 0)).toNat) ∧
        (needsAD f.leaf w.acc = false → ∃ t x, exec (.tableWalk d .none) s = .next t ∧ (t.die d).walks = [] ∧ t.mem = s.mem ∧
          (k t).tlb.head? = some x ∧ x.asid = w.asid ∧ x.leaf = f.leaf ∧ x.level = f.level ∧
          x.vpn = w.va / 2 ^ levelShift f.level ∧ (k t).s = (s.core w.core).s))))

/-- R58, R65, R67–R69, R72, R74, R213, R222, R231–R234, R237, R241, R242, R356, R379, R387, R397: homes, and the walkers.
Log entries 9, 17, 39 and 44: the model's own readings. -/
def Obligations.HomesAndTableWalks : Prop :=
  Sys2Proof.Claims.Homes ∧ Sys2Proof.Claims.TableWalks

-- Containment, pre-emption, the host's commands, firmware, boot and the specialiser (R269, R279–R284, R357–R364, R374–R389).

namespace Sys2Proof.Claims

/-- A well-formed command `opc` with arguments a0 and a1 stands at the head of the ring (R375); `u` is the state after its read. -/
def Heads (s u : State) (opc a0 a1 : Nat) : Prop :=
  s.outstanding = true ∧ fld s.headWord 0 8 = opc ∧
    ∃ x, s.hostRead (s.crbase.toNat + 64 * s.cmdSlot) 64 = (x, u) ∧
      (let w := BitVec.ofNat 512 x
       fld w 8 8 = 0 ∧ fld w 32 32 = 0 ∧ fld w 256 256 = 0 ∧ fld w 64 64 = a0 ∧ fld w 128 64 = a1)

/-- The command completes with STATUS and RESULT, from a state with this property. -/
def Completes (s : State) (i : Instr) (status result : Nat) (p : State → Prop) : Prop :=
  ∃ v, exec i s = .next (v.completeCmd status result) ∧ p v

/-- A firmware core's word does this and goes on: registers by `x`, every other register kept, the pc 4 higher. -/
def FwDone (s t : State) (x : BitVec 5 → Option Word) : Prop :=
  let n := s.actor % 4
  (t.fwc n).pc = (s.fwc n).pc + 4 ∧
    (∀ r, (t.fwc n).rd r = if r = 0 then 0 else match x r with | some v => v | none => (s.fwc n).rd r) ∧
    (t.fwc n).machine = (s.fwc n).machine ∧ t.cores = s.cores ∧ t.mem = s.mem

/-- A firmware core's synchronous trap: mepc, mcause, mtval, the status bits and the pc, and nothing of the word's effect. -/
def FwTrapped (s t : State) (cause : Nat) : Prop :=
  let n := s.actor % 4
  let k := s.fwc n
  let k' := t.fwc n
  k'.mepc = k.pc ∧ k'.mcause = BitVec.ofNat 64 cause ∧ k'.mtval = 0 ∧ k'.machine = true ∧
    k'.pc = BitVec.ofNat 64 (k.mtvec.toNat / 4 * 4) ∧ fld k'.mstatus 3 1 = 0 ∧ fld k'.mstatus 7 1 = fld k.mstatus 3 1 ∧
    fld k'.mstatus 11 2 = (if k.machine then 3 else 0) ∧ (∀ r, k'.rd r = k.rd r) ∧ t.cores = s.cores ∧ t.mem = s.mem ∧
    t.ready = s.ready ∧ t.fwMail = s.fwMail

end Sys2Proof.Claims

/-- R357–R359: containment stops the core: its queues, parts, reads, slots and lease are given up, its crew counts it lost, and every other running
core of the crew is owed its PEERLOST (R359); a core with no crew, or one already contained that has left its units, is left as it is.
Log entry 28: the model's own readings. -/
def Obligations.Containment : Prop :=
  ∀ (s : State) (c cause : Nat),
    let k := s.core c
    (k.crew = none ∨ k.contained = true ∧ k.leaving = false ∨ k.contained = false ∧ k.wait = .ended →
      exec (.containment c cause) s = .next s) ∧
    (k.crew ≠ none → k.contained = true → k.leaving = true → ∃ t, exec (.containment c cause) s = .next t ∧
      (t.core c).contained = true ∧ (t.core c).s = k.s) ∧
    (∀ e, k.crew = some e → k.contained = false → k.wait ≠ .ended → ∃ t, exec (.containment c cause) s = .next t ∧
      (t.core c).contained = true ∧ (t.core c).crew = some e ∧ (t.core c).q = [] ∧ (t.core c).fly = [] ∧ (t.core c).parts = [] ∧
      (t.core c).wait = .none ∧ (t.core c).s = k.s ∧ (∀ o ∈ (t.team (teamOf c)).owner, o.2 ≠ c) ∧
      (∀ r ∈ t.reqs, r.core = c → r.kind ≠ .read) ∧
      (∀ x n, (t.team (teamOf c)).lease = some (x, n) → x ≠ c) ∧
      (∃ b, (k.leg, c, b) ∈ (t.crew e).lost) ∧
      (∀ c', c' ≠ c → (s.core c').crew = some e → (s.core c').wait ≠ .ended → (s.core c').contained = false →
        srcOf c 0 ∈ (t.core c').owed))

/-- R174, R360, R361, R377: a core at a section start of a crew whose pre-emption is pending stops, and waits for the team's array no
longer; once its work is at rest its registers are
saved; all the crew's cores are free once the last of them has saved, each core's registers kept with its leg; a resumed leg, its save
areas in no row in repair, runs again from the cores the die's unit chooses.
Log entry 29: the model's own readings. -/
def Obligations.Preemption : Prop :=
  (∀ (s : State) (c e : Nat),
    let k := s.core c
    let key := k.leg * 1024 + c
    k.crew = some e → c < 640 → (∀ y ∈ s.cores, y.1 < 640) → (s.cores.map fun y => y.1).Nodup →
    (k.wait ≠ .preempt → s.preemptNow c = true →
      ∃ t, exec (.preemptTake c) s = .next t ∧ (t.core c).wait = .preempt ∧ (t.core c).s = k.s ∧ (t.core c).pc = k.pc ∧
        (t.core c).q = k.q ∧ (∀ r ∈ (t.team (teamOf c)).reqs, r.2.2.1 ≠ c) ∧ (∀ r ∈ s.reqs, r.asks c = false → r ∈ t.reqs) ∧
        t.mem = s.mem) ∧
    (k.wait = .preempt → k.frozen = false → k.contained = false → (s.crew e).saved.find key = none → s.preemptQuiet c = true →
      ((∃ y ∈ s.cores, y.2.crew = some e ∧ y.1 ≠ c ∧ s.hasSaved e y.1 = false) →
        ∃ t, exec (.preemptTake c) s = .next t ∧ (t.crew e).saved.find key = some k ∧ (t.core c).crew = some e ∧
          (t.core c).s = k.s) ∧
      ((∀ y ∈ s.cores, y.2.crew = some e → y.1 = c ∨ s.hasSaved e y.1 = true) →
        (∀ y ∈ s.cores, ∀ z ∈ s.cores, y.2.crew = some e → z.2.crew = some e → y.2.leg = z.2.leg → y.2.origin = z.2.origin) →
        ∃ t, exec (.preemptTake c) s = .next t ∧ (t.crew e).preempt = false ∧ ∀ y ∈ s.cores, y.2.crew = some e →
          (t.core y.1).crew = none ∧ (t.crew e).legs.find y.2.leg = some (.saved y.2.origin) ∧
          ∃ k', (t.crew e).saved.find (y.2.leg * 1024 + y.1) = some k' ∧ k'.s = y.2.s ∧ k'.pc = y.2.pc))) ∧
  (∀ (s : State) (e leg lo old : Nat) (l : List (Nat × Nat)), s.nextStart (e / 256) = some (e, (leg, lo) :: l) →
    (s.crew e).legs.find leg = some (.saved old) → (∀ y ∈ (s.crew e).saved, y.2.leg = leg → s.areaHeld y.2.area = false) →
    ∃ t, exec (.crewResume e) s = .next t ∧ (t.crew e).legs.find leg = some (.running lo))

/-- R63, R72, R282, R374–R376, R378, R384, R385, R388: the commands that register and set complete with OK and their effect, or with
BADARG and none; a command no row gives completes BADCMD, and one that dock mode does not take REFUSED. A completion stands in its
ring slot (its bytes: R375), and CDONE counts it.
Log entry 30: the model's own readings. -/
def Obligations.SettingCommands : Prop :=
  ∀ (s u : State) (opc a0 a1 : Nat), Heads s u opc a0 a1 → s.retireDue = none →
    (s.barMode = 0 →
      (opc = 4 →
        (a0 < 64 → a1.testBit 1 = false → a1 < 2 ^ 55 → Completes s .setvec 0 0 fun v =>
          v.vecs.find a0 = some (BitVec.ofNat 64 a1) ∧ v.mem = s.mem ∧ v.cores = s.cores) ∧
        (64 ≤ a0 ∨ a1.testBit 1 = true ∨ 2 ^ 55 ≤ a1 → exec .setvec s = .next (u.completeCmd 2 0))) ∧
      (opc = 5 →
        (a0 < 64 → ptbaseOk (BitVec.ofNat 64 a1) = true → Completes s .setroot 0 0 fun v =>
          ∀ d, d < 8 → (v.die d).roots.find a0 = some (BitVec.ofNat 64 a1) ∧ (∀ x ∈ (v.die d).wtlb, x.asid ≠ a0) ∧
            ∀ c, dieOf c = d → ∀ x ∈ (v.core c).tlb, x.asid ≠ a0) ∧
        (64 ≤ a0 ∨ ptbaseOk (BitVec.ofNat 64 a1) = false → exec .setroot s = .next (u.completeCmd 2 0))) ∧
      (opc = 6 →
        (a0 < 512 → a1 < 2 → Completes s .bias 0 0 fun v => v.bias.find a0 = some (decide (a1 = 1)) ∧ v.mem = s.mem) ∧
        (512 ≤ a0 ∨ 2 ≤ a1 → exec .bias s = .next (u.completeCmd 2 0))) ∧
      (opc = 7 →
        (a0 < 64 ∨ a0 = 0xFFFF → Completes s .specflush 0 0 fun v => ∀ p, p ∈ v.spec ↔
          p ∈ s.spec ∧ (p.2.pins ≠ [] ∨ a0 ≠ 0xFFFF ∧ p.2.asid ≠ a0)) ∧
        (64 ≤ a0 → a0 ≠ 0xFFFF → exec .specflush s = .next (u.completeCmd 2 0))) ∧
      (opc = 10 →
        (∀ lim base, (a0, lim, base) ∈ [(1, 8, 648), (2, 32, 656), (3, 24, 688)] → a1 < lim → Completes s .retire 0 0 fun v =>
          v.ready.getLsbD (base + a1) = false ∧ ∀ j, j ≠ base + a1 → v.ready.getLsbD j = s.ready.getLsbD j) ∧
        (∀ e, a0 = 0 → a1 < 640 → (u.core a1).crew = some e → a1 ∉ s.retiring → Completes s .retire 0 0 fun v =>
          v.ready.getLsbD a1 = false ∧ a1 ∈ v.retiring ∧
            ((∀ c ∈ u.crewCores e, bit (u.core c).saveptr 0 = true) → (v.crew e).preempt = true)) ∧
        (a0 = 0 → a1 < 640 → (u.core a1).crew = none → a1 ∉ s.retiring → Completes s .retire 0 0 fun v => a1 ∉ v.retiring ∧
          (v.ready.getLsbD a1 = true ↔ ∃ j, j < 4 ∧ s.spare.find (4 * dieOf a1 + j) = none) ∧
          (s.cfgs ≠ [] → v.ready.getLsbD a1 = true → ∃ r, v.cfgs.head? = some r ∧ r.spares = v.spare)) ∧
        (4 ≤ a0 → exec .retire s = .next (u.completeCmd 2 0))) ∧
      (opc = 11 →
        (1 ≤ a1 → a1 ≤ 4096 → a0 + 64 * a1 ≤ 2 ^ 52 → Completes s .logread 0 (min a1 s.log.length) fun v =>
          v.log = s.log.drop (min a1 s.log.length) ∧ (s.watchers = [] → s.memOk → ∀ j, j < min a1 s.log.length →
            v.mem.getNat (kHost (a0 + 64 * j)) 64 = (s.log.getD j 0).toNat)) ∧
        (a1 = 0 ∨ 4096 < a1 ∨ 2 ^ 52 < a0 + 64 * a1 → exec .logread s = .next (u.completeCmd 2 0))) ∧
      (opc = 12 → a0 < 64 →
        (a1 = 0 → Completes s .setsave 0 0 fun v => v.pools.find a0 = none) ∧
        (a1 ≠ 0 → a1 % 65536 = 0 → a1 / 2 ^ 36 = (a1 + 640 * Config.saveSize - 1) / 2 ^ 36 → a1 < 2 ^ 39 →
          Completes s .setsave 0 0 fun v => v.pools.find a0 = some a1) ∧
        (a1 % 65536 ≠ 0 → exec .setsave s = .next (u.completeCmd 2 0))) ∧
      (opc = 0 ∨ 12 < opc → exec .launchCommand s = .next (u.completeCmd 1 0))) ∧
    (s.barMode = 1 → 1 ≤ opc → opc ≤ 12 → opc ∉ [8, 9, 11] → exec (opcStep opc) s = .next (u.completeCmd 3 0)) ∧
    (∀ status result, u.memOk → u.watchers = [] → status < 2 ^ 16 →
      (u.completeCmd status result).cdone = (u.cdone + 1) % 2 ^ 32 ∧
      Stored u.mem (u.completeCmd status result).mem (kHost (u.cpbase.toNat + 16 * u.cmdSlot)) 16
        (fld u.headWord 16 16 + status * 2 ^ 16 + result * 2 ^ 64)) ∧
    (∀ v, ∃ t, exec (.door v) s = .next t ∧ t.doorv = fld v 0 32 ∧ t.mem = s.mem ∧ t.cdone = s.cdone)

/-- R360, R374–R376, R382, R384, R389: LAUNCH completes with the handle or status that the launch unit answers; PREEMPT stays incomplete
while the request is pending; KILL contains the crew's cores; FWSTAGE stores a valid image in the slot that is not running; FWACTIVATE
starts it; and an image that has not reported healthy gives way. The image's layout and the report are the model's (log entries 31
and 35). -/
def Obligations.CrewAndImageCommands : Prop :=
  ∀ (s u : State) (opc a0 a1 : Nat), Heads s u opc a0 a1 → s.barMode = 0 →
    let f (k : Nat) : FwSlot := s.slots.get FwSlot.reset k
    (opc = 1 →
      (64 ≤ a1 ∨ a0 % 128 ≠ 0 → exec .launchCommand s = .next (u.completeCmd 2 0)) ∧
      (∀ f, a1 < 64 → a0 % 128 = 0 → u.readVa cmdSrc 0 a1 a0 128 true = .error (.trap f) →
        exec .launchCommand s = .next (u.completeCmd 0 lXLATE)) ∧
      (∀ g l, a1 < 64 → a0 % 128 = 0 → u.readVa cmdSrc 0 a1 a0 128 true = .error (.snoop g l) →
        exec .launchCommand s = .next (u.askSnoops none g l)) ∧
      (∀ r v, a1 < 64 → a0 % 128 = 0 → u.readVa cmdSrc 0 a1 a0 128 true = .ok (r, v) →
        (let x := BitVec.ofNat 1024 r
         let d := if rAny x then 0 else dieOf (rOrigin x) % 8
         let v1 := v.setView (launchSrc d) ((v.view (launchSrc d)).join (v.view cmdSrc).k)
         (rAsid x ≠ a1 → exec .launchCommand s = .next (v.completeCmd 2 0)) ∧
         (rAsid x = a1 → ∃ m, (∀ h w, v1.accept (launchSrc d) d none none false m x = .ok (h, w) →
             exec .launchCommand s = .next (((w.endSnoops cmdSrc).endSnoops (launchSrc d)).completeCmd 0 h.toNat)) ∧
           (∀ f, v1.accept (launchSrc d) d none none false m x = .error (.trap f) →
             exec .launchCommand s = .next (v1.completeCmd 0 lXLATE)))))) ∧
    (opc = 2 →
      (u.handleEntry a0 = none → exec .preempt s = .next (u.completeCmd 2 0)) ∧
      (∀ e, u.handleEntry a0 = some e →
        let l := u.crewCores e
        let x := u.crew e
        (x.live = false ∨ x.status ≠ none ∨ l = [] → exec .preempt s = .next (u.completeCmd 0 0)) ∧
        (x.live = true → x.status = none → l ≠ [] → x.preempt = false →
          ((∃ c ∈ l, bit (u.core c).saveptr 0 = false) → exec .preempt s = .next (u.completeCmd 3 0)) ∧
          ((∀ c ∈ l, bit (u.core c).saveptr 0 = true) → ∃ t, exec .preempt s = .next t ∧ (t.crew e).preempt = true ∧
            t.cdone = s.cdone ∧ t.mem = s.mem)))) ∧
    (opc = 3 →
      (u.handleEntry a0 = none → exec .kill s = .next (u.completeCmd 2 0)) ∧
      (∀ e, u.handleEntry a0 = some e → (u.crew e).live = true → (u.crew e).status = none → Completes s .kill 0 0 fun v =>
        (v.crew e).killed = true ∧
          ∀ c, (u.core c).crew = some e → (u.core c).wait ≠ .ended → (v.core c).contained = true)) ∧
    (opc = 8 → 8 ≤ a1 → a0 + a1 ≤ 2 ^ 52 → ∀ h u1 im u2 sg v, u.hostRead a0 8 = (h, u1) →
      let len := h / 2 ^ 32 % 2 ^ 32
      8 + len ≤ a1 → u1.hostRead (a0 + 8) len = (im, u2) → u2.hostRead (a0 + 8 + len) (a1 - 8 - len) = (sg, v) →
      let x : FwSlot := { version := h % 2 ^ 32, image := leBytes len im, signature := leBytes (a1 - 8 - len) sg }
      (v.slotValid x = true → Completes s .fwstage 0 0 fun w => w.slots.find (1 - s.runSlot) = some x) ∧
      (v.slotValid x = false → exec .fwstage s = .next (v.completeCmd 5 0))) ∧
    (opc = 9 → fld s.headWord 8 8 = 0 → fld s.headWord 32 32 = 0 → fld s.headWord 256 256 = 0 →
      (s.slotValid (f (1 - s.runSlot)) = false → exec .fwactivate s = .next (s.completeCmd 3 0)) ∧
      (s.slotValid (f (1 - s.runSlot)) = true → ∃ t, exec .fwactivate s = .next t ∧ t.runSlot = 1 - s.runSlot ∧ t.barMode = 2 ∧
        t.fwChange = some s.gtc ∧ t.cdone = s.cmdNo)) ∧
    (∃ t, exec .fwactivate { s with barMode := 2 } = .next t ∧ t.barMode = 0 ∧ t.mem = s.mem) ∧
    (∀ b, s.fwChange = some b →
      (s.gtc < b + 10 ^ 9 → exec .firmwareRollback s = .next s) ∧
      (b + 10 ^ 9 ≤ s.gtc → ∃ t, exec .firmwareRollback s = .next t ∧ t.fwChange = none ∧ t.mem = s.mem ∧
        (t.runSlot = s.runSlot ∧ t.log = s.log ∨ t.runSlot = 1 - s.runSlot ∧ t.log ≠ [] ∧ t.barMode = 2)))

/-- R381: in machine mode WX.GTC reads the GTC, WX.FENCE is a release and an acquire at its scope, WX.READY sets one readiness bit, and
WX.SEND hands 64 bytes to a ready unit, from memory in service, once no repair holds them (R386, R387); the faults of R381 change nothing else, and each traps in user mode. Whether a unit is busy is an
open value (log entry 31), and the trap's registers and the cause of an access fault are RISC-V's (log entries 4 and 5). -/
def Obligations.FirmwareWords : Prop :=
  ∀ (s : State) (rd rs1 rs2 : BitVec 5),
    let k := s.fwc (s.actor % 4)
    let one (r : BitVec 5) (v : Word) (q : BitVec 5) : Option Word := if q = r then some v else none
    let x1 := (k.rd rs1).toNat
    let traps (i : Instr) (cause : Nat) : Prop := ∃ t, exec i s = .next t ∧ FwTrapped s t cause
    (k.machine = false → ∀ i ∈ ([.wxGtc rd, .wxSend rd rs1 rs2, .wxFence rs1, .wxReady rs1 rs2] : List Instr), traps i 2) ∧
    (k.machine = true →
      (∃ t, exec (.wxGtc rd) s = .next t ∧ FwDone s t (one rd (BitVec.ofNat 64 s.gtc))) ∧
      (16 ≤ x1 → traps (.wxFence rs1) 25) ∧
      (x1 < 16 → ∃ t, exec (.wxFence rs1) s = .next t ∧ FwDone s t (fun _ => none) ∧
        (t.view (fwSrc (s.actor % 4))).fences.find x1 = some (s.release (fwSrc (s.actor % 4)) x1).k ∧
        (t.view (fwSrc (s.actor % 4))).pinned = []) ∧
      (721 < x1 → traps (.wxReady rs1 rs2) 26) ∧
      (x1 ≤ 721 → ∃ t, exec (.wxReady rs1 rs2) s = .next t ∧ FwDone s t (fun _ => none) ∧
        t.ready.getLsbD x1 = bit (k.rd rs2) 0 ∧ ∀ j, j ≠ x1 → t.ready.getLsbD j = s.ready.getLsbD j) ∧
      (x1 % 64 ≠ 0 → traps (.wxSend rd rs1 rs2) 4) ∧
      (x1 % 64 = 0 → unitBit (fld (k.rd rs2) 0 16) = none → traps (.wxSend rd rs1 rs2) 24) ∧
      (∀ b, x1 % 64 = 0 → unitBit (fld (k.rd rs2) 0 16) = some b → (∀ n, b = some n → s.ready.getLsbD n = true) →
        let key := kHbm (hbmLocal (x1 % 2 ^ 40))
        ∃ t, exec (.wxSend rd rs1 rs2) s = .next t ∧
          (FwDone s t (one rd 1) ∧ t.fwMail = s.fwMail ∨
            s.inService key = false ∧ FwTrapped s t 5 ∨
            s.inService key = true ∧ s.repairing key = true ∧ t = s ∨
            s.inService key = true ∧ s.repairing key = false ∧ FwDone s t (one rd 0) ∧
              ∃ v, t.fwMail = s.fwMail ++ [(fld (k.rd rs2) 0 16, v)])))

/-- R7, R72, R223, R224, R372, R373, R379, R380, R382, R384, R385, R387: the host's accesses and the module's link, ports, fabric,
attestation and boot; and firmware's own retirement of a core at its threshold (R388). The GTC's base, digests and an attestation's signature are open
values (log entries 7 and 35). -/
def Obligations.BootHostAndFabric : Prop :=
  ∀ (s : State),
    (∀ w a v, (s.hostReaches a = false ∨ s.repairing a = true → exec (.hostMemoryAccess w a v) s = .next s) ∧
      (s.hostReaches a = true → s.repairing a = false → ∃ t, exec (.hostMemoryAccess w a v) s = .next t ∧ (s.watchers = [] → s.memOk →
        (w = false → t.cores = s.cores) ∧
          t.mem.get a = (if w then v else s.mem.get a) ∧ ∀ b, b ≠ a → t.mem.get b = s.mem.get b))) ∧
    (∀ n, ∃ t x, exec (.spdmRequest n) s = .next t ∧ t.doe = some x ∧ x.nonce = n ∧ x.spares = s.spare ∧ t.mem = s.mem ∧
      t.cores = s.cores) ∧
    (∀ n, ∃ t, exec (.linkTraining n) s = .next t ∧ t.linkLanes ∈ [0, 4, 8, 16] ∧ t.linkLanes ≤ n ∧
      (∀ m ∈ [4, 8, 16], m ≤ n → m ≤ t.linkLanes) ∧ t.cores = s.cores ∧ t.mem = s.mem) ∧
    (∀ p n up, (24 ≤ p → exec (.portStateChange p n up) s = .next s) ∧
      (p < 24 → ∃ t, exec (.portStateChange p n up) s = .next t ∧ t.mem = s.mem ∧ t.log ≠ [] ∧
        t.ports.find p = some { up := up && decide (4 ≤ n), lanes := if 8 ≤ n then 8 else 4, retries := 0 })) ∧
    (∀ hops g, ∃ t, exec (.fabricDiscovery hops g) s = .next t ∧ t.discovered = true ∧ s.gtc ≤ t.gtc ∧
      (t.fabric = [] → t.gtc = s.gtc ∧ t.gtcBase = s.gtcBase) ∧
      (t.fabric ≠ [] → s.gtc < 2 ^ 64 → g < 2 ^ 64 → t.gtc = max s.gtc g) ∧
      t.portAt = none ∧ (s.linked = false → t.fabric = []) ∧
      t.mem = s.mem ∧ t.cores = s.cores ∧ (∀ d ∈ t.fabric, d ∈ hops ∧ d.1 ≠ s.dev ∧ 0 < d.2) ∧
      (∀ n, n < 4 → t.scopetab.find n = some 0x100) ∧
      (∀ n, 4 ≤ n → n < 15 → ∃ v, t.scopetab.find n = some v ∧ fld v 0 8 = n - 3 ∧
        fld v 8 12 = ((t.fabric.filter fun d => decide (d.2 ≤ n - 3)).length + 1) % 2 ^ 12) ∧
      (∃ v, t.scopetab.find 15 = some v ∧ fld v 0 8 = 255 ∧ fld v 8 12 = (t.fabric.length + 1) % 2 ^ 12 ∧
        bit v 32 = true)) ∧
    (s.booted = true → exec .boot s = .next s) ∧
    (s.booted = false →
      let f (k : Nat) : FwSlot := s.slots.get FwSlot.reset k
      let b := s.readFlash
      (∀ t, exec .boot s = .next t → t.cfgs = b.cfgs ∧ t.spare = b.spare ∧ (∀ r ∈ t.cfgs, signatureOk r.signed r.signature = true) ∧
        ∀ r l, t.cfgs = r :: l → t.spare = r.spares) ∧
      (b.slotValid (f 0) = false → b.slotValid (f 1) = false → ∃ t, exec .boot s = .next t ∧ t.booted = true ∧ t.barMode = 1 ∧
        t.mem = s.mem) ∧
      (∀ k, k < 2 → b.slotValid (f k) = true → b.slotValid (f (1 - k)) = false ∨ (f (1 - k)).version < (f k).version ∨
          (f 0).version = (f 1).version ∧ k = 0 →
        ∃ t, exec .boot s = .next t ∧ t.booted = true ∧ t.barMode = 0 ∧ t.runSlot = k ∧ s.gtc ≤ t.gtc ∧ t.mem = s.mem ∧
          ∀ j, j < 4 → (t.fwc j).machine = true)) ∧
    (∀ r, s.retireDue = none → s.outstanding = false → s.cfg = some r → s.booted = true → s.barMode = 0 →
      let c := (Config.coreErrors s.count).1 % 640
      s.ready.getLsbD c = true → r.coreThreshold ≤ (Config.coreErrors s.count).2 → (s.core c).crew = none → c ∉ s.retiring →
      ∃ t, exec .retire s = .next t ∧ t.log ≠ [] ∧ t.mem = s.mem ∧
        (t.ready.getLsbD c = true ↔ ∃ j, j < 4 ∧ s.spare.find (4 * dieOf c + j) = none))

/-- R269, R279, R282, R284: the specialiser decides how the crew that starts next on a die runs there: as written, with its reason, where
the launch table says NOSPEC; the entry of an equal key, which it pins, where the cache holds one; and in every case an entry point and a
SPECSTAT that agree. Memory keeps its contents.
Log entries 33 and 34: the model's own readings. -/
def Obligations.Specialising : Prop :=
  ∀ (s : State) (e : Nat),
    (s.nextStart (e / 256) = none → exec (.specialise e) s = .next s) ∧
    (∀ l d r, s.nextStart (e / 256) = some (e, l) → (s.crew e).specOwed l = d :: r →
      ∃ t pc st, exec (.specialise e) s = .next t ∧ (t.crew e).spec.find d = some (pc, st) ∧ t.mem = s.mem ∧ t.cores = s.cores ∧
        (pc = 0 ∧ fld st 0 2 = 2 ∨ 2 ^ 63 ≤ pc ∧ fld st 0 2 = 1 ∧ fld st 4 4 = 0) ∧
        ((s.crew e).hasTbl = true → tNospec (s.crew e).tbl = true → pc = 0 ∧ fld st 4 4 = 1 ∧ t.spec = s.spec) ∧
        (∀ m p, ((s.crew e).hasTbl = false ∨ tNospec (s.crew e).tbl = false) →
          ({ s := s, die := d, x := s.crew e, unroll := effUnroll (s.crew e) } : SIn).mask = some m →
          s.spec.find? (fun q => q.1 == d && q.2.key == specKey (s.crew e) m) = some p →
          pc = 2 ^ 63 + p.2.rid % 2 ^ 31 * 2 ^ 32 ∧ bit st 2 = true ∧
            ∃ q ∈ t.spec, q.1 = d ∧ q.2.key = p.2.key ∧ e ∈ q.2.pins))

-- Words, steps, memory and reset (R7, R9–R23, R193, R224, R249, R369, R381–R386).

/-- R11–R22, R381: of every well-formed instruction, the decoder reads the encoder's word back, and no word decodes but as the encoding
of its instruction; the same of a firmware core's words and of section headers. -/
def Obligations.DecodeAndEncodeAgree : Prop :=
  (∀ (i : Instr) (w : IWord), i.wf = true → encode i = some w → decodeWord w = .ok i) ∧
  (∀ (i : Instr) (w : IWord), decodeWord w = .ok i → encode i = some w ∧ i.wf = true) ∧
  (∀ (i : Instr) (w : BitVec 32), encodeFirmware i = some w → decodeFirmware w = .ok i) ∧
  (∀ (i : Instr) (w : BitVec 32), decodeFirmware w = .ok i → encodeFirmware i = some w) ∧
  (∀ h : Header, Header.ofBits h.bits = h) ∧ (∀ w : BitVec 64, (Header.ofBits w).bits = w)

/-- R11, R21, R22, R231, R352, R353: words that the manual writes out decode to the instructions it says they are, and a word with a
nonzero field that its entry does not use is refused. -/
def Obligations.DecodedWords : Prop :=
  let n : Ann := { bt := false, pr := 0 }
  decodeWord 0x83004B0280B0300D00000000 = .ok (.vfma { bt := false, pr := 3, pa := true, pb := false, sa := false, sb := true }
      { fmt := .f32, rm := .rne, sat := false, d := 10, a := 11, b := 12, c := 13 }) ∧
    decodeWord 0x0003000140600000FFFFFFFD = .ok (.add n { w := true, d := 5, a := 6, b := .imm 0xFFFFFFFD }) ∧
    decodeWord 0x33130001C090000300000000 = .ok (.lda n .acq 3 .d64 7 9 0) ∧
    decodeWord 0x342300000090280300000000 = .ok (.str n .rel 3 .d64 9 10 0) ∧
    decodeWord 0x3523000140601C0000000029 = .ok (.atom n .fadd .f32 .rel 3 5 6 7) ∧
    decodeWord 0x430000000000000000000005 = .ok (.trap n 5) ∧
    decodeWord 0x440000000000000000000000 = .ok (.eret n) ∧
    decodeWord 0x500200028080240B00000000 = .ok (.rlyPost n 10 8 9 11) ∧
    decodeWord 0xC80000024020100500000000 = .ok (.cpgo n 9 2 4 5) ∧
    decodeWord 0x6080000A0030000000000000 = .ok (.vld { bt := false, pr := 0, pa := false, pb := false, sa := false, sb := false }
      true 40 3 0) ∧
    decodeWord 0x440000000000000000000001 = .error .nonzeroField ∧
    (Header.ofBits 0xA00500C000040001).lease = true ∧ (Header.ofBits 0xA00500C000040001).len = 12

/-- R12, R18, R23, R32: a step runs what it decodes. A pacer whose turn it is, running and with nothing owed, runs the instruction that
its word decodes to, in the state after the fetch, and traps ILLOP on a word that decodes to none, and traps, walks, waits or asks the host where the fetch
says so; an access to FPSR that waited may come before the trap owed (R145); a section header runs as such; an MCALL's operation is decoded from its entry; a firmware core runs its word, one of R381's four or one
of RV64GC; a word in a row in repair waits (R387); a step that an earlier one owes runs first, and a step of the environment runs as no
pacer's. Which turn comes is open (R390).
Log entries 1, 4, 9 and 54: the model's own readings. -/
def Obligations.StepRunsTheDecodedWord : Prop :=
  ∀ (s : State) (c : Nat),
    let b := s.begin
    let u : State := { b with forced := none, actor := c }
    let k := s.core c
    (∀ i l, s.forced = none → s.agenda = i :: l → step s = exec i { b with agenda := l }) ∧
    (s.forced = some (.pacer c) ∨ (s.forced = none ∧ s.agenda = [] ∧ b.nextTurn = .pacer c) →
      (k.runs = false ∨ k.frozen = true ∨ k.wait ≠ .none → step s = .next u) ∧
      (k.runs = true → k.frozen = false → k.wait = .none →
        (∀ i, u.owes c = some i → u.fpsrWaits c = false → step s = exec i u) ∧
        (∀ i x v j, u.owes c = some i → u.fpsrWaits c = true → k.mcall = none → k.ctx.atHdr = false →
          u.choice.2.fetch c k.pc 12 = .ok (x, v) → decodeWord (BitVec.ofNat 96 x) = .ok j → step s = exec i u ∨ step s = exec j v) ∧
        (u.owes c = none → k.slipHeld = false ∨ k.retry = true ∨ k.ctx.atHdr = true →
          (k.mcall = none → k.ctx.atHdr = false → ∀ x v, u.fetch c k.pc 12 = .ok (x, v) →
            (∀ i, decodeWord (BitVec.ofNat 96 x) = .ok i → step s = exec i v) ∧
            (∀ e, decodeWord (BitVec.ofNat 96 x) = .error e → step s = .next (v.preciseTrap c (tr cILLOP)))) ∧
          (k.mcall = none → k.ctx.atHdr = true → ∀ x v, u.fetch c k.pc 8 = .ok (x, v) →
            step s = exec (.sectionHeader (Header.ofBits (BitVec.ofNat 64 x))) v) ∧
          (k.mcall = none →
            let got := u.fetch c k.pc (if k.ctx.atHdr then 8 else 12)
            (∀ x, got = .error (.trap x) → step s = .next (u.preciseTrap c x)) ∧
            (∀ w, got = .error (.walk w) → step s = .next (u.askWalk w)) ∧
            (got = .error .wait → step s = .next u) ∧
            (∀ g l, got = .error (.snoop g l) → step s = .next (u.askSnoops (some c) g l))) ∧
          (∀ m i, k.mcall = some m → decodeRaw (m.word (k.micro.get 0 (m.start + m.idx))) = .ok i → step s = exec i u)))) ∧
    (∀ n, (s.forced = some (.firmware n) ∨ (s.forced = none ∧ s.agenda = [] ∧ b.nextTurn = .firmware n)) →
      let v : State := { b with forced := none, actor := n }
      (v.rvHeld (v.fwc n).pc.toNat 4 = true → step s = .next v) ∧
      (v.rvHeld (v.fwc n).pc.toNat 4 = false → (∀ code, v.rvFetch = .error code → step s = .next (v.fwTrap code)) ∧
      (∀ w, v.rvFetch = .ok w →
        (∀ i, decodeFirmware w = .ok i → step s = exec i v) ∧
        (decodeFirmware w = .error .notWx → step s = .next (v.rvStep w)) ∧
        (∀ e, decodeFirmware w = .error e → e ≠ .notWx → step s = .next (v.fwTrap 2))))) ∧
    (∀ i, s.forced = none → s.agenda = [] → b.nextTurn = .event i → step s = exec i { b with actor := 640 })

/-- R222: memory's canonical form is kept by every step, from every state that has it.
Log entry 2: the model's own readings. -/
def Obligations.MemoryKept : Prop :=
  ∀ s t : State, s.memOk → step s = .next t → t.memOk

/-- R7: no step takes the machine's time back: the time gone by and the GTC as read never fall, and every step is counted.
Log entry 7: the model's own readings. -/
def Obligations.TimeNeverRunsBack : Prop :=
  ∀ s t : State, step s = .next t → s.now ≤ t.now ∧ s.gtc ≤ t.gtc ∧ s.count < t.count

/-- R193, R194, R224, R249, R344, R370, R374, R378, R382: reset. Memory lists nothing and keeps its form; p0 reads 1 and every other register named
here has the manual's value; no crew, entry, relay, heat or pool is in use; the scope tables read as before discovery. The values of the
scalar registers before a crew starts are the model's choice (log entry 3). -/
def Obligations.ResetState : Prop :=
  let s := State.reset
  s.memOk ∧ (∀ a, s.mem.get a = 0) ∧
    (∀ c, let k := s.core c
      k.crew = none ∧ k.mode = false ∧ k.slip = 32 ∧ k.fpcr = 0 ∧ k.fpsr = 0 ∧ k.rrb = 0 ∧ k.pred 0 = true ∧
        (∀ p, p ≠ 0 → k.pred p = false) ∧ (∀ r, k.rd r = 0) ∧ k.wait = .none ∧ k.q = [] ∧ k.saveptr = 0 ∧
        (∀ n, k.watch.get 0 n = 0 ∧ k.watchctl.get 0 n = 0)) ∧
    (∀ e, (s.crew e).live = false) ∧ (∀ u, (s.relay u).gen = 0 ∧ (s.relay u).st = .free) ∧
    (∀ h, (s.heat h).gen = 0 ∧ (s.heat h).live = false) ∧ s.ready = 0 ∧ s.doorv = 0 ∧ s.cdone = 0 ∧
    (∀ a, s.pools.find a = none) ∧ s.discovered = false ∧ s.booted = false ∧
    (∀ n, n < 16 → scopetabReset n = if n = 15 then 2 ^ 32 + 256 + 255 else 256)

-- Forms that complete (R195, R231–R234, R261, R304–R308, R379, R381).

namespace Sys2Proof.Claims

/-- The state `t` stalls for the access just sent, and when the home's answer `x` comes the word completes: its register takes `f x`. -/
def AnsweredBy (s t : State) (p : Nat) (f : Nat → Word) : Prop :=
  ∃ r, t.req s.nextReq = some r ∧ r.phase = .sent ∧
    ∀ x, ∃ t2, exec (.loadDataReturn s.actor .none) (t.setReq { r with phase := .performed, old := x }) = .next t2 ∧
      t2.me.rdP p = f x ∧ t2.me.wait = .none ∧ t2.me.pc = (s.me.advance 12).pc

end Sys2Proof.Claims

/-- R195, R231–R234, R261, R304, R307, R308, R379, R381: where these forms complete. With a true predicate, no deferred source, an address
that passes its checks, room in the operand log and no wait of a release left, LDA, ATOM and CAS send their access, and its answer
completes them; STR sends its store and goes on. ACKW of a record that waits for it goes on. A collective step whose counter is 0 begins,
and a begun one completes. The four WX words complete in machine mode with legal operands. A flit that fails on a link is counted.
Log entries 26 and 53: the model's own readings. -/
def Obligations.AccessesAndUnitStepsComplete : Prop :=
  ∀ (s : State) (n : Ann),
    let u := s.entered false
    let k := s.me
    (∀ (o : Ord) (sc : BitVec 4) (wd : Width) (op : AOp) (ty : ATyp) (w32 facq : Bool) (d a b c : SReg) (imm : BitVec 32) (g : Target),
      s.logCount s.actor < 256 → (∀ r ∈ s.reqs, r.id ≠ s.nextReq) → k.frozen = false → physS k.rrb d ≠ 0 →
      let va := (k.rd a + imm.signExtend 64).toNat
      let z := widthBytes wd
      let zt := match ty with | .w32 | .f32 => 4 | .w64 | .a48 => 8
      let zc := if w32 then 4 else 8
      let p := physS k.rrb d
      (s.Issues n [a] → xlate va z z .rd u = .ok (g, u) →
        ∃ t, exec (.lda n o sc wd d a imm) s = .next t ∧ AnsweredBy s t p (widthExtend wd)) ∧
      (s.Issues n [a, b] → Released s o sc → xlate va z z .wr u = .ok (g, u) →
        ∃ t r, exec (.str n o sc wd a b imm) s = .next t ∧ t.reqs = s.reqs ++ [r] ∧
          r.kind = .write ((k.rd b).toNat % 2 ^ (8 * z)) ∧ r.key = g.key ∧ r.size = z ∧ t.me.s = k.s ∧ t.me.pc = (k.advance 12).pc) ∧
      (s.Issues n [a, b] → Released s o sc → xlate (k.rd a).toNat zt zt .atomic u = .ok (g, u) →
        ∃ t, exec (.atom n op ty o sc d a b) s = .next t ∧ AnsweredBy s t p (resW (ty == .w32))) ∧
      (s.Issues n [a, b, c] → Released s o sc → xlate (k.rd a).toNat zc zc .atomic u = .ok (g, u) →
        ∃ t, exec (.cas n w32 facq o sc d a b c) s = .next t ∧ AnsweredBy s t p (resW w32))) ∧
    (∀ (a b : SReg) q h u1 u2 u3, s.Issues n [a, b] → (k.rd a).toNat < 2 ^ 11 →
      u.queue (k.rd a).toNat k.asid (!k.mode) = .ok (q, u1) → q.payload (k.rd b).toNat = true →
      u1.ackCheck q (k.rd b).toNat (!u1.me.mode) = .ok (h, u2) → relWait q.scope (k.rd b).toNat u2 = .ok ((), u2) →
      u2.ackSlot q ((k.rd b).toNat - 8) h (srcOf u2.actor 0) (u2.view (srcOf u2.actor 0)).k (!u2.me.mode) = .ok u3 →
      exec (.ackw n a b) s = .next (u3.setMe (u3.me.advance 12))) ∧
    (∀ (g run rank st : Nat) (r : CollRun), s.runAt g run rank = some r → r.run = run → r.rank = rank →
      let x := s.graph g
      let e := x.steps.getD st 0
      let rng := stRanges (gNrank x.hdr) rank r.base e
      (r.ph.get .waiting st = .waiting → st < x.steps.length → r.cnt.get 0 st = 0 →
        (∀ y ∈ x.runs, y.rank = rank → y.run < run → y.done = true) →
        (s.rankHere x rank = false ∧ (stKind e = 4 → ∀ k, k < 65536 →
            s.mayArrive (s.ext seqSrc) ((x.ranks.getD rank (0, 0)).1 * 65536 + k) = true)) ∨
          (s.rankHere x rank = true ∧ s.stagingUsed 8 + chunksFor rng.1.2 ≤ homeStaging 8 ∧ ∀ e,
            (s.acquire seqSrc (gScope x.hdr) [r.msg]).readVa seqSrc (x.ranks.getD rank (0, 0)).2 r.asid rng.1.1 rng.1.2 r.user =
              .error e → ∃ t, e = .trap t) →
        ∃ t r', exec (.collStepBegin g run rank st) s = .next t ∧ t.runAt g run rank = some r' ∧ r'.ph.get .waiting st = .begun) ∧
      (r.ph.get .waiting st = .begun →
        stKind e = 4 ∧ (∀ q, q < gNrank x.hdr → ∃ v ∈ x.seals, v.1 = run ∧ v.2.1 = st ∧ v.2.2.1 = q) ∨
          stKind e ≠ 4 ∧ s.collResult g r st ≠ none →
        (∀ e', s.unitRuns seqSrc (x.ranks.getD rank (0, 0)).2 r.asid rng.2.1
          (if stKind e = 4 then 64 else stBytes e * ((s.collResult g r st).getD []).length) .wr r.user = .error e' → ∃ t, e' = .trap t) →
        (∃ j, j < x.steps.length ∧ j ≠ st ∧ r.ph.get .waiting j ≠ .complete) →
        ∃ t r', exec (.collStepComplete g run rank st) s = .next t ∧ t.runAt g run rank = some r' ∧
          r'.ph.get .waiting st = .complete)) ∧
    (∀ (rd rs1 rs2 : BitVec 5),
      let f := s.fwc (s.actor % 4)
      let x1 := (f.rd rs1).toNat
      let runs (i : Instr) (q : State → Prop) : Prop :=
        ∃ t, exec i s = .next t ∧ (t.fwc (s.actor % 4)).pc = f.pc + 4 ∧ (t.fwc (s.actor % 4)).machine = true ∧ q t
      f.machine = true →
        runs (.wxGtc rd) (fun t => (t.fwc (s.actor % 4)).rd rd = if rd = 0 then 0 else BitVec.ofNat 64 s.gtc) ∧
        (x1 < 16 → runs (.wxFence rs1) fun t => (t.view (fwSrc (s.actor % 4))).pinned = []) ∧
        (x1 ≤ 721 → runs (.wxReady rs1 rs2) fun t => t.ready.getLsbD x1 = bit (f.rd rs2) 0) ∧
        (∀ b, x1 % 64 = 0 → unitBit (fld (f.rd rs2) 0 16) = some b → (∀ j, b = some j → s.ready.getLsbD j = true) →
          s.inService (kHbm (hbmLocal (x1 % 2 ^ 40))) = true → s.repairing (kHbm (hbmLocal (x1 % 2 ^ 40))) = false → runs (.wxSend rd rs1 rs2) fun t =>
            t.fwMail = s.fwMail ∧ (rd ≠ 0 → (t.fwc (s.actor % 4)).rd rd = 1) ∨
            (∃ v, t.fwMail = s.fwMail ++ [(fld (f.rd rs2) 0 16, v)]) ∧ (rd ≠ 0 → (t.fwc (s.actor % 4)).rd rd = 0))) ∧
    (∀ (l : Nat) (r : Req), s.reqs = [r] → r.apt = 3 → r.phase = .sent → r.crc = (l, 0) →
      ∃ t, exec (.flitCrcFail l) s = .next t ∧ t.req r.id = some { r with crc := (l, 1) } ∧ (t.ports.get Port.reset l).retries = 1)
end

