-- ==== Sys2Proof/Laws/State.lean ====
section
/-! SUPPORT. One lemma for each field and each named update of the state and of a core: what the update leaves alone. -/
namespace Sys2Proof.Machine

-- `State.setCore`.
@[simp] theorem State.setCore_now (s : State) (c : Nat) (k : Core) : (s.setCore c k).now = s.now := rfl
@[simp] theorem State.setCore_gtc (s : State) (c : Nat) (k : Core) : (s.setCore c k).gtc = s.gtc := rfl
@[simp] theorem State.setCore_gtcBase (s : State) (c : Nat) (k : Core) : (s.setCore c k).gtcBase = s.gtcBase := rfl
@[simp] theorem State.setCore_count (s : State) (c : Nat) (k : Core) : (s.setCore c k).count = s.count := rfl
@[simp] theorem State.setCore_free (s : State) (c : Nat) (k : Core) : (s.setCore c k).free = s.free := rfl
@[simp] theorem State.setCore_forced (s : State) (c : Nat) (k : Core) : (s.setCore c k).forced = s.forced := rfl
@[simp] theorem State.setCore_agenda (s : State) (c : Nat) (k : Core) : (s.setCore c k).agenda = s.agenda := rfl
@[simp] theorem State.setCore_actor (s : State) (c : Nat) (k : Core) : (s.setCore c k).actor = s.actor := rfl
@[simp] theorem State.setCore_mem (s : State) (c : Nat) (k : Core) : (s.setCore c k).mem = s.mem := rfl
@[simp] theorem State.setCore_hist (s : State) (c : Nat) (k : Core) : (s.setCore c k).hist = s.hist := rfl
@[simp] theorem State.setCore_views (s : State) (c : Nat) (k : Core) : (s.setCore c k).views = s.views := rfl
@[simp] theorem State.setCore_reqs (s : State) (c : Nat) (k : Core) : (s.setCore c k).reqs = s.reqs := rfl
@[simp] theorem State.setCore_nextReq (s : State) (c : Nat) (k : Core) : (s.setCore c k).nextReq = s.nextReq := rfl
@[simp] theorem State.setCore_trouble (s : State) (c : Nat) (k : Core) : (s.setCore c k).trouble = s.trouble := rfl
@[simp] theorem State.setCore_held (s : State) (c : Nat) (k : Core) : (s.setCore c k).held = s.held := rfl
@[simp] theorem State.setCore_arrived (s : State) (c : Nat) (k : Core) : (s.setCore c k).arrived = s.arrived := rfl
@[simp] theorem State.setCore_seqs (s : State) (c : Nat) (k : Core) : (s.setCore c k).seqs = s.seqs := rfl
@[simp] theorem State.setCore_hostLines (s : State) (c : Nat) (k : Core) : (s.setCore c k).hostLines = s.hostLines := rfl
@[simp] theorem State.setCore_snoops (s : State) (c : Nat) (k : Core) : (s.setCore c k).snoops = s.snoops := rfl
@[simp] theorem State.setCore_cpLanded (s : State) (c : Nat) (k : Core) : (s.setCore c k).cpLanded = s.cpLanded := rfl
@[simp] theorem State.setCore_scopetab (s : State) (c : Nat) (k : Core) : (s.setCore c k).scopetab = s.scopetab := rfl
@[simp] theorem State.setCore_tdir (s : State) (c : Nat) (k : Core) : (s.setCore c k).tdir = s.tdir := rfl
@[simp] theorem State.setCore_bias (s : State) (c : Nat) (k : Core) : (s.setCore c k).bias = s.bias := rfl
@[simp] theorem State.setCore_staging (s : State) (c : Nat) (k : Core) : (s.setCore c k).staging = s.staging := rfl
@[simp] theorem State.setCore_watchers (s : State) (c : Nat) (k : Core) : (s.setCore c k).watchers = s.watchers := rfl
@[simp] theorem State.setCore_teams (s : State) (c : Nat) (k : Core) : (s.setCore c k).teams = s.teams := rfl
@[simp] theorem State.setCore_dies (s : State) (c : Nat) (k : Core) : (s.setCore c k).dies = s.dies := rfl
@[simp] theorem State.setCore_crews (s : State) (c : Nat) (k : Core) : (s.setCore c k).crews = s.crews := rfl
@[simp] theorem State.setCore_spec (s : State) (c : Nat) (k : Core) : (s.setCore c k).spec = s.spec := rfl
@[simp] theorem State.setCore_specViol (s : State) (c : Nat) (k : Core) : (s.setCore c k).specViol = s.specViol := rfl
@[simp] theorem State.setCore_nextRid (s : State) (c : Nat) (k : Core) : (s.setCore c k).nextRid = s.nextRid := rfl
@[simp] theorem State.setCore_relays (s : State) (c : Nat) (k : Core) : (s.setCore c k).relays = s.relays := rfl
@[simp] theorem State.setCore_heats (s : State) (c : Nat) (k : Core) : (s.setCore c k).heats = s.heats := rfl
@[simp] theorem State.setCore_graphs (s : State) (c : Nat) (k : Core) : (s.setCore c k).graphs = s.graphs := rfl
@[simp] theorem State.setCore_fed (s : State) (c : Nat) (k : Core) : (s.setCore c k).fed = s.fed := rfl
@[simp] theorem State.setCore_crbase (s : State) (c : Nat) (k : Core) : (s.setCore c k).crbase = s.crbase := rfl
@[simp] theorem State.setCore_crsize (s : State) (c : Nat) (k : Core) : (s.setCore c k).crsize = s.crsize := rfl
@[simp] theorem State.setCore_cpbase (s : State) (c : Nat) (k : Core) : (s.setCore c k).cpbase = s.cpbase := rfl
@[simp] theorem State.setCore_doorv (s : State) (c : Nat) (k : Core) : (s.setCore c k).doorv = s.doorv := rfl
@[simp] theorem State.setCore_cdone (s : State) (c : Nat) (k : Core) : (s.setCore c k).cdone = s.cdone := rfl
@[simp] theorem State.setCore_barMode (s : State) (c : Nat) (k : Core) : (s.setCore c k).barMode = s.barMode := rfl
@[simp] theorem State.setCore_vecs (s : State) (c : Nat) (k : Core) : (s.setCore c k).vecs = s.vecs := rfl
@[simp] theorem State.setCore_pools (s : State) (c : Nat) (k : Core) : (s.setCore c k).pools = s.pools := rfl
@[simp] theorem State.setCore_ready (s : State) (c : Nat) (k : Core) : (s.setCore c k).ready = s.ready := rfl
@[simp] theorem State.setCore_fw (s : State) (c : Nat) (k : Core) : (s.setCore c k).fw = s.fw := rfl
@[simp] theorem State.setCore_fwMail (s : State) (c : Nat) (k : Core) : (s.setCore c k).fwMail = s.fwMail := rfl
@[simp] theorem State.setCore_slots (s : State) (c : Nat) (k : Core) : (s.setCore c k).slots = s.slots := rfl
@[simp] theorem State.setCore_runSlot (s : State) (c : Nat) (k : Core) : (s.setCore c k).runSlot = s.runSlot := rfl
@[simp] theorem State.setCore_fwChange (s : State) (c : Nat) (k : Core) : (s.setCore c k).fwChange = s.fwChange := rfl
@[simp] theorem State.setCore_booted (s : State) (c : Nat) (k : Core) : (s.setCore c k).booted = s.booted := rfl
@[simp] theorem State.setCore_doe (s : State) (c : Nat) (k : Core) : (s.setCore c k).doe = s.doe := rfl
@[simp] theorem State.setCore_cfgs (s : State) (c : Nat) (k : Core) : (s.setCore c k).cfgs = s.cfgs := rfl
@[simp] theorem State.setCore_spare (s : State) (c : Nat) (k : Core) : (s.setCore c k).spare = s.spare := rfl
@[simp] theorem State.setCore_identity (s : State) (c : Nat) (k : Core) : (s.setCore c k).identity = s.identity := rfl
@[simp] theorem State.setCore_certs (s : State) (c : Nat) (k : Core) : (s.setCore c k).certs = s.certs := rfl
@[simp] theorem State.setCore_log (s : State) (c : Nat) (k : Core) : (s.setCore c k).log = s.log := rfl
@[simp] theorem State.setCore_linkLanes (s : State) (c : Nat) (k : Core) : (s.setCore c k).linkLanes = s.linkLanes := rfl
@[simp] theorem State.setCore_ports (s : State) (c : Nat) (k : Core) : (s.setCore c k).ports = s.ports := rfl
@[simp] theorem State.setCore_discovered (s : State) (c : Nat) (k : Core) : (s.setCore c k).discovered = s.discovered := rfl
@[simp] theorem State.setCore_fabric (s : State) (c : Nat) (k : Core) : (s.setCore c k).fabric = s.fabric := rfl
@[simp] theorem State.setCore_peers (s : State) (c : Nat) (k : Core) : (s.setCore c k).peers = s.peers := rfl
@[simp] theorem State.setCore_portAt (s : State) (c : Nat) (k : Core) : (s.setCore c k).portAt = s.portAt := rfl
@[simp] theorem State.setCore_repairs (s : State) (c : Nat) (k : Core) : (s.setCore c k).repairs = s.repairs := rfl
@[simp] theorem State.setCore_corrected (s : State) (c : Nat) (k : Core) : (s.setCore c k).corrected = s.corrected := rfl
@[simp] theorem State.setCore_retiring (s : State) (c : Nat) (k : Core) : (s.setCore c k).retiring = s.retiring := rfl

-- `State.setTeam`.
@[simp] theorem State.setTeam_now (s : State) (n : Nat) (x : Team) : (s.setTeam n x).now = s.now := rfl
@[simp] theorem State.setTeam_gtc (s : State) (n : Nat) (x : Team) : (s.setTeam n x).gtc = s.gtc := rfl
@[simp] theorem State.setTeam_gtcBase (s : State) (n : Nat) (x : Team) : (s.setTeam n x).gtcBase = s.gtcBase := rfl
@[simp] theorem State.setTeam_count (s : State) (n : Nat) (x : Team) : (s.setTeam n x).count = s.count := rfl
@[simp] theorem State.setTeam_free (s : State) (n : Nat) (x : Team) : (s.setTeam n x).free = s.free := rfl
@[simp] theorem State.setTeam_forced (s : State) (n : Nat) (x : Team) : (s.setTeam n x).forced = s.forced := rfl
@[simp] theorem State.setTeam_agenda (s : State) (n : Nat) (x : Team) : (s.setTeam n x).agenda = s.agenda := rfl
@[simp] theorem State.setTeam_actor (s : State) (n : Nat) (x : Team) : (s.setTeam n x).actor = s.actor := rfl
@[simp] theorem State.setTeam_mem (s : State) (n : Nat) (x : Team) : (s.setTeam n x).mem = s.mem := rfl
@[simp] theorem State.setTeam_hist (s : State) (n : Nat) (x : Team) : (s.setTeam n x).hist = s.hist := rfl
@[simp] theorem State.setTeam_views (s : State) (n : Nat) (x : Team) : (s.setTeam n x).views = s.views := rfl
@[simp] theorem State.setTeam_reqs (s : State) (n : Nat) (x : Team) : (s.setTeam n x).reqs = s.reqs := rfl
@[simp] theorem State.setTeam_nextReq (s : State) (n : Nat) (x : Team) : (s.setTeam n x).nextReq = s.nextReq := rfl
@[simp] theorem State.setTeam_trouble (s : State) (n : Nat) (x : Team) : (s.setTeam n x).trouble = s.trouble := rfl
@[simp] theorem State.setTeam_held (s : State) (n : Nat) (x : Team) : (s.setTeam n x).held = s.held := rfl
@[simp] theorem State.setTeam_arrived (s : State) (n : Nat) (x : Team) : (s.setTeam n x).arrived = s.arrived := rfl
@[simp] theorem State.setTeam_seqs (s : State) (n : Nat) (x : Team) : (s.setTeam n x).seqs = s.seqs := rfl
@[simp] theorem State.setTeam_hostLines (s : State) (n : Nat) (x : Team) : (s.setTeam n x).hostLines = s.hostLines := rfl
@[simp] theorem State.setTeam_snoops (s : State) (n : Nat) (x : Team) : (s.setTeam n x).snoops = s.snoops := rfl
@[simp] theorem State.setTeam_cpLanded (s : State) (n : Nat) (x : Team) : (s.setTeam n x).cpLanded = s.cpLanded := rfl
@[simp] theorem State.setTeam_scopetab (s : State) (n : Nat) (x : Team) : (s.setTeam n x).scopetab = s.scopetab := rfl
@[simp] theorem State.setTeam_tdir (s : State) (n : Nat) (x : Team) : (s.setTeam n x).tdir = s.tdir := rfl
@[simp] theorem State.setTeam_bias (s : State) (n : Nat) (x : Team) : (s.setTeam n x).bias = s.bias := rfl
@[simp] theorem State.setTeam_staging (s : State) (n : Nat) (x : Team) : (s.setTeam n x).staging = s.staging := rfl
@[simp] theorem State.setTeam_watchers (s : State) (n : Nat) (x : Team) : (s.setTeam n x).watchers = s.watchers := rfl
@[simp] theorem State.setTeam_cores (s : State) (n : Nat) (x : Team) : (s.setTeam n x).cores = s.cores := rfl
@[simp] theorem State.setTeam_dies (s : State) (n : Nat) (x : Team) : (s.setTeam n x).dies = s.dies := rfl
@[simp] theorem State.setTeam_crews (s : State) (n : Nat) (x : Team) : (s.setTeam n x).crews = s.crews := rfl
@[simp] theorem State.setTeam_spec (s : State) (n : Nat) (x : Team) : (s.setTeam n x).spec = s.spec := rfl
@[simp] theorem State.setTeam_specViol (s : State) (n : Nat) (x : Team) : (s.setTeam n x).specViol = s.specViol := rfl
@[simp] theorem State.setTeam_nextRid (s : State) (n : Nat) (x : Team) : (s.setTeam n x).nextRid = s.nextRid := rfl
@[simp] theorem State.setTeam_relays (s : State) (n : Nat) (x : Team) : (s.setTeam n x).relays = s.relays := rfl
@[simp] theorem State.setTeam_heats (s : State) (n : Nat) (x : Team) : (s.setTeam n x).heats = s.heats := rfl
@[simp] theorem State.setTeam_graphs (s : State) (n : Nat) (x : Team) : (s.setTeam n x).graphs = s.graphs := rfl
@[simp] theorem State.setTeam_fed (s : State) (n : Nat) (x : Team) : (s.setTeam n x).fed = s.fed := rfl
@[simp] theorem State.setTeam_crbase (s : State) (n : Nat) (x : Team) : (s.setTeam n x).crbase = s.crbase := rfl
@[simp] theorem State.setTeam_crsize (s : State) (n : Nat) (x : Team) : (s.setTeam n x).crsize = s.crsize := rfl
@[simp] theorem State.setTeam_cpbase (s : State) (n : Nat) (x : Team) : (s.setTeam n x).cpbase = s.cpbase := rfl
@[simp] theorem State.setTeam_doorv (s : State) (n : Nat) (x : Team) : (s.setTeam n x).doorv = s.doorv := rfl
@[simp] theorem State.setTeam_cdone (s : State) (n : Nat) (x : Team) : (s.setTeam n x).cdone = s.cdone := rfl
@[simp] theorem State.setTeam_barMode (s : State) (n : Nat) (x : Team) : (s.setTeam n x).barMode = s.barMode := rfl
@[simp] theorem State.setTeam_vecs (s : State) (n : Nat) (x : Team) : (s.setTeam n x).vecs = s.vecs := rfl
@[simp] theorem State.setTeam_pools (s : State) (n : Nat) (x : Team) : (s.setTeam n x).pools = s.pools := rfl
@[simp] theorem State.setTeam_ready (s : State) (n : Nat) (x : Team) : (s.setTeam n x).ready = s.ready := rfl
@[simp] theorem State.setTeam_fw (s : State) (n : Nat) (x : Team) : (s.setTeam n x).fw = s.fw := rfl
@[simp] theorem State.setTeam_fwMail (s : State) (n : Nat) (x : Team) : (s.setTeam n x).fwMail = s.fwMail := rfl
@[simp] theorem State.setTeam_slots (s : State) (n : Nat) (x : Team) : (s.setTeam n x).slots = s.slots := rfl
@[simp] theorem State.setTeam_runSlot (s : State) (n : Nat) (x : Team) : (s.setTeam n x).runSlot = s.runSlot := rfl
@[simp] theorem State.setTeam_fwChange (s : State) (n : Nat) (x : Team) : (s.setTeam n x).fwChange = s.fwChange := rfl
@[simp] theorem State.setTeam_booted (s : State) (n : Nat) (x : Team) : (s.setTeam n x).booted = s.booted := rfl
@[simp] theorem State.setTeam_doe (s : State) (n : Nat) (x : Team) : (s.setTeam n x).doe = s.doe := rfl
@[simp] theorem State.setTeam_cfgs (s : State) (n : Nat) (x : Team) : (s.setTeam n x).cfgs = s.cfgs := rfl
@[simp] theorem State.setTeam_spare (s : State) (n : Nat) (x : Team) : (s.setTeam n x).spare = s.spare := rfl
@[simp] theorem State.setTeam_identity (s : State) (n : Nat) (x : Team) : (s.setTeam n x).identity = s.identity := rfl
@[simp] theorem State.setTeam_certs (s : State) (n : Nat) (x : Team) : (s.setTeam n x).certs = s.certs := rfl
@[simp] theorem State.setTeam_log (s : State) (n : Nat) (x : Team) : (s.setTeam n x).log = s.log := rfl
@[simp] theorem State.setTeam_linkLanes (s : State) (n : Nat) (x : Team) : (s.setTeam n x).linkLanes = s.linkLanes := rfl
@[simp] theorem State.setTeam_ports (s : State) (n : Nat) (x : Team) : (s.setTeam n x).ports = s.ports := rfl
@[simp] theorem State.setTeam_discovered (s : State) (n : Nat) (x : Team) : (s.setTeam n x).discovered = s.discovered := rfl
@[simp] theorem State.setTeam_fabric (s : State) (n : Nat) (x : Team) : (s.setTeam n x).fabric = s.fabric := rfl
@[simp] theorem State.setTeam_peers (s : State) (n : Nat) (x : Team) : (s.setTeam n x).peers = s.peers := rfl
@[simp] theorem State.setTeam_portAt (s : State) (n : Nat) (x : Team) : (s.setTeam n x).portAt = s.portAt := rfl
@[simp] theorem State.setTeam_repairs (s : State) (n : Nat) (x : Team) : (s.setTeam n x).repairs = s.repairs := rfl
@[simp] theorem State.setTeam_corrected (s : State) (n : Nat) (x : Team) : (s.setTeam n x).corrected = s.corrected := rfl
@[simp] theorem State.setTeam_retiring (s : State) (n : Nat) (x : Team) : (s.setTeam n x).retiring = s.retiring := rfl

-- `State.setDie`.
@[simp] theorem State.setDie_now (s : State) (n : Nat) (x : Die) : (s.setDie n x).now = s.now := rfl
@[simp] theorem State.setDie_gtc (s : State) (n : Nat) (x : Die) : (s.setDie n x).gtc = s.gtc := rfl
@[simp] theorem State.setDie_gtcBase (s : State) (n : Nat) (x : Die) : (s.setDie n x).gtcBase = s.gtcBase := rfl
@[simp] theorem State.setDie_count (s : State) (n : Nat) (x : Die) : (s.setDie n x).count = s.count := rfl
@[simp] theorem State.setDie_free (s : State) (n : Nat) (x : Die) : (s.setDie n x).free = s.free := rfl
@[simp] theorem State.setDie_forced (s : State) (n : Nat) (x : Die) : (s.setDie n x).forced = s.forced := rfl
@[simp] theorem State.setDie_agenda (s : State) (n : Nat) (x : Die) : (s.setDie n x).agenda = s.agenda := rfl
@[simp] theorem State.setDie_actor (s : State) (n : Nat) (x : Die) : (s.setDie n x).actor = s.actor := rfl
@[simp] theorem State.setDie_mem (s : State) (n : Nat) (x : Die) : (s.setDie n x).mem = s.mem := rfl
@[simp] theorem State.setDie_hist (s : State) (n : Nat) (x : Die) : (s.setDie n x).hist = s.hist := rfl
@[simp] theorem State.setDie_views (s : State) (n : Nat) (x : Die) : (s.setDie n x).views = s.views := rfl
@[simp] theorem State.setDie_reqs (s : State) (n : Nat) (x : Die) : (s.setDie n x).reqs = s.reqs := rfl
@[simp] theorem State.setDie_nextReq (s : State) (n : Nat) (x : Die) : (s.setDie n x).nextReq = s.nextReq := rfl
@[simp] theorem State.setDie_trouble (s : State) (n : Nat) (x : Die) : (s.setDie n x).trouble = s.trouble := rfl
@[simp] theorem State.setDie_held (s : State) (n : Nat) (x : Die) : (s.setDie n x).held = s.held := rfl
@[simp] theorem State.setDie_arrived (s : State) (n : Nat) (x : Die) : (s.setDie n x).arrived = s.arrived := rfl
@[simp] theorem State.setDie_seqs (s : State) (n : Nat) (x : Die) : (s.setDie n x).seqs = s.seqs := rfl
@[simp] theorem State.setDie_hostLines (s : State) (n : Nat) (x : Die) : (s.setDie n x).hostLines = s.hostLines := rfl
@[simp] theorem State.setDie_snoops (s : State) (n : Nat) (x : Die) : (s.setDie n x).snoops = s.snoops := rfl
@[simp] theorem State.setDie_cpLanded (s : State) (n : Nat) (x : Die) : (s.setDie n x).cpLanded = s.cpLanded := rfl
@[simp] theorem State.setDie_scopetab (s : State) (n : Nat) (x : Die) : (s.setDie n x).scopetab = s.scopetab := rfl
@[simp] theorem State.setDie_tdir (s : State) (n : Nat) (x : Die) : (s.setDie n x).tdir = s.tdir := rfl
@[simp] theorem State.setDie_bias (s : State) (n : Nat) (x : Die) : (s.setDie n x).bias = s.bias := rfl
@[simp] theorem State.setDie_staging (s : State) (n : Nat) (x : Die) : (s.setDie n x).staging = s.staging := rfl
@[simp] theorem State.setDie_watchers (s : State) (n : Nat) (x : Die) : (s.setDie n x).watchers = s.watchers := rfl
@[simp] theorem State.setDie_cores (s : State) (n : Nat) (x : Die) : (s.setDie n x).cores = s.cores := rfl
@[simp] theorem State.setDie_teams (s : State) (n : Nat) (x : Die) : (s.setDie n x).teams = s.teams := rfl
@[simp] theorem State.setDie_crews (s : State) (n : Nat) (x : Die) : (s.setDie n x).crews = s.crews := rfl
@[simp] theorem State.setDie_spec (s : State) (n : Nat) (x : Die) : (s.setDie n x).spec = s.spec := rfl
@[simp] theorem State.setDie_specViol (s : State) (n : Nat) (x : Die) : (s.setDie n x).specViol = s.specViol := rfl
@[simp] theorem State.setDie_nextRid (s : State) (n : Nat) (x : Die) : (s.setDie n x).nextRid = s.nextRid := rfl
@[simp] theorem State.setDie_relays (s : State) (n : Nat) (x : Die) : (s.setDie n x).relays = s.relays := rfl
@[simp] theorem State.setDie_heats (s : State) (n : Nat) (x : Die) : (s.setDie n x).heats = s.heats := rfl
@[simp] theorem State.setDie_graphs (s : State) (n : Nat) (x : Die) : (s.setDie n x).graphs = s.graphs := rfl
@[simp] theorem State.setDie_fed (s : State) (n : Nat) (x : Die) : (s.setDie n x).fed = s.fed := rfl
@[simp] theorem State.setDie_crbase (s : State) (n : Nat) (x : Die) : (s.setDie n x).crbase = s.crbase := rfl
@[simp] theorem State.setDie_crsize (s : State) (n : Nat) (x : Die) : (s.setDie n x).crsize = s.crsize := rfl
@[simp] theorem State.setDie_cpbase (s : State) (n : Nat) (x : Die) : (s.setDie n x).cpbase = s.cpbase := rfl
@[simp] theorem State.setDie_doorv (s : State) (n : Nat) (x : Die) : (s.setDie n x).doorv = s.doorv := rfl
@[simp] theorem State.setDie_cdone (s : State) (n : Nat) (x : Die) : (s.setDie n x).cdone = s.cdone := rfl
@[simp] theorem State.setDie_barMode (s : State) (n : Nat) (x : Die) : (s.setDie n x).barMode = s.barMode := rfl
@[simp] theorem State.setDie_vecs (s : State) (n : Nat) (x : Die) : (s.setDie n x).vecs = s.vecs := rfl
@[simp] theorem State.setDie_pools (s : State) (n : Nat) (x : Die) : (s.setDie n x).pools = s.pools := rfl
@[simp] theorem State.setDie_ready (s : State) (n : Nat) (x : Die) : (s.setDie n x).ready = s.ready := rfl
@[simp] theorem State.setDie_fw (s : State) (n : Nat) (x : Die) : (s.setDie n x).fw = s.fw := rfl
@[simp] theorem State.setDie_fwMail (s : State) (n : Nat) (x : Die) : (s.setDie n x).fwMail = s.fwMail := rfl
@[simp] theorem State.setDie_slots (s : State) (n : Nat) (x : Die) : (s.setDie n x).slots = s.slots := rfl
@[simp] theorem State.setDie_runSlot (s : State) (n : Nat) (x : Die) : (s.setDie n x).runSlot = s.runSlot := rfl
@[simp] theorem State.setDie_fwChange (s : State) (n : Nat) (x : Die) : (s.setDie n x).fwChange = s.fwChange := rfl
@[simp] theorem State.setDie_booted (s : State) (n : Nat) (x : Die) : (s.setDie n x).booted = s.booted := rfl
@[simp] theorem State.setDie_doe (s : State) (n : Nat) (x : Die) : (s.setDie n x).doe = s.doe := rfl
@[simp] theorem State.setDie_cfgs (s : State) (n : Nat) (x : Die) : (s.setDie n x).cfgs = s.cfgs := rfl
@[simp] theorem State.setDie_spare (s : State) (n : Nat) (x : Die) : (s.setDie n x).spare = s.spare := rfl
@[simp] theorem State.setDie_identity (s : State) (n : Nat) (x : Die) : (s.setDie n x).identity = s.identity := rfl
@[simp] theorem State.setDie_certs (s : State) (n : Nat) (x : Die) : (s.setDie n x).certs = s.certs := rfl
@[simp] theorem State.setDie_log (s : State) (n : Nat) (x : Die) : (s.setDie n x).log = s.log := rfl
@[simp] theorem State.setDie_linkLanes (s : State) (n : Nat) (x : Die) : (s.setDie n x).linkLanes = s.linkLanes := rfl
@[simp] theorem State.setDie_ports (s : State) (n : Nat) (x : Die) : (s.setDie n x).ports = s.ports := rfl
@[simp] theorem State.setDie_discovered (s : State) (n : Nat) (x : Die) : (s.setDie n x).discovered = s.discovered := rfl
@[simp] theorem State.setDie_fabric (s : State) (n : Nat) (x : Die) : (s.setDie n x).fabric = s.fabric := rfl
@[simp] theorem State.setDie_peers (s : State) (n : Nat) (x : Die) : (s.setDie n x).peers = s.peers := rfl
@[simp] theorem State.setDie_portAt (s : State) (n : Nat) (x : Die) : (s.setDie n x).portAt = s.portAt := rfl
@[simp] theorem State.setDie_repairs (s : State) (n : Nat) (x : Die) : (s.setDie n x).repairs = s.repairs := rfl
@[simp] theorem State.setDie_corrected (s : State) (n : Nat) (x : Die) : (s.setDie n x).corrected = s.corrected := rfl
@[simp] theorem State.setDie_retiring (s : State) (n : Nat) (x : Die) : (s.setDie n x).retiring = s.retiring := rfl

-- `State.setCrew`.
@[simp] theorem State.setCrew_now (s : State) (n : Nat) (x : Crew) : (s.setCrew n x).now = s.now := rfl
@[simp] theorem State.setCrew_gtc (s : State) (n : Nat) (x : Crew) : (s.setCrew n x).gtc = s.gtc := rfl
@[simp] theorem State.setCrew_gtcBase (s : State) (n : Nat) (x : Crew) : (s.setCrew n x).gtcBase = s.gtcBase := rfl
@[simp] theorem State.setCrew_count (s : State) (n : Nat) (x : Crew) : (s.setCrew n x).count = s.count := rfl
@[simp] theorem State.setCrew_free (s : State) (n : Nat) (x : Crew) : (s.setCrew n x).free = s.free := rfl
@[simp] theorem State.setCrew_forced (s : State) (n : Nat) (x : Crew) : (s.setCrew n x).forced = s.forced := rfl
@[simp] theorem State.setCrew_agenda (s : State) (n : Nat) (x : Crew) : (s.setCrew n x).agenda = s.agenda := rfl
@[simp] theorem State.setCrew_actor (s : State) (n : Nat) (x : Crew) : (s.setCrew n x).actor = s.actor := rfl
@[simp] theorem State.setCrew_mem (s : State) (n : Nat) (x : Crew) : (s.setCrew n x).mem = s.mem := rfl
@[simp] theorem State.setCrew_hist (s : State) (n : Nat) (x : Crew) : (s.setCrew n x).hist = s.hist := rfl
@[simp] theorem State.setCrew_views (s : State) (n : Nat) (x : Crew) : (s.setCrew n x).views = s.views := rfl
@[simp] theorem State.setCrew_reqs (s : State) (n : Nat) (x : Crew) : (s.setCrew n x).reqs = s.reqs := rfl
@[simp] theorem State.setCrew_nextReq (s : State) (n : Nat) (x : Crew) : (s.setCrew n x).nextReq = s.nextReq := rfl
@[simp] theorem State.setCrew_trouble (s : State) (n : Nat) (x : Crew) : (s.setCrew n x).trouble = s.trouble := rfl
@[simp] theorem State.setCrew_held (s : State) (n : Nat) (x : Crew) : (s.setCrew n x).held = s.held := rfl
@[simp] theorem State.setCrew_arrived (s : State) (n : Nat) (x : Crew) : (s.setCrew n x).arrived = s.arrived := rfl
@[simp] theorem State.setCrew_seqs (s : State) (n : Nat) (x : Crew) : (s.setCrew n x).seqs = s.seqs := rfl
@[simp] theorem State.setCrew_hostLines (s : State) (n : Nat) (x : Crew) : (s.setCrew n x).hostLines = s.hostLines := rfl
@[simp] theorem State.setCrew_snoops (s : State) (n : Nat) (x : Crew) : (s.setCrew n x).snoops = s.snoops := rfl
@[simp] theorem State.setCrew_cpLanded (s : State) (n : Nat) (x : Crew) : (s.setCrew n x).cpLanded = s.cpLanded := rfl
@[simp] theorem State.setCrew_scopetab (s : State) (n : Nat) (x : Crew) : (s.setCrew n x).scopetab = s.scopetab := rfl
@[simp] theorem State.setCrew_tdir (s : State) (n : Nat) (x : Crew) : (s.setCrew n x).tdir = s.tdir := rfl
@[simp] theorem State.setCrew_bias (s : State) (n : Nat) (x : Crew) : (s.setCrew n x).bias = s.bias := rfl
@[simp] theorem State.setCrew_staging (s : State) (n : Nat) (x : Crew) : (s.setCrew n x).staging = s.staging := rfl
@[simp] theorem State.setCrew_watchers (s : State) (n : Nat) (x : Crew) : (s.setCrew n x).watchers = s.watchers := rfl
@[simp] theorem State.setCrew_cores (s : State) (n : Nat) (x : Crew) : (s.setCrew n x).cores = s.cores := rfl
@[simp] theorem State.setCrew_teams (s : State) (n : Nat) (x : Crew) : (s.setCrew n x).teams = s.teams := rfl
@[simp] theorem State.setCrew_dies (s : State) (n : Nat) (x : Crew) : (s.setCrew n x).dies = s.dies := rfl
@[simp] theorem State.setCrew_spec (s : State) (n : Nat) (x : Crew) : (s.setCrew n x).spec = s.spec := rfl
@[simp] theorem State.setCrew_specViol (s : State) (n : Nat) (x : Crew) : (s.setCrew n x).specViol = s.specViol := rfl
@[simp] theorem State.setCrew_nextRid (s : State) (n : Nat) (x : Crew) : (s.setCrew n x).nextRid = s.nextRid := rfl
@[simp] theorem State.setCrew_relays (s : State) (n : Nat) (x : Crew) : (s.setCrew n x).relays = s.relays := rfl
@[simp] theorem State.setCrew_heats (s : State) (n : Nat) (x : Crew) : (s.setCrew n x).heats = s.heats := rfl
@[simp] theorem State.setCrew_graphs (s : State) (n : Nat) (x : Crew) : (s.setCrew n x).graphs = s.graphs := rfl
@[simp] theorem State.setCrew_fed (s : State) (n : Nat) (x : Crew) : (s.setCrew n x).fed = s.fed := rfl
@[simp] theorem State.setCrew_crbase (s : State) (n : Nat) (x : Crew) : (s.setCrew n x).crbase = s.crbase := rfl
@[simp] theorem State.setCrew_crsize (s : State) (n : Nat) (x : Crew) : (s.setCrew n x).crsize = s.crsize := rfl
@[simp] theorem State.setCrew_cpbase (s : State) (n : Nat) (x : Crew) : (s.setCrew n x).cpbase = s.cpbase := rfl
@[simp] theorem State.setCrew_doorv (s : State) (n : Nat) (x : Crew) : (s.setCrew n x).doorv = s.doorv := rfl
@[simp] theorem State.setCrew_cdone (s : State) (n : Nat) (x : Crew) : (s.setCrew n x).cdone = s.cdone := rfl
@[simp] theorem State.setCrew_barMode (s : State) (n : Nat) (x : Crew) : (s.setCrew n x).barMode = s.barMode := rfl
@[simp] theorem State.setCrew_vecs (s : State) (n : Nat) (x : Crew) : (s.setCrew n x).vecs = s.vecs := rfl
@[simp] theorem State.setCrew_pools (s : State) (n : Nat) (x : Crew) : (s.setCrew n x).pools = s.pools := rfl
@[simp] theorem State.setCrew_ready (s : State) (n : Nat) (x : Crew) : (s.setCrew n x).ready = s.ready := rfl
@[simp] theorem State.setCrew_fw (s : State) (n : Nat) (x : Crew) : (s.setCrew n x).fw = s.fw := rfl
@[simp] theorem State.setCrew_fwMail (s : State) (n : Nat) (x : Crew) : (s.setCrew n x).fwMail = s.fwMail := rfl
@[simp] theorem State.setCrew_slots (s : State) (n : Nat) (x : Crew) : (s.setCrew n x).slots = s.slots := rfl
@[simp] theorem State.setCrew_runSlot (s : State) (n : Nat) (x : Crew) : (s.setCrew n x).runSlot = s.runSlot := rfl
@[simp] theorem State.setCrew_fwChange (s : State) (n : Nat) (x : Crew) : (s.setCrew n x).fwChange = s.fwChange := rfl
@[simp] theorem State.setCrew_booted (s : State) (n : Nat) (x : Crew) : (s.setCrew n x).booted = s.booted := rfl
@[simp] theorem State.setCrew_doe (s : State) (n : Nat) (x : Crew) : (s.setCrew n x).doe = s.doe := rfl
@[simp] theorem State.setCrew_cfgs (s : State) (n : Nat) (x : Crew) : (s.setCrew n x).cfgs = s.cfgs := rfl
@[simp] theorem State.setCrew_spare (s : State) (n : Nat) (x : Crew) : (s.setCrew n x).spare = s.spare := rfl
@[simp] theorem State.setCrew_identity (s : State) (n : Nat) (x : Crew) : (s.setCrew n x).identity = s.identity := rfl
@[simp] theorem State.setCrew_certs (s : State) (n : Nat) (x : Crew) : (s.setCrew n x).certs = s.certs := rfl
@[simp] theorem State.setCrew_log (s : State) (n : Nat) (x : Crew) : (s.setCrew n x).log = s.log := rfl
@[simp] theorem State.setCrew_linkLanes (s : State) (n : Nat) (x : Crew) : (s.setCrew n x).linkLanes = s.linkLanes := rfl
@[simp] theorem State.setCrew_ports (s : State) (n : Nat) (x : Crew) : (s.setCrew n x).ports = s.ports := rfl
@[simp] theorem State.setCrew_discovered (s : State) (n : Nat) (x : Crew) : (s.setCrew n x).discovered = s.discovered := rfl
@[simp] theorem State.setCrew_fabric (s : State) (n : Nat) (x : Crew) : (s.setCrew n x).fabric = s.fabric := rfl
@[simp] theorem State.setCrew_peers (s : State) (n : Nat) (x : Crew) : (s.setCrew n x).peers = s.peers := rfl
@[simp] theorem State.setCrew_portAt (s : State) (n : Nat) (x : Crew) : (s.setCrew n x).portAt = s.portAt := rfl
@[simp] theorem State.setCrew_repairs (s : State) (n : Nat) (x : Crew) : (s.setCrew n x).repairs = s.repairs := rfl
@[simp] theorem State.setCrew_corrected (s : State) (n : Nat) (x : Crew) : (s.setCrew n x).corrected = s.corrected := rfl
@[simp] theorem State.setCrew_retiring (s : State) (n : Nat) (x : Crew) : (s.setCrew n x).retiring = s.retiring := rfl

-- `State.setRelay`.
@[simp] theorem State.setRelay_now (s : State) (n : Nat) (x : Relay) : (s.setRelay n x).now = s.now := rfl
@[simp] theorem State.setRelay_gtc (s : State) (n : Nat) (x : Relay) : (s.setRelay n x).gtc = s.gtc := rfl
@[simp] theorem State.setRelay_gtcBase (s : State) (n : Nat) (x : Relay) : (s.setRelay n x).gtcBase = s.gtcBase := rfl
@[simp] theorem State.setRelay_count (s : State) (n : Nat) (x : Relay) : (s.setRelay n x).count = s.count := rfl
@[simp] theorem State.setRelay_free (s : State) (n : Nat) (x : Relay) : (s.setRelay n x).free = s.free := rfl
@[simp] theorem State.setRelay_forced (s : State) (n : Nat) (x : Relay) : (s.setRelay n x).forced = s.forced := rfl
@[simp] theorem State.setRelay_agenda (s : State) (n : Nat) (x : Relay) : (s.setRelay n x).agenda = s.agenda := rfl
@[simp] theorem State.setRelay_actor (s : State) (n : Nat) (x : Relay) : (s.setRelay n x).actor = s.actor := rfl
@[simp] theorem State.setRelay_mem (s : State) (n : Nat) (x : Relay) : (s.setRelay n x).mem = s.mem := rfl
@[simp] theorem State.setRelay_hist (s : State) (n : Nat) (x : Relay) : (s.setRelay n x).hist = s.hist := rfl
@[simp] theorem State.setRelay_views (s : State) (n : Nat) (x : Relay) : (s.setRelay n x).views = s.views := rfl
@[simp] theorem State.setRelay_reqs (s : State) (n : Nat) (x : Relay) : (s.setRelay n x).reqs = s.reqs := rfl
@[simp] theorem State.setRelay_nextReq (s : State) (n : Nat) (x : Relay) : (s.setRelay n x).nextReq = s.nextReq := rfl
@[simp] theorem State.setRelay_trouble (s : State) (n : Nat) (x : Relay) : (s.setRelay n x).trouble = s.trouble := rfl
@[simp] theorem State.setRelay_held (s : State) (n : Nat) (x : Relay) : (s.setRelay n x).held = s.held := rfl
@[simp] theorem State.setRelay_arrived (s : State) (n : Nat) (x : Relay) : (s.setRelay n x).arrived = s.arrived := rfl
@[simp] theorem State.setRelay_seqs (s : State) (n : Nat) (x : Relay) : (s.setRelay n x).seqs = s.seqs := rfl
@[simp] theorem State.setRelay_hostLines (s : State) (n : Nat) (x : Relay) : (s.setRelay n x).hostLines = s.hostLines := rfl
@[simp] theorem State.setRelay_snoops (s : State) (n : Nat) (x : Relay) : (s.setRelay n x).snoops = s.snoops := rfl
@[simp] theorem State.setRelay_cpLanded (s : State) (n : Nat) (x : Relay) : (s.setRelay n x).cpLanded = s.cpLanded := rfl
@[simp] theorem State.setRelay_scopetab (s : State) (n : Nat) (x : Relay) : (s.setRelay n x).scopetab = s.scopetab := rfl
@[simp] theorem State.setRelay_tdir (s : State) (n : Nat) (x : Relay) : (s.setRelay n x).tdir = s.tdir := rfl
@[simp] theorem State.setRelay_bias (s : State) (n : Nat) (x : Relay) : (s.setRelay n x).bias = s.bias := rfl
@[simp] theorem State.setRelay_staging (s : State) (n : Nat) (x : Relay) : (s.setRelay n x).staging = s.staging := rfl
@[simp] theorem State.setRelay_watchers (s : State) (n : Nat) (x : Relay) : (s.setRelay n x).watchers = s.watchers := rfl
@[simp] theorem State.setRelay_cores (s : State) (n : Nat) (x : Relay) : (s.setRelay n x).cores = s.cores := rfl
@[simp] theorem State.setRelay_teams (s : State) (n : Nat) (x : Relay) : (s.setRelay n x).teams = s.teams := rfl
@[simp] theorem State.setRelay_dies (s : State) (n : Nat) (x : Relay) : (s.setRelay n x).dies = s.dies := rfl
@[simp] theorem State.setRelay_crews (s : State) (n : Nat) (x : Relay) : (s.setRelay n x).crews = s.crews := rfl
@[simp] theorem State.setRelay_spec (s : State) (n : Nat) (x : Relay) : (s.setRelay n x).spec = s.spec := rfl
@[simp] theorem State.setRelay_specViol (s : State) (n : Nat) (x : Relay) : (s.setRelay n x).specViol = s.specViol := rfl
@[simp] theorem State.setRelay_nextRid (s : State) (n : Nat) (x : Relay) : (s.setRelay n x).nextRid = s.nextRid := rfl
@[simp] theorem State.setRelay_heats (s : State) (n : Nat) (x : Relay) : (s.setRelay n x).heats = s.heats := rfl
@[simp] theorem State.setRelay_graphs (s : State) (n : Nat) (x : Relay) : (s.setRelay n x).graphs = s.graphs := rfl
@[simp] theorem State.setRelay_fed (s : State) (n : Nat) (x : Relay) : (s.setRelay n x).fed = s.fed := rfl
@[simp] theorem State.setRelay_crbase (s : State) (n : Nat) (x : Relay) : (s.setRelay n x).crbase = s.crbase := rfl
@[simp] theorem State.setRelay_crsize (s : State) (n : Nat) (x : Relay) : (s.setRelay n x).crsize = s.crsize := rfl
@[simp] theorem State.setRelay_cpbase (s : State) (n : Nat) (x : Relay) : (s.setRelay n x).cpbase = s.cpbase := rfl
@[simp] theorem State.setRelay_doorv (s : State) (n : Nat) (x : Relay) : (s.setRelay n x).doorv = s.doorv := rfl
@[simp] theorem State.setRelay_cdone (s : State) (n : Nat) (x : Relay) : (s.setRelay n x).cdone = s.cdone := rfl
@[simp] theorem State.setRelay_barMode (s : State) (n : Nat) (x : Relay) : (s.setRelay n x).barMode = s.barMode := rfl
@[simp] theorem State.setRelay_vecs (s : State) (n : Nat) (x : Relay) : (s.setRelay n x).vecs = s.vecs := rfl
@[simp] theorem State.setRelay_pools (s : State) (n : Nat) (x : Relay) : (s.setRelay n x).pools = s.pools := rfl
@[simp] theorem State.setRelay_ready (s : State) (n : Nat) (x : Relay) : (s.setRelay n x).ready = s.ready := rfl
@[simp] theorem State.setRelay_fw (s : State) (n : Nat) (x : Relay) : (s.setRelay n x).fw = s.fw := rfl
@[simp] theorem State.setRelay_fwMail (s : State) (n : Nat) (x : Relay) : (s.setRelay n x).fwMail = s.fwMail := rfl
@[simp] theorem State.setRelay_slots (s : State) (n : Nat) (x : Relay) : (s.setRelay n x).slots = s.slots := rfl
@[simp] theorem State.setRelay_runSlot (s : State) (n : Nat) (x : Relay) : (s.setRelay n x).runSlot = s.runSlot := rfl
@[simp] theorem State.setRelay_fwChange (s : State) (n : Nat) (x : Relay) : (s.setRelay n x).fwChange = s.fwChange := rfl
@[simp] theorem State.setRelay_booted (s : State) (n : Nat) (x : Relay) : (s.setRelay n x).booted = s.booted := rfl
@[simp] theorem State.setRelay_doe (s : State) (n : Nat) (x : Relay) : (s.setRelay n x).doe = s.doe := rfl
@[simp] theorem State.setRelay_cfgs (s : State) (n : Nat) (x : Relay) : (s.setRelay n x).cfgs = s.cfgs := rfl
@[simp] theorem State.setRelay_spare (s : State) (n : Nat) (x : Relay) : (s.setRelay n x).spare = s.spare := rfl
@[simp] theorem State.setRelay_identity (s : State) (n : Nat) (x : Relay) : (s.setRelay n x).identity = s.identity := rfl
@[simp] theorem State.setRelay_certs (s : State) (n : Nat) (x : Relay) : (s.setRelay n x).certs = s.certs := rfl
@[simp] theorem State.setRelay_log (s : State) (n : Nat) (x : Relay) : (s.setRelay n x).log = s.log := rfl
@[simp] theorem State.setRelay_linkLanes (s : State) (n : Nat) (x : Relay) : (s.setRelay n x).linkLanes = s.linkLanes := rfl
@[simp] theorem State.setRelay_ports (s : State) (n : Nat) (x : Relay) : (s.setRelay n x).ports = s.ports := rfl
@[simp] theorem State.setRelay_discovered (s : State) (n : Nat) (x : Relay) : (s.setRelay n x).discovered = s.discovered := rfl
@[simp] theorem State.setRelay_fabric (s : State) (n : Nat) (x : Relay) : (s.setRelay n x).fabric = s.fabric := rfl
@[simp] theorem State.setRelay_peers (s : State) (n : Nat) (x : Relay) : (s.setRelay n x).peers = s.peers := rfl
@[simp] theorem State.setRelay_portAt (s : State) (n : Nat) (x : Relay) : (s.setRelay n x).portAt = s.portAt := rfl
@[simp] theorem State.setRelay_repairs (s : State) (n : Nat) (x : Relay) : (s.setRelay n x).repairs = s.repairs := rfl
@[simp] theorem State.setRelay_corrected (s : State) (n : Nat) (x : Relay) : (s.setRelay n x).corrected = s.corrected := rfl
@[simp] theorem State.setRelay_retiring (s : State) (n : Nat) (x : Relay) : (s.setRelay n x).retiring = s.retiring := rfl

-- `State.setHeat`.
@[simp] theorem State.setHeat_now (s : State) (n : Nat) (x : Heat) : (s.setHeat n x).now = s.now := rfl
@[simp] theorem State.setHeat_gtc (s : State) (n : Nat) (x : Heat) : (s.setHeat n x).gtc = s.gtc := rfl
@[simp] theorem State.setHeat_gtcBase (s : State) (n : Nat) (x : Heat) : (s.setHeat n x).gtcBase = s.gtcBase := rfl
@[simp] theorem State.setHeat_count (s : State) (n : Nat) (x : Heat) : (s.setHeat n x).count = s.count := rfl
@[simp] theorem State.setHeat_free (s : State) (n : Nat) (x : Heat) : (s.setHeat n x).free = s.free := rfl
@[simp] theorem State.setHeat_forced (s : State) (n : Nat) (x : Heat) : (s.setHeat n x).forced = s.forced := rfl
@[simp] theorem State.setHeat_agenda (s : State) (n : Nat) (x : Heat) : (s.setHeat n x).agenda = s.agenda := rfl
@[simp] theorem State.setHeat_actor (s : State) (n : Nat) (x : Heat) : (s.setHeat n x).actor = s.actor := rfl
@[simp] theorem State.setHeat_mem (s : State) (n : Nat) (x : Heat) : (s.setHeat n x).mem = s.mem := rfl
@[simp] theorem State.setHeat_hist (s : State) (n : Nat) (x : Heat) : (s.setHeat n x).hist = s.hist := rfl
@[simp] theorem State.setHeat_views (s : State) (n : Nat) (x : Heat) : (s.setHeat n x).views = s.views := rfl
@[simp] theorem State.setHeat_reqs (s : State) (n : Nat) (x : Heat) : (s.setHeat n x).reqs = s.reqs := rfl
@[simp] theorem State.setHeat_nextReq (s : State) (n : Nat) (x : Heat) : (s.setHeat n x).nextReq = s.nextReq := rfl
@[simp] theorem State.setHeat_trouble (s : State) (n : Nat) (x : Heat) : (s.setHeat n x).trouble = s.trouble := rfl
@[simp] theorem State.setHeat_held (s : State) (n : Nat) (x : Heat) : (s.setHeat n x).held = s.held := rfl
@[simp] theorem State.setHeat_arrived (s : State) (n : Nat) (x : Heat) : (s.setHeat n x).arrived = s.arrived := rfl
@[simp] theorem State.setHeat_seqs (s : State) (n : Nat) (x : Heat) : (s.setHeat n x).seqs = s.seqs := rfl
@[simp] theorem State.setHeat_hostLines (s : State) (n : Nat) (x : Heat) : (s.setHeat n x).hostLines = s.hostLines := rfl
@[simp] theorem State.setHeat_snoops (s : State) (n : Nat) (x : Heat) : (s.setHeat n x).snoops = s.snoops := rfl
@[simp] theorem State.setHeat_cpLanded (s : State) (n : Nat) (x : Heat) : (s.setHeat n x).cpLanded = s.cpLanded := rfl
@[simp] theorem State.setHeat_scopetab (s : State) (n : Nat) (x : Heat) : (s.setHeat n x).scopetab = s.scopetab := rfl
@[simp] theorem State.setHeat_tdir (s : State) (n : Nat) (x : Heat) : (s.setHeat n x).tdir = s.tdir := rfl
@[simp] theorem State.setHeat_bias (s : State) (n : Nat) (x : Heat) : (s.setHeat n x).bias = s.bias := rfl
@[simp] theorem State.setHeat_staging (s : State) (n : Nat) (x : Heat) : (s.setHeat n x).staging = s.staging := rfl
@[simp] theorem State.setHeat_watchers (s : State) (n : Nat) (x : Heat) : (s.setHeat n x).watchers = s.watchers := rfl
@[simp] theorem State.setHeat_cores (s : State) (n : Nat) (x : Heat) : (s.setHeat n x).cores = s.cores := rfl
@[simp] theorem State.setHeat_teams (s : State) (n : Nat) (x : Heat) : (s.setHeat n x).teams = s.teams := rfl
@[simp] theorem State.setHeat_dies (s : State) (n : Nat) (x : Heat) : (s.setHeat n x).dies = s.dies := rfl
@[simp] theorem State.setHeat_crews (s : State) (n : Nat) (x : Heat) : (s.setHeat n x).crews = s.crews := rfl
@[simp] theorem State.setHeat_spec (s : State) (n : Nat) (x : Heat) : (s.setHeat n x).spec = s.spec := rfl
@[simp] theorem State.setHeat_specViol (s : State) (n : Nat) (x : Heat) : (s.setHeat n x).specViol = s.specViol := rfl
@[simp] theorem State.setHeat_nextRid (s : State) (n : Nat) (x : Heat) : (s.setHeat n x).nextRid = s.nextRid := rfl
@[simp] theorem State.setHeat_relays (s : State) (n : Nat) (x : Heat) : (s.setHeat n x).relays = s.relays := rfl
@[simp] theorem State.setHeat_graphs (s : State) (n : Nat) (x : Heat) : (s.setHeat n x).graphs = s.graphs := rfl
@[simp] theorem State.setHeat_fed (s : State) (n : Nat) (x : Heat) : (s.setHeat n x).fed = s.fed := rfl
@[simp] theorem State.setHeat_crbase (s : State) (n : Nat) (x : Heat) : (s.setHeat n x).crbase = s.crbase := rfl
@[simp] theorem State.setHeat_crsize (s : State) (n : Nat) (x : Heat) : (s.setHeat n x).crsize = s.crsize := rfl
@[simp] theorem State.setHeat_cpbase (s : State) (n : Nat) (x : Heat) : (s.setHeat n x).cpbase = s.cpbase := rfl
@[simp] theorem State.setHeat_doorv (s : State) (n : Nat) (x : Heat) : (s.setHeat n x).doorv = s.doorv := rfl
@[simp] theorem State.setHeat_cdone (s : State) (n : Nat) (x : Heat) : (s.setHeat n x).cdone = s.cdone := rfl
@[simp] theorem State.setHeat_barMode (s : State) (n : Nat) (x : Heat) : (s.setHeat n x).barMode = s.barMode := rfl
@[simp] theorem State.setHeat_vecs (s : State) (n : Nat) (x : Heat) : (s.setHeat n x).vecs = s.vecs := rfl
@[simp] theorem State.setHeat_pools (s : State) (n : Nat) (x : Heat) : (s.setHeat n x).pools = s.pools := rfl
@[simp] theorem State.setHeat_ready (s : State) (n : Nat) (x : Heat) : (s.setHeat n x).ready = s.ready := rfl
@[simp] theorem State.setHeat_fw (s : State) (n : Nat) (x : Heat) : (s.setHeat n x).fw = s.fw := rfl
@[simp] theorem State.setHeat_fwMail (s : State) (n : Nat) (x : Heat) : (s.setHeat n x).fwMail = s.fwMail := rfl
@[simp] theorem State.setHeat_slots (s : State) (n : Nat) (x : Heat) : (s.setHeat n x).slots = s.slots := rfl
@[simp] theorem State.setHeat_runSlot (s : State) (n : Nat) (x : Heat) : (s.setHeat n x).runSlot = s.runSlot := rfl
@[simp] theorem State.setHeat_fwChange (s : State) (n : Nat) (x : Heat) : (s.setHeat n x).fwChange = s.fwChange := rfl
@[simp] theorem State.setHeat_booted (s : State) (n : Nat) (x : Heat) : (s.setHeat n x).booted = s.booted := rfl
@[simp] theorem State.setHeat_doe (s : State) (n : Nat) (x : Heat) : (s.setHeat n x).doe = s.doe := rfl
@[simp] theorem State.setHeat_cfgs (s : State) (n : Nat) (x : Heat) : (s.setHeat n x).cfgs = s.cfgs := rfl
@[simp] theorem State.setHeat_spare (s : State) (n : Nat) (x : Heat) : (s.setHeat n x).spare = s.spare := rfl
@[simp] theorem State.setHeat_identity (s : State) (n : Nat) (x : Heat) : (s.setHeat n x).identity = s.identity := rfl
@[simp] theorem State.setHeat_certs (s : State) (n : Nat) (x : Heat) : (s.setHeat n x).certs = s.certs := rfl
@[simp] theorem State.setHeat_log (s : State) (n : Nat) (x : Heat) : (s.setHeat n x).log = s.log := rfl
@[simp] theorem State.setHeat_linkLanes (s : State) (n : Nat) (x : Heat) : (s.setHeat n x).linkLanes = s.linkLanes := rfl
@[simp] theorem State.setHeat_ports (s : State) (n : Nat) (x : Heat) : (s.setHeat n x).ports = s.ports := rfl
@[simp] theorem State.setHeat_discovered (s : State) (n : Nat) (x : Heat) : (s.setHeat n x).discovered = s.discovered := rfl
@[simp] theorem State.setHeat_fabric (s : State) (n : Nat) (x : Heat) : (s.setHeat n x).fabric = s.fabric := rfl
@[simp] theorem State.setHeat_peers (s : State) (n : Nat) (x : Heat) : (s.setHeat n x).peers = s.peers := rfl
@[simp] theorem State.setHeat_portAt (s : State) (n : Nat) (x : Heat) : (s.setHeat n x).portAt = s.portAt := rfl
@[simp] theorem State.setHeat_repairs (s : State) (n : Nat) (x : Heat) : (s.setHeat n x).repairs = s.repairs := rfl
@[simp] theorem State.setHeat_corrected (s : State) (n : Nat) (x : Heat) : (s.setHeat n x).corrected = s.corrected := rfl
@[simp] theorem State.setHeat_retiring (s : State) (n : Nat) (x : Heat) : (s.setHeat n x).retiring = s.retiring := rfl

-- `State.setGraph`.
@[simp] theorem State.setGraph_now (s : State) (n : Nat) (x : Graph) : (s.setGraph n x).now = s.now := rfl
@[simp] theorem State.setGraph_gtc (s : State) (n : Nat) (x : Graph) : (s.setGraph n x).gtc = s.gtc := rfl
@[simp] theorem State.setGraph_gtcBase (s : State) (n : Nat) (x : Graph) : (s.setGraph n x).gtcBase = s.gtcBase := rfl
@[simp] theorem State.setGraph_count (s : State) (n : Nat) (x : Graph) : (s.setGraph n x).count = s.count := rfl
@[simp] theorem State.setGraph_free (s : State) (n : Nat) (x : Graph) : (s.setGraph n x).free = s.free := rfl
@[simp] theorem State.setGraph_forced (s : State) (n : Nat) (x : Graph) : (s.setGraph n x).forced = s.forced := rfl
@[simp] theorem State.setGraph_agenda (s : State) (n : Nat) (x : Graph) : (s.setGraph n x).agenda = s.agenda := rfl
@[simp] theorem State.setGraph_actor (s : State) (n : Nat) (x : Graph) : (s.setGraph n x).actor = s.actor := rfl
@[simp] theorem State.setGraph_mem (s : State) (n : Nat) (x : Graph) : (s.setGraph n x).mem = s.mem := rfl
@[simp] theorem State.setGraph_hist (s : State) (n : Nat) (x : Graph) : (s.setGraph n x).hist = s.hist := rfl
@[simp] theorem State.setGraph_views (s : State) (n : Nat) (x : Graph) : (s.setGraph n x).views = s.views := rfl
@[simp] theorem State.setGraph_reqs (s : State) (n : Nat) (x : Graph) : (s.setGraph n x).reqs = s.reqs := rfl
@[simp] theorem State.setGraph_nextReq (s : State) (n : Nat) (x : Graph) : (s.setGraph n x).nextReq = s.nextReq := rfl
@[simp] theorem State.setGraph_trouble (s : State) (n : Nat) (x : Graph) : (s.setGraph n x).trouble = s.trouble := rfl
@[simp] theorem State.setGraph_held (s : State) (n : Nat) (x : Graph) : (s.setGraph n x).held = s.held := rfl
@[simp] theorem State.setGraph_arrived (s : State) (n : Nat) (x : Graph) : (s.setGraph n x).arrived = s.arrived := rfl
@[simp] theorem State.setGraph_seqs (s : State) (n : Nat) (x : Graph) : (s.setGraph n x).seqs = s.seqs := rfl
@[simp] theorem State.setGraph_hostLines (s : State) (n : Nat) (x : Graph) : (s.setGraph n x).hostLines = s.hostLines := rfl
@[simp] theorem State.setGraph_snoops (s : State) (n : Nat) (x : Graph) : (s.setGraph n x).snoops = s.snoops := rfl
@[simp] theorem State.setGraph_cpLanded (s : State) (n : Nat) (x : Graph) : (s.setGraph n x).cpLanded = s.cpLanded := rfl
@[simp] theorem State.setGraph_scopetab (s : State) (n : Nat) (x : Graph) : (s.setGraph n x).scopetab = s.scopetab := rfl
@[simp] theorem State.setGraph_tdir (s : State) (n : Nat) (x : Graph) : (s.setGraph n x).tdir = s.tdir := rfl
@[simp] theorem State.setGraph_bias (s : State) (n : Nat) (x : Graph) : (s.setGraph n x).bias = s.bias := rfl
@[simp] theorem State.setGraph_staging (s : State) (n : Nat) (x : Graph) : (s.setGraph n x).staging = s.staging := rfl
@[simp] theorem State.setGraph_watchers (s : State) (n : Nat) (x : Graph) : (s.setGraph n x).watchers = s.watchers := rfl
@[simp] theorem State.setGraph_cores (s : State) (n : Nat) (x : Graph) : (s.setGraph n x).cores = s.cores := rfl
@[simp] theorem State.setGraph_teams (s : State) (n : Nat) (x : Graph) : (s.setGraph n x).teams = s.teams := rfl
@[simp] theorem State.setGraph_dies (s : State) (n : Nat) (x : Graph) : (s.setGraph n x).dies = s.dies := rfl
@[simp] theorem State.setGraph_crews (s : State) (n : Nat) (x : Graph) : (s.setGraph n x).crews = s.crews := rfl
@[simp] theorem State.setGraph_spec (s : State) (n : Nat) (x : Graph) : (s.setGraph n x).spec = s.spec := rfl
@[simp] theorem State.setGraph_specViol (s : State) (n : Nat) (x : Graph) : (s.setGraph n x).specViol = s.specViol := rfl
@[simp] theorem State.setGraph_nextRid (s : State) (n : Nat) (x : Graph) : (s.setGraph n x).nextRid = s.nextRid := rfl
@[simp] theorem State.setGraph_relays (s : State) (n : Nat) (x : Graph) : (s.setGraph n x).relays = s.relays := rfl
@[simp] theorem State.setGraph_heats (s : State) (n : Nat) (x : Graph) : (s.setGraph n x).heats = s.heats := rfl
@[simp] theorem State.setGraph_fed (s : State) (n : Nat) (x : Graph) : (s.setGraph n x).fed = s.fed := rfl
@[simp] theorem State.setGraph_crbase (s : State) (n : Nat) (x : Graph) : (s.setGraph n x).crbase = s.crbase := rfl
@[simp] theorem State.setGraph_crsize (s : State) (n : Nat) (x : Graph) : (s.setGraph n x).crsize = s.crsize := rfl
@[simp] theorem State.setGraph_cpbase (s : State) (n : Nat) (x : Graph) : (s.setGraph n x).cpbase = s.cpbase := rfl
@[simp] theorem State.setGraph_doorv (s : State) (n : Nat) (x : Graph) : (s.setGraph n x).doorv = s.doorv := rfl
@[simp] theorem State.setGraph_cdone (s : State) (n : Nat) (x : Graph) : (s.setGraph n x).cdone = s.cdone := rfl
@[simp] theorem State.setGraph_barMode (s : State) (n : Nat) (x : Graph) : (s.setGraph n x).barMode = s.barMode := rfl
@[simp] theorem State.setGraph_vecs (s : State) (n : Nat) (x : Graph) : (s.setGraph n x).vecs = s.vecs := rfl
@[simp] theorem State.setGraph_pools (s : State) (n : Nat) (x : Graph) : (s.setGraph n x).pools = s.pools := rfl
@[simp] theorem State.setGraph_ready (s : State) (n : Nat) (x : Graph) : (s.setGraph n x).ready = s.ready := rfl
@[simp] theorem State.setGraph_fw (s : State) (n : Nat) (x : Graph) : (s.setGraph n x).fw = s.fw := rfl
@[simp] theorem State.setGraph_fwMail (s : State) (n : Nat) (x : Graph) : (s.setGraph n x).fwMail = s.fwMail := rfl
@[simp] theorem State.setGraph_slots (s : State) (n : Nat) (x : Graph) : (s.setGraph n x).slots = s.slots := rfl
@[simp] theorem State.setGraph_runSlot (s : State) (n : Nat) (x : Graph) : (s.setGraph n x).runSlot = s.runSlot := rfl
@[simp] theorem State.setGraph_fwChange (s : State) (n : Nat) (x : Graph) : (s.setGraph n x).fwChange = s.fwChange := rfl
@[simp] theorem State.setGraph_booted (s : State) (n : Nat) (x : Graph) : (s.setGraph n x).booted = s.booted := rfl
@[simp] theorem State.setGraph_doe (s : State) (n : Nat) (x : Graph) : (s.setGraph n x).doe = s.doe := rfl
@[simp] theorem State.setGraph_cfgs (s : State) (n : Nat) (x : Graph) : (s.setGraph n x).cfgs = s.cfgs := rfl
@[simp] theorem State.setGraph_spare (s : State) (n : Nat) (x : Graph) : (s.setGraph n x).spare = s.spare := rfl
@[simp] theorem State.setGraph_identity (s : State) (n : Nat) (x : Graph) : (s.setGraph n x).identity = s.identity := rfl
@[simp] theorem State.setGraph_certs (s : State) (n : Nat) (x : Graph) : (s.setGraph n x).certs = s.certs := rfl
@[simp] theorem State.setGraph_log (s : State) (n : Nat) (x : Graph) : (s.setGraph n x).log = s.log := rfl
@[simp] theorem State.setGraph_linkLanes (s : State) (n : Nat) (x : Graph) : (s.setGraph n x).linkLanes = s.linkLanes := rfl
@[simp] theorem State.setGraph_ports (s : State) (n : Nat) (x : Graph) : (s.setGraph n x).ports = s.ports := rfl
@[simp] theorem State.setGraph_discovered (s : State) (n : Nat) (x : Graph) : (s.setGraph n x).discovered = s.discovered := rfl
@[simp] theorem State.setGraph_fabric (s : State) (n : Nat) (x : Graph) : (s.setGraph n x).fabric = s.fabric := rfl
@[simp] theorem State.setGraph_peers (s : State) (n : Nat) (x : Graph) : (s.setGraph n x).peers = s.peers := rfl
@[simp] theorem State.setGraph_portAt (s : State) (n : Nat) (x : Graph) : (s.setGraph n x).portAt = s.portAt := rfl
@[simp] theorem State.setGraph_repairs (s : State) (n : Nat) (x : Graph) : (s.setGraph n x).repairs = s.repairs := rfl
@[simp] theorem State.setGraph_corrected (s : State) (n : Nat) (x : Graph) : (s.setGraph n x).corrected = s.corrected := rfl
@[simp] theorem State.setGraph_retiring (s : State) (n : Nat) (x : Graph) : (s.setGraph n x).retiring = s.retiring := rfl

-- `State.setFwc`.
@[simp] theorem State.setFwc_now (s : State) (n : Nat) (x : FwCore) : (s.setFwc n x).now = s.now := rfl
@[simp] theorem State.setFwc_gtc (s : State) (n : Nat) (x : FwCore) : (s.setFwc n x).gtc = s.gtc := rfl
@[simp] theorem State.setFwc_gtcBase (s : State) (n : Nat) (x : FwCore) : (s.setFwc n x).gtcBase = s.gtcBase := rfl
@[simp] theorem State.setFwc_count (s : State) (n : Nat) (x : FwCore) : (s.setFwc n x).count = s.count := rfl
@[simp] theorem State.setFwc_free (s : State) (n : Nat) (x : FwCore) : (s.setFwc n x).free = s.free := rfl
@[simp] theorem State.setFwc_forced (s : State) (n : Nat) (x : FwCore) : (s.setFwc n x).forced = s.forced := rfl
@[simp] theorem State.setFwc_agenda (s : State) (n : Nat) (x : FwCore) : (s.setFwc n x).agenda = s.agenda := rfl
@[simp] theorem State.setFwc_actor (s : State) (n : Nat) (x : FwCore) : (s.setFwc n x).actor = s.actor := rfl
@[simp] theorem State.setFwc_mem (s : State) (n : Nat) (x : FwCore) : (s.setFwc n x).mem = s.mem := rfl
@[simp] theorem State.setFwc_hist (s : State) (n : Nat) (x : FwCore) : (s.setFwc n x).hist = s.hist := rfl
@[simp] theorem State.setFwc_views (s : State) (n : Nat) (x : FwCore) : (s.setFwc n x).views = s.views := rfl
@[simp] theorem State.setFwc_reqs (s : State) (n : Nat) (x : FwCore) : (s.setFwc n x).reqs = s.reqs := rfl
@[simp] theorem State.setFwc_nextReq (s : State) (n : Nat) (x : FwCore) : (s.setFwc n x).nextReq = s.nextReq := rfl
@[simp] theorem State.setFwc_trouble (s : State) (n : Nat) (x : FwCore) : (s.setFwc n x).trouble = s.trouble := rfl
@[simp] theorem State.setFwc_held (s : State) (n : Nat) (x : FwCore) : (s.setFwc n x).held = s.held := rfl
@[simp] theorem State.setFwc_arrived (s : State) (n : Nat) (x : FwCore) : (s.setFwc n x).arrived = s.arrived := rfl
@[simp] theorem State.setFwc_seqs (s : State) (n : Nat) (x : FwCore) : (s.setFwc n x).seqs = s.seqs := rfl
@[simp] theorem State.setFwc_hostLines (s : State) (n : Nat) (x : FwCore) : (s.setFwc n x).hostLines = s.hostLines := rfl
@[simp] theorem State.setFwc_snoops (s : State) (n : Nat) (x : FwCore) : (s.setFwc n x).snoops = s.snoops := rfl
@[simp] theorem State.setFwc_cpLanded (s : State) (n : Nat) (x : FwCore) : (s.setFwc n x).cpLanded = s.cpLanded := rfl
@[simp] theorem State.setFwc_scopetab (s : State) (n : Nat) (x : FwCore) : (s.setFwc n x).scopetab = s.scopetab := rfl
@[simp] theorem State.setFwc_tdir (s : State) (n : Nat) (x : FwCore) : (s.setFwc n x).tdir = s.tdir := rfl
@[simp] theorem State.setFwc_bias (s : State) (n : Nat) (x : FwCore) : (s.setFwc n x).bias = s.bias := rfl
@[simp] theorem State.setFwc_staging (s : State) (n : Nat) (x : FwCore) : (s.setFwc n x).staging = s.staging := rfl
@[simp] theorem State.setFwc_watchers (s : State) (n : Nat) (x : FwCore) : (s.setFwc n x).watchers = s.watchers := rfl
@[simp] theorem State.setFwc_cores (s : State) (n : Nat) (x : FwCore) : (s.setFwc n x).cores = s.cores := rfl
@[simp] theorem State.setFwc_teams (s : State) (n : Nat) (x : FwCore) : (s.setFwc n x).teams = s.teams := rfl
@[simp] theorem State.setFwc_dies (s : State) (n : Nat) (x : FwCore) : (s.setFwc n x).dies = s.dies := rfl
@[simp] theorem State.setFwc_crews (s : State) (n : Nat) (x : FwCore) : (s.setFwc n x).crews = s.crews := rfl
@[simp] theorem State.setFwc_spec (s : State) (n : Nat) (x : FwCore) : (s.setFwc n x).spec = s.spec := rfl
@[simp] theorem State.setFwc_specViol (s : State) (n : Nat) (x : FwCore) : (s.setFwc n x).specViol = s.specViol := rfl
@[simp] theorem State.setFwc_nextRid (s : State) (n : Nat) (x : FwCore) : (s.setFwc n x).nextRid = s.nextRid := rfl
@[simp] theorem State.setFwc_relays (s : State) (n : Nat) (x : FwCore) : (s.setFwc n x).relays = s.relays := rfl
@[simp] theorem State.setFwc_heats (s : State) (n : Nat) (x : FwCore) : (s.setFwc n x).heats = s.heats := rfl
@[simp] theorem State.setFwc_graphs (s : State) (n : Nat) (x : FwCore) : (s.setFwc n x).graphs = s.graphs := rfl
@[simp] theorem State.setFwc_fed (s : State) (n : Nat) (x : FwCore) : (s.setFwc n x).fed = s.fed := rfl
@[simp] theorem State.setFwc_crbase (s : State) (n : Nat) (x : FwCore) : (s.setFwc n x).crbase = s.crbase := rfl
@[simp] theorem State.setFwc_crsize (s : State) (n : Nat) (x : FwCore) : (s.setFwc n x).crsize = s.crsize := rfl
@[simp] theorem State.setFwc_cpbase (s : State) (n : Nat) (x : FwCore) : (s.setFwc n x).cpbase = s.cpbase := rfl
@[simp] theorem State.setFwc_doorv (s : State) (n : Nat) (x : FwCore) : (s.setFwc n x).doorv = s.doorv := rfl
@[simp] theorem State.setFwc_cdone (s : State) (n : Nat) (x : FwCore) : (s.setFwc n x).cdone = s.cdone := rfl
@[simp] theorem State.setFwc_barMode (s : State) (n : Nat) (x : FwCore) : (s.setFwc n x).barMode = s.barMode := rfl
@[simp] theorem State.setFwc_vecs (s : State) (n : Nat) (x : FwCore) : (s.setFwc n x).vecs = s.vecs := rfl
@[simp] theorem State.setFwc_pools (s : State) (n : Nat) (x : FwCore) : (s.setFwc n x).pools = s.pools := rfl
@[simp] theorem State.setFwc_ready (s : State) (n : Nat) (x : FwCore) : (s.setFwc n x).ready = s.ready := rfl
@[simp] theorem State.setFwc_fwMail (s : State) (n : Nat) (x : FwCore) : (s.setFwc n x).fwMail = s.fwMail := rfl
@[simp] theorem State.setFwc_slots (s : State) (n : Nat) (x : FwCore) : (s.setFwc n x).slots = s.slots := rfl
@[simp] theorem State.setFwc_runSlot (s : State) (n : Nat) (x : FwCore) : (s.setFwc n x).runSlot = s.runSlot := rfl
@[simp] theorem State.setFwc_fwChange (s : State) (n : Nat) (x : FwCore) : (s.setFwc n x).fwChange = s.fwChange := rfl
@[simp] theorem State.setFwc_booted (s : State) (n : Nat) (x : FwCore) : (s.setFwc n x).booted = s.booted := rfl
@[simp] theorem State.setFwc_doe (s : State) (n : Nat) (x : FwCore) : (s.setFwc n x).doe = s.doe := rfl
@[simp] theorem State.setFwc_cfgs (s : State) (n : Nat) (x : FwCore) : (s.setFwc n x).cfgs = s.cfgs := rfl
@[simp] theorem State.setFwc_spare (s : State) (n : Nat) (x : FwCore) : (s.setFwc n x).spare = s.spare := rfl
@[simp] theorem State.setFwc_identity (s : State) (n : Nat) (x : FwCore) : (s.setFwc n x).identity = s.identity := rfl
@[simp] theorem State.setFwc_certs (s : State) (n : Nat) (x : FwCore) : (s.setFwc n x).certs = s.certs := rfl
@[simp] theorem State.setFwc_log (s : State) (n : Nat) (x : FwCore) : (s.setFwc n x).log = s.log := rfl
@[simp] theorem State.setFwc_linkLanes (s : State) (n : Nat) (x : FwCore) : (s.setFwc n x).linkLanes = s.linkLanes := rfl
@[simp] theorem State.setFwc_ports (s : State) (n : Nat) (x : FwCore) : (s.setFwc n x).ports = s.ports := rfl
@[simp] theorem State.setFwc_discovered (s : State) (n : Nat) (x : FwCore) : (s.setFwc n x).discovered = s.discovered := rfl
@[simp] theorem State.setFwc_fabric (s : State) (n : Nat) (x : FwCore) : (s.setFwc n x).fabric = s.fabric := rfl
@[simp] theorem State.setFwc_peers (s : State) (n : Nat) (x : FwCore) : (s.setFwc n x).peers = s.peers := rfl
@[simp] theorem State.setFwc_portAt (s : State) (n : Nat) (x : FwCore) : (s.setFwc n x).portAt = s.portAt := rfl
@[simp] theorem State.setFwc_repairs (s : State) (n : Nat) (x : FwCore) : (s.setFwc n x).repairs = s.repairs := rfl
@[simp] theorem State.setFwc_corrected (s : State) (n : Nat) (x : FwCore) : (s.setFwc n x).corrected = s.corrected := rfl
@[simp] theorem State.setFwc_retiring (s : State) (n : Nat) (x : FwCore) : (s.setFwc n x).retiring = s.retiring := rfl

-- `State.setView`.
@[simp] theorem State.setView_now (s : State) (n : Nat) (x : View) : (s.setView n x).now = s.now := rfl
@[simp] theorem State.setView_gtc (s : State) (n : Nat) (x : View) : (s.setView n x).gtc = s.gtc := rfl
@[simp] theorem State.setView_gtcBase (s : State) (n : Nat) (x : View) : (s.setView n x).gtcBase = s.gtcBase := rfl
@[simp] theorem State.setView_count (s : State) (n : Nat) (x : View) : (s.setView n x).count = s.count := rfl
@[simp] theorem State.setView_free (s : State) (n : Nat) (x : View) : (s.setView n x).free = s.free := rfl
@[simp] theorem State.setView_forced (s : State) (n : Nat) (x : View) : (s.setView n x).forced = s.forced := rfl
@[simp] theorem State.setView_agenda (s : State) (n : Nat) (x : View) : (s.setView n x).agenda = s.agenda := rfl
@[simp] theorem State.setView_actor (s : State) (n : Nat) (x : View) : (s.setView n x).actor = s.actor := rfl
@[simp] theorem State.setView_mem (s : State) (n : Nat) (x : View) : (s.setView n x).mem = s.mem := rfl
@[simp] theorem State.setView_hist (s : State) (n : Nat) (x : View) : (s.setView n x).hist = s.hist := rfl
@[simp] theorem State.setView_reqs (s : State) (n : Nat) (x : View) : (s.setView n x).reqs = s.reqs := rfl
@[simp] theorem State.setView_nextReq (s : State) (n : Nat) (x : View) : (s.setView n x).nextReq = s.nextReq := rfl
@[simp] theorem State.setView_trouble (s : State) (n : Nat) (x : View) : (s.setView n x).trouble = s.trouble := rfl
@[simp] theorem State.setView_held (s : State) (n : Nat) (x : View) : (s.setView n x).held = s.held := rfl
@[simp] theorem State.setView_arrived (s : State) (n : Nat) (x : View) : (s.setView n x).arrived = s.arrived := rfl
@[simp] theorem State.setView_seqs (s : State) (n : Nat) (x : View) : (s.setView n x).seqs = s.seqs := rfl
@[simp] theorem State.setView_hostLines (s : State) (n : Nat) (x : View) : (s.setView n x).hostLines = s.hostLines := rfl
@[simp] theorem State.setView_snoops (s : State) (n : Nat) (x : View) : (s.setView n x).snoops = s.snoops := rfl
@[simp] theorem State.setView_cpLanded (s : State) (n : Nat) (x : View) : (s.setView n x).cpLanded = s.cpLanded := rfl
@[simp] theorem State.setView_scopetab (s : State) (n : Nat) (x : View) : (s.setView n x).scopetab = s.scopetab := rfl
@[simp] theorem State.setView_tdir (s : State) (n : Nat) (x : View) : (s.setView n x).tdir = s.tdir := rfl
@[simp] theorem State.setView_bias (s : State) (n : Nat) (x : View) : (s.setView n x).bias = s.bias := rfl
@[simp] theorem State.setView_staging (s : State) (n : Nat) (x : View) : (s.setView n x).staging = s.staging := rfl
@[simp] theorem State.setView_watchers (s : State) (n : Nat) (x : View) : (s.setView n x).watchers = s.watchers := rfl
@[simp] theorem State.setView_cores (s : State) (n : Nat) (x : View) : (s.setView n x).cores = s.cores := rfl
@[simp] theorem State.setView_teams (s : State) (n : Nat) (x : View) : (s.setView n x).teams = s.teams := rfl
@[simp] theorem State.setView_dies (s : State) (n : Nat) (x : View) : (s.setView n x).dies = s.dies := rfl
@[simp] theorem State.setView_crews (s : State) (n : Nat) (x : View) : (s.setView n x).crews = s.crews := rfl
@[simp] theorem State.setView_spec (s : State) (n : Nat) (x : View) : (s.setView n x).spec = s.spec := rfl
@[simp] theorem State.setView_specViol (s : State) (n : Nat) (x : View) : (s.setView n x).specViol = s.specViol := rfl
@[simp] theorem State.setView_nextRid (s : State) (n : Nat) (x : View) : (s.setView n x).nextRid = s.nextRid := rfl
@[simp] theorem State.setView_relays (s : State) (n : Nat) (x : View) : (s.setView n x).relays = s.relays := rfl
@[simp] theorem State.setView_heats (s : State) (n : Nat) (x : View) : (s.setView n x).heats = s.heats := rfl
@[simp] theorem State.setView_graphs (s : State) (n : Nat) (x : View) : (s.setView n x).graphs = s.graphs := rfl
@[simp] theorem State.setView_fed (s : State) (n : Nat) (x : View) : (s.setView n x).fed = s.fed := rfl
@[simp] theorem State.setView_crbase (s : State) (n : Nat) (x : View) : (s.setView n x).crbase = s.crbase := rfl
@[simp] theorem State.setView_crsize (s : State) (n : Nat) (x : View) : (s.setView n x).crsize = s.crsize := rfl
@[simp] theorem State.setView_cpbase (s : State) (n : Nat) (x : View) : (s.setView n x).cpbase = s.cpbase := rfl
@[simp] theorem State.setView_doorv (s : State) (n : Nat) (x : View) : (s.setView n x).doorv = s.doorv := rfl
@[simp] theorem State.setView_cdone (s : State) (n : Nat) (x : View) : (s.setView n x).cdone = s.cdone := rfl
@[simp] theorem State.setView_barMode (s : State) (n : Nat) (x : View) : (s.setView n x).barMode = s.barMode := rfl
@[simp] theorem State.setView_vecs (s : State) (n : Nat) (x : View) : (s.setView n x).vecs = s.vecs := rfl
@[simp] theorem State.setView_pools (s : State) (n : Nat) (x : View) : (s.setView n x).pools = s.pools := rfl
@[simp] theorem State.setView_ready (s : State) (n : Nat) (x : View) : (s.setView n x).ready = s.ready := rfl
@[simp] theorem State.setView_fw (s : State) (n : Nat) (x : View) : (s.setView n x).fw = s.fw := rfl
@[simp] theorem State.setView_fwMail (s : State) (n : Nat) (x : View) : (s.setView n x).fwMail = s.fwMail := rfl
@[simp] theorem State.setView_slots (s : State) (n : Nat) (x : View) : (s.setView n x).slots = s.slots := rfl
@[simp] theorem State.setView_runSlot (s : State) (n : Nat) (x : View) : (s.setView n x).runSlot = s.runSlot := rfl
@[simp] theorem State.setView_fwChange (s : State) (n : Nat) (x : View) : (s.setView n x).fwChange = s.fwChange := rfl
@[simp] theorem State.setView_booted (s : State) (n : Nat) (x : View) : (s.setView n x).booted = s.booted := rfl
@[simp] theorem State.setView_doe (s : State) (n : Nat) (x : View) : (s.setView n x).doe = s.doe := rfl
@[simp] theorem State.setView_cfgs (s : State) (n : Nat) (x : View) : (s.setView n x).cfgs = s.cfgs := rfl
@[simp] theorem State.setView_spare (s : State) (n : Nat) (x : View) : (s.setView n x).spare = s.spare := rfl
@[simp] theorem State.setView_identity (s : State) (n : Nat) (x : View) : (s.setView n x).identity = s.identity := rfl
@[simp] theorem State.setView_certs (s : State) (n : Nat) (x : View) : (s.setView n x).certs = s.certs := rfl
@[simp] theorem State.setView_log (s : State) (n : Nat) (x : View) : (s.setView n x).log = s.log := rfl
@[simp] theorem State.setView_linkLanes (s : State) (n : Nat) (x : View) : (s.setView n x).linkLanes = s.linkLanes := rfl
@[simp] theorem State.setView_ports (s : State) (n : Nat) (x : View) : (s.setView n x).ports = s.ports := rfl
@[simp] theorem State.setView_discovered (s : State) (n : Nat) (x : View) : (s.setView n x).discovered = s.discovered := rfl
@[simp] theorem State.setView_fabric (s : State) (n : Nat) (x : View) : (s.setView n x).fabric = s.fabric := rfl
@[simp] theorem State.setView_peers (s : State) (n : Nat) (x : View) : (s.setView n x).peers = s.peers := rfl
@[simp] theorem State.setView_portAt (s : State) (n : Nat) (x : View) : (s.setView n x).portAt = s.portAt := rfl
@[simp] theorem State.setView_repairs (s : State) (n : Nat) (x : View) : (s.setView n x).repairs = s.repairs := rfl
@[simp] theorem State.setView_corrected (s : State) (n : Nat) (x : View) : (s.setView n x).corrected = s.corrected := rfl
@[simp] theorem State.setView_retiring (s : State) (n : Nat) (x : View) : (s.setView n x).retiring = s.retiring := rfl

-- `State.setMe`.
@[simp] theorem State.setMe_now (s : State) (k : Core) : (s.setMe k).now = s.now := rfl
@[simp] theorem State.setMe_gtc (s : State) (k : Core) : (s.setMe k).gtc = s.gtc := rfl
@[simp] theorem State.setMe_gtcBase (s : State) (k : Core) : (s.setMe k).gtcBase = s.gtcBase := rfl
@[simp] theorem State.setMe_count (s : State) (k : Core) : (s.setMe k).count = s.count := rfl
@[simp] theorem State.setMe_free (s : State) (k : Core) : (s.setMe k).free = s.free := rfl
@[simp] theorem State.setMe_forced (s : State) (k : Core) : (s.setMe k).forced = s.forced := rfl
@[simp] theorem State.setMe_agenda (s : State) (k : Core) : (s.setMe k).agenda = s.agenda := rfl
@[simp] theorem State.setMe_actor (s : State) (k : Core) : (s.setMe k).actor = s.actor := rfl
@[simp] theorem State.setMe_mem (s : State) (k : Core) : (s.setMe k).mem = s.mem := rfl
@[simp] theorem State.setMe_hist (s : State) (k : Core) : (s.setMe k).hist = s.hist := rfl
@[simp] theorem State.setMe_views (s : State) (k : Core) : (s.setMe k).views = s.views := rfl
@[simp] theorem State.setMe_reqs (s : State) (k : Core) : (s.setMe k).reqs = s.reqs := rfl
@[simp] theorem State.setMe_nextReq (s : State) (k : Core) : (s.setMe k).nextReq = s.nextReq := rfl
@[simp] theorem State.setMe_trouble (s : State) (k : Core) : (s.setMe k).trouble = s.trouble := rfl
@[simp] theorem State.setMe_held (s : State) (k : Core) : (s.setMe k).held = s.held := rfl
@[simp] theorem State.setMe_arrived (s : State) (k : Core) : (s.setMe k).arrived = s.arrived := rfl
@[simp] theorem State.setMe_seqs (s : State) (k : Core) : (s.setMe k).seqs = s.seqs := rfl
@[simp] theorem State.setMe_hostLines (s : State) (k : Core) : (s.setMe k).hostLines = s.hostLines := rfl
@[simp] theorem State.setMe_snoops (s : State) (k : Core) : (s.setMe k).snoops = s.snoops := rfl
@[simp] theorem State.setMe_cpLanded (s : State) (k : Core) : (s.setMe k).cpLanded = s.cpLanded := rfl
@[simp] theorem State.setMe_scopetab (s : State) (k : Core) : (s.setMe k).scopetab = s.scopetab := rfl
@[simp] theorem State.setMe_tdir (s : State) (k : Core) : (s.setMe k).tdir = s.tdir := rfl
@[simp] theorem State.setMe_bias (s : State) (k : Core) : (s.setMe k).bias = s.bias := rfl
@[simp] theorem State.setMe_staging (s : State) (k : Core) : (s.setMe k).staging = s.staging := rfl
@[simp] theorem State.setMe_watchers (s : State) (k : Core) : (s.setMe k).watchers = s.watchers := rfl
@[simp] theorem State.setMe_teams (s : State) (k : Core) : (s.setMe k).teams = s.teams := rfl
@[simp] theorem State.setMe_dies (s : State) (k : Core) : (s.setMe k).dies = s.dies := rfl
@[simp] theorem State.setMe_crews (s : State) (k : Core) : (s.setMe k).crews = s.crews := rfl
@[simp] theorem State.setMe_spec (s : State) (k : Core) : (s.setMe k).spec = s.spec := rfl
@[simp] theorem State.setMe_specViol (s : State) (k : Core) : (s.setMe k).specViol = s.specViol := rfl
@[simp] theorem State.setMe_nextRid (s : State) (k : Core) : (s.setMe k).nextRid = s.nextRid := rfl
@[simp] theorem State.setMe_relays (s : State) (k : Core) : (s.setMe k).relays = s.relays := rfl
@[simp] theorem State.setMe_heats (s : State) (k : Core) : (s.setMe k).heats = s.heats := rfl
@[simp] theorem State.setMe_graphs (s : State) (k : Core) : (s.setMe k).graphs = s.graphs := rfl
@[simp] theorem State.setMe_fed (s : State) (k : Core) : (s.setMe k).fed = s.fed := rfl
@[simp] theorem State.setMe_crbase (s : State) (k : Core) : (s.setMe k).crbase = s.crbase := rfl
@[simp] theorem State.setMe_crsize (s : State) (k : Core) : (s.setMe k).crsize = s.crsize := rfl
@[simp] theorem State.setMe_cpbase (s : State) (k : Core) : (s.setMe k).cpbase = s.cpbase := rfl
@[simp] theorem State.setMe_doorv (s : State) (k : Core) : (s.setMe k).doorv = s.doorv := rfl
@[simp] theorem State.setMe_cdone (s : State) (k : Core) : (s.setMe k).cdone = s.cdone := rfl
@[simp] theorem State.setMe_barMode (s : State) (k : Core) : (s.setMe k).barMode = s.barMode := rfl
@[simp] theorem State.setMe_vecs (s : State) (k : Core) : (s.setMe k).vecs = s.vecs := rfl
@[simp] theorem State.setMe_pools (s : State) (k : Core) : (s.setMe k).pools = s.pools := rfl
@[simp] theorem State.setMe_ready (s : State) (k : Core) : (s.setMe k).ready = s.ready := rfl
@[simp] theorem State.setMe_fw (s : State) (k : Core) : (s.setMe k).fw = s.fw := rfl
@[simp] theorem State.setMe_fwMail (s : State) (k : Core) : (s.setMe k).fwMail = s.fwMail := rfl
@[simp] theorem State.setMe_slots (s : State) (k : Core) : (s.setMe k).slots = s.slots := rfl
@[simp] theorem State.setMe_runSlot (s : State) (k : Core) : (s.setMe k).runSlot = s.runSlot := rfl
@[simp] theorem State.setMe_fwChange (s : State) (k : Core) : (s.setMe k).fwChange = s.fwChange := rfl
@[simp] theorem State.setMe_booted (s : State) (k : Core) : (s.setMe k).booted = s.booted := rfl
@[simp] theorem State.setMe_doe (s : State) (k : Core) : (s.setMe k).doe = s.doe := rfl
@[simp] theorem State.setMe_cfgs (s : State) (k : Core) : (s.setMe k).cfgs = s.cfgs := rfl
@[simp] theorem State.setMe_spare (s : State) (k : Core) : (s.setMe k).spare = s.spare := rfl
@[simp] theorem State.setMe_identity (s : State) (k : Core) : (s.setMe k).identity = s.identity := rfl
@[simp] theorem State.setMe_certs (s : State) (k : Core) : (s.setMe k).certs = s.certs := rfl
@[simp] theorem State.setMe_log (s : State) (k : Core) : (s.setMe k).log = s.log := rfl
@[simp] theorem State.setMe_linkLanes (s : State) (k : Core) : (s.setMe k).linkLanes = s.linkLanes := rfl
@[simp] theorem State.setMe_ports (s : State) (k : Core) : (s.setMe k).ports = s.ports := rfl
@[simp] theorem State.setMe_discovered (s : State) (k : Core) : (s.setMe k).discovered = s.discovered := rfl
@[simp] theorem State.setMe_fabric (s : State) (k : Core) : (s.setMe k).fabric = s.fabric := rfl
@[simp] theorem State.setMe_peers (s : State) (k : Core) : (s.setMe k).peers = s.peers := rfl
@[simp] theorem State.setMe_portAt (s : State) (k : Core) : (s.setMe k).portAt = s.portAt := rfl
@[simp] theorem State.setMe_repairs (s : State) (k : Core) : (s.setMe k).repairs = s.repairs := rfl
@[simp] theorem State.setMe_corrected (s : State) (k : Core) : (s.setMe k).corrected = s.corrected := rfl
@[simp] theorem State.setMe_retiring (s : State) (k : Core) : (s.setMe k).retiring = s.retiring := rfl

-- `State.soon`.
@[simp] theorem State.soon_now (s : State) (l : List Instr) : (s.soon l).now = s.now := rfl
@[simp] theorem State.soon_gtc (s : State) (l : List Instr) : (s.soon l).gtc = s.gtc := rfl
@[simp] theorem State.soon_gtcBase (s : State) (l : List Instr) : (s.soon l).gtcBase = s.gtcBase := rfl
@[simp] theorem State.soon_count (s : State) (l : List Instr) : (s.soon l).count = s.count := rfl
@[simp] theorem State.soon_free (s : State) (l : List Instr) : (s.soon l).free = s.free := rfl
@[simp] theorem State.soon_forced (s : State) (l : List Instr) : (s.soon l).forced = s.forced := rfl
@[simp] theorem State.soon_actor (s : State) (l : List Instr) : (s.soon l).actor = s.actor := rfl
@[simp] theorem State.soon_mem (s : State) (l : List Instr) : (s.soon l).mem = s.mem := rfl
@[simp] theorem State.soon_hist (s : State) (l : List Instr) : (s.soon l).hist = s.hist := rfl
@[simp] theorem State.soon_views (s : State) (l : List Instr) : (s.soon l).views = s.views := rfl
@[simp] theorem State.soon_reqs (s : State) (l : List Instr) : (s.soon l).reqs = s.reqs := rfl
@[simp] theorem State.soon_nextReq (s : State) (l : List Instr) : (s.soon l).nextReq = s.nextReq := rfl
@[simp] theorem State.soon_trouble (s : State) (l : List Instr) : (s.soon l).trouble = s.trouble := rfl
@[simp] theorem State.soon_held (s : State) (l : List Instr) : (s.soon l).held = s.held := rfl
@[simp] theorem State.soon_arrived (s : State) (l : List Instr) : (s.soon l).arrived = s.arrived := rfl
@[simp] theorem State.soon_seqs (s : State) (l : List Instr) : (s.soon l).seqs = s.seqs := rfl
@[simp] theorem State.soon_hostLines (s : State) (l : List Instr) : (s.soon l).hostLines = s.hostLines := rfl
@[simp] theorem State.soon_snoops (s : State) (l : List Instr) : (s.soon l).snoops = s.snoops := rfl
@[simp] theorem State.soon_cpLanded (s : State) (l : List Instr) : (s.soon l).cpLanded = s.cpLanded := rfl
@[simp] theorem State.soon_scopetab (s : State) (l : List Instr) : (s.soon l).scopetab = s.scopetab := rfl
@[simp] theorem State.soon_tdir (s : State) (l : List Instr) : (s.soon l).tdir = s.tdir := rfl
@[simp] theorem State.soon_bias (s : State) (l : List Instr) : (s.soon l).bias = s.bias := rfl
@[simp] theorem State.soon_staging (s : State) (l : List Instr) : (s.soon l).staging = s.staging := rfl
@[simp] theorem State.soon_watchers (s : State) (l : List Instr) : (s.soon l).watchers = s.watchers := rfl
@[simp] theorem State.soon_cores (s : State) (l : List Instr) : (s.soon l).cores = s.cores := rfl
@[simp] theorem State.soon_teams (s : State) (l : List Instr) : (s.soon l).teams = s.teams := rfl
@[simp] theorem State.soon_dies (s : State) (l : List Instr) : (s.soon l).dies = s.dies := rfl
@[simp] theorem State.soon_crews (s : State) (l : List Instr) : (s.soon l).crews = s.crews := rfl
@[simp] theorem State.soon_spec (s : State) (l : List Instr) : (s.soon l).spec = s.spec := rfl
@[simp] theorem State.soon_specViol (s : State) (l : List Instr) : (s.soon l).specViol = s.specViol := rfl
@[simp] theorem State.soon_nextRid (s : State) (l : List Instr) : (s.soon l).nextRid = s.nextRid := rfl
@[simp] theorem State.soon_relays (s : State) (l : List Instr) : (s.soon l).relays = s.relays := rfl
@[simp] theorem State.soon_heats (s : State) (l : List Instr) : (s.soon l).heats = s.heats := rfl
@[simp] theorem State.soon_graphs (s : State) (l : List Instr) : (s.soon l).graphs = s.graphs := rfl
@[simp] theorem State.soon_fed (s : State) (l : List Instr) : (s.soon l).fed = s.fed := rfl
@[simp] theorem State.soon_crbase (s : State) (l : List Instr) : (s.soon l).crbase = s.crbase := rfl
@[simp] theorem State.soon_crsize (s : State) (l : List Instr) : (s.soon l).crsize = s.crsize := rfl
@[simp] theorem State.soon_cpbase (s : State) (l : List Instr) : (s.soon l).cpbase = s.cpbase := rfl
@[simp] theorem State.soon_doorv (s : State) (l : List Instr) : (s.soon l).doorv = s.doorv := rfl
@[simp] theorem State.soon_cdone (s : State) (l : List Instr) : (s.soon l).cdone = s.cdone := rfl
@[simp] theorem State.soon_barMode (s : State) (l : List Instr) : (s.soon l).barMode = s.barMode := rfl
@[simp] theorem State.soon_vecs (s : State) (l : List Instr) : (s.soon l).vecs = s.vecs := rfl
@[simp] theorem State.soon_pools (s : State) (l : List Instr) : (s.soon l).pools = s.pools := rfl
@[simp] theorem State.soon_ready (s : State) (l : List Instr) : (s.soon l).ready = s.ready := rfl
@[simp] theorem State.soon_fw (s : State) (l : List Instr) : (s.soon l).fw = s.fw := rfl
@[simp] theorem State.soon_fwMail (s : State) (l : List Instr) : (s.soon l).fwMail = s.fwMail := rfl
@[simp] theorem State.soon_slots (s : State) (l : List Instr) : (s.soon l).slots = s.slots := rfl
@[simp] theorem State.soon_runSlot (s : State) (l : List Instr) : (s.soon l).runSlot = s.runSlot := rfl
@[simp] theorem State.soon_fwChange (s : State) (l : List Instr) : (s.soon l).fwChange = s.fwChange := rfl
@[simp] theorem State.soon_booted (s : State) (l : List Instr) : (s.soon l).booted = s.booted := rfl
@[simp] theorem State.soon_doe (s : State) (l : List Instr) : (s.soon l).doe = s.doe := rfl
@[simp] theorem State.soon_cfgs (s : State) (l : List Instr) : (s.soon l).cfgs = s.cfgs := rfl
@[simp] theorem State.soon_spare (s : State) (l : List Instr) : (s.soon l).spare = s.spare := rfl
@[simp] theorem State.soon_identity (s : State) (l : List Instr) : (s.soon l).identity = s.identity := rfl
@[simp] theorem State.soon_certs (s : State) (l : List Instr) : (s.soon l).certs = s.certs := rfl
@[simp] theorem State.soon_log (s : State) (l : List Instr) : (s.soon l).log = s.log := rfl
@[simp] theorem State.soon_linkLanes (s : State) (l : List Instr) : (s.soon l).linkLanes = s.linkLanes := rfl
@[simp] theorem State.soon_ports (s : State) (l : List Instr) : (s.soon l).ports = s.ports := rfl
@[simp] theorem State.soon_discovered (s : State) (l : List Instr) : (s.soon l).discovered = s.discovered := rfl
@[simp] theorem State.soon_fabric (s : State) (l : List Instr) : (s.soon l).fabric = s.fabric := rfl
@[simp] theorem State.soon_peers (s : State) (l : List Instr) : (s.soon l).peers = s.peers := rfl
@[simp] theorem State.soon_portAt (s : State) (l : List Instr) : (s.soon l).portAt = s.portAt := rfl
@[simp] theorem State.soon_repairs (s : State) (l : List Instr) : (s.soon l).repairs = s.repairs := rfl
@[simp] theorem State.soon_corrected (s : State) (l : List Instr) : (s.soon l).corrected = s.corrected := rfl
@[simp] theorem State.soon_retiring (s : State) (l : List Instr) : (s.soon l).retiring = s.retiring := rfl

-- `State.unheld`.
@[simp] theorem State.unheld_now (s : State) : (s.unheld).now = s.now := rfl
@[simp] theorem State.unheld_gtc (s : State) : (s.unheld).gtc = s.gtc := rfl
@[simp] theorem State.unheld_gtcBase (s : State) : (s.unheld).gtcBase = s.gtcBase := rfl
@[simp] theorem State.unheld_count (s : State) : (s.unheld).count = s.count := rfl
@[simp] theorem State.unheld_free (s : State) : (s.unheld).free = s.free := rfl
@[simp] theorem State.unheld_forced (s : State) : (s.unheld).forced = s.forced := rfl
@[simp] theorem State.unheld_agenda (s : State) : (s.unheld).agenda = s.agenda := rfl
@[simp] theorem State.unheld_actor (s : State) : (s.unheld).actor = s.actor := rfl
@[simp] theorem State.unheld_mem (s : State) : (s.unheld).mem = s.mem := rfl
@[simp] theorem State.unheld_hist (s : State) : (s.unheld).hist = s.hist := rfl
@[simp] theorem State.unheld_views (s : State) : (s.unheld).views = s.views := rfl
@[simp] theorem State.unheld_reqs (s : State) : (s.unheld).reqs = s.reqs := rfl
@[simp] theorem State.unheld_nextReq (s : State) : (s.unheld).nextReq = s.nextReq := rfl
@[simp] theorem State.unheld_trouble (s : State) : (s.unheld).trouble = s.trouble := rfl
@[simp] theorem State.unheld_arrived (s : State) : (s.unheld).arrived = s.arrived := rfl
@[simp] theorem State.unheld_seqs (s : State) : (s.unheld).seqs = s.seqs := rfl
@[simp] theorem State.unheld_hostLines (s : State) : (s.unheld).hostLines = s.hostLines := rfl
@[simp] theorem State.unheld_snoops (s : State) : (s.unheld).snoops = s.snoops := rfl
@[simp] theorem State.unheld_cpLanded (s : State) : (s.unheld).cpLanded = s.cpLanded := rfl
@[simp] theorem State.unheld_scopetab (s : State) : (s.unheld).scopetab = s.scopetab := rfl
@[simp] theorem State.unheld_tdir (s : State) : (s.unheld).tdir = s.tdir := rfl
@[simp] theorem State.unheld_bias (s : State) : (s.unheld).bias = s.bias := rfl
@[simp] theorem State.unheld_staging (s : State) : (s.unheld).staging = s.staging := rfl
@[simp] theorem State.unheld_watchers (s : State) : (s.unheld).watchers = s.watchers := rfl
@[simp] theorem State.unheld_cores (s : State) : (s.unheld).cores = s.cores := rfl
@[simp] theorem State.unheld_teams (s : State) : (s.unheld).teams = s.teams := rfl
@[simp] theorem State.unheld_dies (s : State) : (s.unheld).dies = s.dies := rfl
@[simp] theorem State.unheld_crews (s : State) : (s.unheld).crews = s.crews := rfl
@[simp] theorem State.unheld_spec (s : State) : (s.unheld).spec = s.spec := rfl
@[simp] theorem State.unheld_specViol (s : State) : (s.unheld).specViol = s.specViol := rfl
@[simp] theorem State.unheld_nextRid (s : State) : (s.unheld).nextRid = s.nextRid := rfl
@[simp] theorem State.unheld_relays (s : State) : (s.unheld).relays = s.relays := rfl
@[simp] theorem State.unheld_heats (s : State) : (s.unheld).heats = s.heats := rfl
@[simp] theorem State.unheld_graphs (s : State) : (s.unheld).graphs = s.graphs := rfl
@[simp] theorem State.unheld_fed (s : State) : (s.unheld).fed = s.fed := rfl
@[simp] theorem State.unheld_crbase (s : State) : (s.unheld).crbase = s.crbase := rfl
@[simp] theorem State.unheld_crsize (s : State) : (s.unheld).crsize = s.crsize := rfl
@[simp] theorem State.unheld_cpbase (s : State) : (s.unheld).cpbase = s.cpbase := rfl
@[simp] theorem State.unheld_doorv (s : State) : (s.unheld).doorv = s.doorv := rfl
@[simp] theorem State.unheld_cdone (s : State) : (s.unheld).cdone = s.cdone := rfl
@[simp] theorem State.unheld_barMode (s : State) : (s.unheld).barMode = s.barMode := rfl
@[simp] theorem State.unheld_vecs (s : State) : (s.unheld).vecs = s.vecs := rfl
@[simp] theorem State.unheld_pools (s : State) : (s.unheld).pools = s.pools := rfl
@[simp] theorem State.unheld_ready (s : State) : (s.unheld).ready = s.ready := rfl
@[simp] theorem State.unheld_fw (s : State) : (s.unheld).fw = s.fw := rfl
@[simp] theorem State.unheld_fwMail (s : State) : (s.unheld).fwMail = s.fwMail := rfl
@[simp] theorem State.unheld_slots (s : State) : (s.unheld).slots = s.slots := rfl
@[simp] theorem State.unheld_runSlot (s : State) : (s.unheld).runSlot = s.runSlot := rfl
@[simp] theorem State.unheld_fwChange (s : State) : (s.unheld).fwChange = s.fwChange := rfl
@[simp] theorem State.unheld_booted (s : State) : (s.unheld).booted = s.booted := rfl
@[simp] theorem State.unheld_doe (s : State) : (s.unheld).doe = s.doe := rfl
@[simp] theorem State.unheld_cfgs (s : State) : (s.unheld).cfgs = s.cfgs := rfl
@[simp] theorem State.unheld_spare (s : State) : (s.unheld).spare = s.spare := rfl
@[simp] theorem State.unheld_identity (s : State) : (s.unheld).identity = s.identity := rfl
@[simp] theorem State.unheld_certs (s : State) : (s.unheld).certs = s.certs := rfl
@[simp] theorem State.unheld_log (s : State) : (s.unheld).log = s.log := rfl
@[simp] theorem State.unheld_linkLanes (s : State) : (s.unheld).linkLanes = s.linkLanes := rfl
@[simp] theorem State.unheld_ports (s : State) : (s.unheld).ports = s.ports := rfl
@[simp] theorem State.unheld_discovered (s : State) : (s.unheld).discovered = s.discovered := rfl
@[simp] theorem State.unheld_fabric (s : State) : (s.unheld).fabric = s.fabric := rfl
@[simp] theorem State.unheld_peers (s : State) : (s.unheld).peers = s.peers := rfl
@[simp] theorem State.unheld_portAt (s : State) : (s.unheld).portAt = s.portAt := rfl
@[simp] theorem State.unheld_repairs (s : State) : (s.unheld).repairs = s.repairs := rfl
@[simp] theorem State.unheld_corrected (s : State) : (s.unheld).corrected = s.corrected := rfl
@[simp] theorem State.unheld_retiring (s : State) : (s.unheld).retiring = s.retiring := rfl
@[simp] theorem State.unheld_held (s : State) : s.unheld.held = [] := rfl

-- `Core.goto`.
@[simp] theorem Core.goto_crew (k : Core) (a : Nat) : (k.goto a).crew = k.crew := rfl
@[simp] theorem Core.goto_leg (k : Core) (a : Nat) : (k.goto a).leg = k.leg := rfl
@[simp] theorem Core.goto_origin (k : Core) (a : Nat) : (k.goto a).origin = k.origin := rfl
@[simp] theorem Core.goto_contained (k : Core) (a : Nat) : (k.goto a).contained = k.contained := rfl
@[simp] theorem Core.goto_s (k : Core) (a : Nat) : (k.goto a).s = k.s := rfl
@[simp] theorem Core.goto_defer (k : Core) (a : Nat) : (k.goto a).defer = k.defer := rfl
@[simp] theorem Core.goto_p (k : Core) (a : Nat) : (k.goto a).p = k.p := rfl
@[simp] theorem Core.goto_saved (k : Core) (a : Nat) : (k.goto a).saved = k.saved := rfl
@[simp] theorem Core.goto_wait (k : Core) (a : Nat) : (k.goto a).wait = k.wait := rfl
@[simp] theorem Core.goto_retry (k : Core) (a : Nat) : (k.goto a).retry = k.retry := rfl
@[simp] theorem Core.goto_mcall (k : Core) (a : Nat) : (k.goto a).mcall = k.mcall := rfl
@[simp] theorem Core.goto_savedMcall (k : Core) (a : Nat) : (k.goto a).savedMcall = k.savedMcall := rfl
@[simp] theorem Core.goto_micro (k : Core) (a : Nat) : (k.goto a).micro = k.micro := rfl
@[simp] theorem Core.goto_mdir (k : Core) (a : Nat) : (k.goto a).mdir = k.mdir := rfl
@[simp] theorem Core.goto_mode (k : Core) (a : Nat) : (k.goto a).mode = k.mode := rfl
@[simp] theorem Core.goto_fpcr (k : Core) (a : Nat) : (k.goto a).fpcr = k.fpcr := rfl
@[simp] theorem Core.goto_fpsr (k : Core) (a : Nat) : (k.goto a).fpsr = k.fpsr := rfl
@[simp] theorem Core.goto_slip (k : Core) (a : Nat) : (k.goto a).slip = k.slip := rfl
@[simp] theorem Core.goto_rrb (k : Core) (a : Nat) : (k.goto a).rrb = k.rrb := rfl
@[simp] theorem Core.goto_mskdepth (k : Core) (a : Nat) : (k.goto a).mskdepth = k.mskdepth := rfl
@[simp] theorem Core.goto_ccc (k : Core) (a : Nat) : (k.goto a).ccc = k.ccc := rfl
@[simp] theorem Core.goto_specstat (k : Core) (a : Nat) : (k.goto a).specstat = k.specstat := rfl
@[simp] theorem Core.goto_livemap (k : Core) (a : Nat) : (k.goto a).livemap = k.livemap := rfl
@[simp] theorem Core.goto_livebits (k : Core) (a : Nat) : (k.goto a).livebits = k.livebits := rfl
@[simp] theorem Core.goto_dlost (k : Core) (a : Nat) : (k.goto a).dlost = k.dlost := rfl
@[simp] theorem Core.goto_qstat (k : Core) (a : Nat) : (k.goto a).qstat = k.qstat := rfl
@[simp] theorem Core.goto_tvec (k : Core) (a : Nat) : (k.goto a).tvec = k.tvec := rfl
@[simp] theorem Core.goto_tcause (k : Core) (a : Nat) : (k.goto a).tcause = k.tcause := rfl
@[simp] theorem Core.goto_tpc (k : Core) (a : Nat) : (k.goto a).tpc = k.tpc := rfl
@[simp] theorem Core.goto_topc (k : Core) (a : Nat) : (k.goto a).topc = k.topc := rfl
@[simp] theorem Core.goto_titer (k : Core) (a : Nat) : (k.goto a).titer = k.titer := rfl
@[simp] theorem Core.goto_taddr (k : Core) (a : Nat) : (k.goto a).taddr = k.taddr := rfl
@[simp] theorem Core.goto_teng (k : Core) (a : Nat) : (k.goto a).teng = k.teng := rfl
@[simp] theorem Core.goto_tsrc (k : Core) (a : Nat) : (k.goto a).tsrc = k.tsrc := rfl
@[simp] theorem Core.goto_tstamp (k : Core) (a : Nat) : (k.goto a).tstamp = k.tstamp := rfl
@[simp] theorem Core.goto_asid (k : Core) (a : Nat) : (k.goto a).asid = k.asid := rfl
@[simp] theorem Core.goto_mcsw (k : Core) (a : Nat) : (k.goto a).mcsw = k.mcsw := rfl
@[simp] theorem Core.goto_readyw (k : Core) (a : Nat) : (k.goto a).readyw = k.readyw := rfl
@[simp] theorem Core.goto_watch (k : Core) (a : Nat) : (k.goto a).watch = k.watch := rfl
@[simp] theorem Core.goto_watchctl (k : Core) (a : Nat) : (k.goto a).watchctl = k.watchctl := rfl
@[simp] theorem Core.goto_saveptr (k : Core) (a : Nat) : (k.goto a).saveptr = k.saveptr := rfl
@[simp] theorem Core.goto_tlog (k : Core) (a : Nat) : (k.goto a).tlog = k.tlog := rfl
@[simp] theorem Core.goto_wseq (k : Core) (a : Nat) : (k.goto a).wseq = k.wseq := rfl
@[simp] theorem Core.goto_tpcWritten (k : Core) (a : Nat) : (k.goto a).tpcWritten = k.tpcWritten := rfl
@[simp] theorem Core.goto_wskip (k : Core) (a : Nat) : (k.goto a).wskip = k.wskip := rfl
@[simp] theorem Core.goto_secFault (k : Core) (a : Nat) : (k.goto a).secFault = k.secFault := rfl
@[simp] theorem Core.goto_kept (k : Core) (a : Nat) : (k.goto a).kept = k.kept := rfl
@[simp] theorem Core.goto_asyncPeer (k : Core) (a : Nat) : (k.goto a).asyncPeer = k.asyncPeer := rfl
@[simp] theorem Core.goto_asyncWatch (k : Core) (a : Nat) : (k.goto a).asyncWatch = k.asyncWatch := rfl
@[simp] theorem Core.goto_owed (k : Core) (a : Nat) : (k.goto a).owed = k.owed := rfl
@[simp] theorem Core.goto_partNo (k : Core) (a : Nat) : (k.goto a).partNo = k.partNo := rfl
@[simp] theorem Core.goto_secNo (k : Core) (a : Nat) : (k.goto a).secNo = k.secNo := rfl
@[simp] theorem Core.goto_cur (k : Core) (a : Nat) : (k.goto a).cur = k.cur := rfl
@[simp] theorem Core.goto_parts (k : Core) (a : Nat) : (k.goto a).parts = k.parts := rfl
@[simp] theorem Core.goto_begun (k : Core) (a : Nat) : (k.goto a).begun = k.begun := rfl
@[simp] theorem Core.goto_q (k : Core) (a : Nat) : (k.goto a).q = k.q := rfl
@[simp] theorem Core.goto_fly (k : Core) (a : Nat) : (k.goto a).fly = k.fly := rfl
@[simp] theorem Core.goto_busy (k : Core) (a : Nat) : (k.goto a).busy = k.busy := rfl
@[simp] theorem Core.goto_lastBegin (k : Core) (a : Nat) : (k.goto a).lastBegin = k.lastBegin := rfl
@[simp] theorem Core.goto_tok (k : Core) (a : Nat) : (k.goto a).tok = k.tok := rfl
@[simp] theorem Core.goto_tokRel (k : Core) (a : Nat) : (k.goto a).tokRel = k.tokRel := rfl
@[simp] theorem Core.goto_fmtq (k : Core) (a : Nat) : (k.goto a).fmtq = k.fmtq := rfl
@[simp] theorem Core.goto_outq (k : Core) (a : Nat) : (k.goto a).outq = k.outq := rfl
@[simp] theorem Core.goto_outcnt (k : Core) (a : Nat) : (k.goto a).outcnt = k.outcnt := rfl
@[simp] theorem Core.goto_masks (k : Core) (a : Nat) : (k.goto a).masks = k.masks := rfl
@[simp] theorem Core.goto_mskip (k : Core) (a : Nat) : (k.goto a).mskip = k.mskip := rfl
@[simp] theorem Core.goto_lrelSec (k : Core) (a : Nat) : (k.goto a).lrelSec = k.lrelSec := rfl
@[simp] theorem Core.goto_v (k : Core) (a : Nat) : (k.goto a).v = k.v := rfl
@[simp] theorem Core.goto_frames (k : Core) (a : Nat) : (k.goto a).frames = k.frames := rfl
@[simp] theorem Core.goto_view32 (k : Core) (a : Nat) : (k.goto a).view32 = k.view32 := rfl
@[simp] theorem Core.goto_engw (k : Core) (a : Nat) : (k.goto a).engw = k.engw := rfl
@[simp] theorem Core.goto_chans (k : Core) (a : Nat) : (k.goto a).chans = k.chans := rfl
@[simp] theorem Core.goto_bars (k : Core) (a : Nat) : (k.goto a).bars = k.bars := rfl
@[simp] theorem Core.goto_bufs (k : Core) (a : Nat) : (k.goto a).bufs = k.bufs := rfl
@[simp] theorem Core.goto_tlb (k : Core) (a : Nat) : (k.goto a).tlb = k.tlb := rfl
@[simp] theorem Core.goto_relFabric (k : Core) (a : Nat) : (k.goto a).relFabric = k.relFabric := rfl
@[simp] theorem Core.goto_woken (k : Core) (a : Nat) : (k.goto a).woken = k.woken := rfl
@[simp] theorem Core.goto_leaving (k : Core) (a : Nat) : (k.goto a).leaving = k.leaving := rfl
@[simp] theorem Core.goto_marks (k : Core) (a : Nat) : (k.goto a).marks = k.marks := rfl
@[simp] theorem Core.goto_frozen (k : Core) (a : Nat) : (k.goto a).frozen = k.frozen := rfl

-- `Core.gotoHdr`.
@[simp] theorem Core.gotoHdr_crew (k : Core) (a : Nat) : (k.gotoHdr a).crew = k.crew := rfl
@[simp] theorem Core.gotoHdr_leg (k : Core) (a : Nat) : (k.gotoHdr a).leg = k.leg := rfl
@[simp] theorem Core.gotoHdr_origin (k : Core) (a : Nat) : (k.gotoHdr a).origin = k.origin := rfl
@[simp] theorem Core.gotoHdr_contained (k : Core) (a : Nat) : (k.gotoHdr a).contained = k.contained := rfl
@[simp] theorem Core.gotoHdr_s (k : Core) (a : Nat) : (k.gotoHdr a).s = k.s := rfl
@[simp] theorem Core.gotoHdr_defer (k : Core) (a : Nat) : (k.gotoHdr a).defer = k.defer := rfl
@[simp] theorem Core.gotoHdr_p (k : Core) (a : Nat) : (k.gotoHdr a).p = k.p := rfl
@[simp] theorem Core.gotoHdr_saved (k : Core) (a : Nat) : (k.gotoHdr a).saved = k.saved := rfl
@[simp] theorem Core.gotoHdr_wait (k : Core) (a : Nat) : (k.gotoHdr a).wait = k.wait := rfl
@[simp] theorem Core.gotoHdr_retry (k : Core) (a : Nat) : (k.gotoHdr a).retry = k.retry := rfl
@[simp] theorem Core.gotoHdr_mcall (k : Core) (a : Nat) : (k.gotoHdr a).mcall = k.mcall := rfl
@[simp] theorem Core.gotoHdr_savedMcall (k : Core) (a : Nat) : (k.gotoHdr a).savedMcall = k.savedMcall := rfl
@[simp] theorem Core.gotoHdr_micro (k : Core) (a : Nat) : (k.gotoHdr a).micro = k.micro := rfl
@[simp] theorem Core.gotoHdr_mdir (k : Core) (a : Nat) : (k.gotoHdr a).mdir = k.mdir := rfl
@[simp] theorem Core.gotoHdr_mode (k : Core) (a : Nat) : (k.gotoHdr a).mode = k.mode := rfl
@[simp] theorem Core.gotoHdr_fpcr (k : Core) (a : Nat) : (k.gotoHdr a).fpcr = k.fpcr := rfl
@[simp] theorem Core.gotoHdr_fpsr (k : Core) (a : Nat) : (k.gotoHdr a).fpsr = k.fpsr := rfl
@[simp] theorem Core.gotoHdr_slip (k : Core) (a : Nat) : (k.gotoHdr a).slip = k.slip := rfl
@[simp] theorem Core.gotoHdr_rrb (k : Core) (a : Nat) : (k.gotoHdr a).rrb = k.rrb := rfl
@[simp] theorem Core.gotoHdr_mskdepth (k : Core) (a : Nat) : (k.gotoHdr a).mskdepth = k.mskdepth := rfl
@[simp] theorem Core.gotoHdr_ccc (k : Core) (a : Nat) : (k.gotoHdr a).ccc = k.ccc := rfl
@[simp] theorem Core.gotoHdr_specstat (k : Core) (a : Nat) : (k.gotoHdr a).specstat = k.specstat := rfl
@[simp] theorem Core.gotoHdr_livemap (k : Core) (a : Nat) : (k.gotoHdr a).livemap = k.livemap := rfl
@[simp] theorem Core.gotoHdr_livebits (k : Core) (a : Nat) : (k.gotoHdr a).livebits = k.livebits := rfl
@[simp] theorem Core.gotoHdr_dlost (k : Core) (a : Nat) : (k.gotoHdr a).dlost = k.dlost := rfl
@[simp] theorem Core.gotoHdr_qstat (k : Core) (a : Nat) : (k.gotoHdr a).qstat = k.qstat := rfl
@[simp] theorem Core.gotoHdr_tvec (k : Core) (a : Nat) : (k.gotoHdr a).tvec = k.tvec := rfl
@[simp] theorem Core.gotoHdr_tcause (k : Core) (a : Nat) : (k.gotoHdr a).tcause = k.tcause := rfl
@[simp] theorem Core.gotoHdr_tpc (k : Core) (a : Nat) : (k.gotoHdr a).tpc = k.tpc := rfl
@[simp] theorem Core.gotoHdr_topc (k : Core) (a : Nat) : (k.gotoHdr a).topc = k.topc := rfl
@[simp] theorem Core.gotoHdr_titer (k : Core) (a : Nat) : (k.gotoHdr a).titer = k.titer := rfl
@[simp] theorem Core.gotoHdr_taddr (k : Core) (a : Nat) : (k.gotoHdr a).taddr = k.taddr := rfl
@[simp] theorem Core.gotoHdr_teng (k : Core) (a : Nat) : (k.gotoHdr a).teng = k.teng := rfl
@[simp] theorem Core.gotoHdr_tsrc (k : Core) (a : Nat) : (k.gotoHdr a).tsrc = k.tsrc := rfl
@[simp] theorem Core.gotoHdr_tstamp (k : Core) (a : Nat) : (k.gotoHdr a).tstamp = k.tstamp := rfl
@[simp] theorem Core.gotoHdr_asid (k : Core) (a : Nat) : (k.gotoHdr a).asid = k.asid := rfl
@[simp] theorem Core.gotoHdr_mcsw (k : Core) (a : Nat) : (k.gotoHdr a).mcsw = k.mcsw := rfl
@[simp] theorem Core.gotoHdr_readyw (k : Core) (a : Nat) : (k.gotoHdr a).readyw = k.readyw := rfl
@[simp] theorem Core.gotoHdr_watch (k : Core) (a : Nat) : (k.gotoHdr a).watch = k.watch := rfl
@[simp] theorem Core.gotoHdr_watchctl (k : Core) (a : Nat) : (k.gotoHdr a).watchctl = k.watchctl := rfl
@[simp] theorem Core.gotoHdr_saveptr (k : Core) (a : Nat) : (k.gotoHdr a).saveptr = k.saveptr := rfl
@[simp] theorem Core.gotoHdr_tlog (k : Core) (a : Nat) : (k.gotoHdr a).tlog = k.tlog := rfl
@[simp] theorem Core.gotoHdr_wseq (k : Core) (a : Nat) : (k.gotoHdr a).wseq = k.wseq := rfl
@[simp] theorem Core.gotoHdr_tpcWritten (k : Core) (a : Nat) : (k.gotoHdr a).tpcWritten = k.tpcWritten := rfl
@[simp] theorem Core.gotoHdr_wskip (k : Core) (a : Nat) : (k.gotoHdr a).wskip = k.wskip := rfl
@[simp] theorem Core.gotoHdr_secFault (k : Core) (a : Nat) : (k.gotoHdr a).secFault = k.secFault := rfl
@[simp] theorem Core.gotoHdr_kept (k : Core) (a : Nat) : (k.gotoHdr a).kept = k.kept := rfl
@[simp] theorem Core.gotoHdr_asyncPeer (k : Core) (a : Nat) : (k.gotoHdr a).asyncPeer = k.asyncPeer := rfl
@[simp] theorem Core.gotoHdr_asyncWatch (k : Core) (a : Nat) : (k.gotoHdr a).asyncWatch = k.asyncWatch := rfl
@[simp] theorem Core.gotoHdr_owed (k : Core) (a : Nat) : (k.gotoHdr a).owed = k.owed := rfl
@[simp] theorem Core.gotoHdr_partNo (k : Core) (a : Nat) : (k.gotoHdr a).partNo = k.partNo := rfl
@[simp] theorem Core.gotoHdr_secNo (k : Core) (a : Nat) : (k.gotoHdr a).secNo = k.secNo := rfl
@[simp] theorem Core.gotoHdr_cur (k : Core) (a : Nat) : (k.gotoHdr a).cur = k.cur := rfl
@[simp] theorem Core.gotoHdr_parts (k : Core) (a : Nat) : (k.gotoHdr a).parts = k.parts := rfl
@[simp] theorem Core.gotoHdr_begun (k : Core) (a : Nat) : (k.gotoHdr a).begun = k.begun := rfl
@[simp] theorem Core.gotoHdr_q (k : Core) (a : Nat) : (k.gotoHdr a).q = k.q := rfl
@[simp] theorem Core.gotoHdr_fly (k : Core) (a : Nat) : (k.gotoHdr a).fly = k.fly := rfl
@[simp] theorem Core.gotoHdr_busy (k : Core) (a : Nat) : (k.gotoHdr a).busy = k.busy := rfl
@[simp] theorem Core.gotoHdr_lastBegin (k : Core) (a : Nat) : (k.gotoHdr a).lastBegin = k.lastBegin := rfl
@[simp] theorem Core.gotoHdr_tok (k : Core) (a : Nat) : (k.gotoHdr a).tok = k.tok := rfl
@[simp] theorem Core.gotoHdr_tokRel (k : Core) (a : Nat) : (k.gotoHdr a).tokRel = k.tokRel := rfl
@[simp] theorem Core.gotoHdr_fmtq (k : Core) (a : Nat) : (k.gotoHdr a).fmtq = k.fmtq := rfl
@[simp] theorem Core.gotoHdr_outq (k : Core) (a : Nat) : (k.gotoHdr a).outq = k.outq := rfl
@[simp] theorem Core.gotoHdr_outcnt (k : Core) (a : Nat) : (k.gotoHdr a).outcnt = k.outcnt := rfl
@[simp] theorem Core.gotoHdr_masks (k : Core) (a : Nat) : (k.gotoHdr a).masks = k.masks := rfl
@[simp] theorem Core.gotoHdr_mskip (k : Core) (a : Nat) : (k.gotoHdr a).mskip = k.mskip := rfl
@[simp] theorem Core.gotoHdr_lrelSec (k : Core) (a : Nat) : (k.gotoHdr a).lrelSec = k.lrelSec := rfl
@[simp] theorem Core.gotoHdr_v (k : Core) (a : Nat) : (k.gotoHdr a).v = k.v := rfl
@[simp] theorem Core.gotoHdr_frames (k : Core) (a : Nat) : (k.gotoHdr a).frames = k.frames := rfl
@[simp] theorem Core.gotoHdr_view32 (k : Core) (a : Nat) : (k.gotoHdr a).view32 = k.view32 := rfl
@[simp] theorem Core.gotoHdr_engw (k : Core) (a : Nat) : (k.gotoHdr a).engw = k.engw := rfl
@[simp] theorem Core.gotoHdr_chans (k : Core) (a : Nat) : (k.gotoHdr a).chans = k.chans := rfl
@[simp] theorem Core.gotoHdr_bars (k : Core) (a : Nat) : (k.gotoHdr a).bars = k.bars := rfl
@[simp] theorem Core.gotoHdr_bufs (k : Core) (a : Nat) : (k.gotoHdr a).bufs = k.bufs := rfl
@[simp] theorem Core.gotoHdr_tlb (k : Core) (a : Nat) : (k.gotoHdr a).tlb = k.tlb := rfl
@[simp] theorem Core.gotoHdr_relFabric (k : Core) (a : Nat) : (k.gotoHdr a).relFabric = k.relFabric := rfl
@[simp] theorem Core.gotoHdr_woken (k : Core) (a : Nat) : (k.gotoHdr a).woken = k.woken := rfl
@[simp] theorem Core.gotoHdr_leaving (k : Core) (a : Nat) : (k.gotoHdr a).leaving = k.leaving := rfl
@[simp] theorem Core.gotoHdr_marks (k : Core) (a : Nat) : (k.gotoHdr a).marks = k.marks := rfl
@[simp] theorem Core.gotoHdr_frozen (k : Core) (a : Nat) : (k.gotoHdr a).frozen = k.frozen := rfl

-- `Core.wrP`.
@[simp] theorem Core.wrP_crew (k : Core) (p : Nat) (v : Word) : (k.wrP p v).crew = k.crew := by unfold Core.wrP; split <;> rfl
@[simp] theorem Core.wrP_leg (k : Core) (p : Nat) (v : Word) : (k.wrP p v).leg = k.leg := by unfold Core.wrP; split <;> rfl
@[simp] theorem Core.wrP_origin (k : Core) (p : Nat) (v : Word) : (k.wrP p v).origin = k.origin := by unfold Core.wrP; split <;> rfl
@[simp] theorem Core.wrP_contained (k : Core) (p : Nat) (v : Word) : (k.wrP p v).contained = k.contained := by unfold Core.wrP; split <;> rfl
@[simp] theorem Core.wrP_p (k : Core) (p : Nat) (v : Word) : (k.wrP p v).p = k.p := by unfold Core.wrP; split <;> rfl
@[simp] theorem Core.wrP_pc (k : Core) (p : Nat) (v : Word) : (k.wrP p v).pc = k.pc := by unfold Core.wrP; split <;> rfl
@[simp] theorem Core.wrP_ctx (k : Core) (p : Nat) (v : Word) : (k.wrP p v).ctx = k.ctx := by unfold Core.wrP; split <;> rfl
@[simp] theorem Core.wrP_saved (k : Core) (p : Nat) (v : Word) : (k.wrP p v).saved = k.saved := by unfold Core.wrP; split <;> rfl
@[simp] theorem Core.wrP_wait (k : Core) (p : Nat) (v : Word) : (k.wrP p v).wait = k.wait := by unfold Core.wrP; split <;> rfl
@[simp] theorem Core.wrP_retry (k : Core) (p : Nat) (v : Word) : (k.wrP p v).retry = k.retry := by unfold Core.wrP; split <;> rfl
@[simp] theorem Core.wrP_mcall (k : Core) (p : Nat) (v : Word) : (k.wrP p v).mcall = k.mcall := by unfold Core.wrP; split <;> rfl
@[simp] theorem Core.wrP_savedMcall (k : Core) (p : Nat) (v : Word) : (k.wrP p v).savedMcall = k.savedMcall := by unfold Core.wrP; split <;> rfl
@[simp] theorem Core.wrP_mcallFrom (k : Core) (p : Nat) (v : Word) : (k.wrP p v).mcallFrom = k.mcallFrom := by unfold Core.wrP; split <;> rfl
@[simp] theorem Core.wrP_micro (k : Core) (p : Nat) (v : Word) : (k.wrP p v).micro = k.micro := by unfold Core.wrP; split <;> rfl
@[simp] theorem Core.wrP_mdir (k : Core) (p : Nat) (v : Word) : (k.wrP p v).mdir = k.mdir := by unfold Core.wrP; split <;> rfl
@[simp] theorem Core.wrP_mode (k : Core) (p : Nat) (v : Word) : (k.wrP p v).mode = k.mode := by unfold Core.wrP; split <;> rfl
@[simp] theorem Core.wrP_fpcr (k : Core) (p : Nat) (v : Word) : (k.wrP p v).fpcr = k.fpcr := by unfold Core.wrP; split <;> rfl
@[simp] theorem Core.wrP_fpsr (k : Core) (p : Nat) (v : Word) : (k.wrP p v).fpsr = k.fpsr := by unfold Core.wrP; split <;> rfl
@[simp] theorem Core.wrP_slip (k : Core) (p : Nat) (v : Word) : (k.wrP p v).slip = k.slip := by unfold Core.wrP; split <;> rfl
@[simp] theorem Core.wrP_rrb (k : Core) (p : Nat) (v : Word) : (k.wrP p v).rrb = k.rrb := by unfold Core.wrP; split <;> rfl
@[simp] theorem Core.wrP_mskdepth (k : Core) (p : Nat) (v : Word) : (k.wrP p v).mskdepth = k.mskdepth := by unfold Core.wrP; split <;> rfl
@[simp] theorem Core.wrP_ccc (k : Core) (p : Nat) (v : Word) : (k.wrP p v).ccc = k.ccc := by unfold Core.wrP; split <;> rfl
@[simp] theorem Core.wrP_specstat (k : Core) (p : Nat) (v : Word) : (k.wrP p v).specstat = k.specstat := by unfold Core.wrP; split <;> rfl
@[simp] theorem Core.wrP_livemap (k : Core) (p : Nat) (v : Word) : (k.wrP p v).livemap = k.livemap := by unfold Core.wrP; split <;> rfl
@[simp] theorem Core.wrP_livebits (k : Core) (p : Nat) (v : Word) : (k.wrP p v).livebits = k.livebits := by unfold Core.wrP; split <;> rfl
@[simp] theorem Core.wrP_dlost (k : Core) (p : Nat) (v : Word) : (k.wrP p v).dlost = k.dlost := by unfold Core.wrP; split <;> rfl
@[simp] theorem Core.wrP_qstat (k : Core) (p : Nat) (v : Word) : (k.wrP p v).qstat = k.qstat := by unfold Core.wrP; split <;> rfl
@[simp] theorem Core.wrP_tvec (k : Core) (p : Nat) (v : Word) : (k.wrP p v).tvec = k.tvec := by unfold Core.wrP; split <;> rfl
@[simp] theorem Core.wrP_tcause (k : Core) (p : Nat) (v : Word) : (k.wrP p v).tcause = k.tcause := by unfold Core.wrP; split <;> rfl
@[simp] theorem Core.wrP_tpc (k : Core) (p : Nat) (v : Word) : (k.wrP p v).tpc = k.tpc := by unfold Core.wrP; split <;> rfl
@[simp] theorem Core.wrP_topc (k : Core) (p : Nat) (v : Word) : (k.wrP p v).topc = k.topc := by unfold Core.wrP; split <;> rfl
@[simp] theorem Core.wrP_titer (k : Core) (p : Nat) (v : Word) : (k.wrP p v).titer = k.titer := by unfold Core.wrP; split <;> rfl
@[simp] theorem Core.wrP_taddr (k : Core) (p : Nat) (v : Word) : (k.wrP p v).taddr = k.taddr := by unfold Core.wrP; split <;> rfl
@[simp] theorem Core.wrP_teng (k : Core) (p : Nat) (v : Word) : (k.wrP p v).teng = k.teng := by unfold Core.wrP; split <;> rfl
@[simp] theorem Core.wrP_tsrc (k : Core) (p : Nat) (v : Word) : (k.wrP p v).tsrc = k.tsrc := by unfold Core.wrP; split <;> rfl
@[simp] theorem Core.wrP_tstamp (k : Core) (p : Nat) (v : Word) : (k.wrP p v).tstamp = k.tstamp := by unfold Core.wrP; split <;> rfl
@[simp] theorem Core.wrP_asid (k : Core) (p : Nat) (v : Word) : (k.wrP p v).asid = k.asid := by unfold Core.wrP; split <;> rfl
@[simp] theorem Core.wrP_mcsw (k : Core) (p : Nat) (v : Word) : (k.wrP p v).mcsw = k.mcsw := by unfold Core.wrP; split <;> rfl
@[simp] theorem Core.wrP_readyw (k : Core) (p : Nat) (v : Word) : (k.wrP p v).readyw = k.readyw := by unfold Core.wrP; split <;> rfl
@[simp] theorem Core.wrP_watch (k : Core) (p : Nat) (v : Word) : (k.wrP p v).watch = k.watch := by unfold Core.wrP; split <;> rfl
@[simp] theorem Core.wrP_watchctl (k : Core) (p : Nat) (v : Word) : (k.wrP p v).watchctl = k.watchctl := by unfold Core.wrP; split <;> rfl
@[simp] theorem Core.wrP_saveptr (k : Core) (p : Nat) (v : Word) : (k.wrP p v).saveptr = k.saveptr := by unfold Core.wrP; split <;> rfl
@[simp] theorem Core.wrP_tlog (k : Core) (p : Nat) (v : Word) : (k.wrP p v).tlog = k.tlog := by unfold Core.wrP; split <;> rfl
@[simp] theorem Core.wrP_wseq (k : Core) (p : Nat) (v : Word) : (k.wrP p v).wseq = k.wseq := by unfold Core.wrP; split <;> rfl
@[simp] theorem Core.wrP_tpcWritten (k : Core) (p : Nat) (v : Word) : (k.wrP p v).tpcWritten = k.tpcWritten := by unfold Core.wrP; split <;> rfl
@[simp] theorem Core.wrP_wskip (k : Core) (p : Nat) (v : Word) : (k.wrP p v).wskip = k.wskip := by unfold Core.wrP; split <;> rfl
@[simp] theorem Core.wrP_secFault (k : Core) (p : Nat) (v : Word) : (k.wrP p v).secFault = k.secFault := by unfold Core.wrP; split <;> rfl
@[simp] theorem Core.wrP_kept (k : Core) (p : Nat) (v : Word) : (k.wrP p v).kept = k.kept := by unfold Core.wrP; split <;> rfl
@[simp] theorem Core.wrP_asyncPeer (k : Core) (p : Nat) (v : Word) : (k.wrP p v).asyncPeer = k.asyncPeer := by unfold Core.wrP; split <;> rfl
@[simp] theorem Core.wrP_asyncWatch (k : Core) (p : Nat) (v : Word) : (k.wrP p v).asyncWatch = k.asyncWatch := by unfold Core.wrP; split <;> rfl
@[simp] theorem Core.wrP_owed (k : Core) (p : Nat) (v : Word) : (k.wrP p v).owed = k.owed := by unfold Core.wrP; split <;> rfl
@[simp] theorem Core.wrP_partNo (k : Core) (p : Nat) (v : Word) : (k.wrP p v).partNo = k.partNo := by unfold Core.wrP; split <;> rfl
@[simp] theorem Core.wrP_secNo (k : Core) (p : Nat) (v : Word) : (k.wrP p v).secNo = k.secNo := by unfold Core.wrP; split <;> rfl
@[simp] theorem Core.wrP_cur (k : Core) (p : Nat) (v : Word) : (k.wrP p v).cur = k.cur := by unfold Core.wrP; split <;> rfl
@[simp] theorem Core.wrP_parts (k : Core) (p : Nat) (v : Word) : (k.wrP p v).parts = k.parts := by unfold Core.wrP; split <;> rfl
@[simp] theorem Core.wrP_begun (k : Core) (p : Nat) (v : Word) : (k.wrP p v).begun = k.begun := by unfold Core.wrP; split <;> rfl
@[simp] theorem Core.wrP_q (k : Core) (p : Nat) (v : Word) : (k.wrP p v).q = k.q := by unfold Core.wrP; split <;> rfl
@[simp] theorem Core.wrP_fly (k : Core) (p : Nat) (v : Word) : (k.wrP p v).fly = k.fly := by unfold Core.wrP; split <;> rfl
@[simp] theorem Core.wrP_busy (k : Core) (p : Nat) (v : Word) : (k.wrP p v).busy = k.busy := by unfold Core.wrP; split <;> rfl
@[simp] theorem Core.wrP_lastBegin (k : Core) (p : Nat) (v : Word) : (k.wrP p v).lastBegin = k.lastBegin := by unfold Core.wrP; split <;> rfl
@[simp] theorem Core.wrP_tok (k : Core) (p : Nat) (v : Word) : (k.wrP p v).tok = k.tok := by unfold Core.wrP; split <;> rfl
@[simp] theorem Core.wrP_tokRel (k : Core) (p : Nat) (v : Word) : (k.wrP p v).tokRel = k.tokRel := by unfold Core.wrP; split <;> rfl
@[simp] theorem Core.wrP_fmtq (k : Core) (p : Nat) (v : Word) : (k.wrP p v).fmtq = k.fmtq := by unfold Core.wrP; split <;> rfl
@[simp] theorem Core.wrP_outq (k : Core) (p : Nat) (v : Word) : (k.wrP p v).outq = k.outq := by unfold Core.wrP; split <;> rfl
@[simp] theorem Core.wrP_outcnt (k : Core) (p : Nat) (v : Word) : (k.wrP p v).outcnt = k.outcnt := by unfold Core.wrP; split <;> rfl
@[simp] theorem Core.wrP_masks (k : Core) (p : Nat) (v : Word) : (k.wrP p v).masks = k.masks := by unfold Core.wrP; split <;> rfl
@[simp] theorem Core.wrP_mskip (k : Core) (p : Nat) (v : Word) : (k.wrP p v).mskip = k.mskip := by unfold Core.wrP; split <;> rfl
@[simp] theorem Core.wrP_lrelSec (k : Core) (p : Nat) (v : Word) : (k.wrP p v).lrelSec = k.lrelSec := by unfold Core.wrP; split <;> rfl
@[simp] theorem Core.wrP_v (k : Core) (p : Nat) (v : Word) : (k.wrP p v).v = k.v := by unfold Core.wrP; split <;> rfl
@[simp] theorem Core.wrP_frames (k : Core) (p : Nat) (v : Word) : (k.wrP p v).frames = k.frames := by unfold Core.wrP; split <;> rfl
@[simp] theorem Core.wrP_view32 (k : Core) (p : Nat) (v : Word) : (k.wrP p v).view32 = k.view32 := by unfold Core.wrP; split <;> rfl
@[simp] theorem Core.wrP_engw (k : Core) (p : Nat) (v : Word) : (k.wrP p v).engw = k.engw := by unfold Core.wrP; split <;> rfl
@[simp] theorem Core.wrP_chans (k : Core) (p : Nat) (v : Word) : (k.wrP p v).chans = k.chans := by unfold Core.wrP; split <;> rfl
@[simp] theorem Core.wrP_bars (k : Core) (p : Nat) (v : Word) : (k.wrP p v).bars = k.bars := by unfold Core.wrP; split <;> rfl
@[simp] theorem Core.wrP_bufs (k : Core) (p : Nat) (v : Word) : (k.wrP p v).bufs = k.bufs := by unfold Core.wrP; split <;> rfl
@[simp] theorem Core.wrP_tlb (k : Core) (p : Nat) (v : Word) : (k.wrP p v).tlb = k.tlb := by unfold Core.wrP; split <;> rfl
@[simp] theorem Core.wrP_relFabric (k : Core) (p : Nat) (v : Word) : (k.wrP p v).relFabric = k.relFabric := by unfold Core.wrP; split <;> rfl
@[simp] theorem Core.wrP_answered (k : Core) (p : Nat) (v : Word) : (k.wrP p v).answered = k.answered := by unfold Core.wrP; split <;> rfl
@[simp] theorem Core.wrP_woken (k : Core) (p : Nat) (v : Word) : (k.wrP p v).woken = k.woken := by unfold Core.wrP; split <;> rfl
@[simp] theorem Core.wrP_leaving (k : Core) (p : Nat) (v : Word) : (k.wrP p v).leaving = k.leaving := by unfold Core.wrP; split <;> rfl
@[simp] theorem Core.wrP_marks (k : Core) (p : Nat) (v : Word) : (k.wrP p v).marks = k.marks := by unfold Core.wrP; split <;> rfl
@[simp] theorem Core.wrP_frozen (k : Core) (p : Nat) (v : Word) : (k.wrP p v).frozen = k.frozen := by unfold Core.wrP; split <;> rfl

-- `Core.wr`.
@[simp] theorem Core.wr_crew (k : Core) (r : SReg) (v : Word) : (k.wr r v).crew = k.crew := by simp [Core.wr]
@[simp] theorem Core.wr_leg (k : Core) (r : SReg) (v : Word) : (k.wr r v).leg = k.leg := by simp [Core.wr]
@[simp] theorem Core.wr_origin (k : Core) (r : SReg) (v : Word) : (k.wr r v).origin = k.origin := by simp [Core.wr]
@[simp] theorem Core.wr_contained (k : Core) (r : SReg) (v : Word) : (k.wr r v).contained = k.contained := by simp [Core.wr]
@[simp] theorem Core.wr_p (k : Core) (r : SReg) (v : Word) : (k.wr r v).p = k.p := by simp [Core.wr]
@[simp] theorem Core.wr_pc (k : Core) (r : SReg) (v : Word) : (k.wr r v).pc = k.pc := by simp [Core.wr]
@[simp] theorem Core.wr_ctx (k : Core) (r : SReg) (v : Word) : (k.wr r v).ctx = k.ctx := by simp [Core.wr]
@[simp] theorem Core.wr_saved (k : Core) (r : SReg) (v : Word) : (k.wr r v).saved = k.saved := by simp [Core.wr]
@[simp] theorem Core.wr_wait (k : Core) (r : SReg) (v : Word) : (k.wr r v).wait = k.wait := by simp [Core.wr]
@[simp] theorem Core.wr_retry (k : Core) (r : SReg) (v : Word) : (k.wr r v).retry = k.retry := by simp [Core.wr]
@[simp] theorem Core.wr_mcall (k : Core) (r : SReg) (v : Word) : (k.wr r v).mcall = k.mcall := by simp [Core.wr]
@[simp] theorem Core.wr_savedMcall (k : Core) (r : SReg) (v : Word) : (k.wr r v).savedMcall = k.savedMcall := by simp [Core.wr]
@[simp] theorem Core.wr_mcallFrom (k : Core) (r : SReg) (v : Word) : (k.wr r v).mcallFrom = k.mcallFrom := by simp [Core.wr]
@[simp] theorem Core.wr_micro (k : Core) (r : SReg) (v : Word) : (k.wr r v).micro = k.micro := by simp [Core.wr]
@[simp] theorem Core.wr_mdir (k : Core) (r : SReg) (v : Word) : (k.wr r v).mdir = k.mdir := by simp [Core.wr]
@[simp] theorem Core.wr_mode (k : Core) (r : SReg) (v : Word) : (k.wr r v).mode = k.mode := by simp [Core.wr]
@[simp] theorem Core.wr_fpcr (k : Core) (r : SReg) (v : Word) : (k.wr r v).fpcr = k.fpcr := by simp [Core.wr]
@[simp] theorem Core.wr_fpsr (k : Core) (r : SReg) (v : Word) : (k.wr r v).fpsr = k.fpsr := by simp [Core.wr]
@[simp] theorem Core.wr_slip (k : Core) (r : SReg) (v : Word) : (k.wr r v).slip = k.slip := by simp [Core.wr]
@[simp] theorem Core.wr_rrb (k : Core) (r : SReg) (v : Word) : (k.wr r v).rrb = k.rrb := by simp [Core.wr]
@[simp] theorem Core.wr_mskdepth (k : Core) (r : SReg) (v : Word) : (k.wr r v).mskdepth = k.mskdepth := by simp [Core.wr]
@[simp] theorem Core.wr_ccc (k : Core) (r : SReg) (v : Word) : (k.wr r v).ccc = k.ccc := by simp [Core.wr]
@[simp] theorem Core.wr_specstat (k : Core) (r : SReg) (v : Word) : (k.wr r v).specstat = k.specstat := by simp [Core.wr]
@[simp] theorem Core.wr_livemap (k : Core) (r : SReg) (v : Word) : (k.wr r v).livemap = k.livemap := by simp [Core.wr]
@[simp] theorem Core.wr_livebits (k : Core) (r : SReg) (v : Word) : (k.wr r v).livebits = k.livebits := by simp [Core.wr]
@[simp] theorem Core.wr_dlost (k : Core) (r : SReg) (v : Word) : (k.wr r v).dlost = k.dlost := by simp [Core.wr]
@[simp] theorem Core.wr_qstat (k : Core) (r : SReg) (v : Word) : (k.wr r v).qstat = k.qstat := by simp [Core.wr]
@[simp] theorem Core.wr_tvec (k : Core) (r : SReg) (v : Word) : (k.wr r v).tvec = k.tvec := by simp [Core.wr]
@[simp] theorem Core.wr_tcause (k : Core) (r : SReg) (v : Word) : (k.wr r v).tcause = k.tcause := by simp [Core.wr]
@[simp] theorem Core.wr_tpc (k : Core) (r : SReg) (v : Word) : (k.wr r v).tpc = k.tpc := by simp [Core.wr]
@[simp] theorem Core.wr_topc (k : Core) (r : SReg) (v : Word) : (k.wr r v).topc = k.topc := by simp [Core.wr]
@[simp] theorem Core.wr_titer (k : Core) (r : SReg) (v : Word) : (k.wr r v).titer = k.titer := by simp [Core.wr]
@[simp] theorem Core.wr_taddr (k : Core) (r : SReg) (v : Word) : (k.wr r v).taddr = k.taddr := by simp [Core.wr]
@[simp] theorem Core.wr_teng (k : Core) (r : SReg) (v : Word) : (k.wr r v).teng = k.teng := by simp [Core.wr]
@[simp] theorem Core.wr_tsrc (k : Core) (r : SReg) (v : Word) : (k.wr r v).tsrc = k.tsrc := by simp [Core.wr]
@[simp] theorem Core.wr_tstamp (k : Core) (r : SReg) (v : Word) : (k.wr r v).tstamp = k.tstamp := by simp [Core.wr]
@[simp] theorem Core.wr_asid (k : Core) (r : SReg) (v : Word) : (k.wr r v).asid = k.asid := by simp [Core.wr]
@[simp] theorem Core.wr_mcsw (k : Core) (r : SReg) (v : Word) : (k.wr r v).mcsw = k.mcsw := by simp [Core.wr]
@[simp] theorem Core.wr_readyw (k : Core) (r : SReg) (v : Word) : (k.wr r v).readyw = k.readyw := by simp [Core.wr]
@[simp] theorem Core.wr_watch (k : Core) (r : SReg) (v : Word) : (k.wr r v).watch = k.watch := by simp [Core.wr]
@[simp] theorem Core.wr_watchctl (k : Core) (r : SReg) (v : Word) : (k.wr r v).watchctl = k.watchctl := by simp [Core.wr]
@[simp] theorem Core.wr_saveptr (k : Core) (r : SReg) (v : Word) : (k.wr r v).saveptr = k.saveptr := by simp [Core.wr]
@[simp] theorem Core.wr_tlog (k : Core) (r : SReg) (v : Word) : (k.wr r v).tlog = k.tlog := by simp [Core.wr]
@[simp] theorem Core.wr_wseq (k : Core) (r : SReg) (v : Word) : (k.wr r v).wseq = k.wseq := by simp [Core.wr]
@[simp] theorem Core.wr_tpcWritten (k : Core) (r : SReg) (v : Word) : (k.wr r v).tpcWritten = k.tpcWritten := by simp [Core.wr]
@[simp] theorem Core.wr_wskip (k : Core) (r : SReg) (v : Word) : (k.wr r v).wskip = k.wskip := by simp [Core.wr]
@[simp] theorem Core.wr_secFault (k : Core) (r : SReg) (v : Word) : (k.wr r v).secFault = k.secFault := by simp [Core.wr]
@[simp] theorem Core.wr_kept (k : Core) (r : SReg) (v : Word) : (k.wr r v).kept = k.kept := by simp [Core.wr]
@[simp] theorem Core.wr_asyncPeer (k : Core) (r : SReg) (v : Word) : (k.wr r v).asyncPeer = k.asyncPeer := by simp [Core.wr]
@[simp] theorem Core.wr_asyncWatch (k : Core) (r : SReg) (v : Word) : (k.wr r v).asyncWatch = k.asyncWatch := by simp [Core.wr]
@[simp] theorem Core.wr_owed (k : Core) (r : SReg) (v : Word) : (k.wr r v).owed = k.owed := by simp [Core.wr]
@[simp] theorem Core.wr_partNo (k : Core) (r : SReg) (v : Word) : (k.wr r v).partNo = k.partNo := by simp [Core.wr]
@[simp] theorem Core.wr_secNo (k : Core) (r : SReg) (v : Word) : (k.wr r v).secNo = k.secNo := by simp [Core.wr]
@[simp] theorem Core.wr_cur (k : Core) (r : SReg) (v : Word) : (k.wr r v).cur = k.cur := by simp [Core.wr]
@[simp] theorem Core.wr_parts (k : Core) (r : SReg) (v : Word) : (k.wr r v).parts = k.parts := by simp [Core.wr]
@[simp] theorem Core.wr_begun (k : Core) (r : SReg) (v : Word) : (k.wr r v).begun = k.begun := by simp [Core.wr]
@[simp] theorem Core.wr_q (k : Core) (r : SReg) (v : Word) : (k.wr r v).q = k.q := by simp [Core.wr]
@[simp] theorem Core.wr_fly (k : Core) (r : SReg) (v : Word) : (k.wr r v).fly = k.fly := by simp [Core.wr]
@[simp] theorem Core.wr_busy (k : Core) (r : SReg) (v : Word) : (k.wr r v).busy = k.busy := by simp [Core.wr]
@[simp] theorem Core.wr_lastBegin (k : Core) (r : SReg) (v : Word) : (k.wr r v).lastBegin = k.lastBegin := by simp [Core.wr]
@[simp] theorem Core.wr_tok (k : Core) (r : SReg) (v : Word) : (k.wr r v).tok = k.tok := by simp [Core.wr]
@[simp] theorem Core.wr_tokRel (k : Core) (r : SReg) (v : Word) : (k.wr r v).tokRel = k.tokRel := by simp [Core.wr]
@[simp] theorem Core.wr_fmtq (k : Core) (r : SReg) (v : Word) : (k.wr r v).fmtq = k.fmtq := by simp [Core.wr]
@[simp] theorem Core.wr_outq (k : Core) (r : SReg) (v : Word) : (k.wr r v).outq = k.outq := by simp [Core.wr]
@[simp] theorem Core.wr_outcnt (k : Core) (r : SReg) (v : Word) : (k.wr r v).outcnt = k.outcnt := by simp [Core.wr]
@[simp] theorem Core.wr_masks (k : Core) (r : SReg) (v : Word) : (k.wr r v).masks = k.masks := by simp [Core.wr]
@[simp] theorem Core.wr_mskip (k : Core) (r : SReg) (v : Word) : (k.wr r v).mskip = k.mskip := by simp [Core.wr]
@[simp] theorem Core.wr_lrelSec (k : Core) (r : SReg) (v : Word) : (k.wr r v).lrelSec = k.lrelSec := by simp [Core.wr]
@[simp] theorem Core.wr_v (k : Core) (r : SReg) (v : Word) : (k.wr r v).v = k.v := by simp [Core.wr]
@[simp] theorem Core.wr_frames (k : Core) (r : SReg) (v : Word) : (k.wr r v).frames = k.frames := by simp [Core.wr]
@[simp] theorem Core.wr_view32 (k : Core) (r : SReg) (v : Word) : (k.wr r v).view32 = k.view32 := by simp [Core.wr]
@[simp] theorem Core.wr_engw (k : Core) (r : SReg) (v : Word) : (k.wr r v).engw = k.engw := by simp [Core.wr]
@[simp] theorem Core.wr_chans (k : Core) (r : SReg) (v : Word) : (k.wr r v).chans = k.chans := by simp [Core.wr]
@[simp] theorem Core.wr_bars (k : Core) (r : SReg) (v : Word) : (k.wr r v).bars = k.bars := by simp [Core.wr]
@[simp] theorem Core.wr_bufs (k : Core) (r : SReg) (v : Word) : (k.wr r v).bufs = k.bufs := by simp [Core.wr]
@[simp] theorem Core.wr_tlb (k : Core) (r : SReg) (v : Word) : (k.wr r v).tlb = k.tlb := by simp [Core.wr]
@[simp] theorem Core.wr_relFabric (k : Core) (r : SReg) (v : Word) : (k.wr r v).relFabric = k.relFabric := by simp [Core.wr]
@[simp] theorem Core.wr_answered (k : Core) (r : SReg) (v : Word) : (k.wr r v).answered = k.answered := by simp [Core.wr]
@[simp] theorem Core.wr_woken (k : Core) (r : SReg) (v : Word) : (k.wr r v).woken = k.woken := by simp [Core.wr]
@[simp] theorem Core.wr_leaving (k : Core) (r : SReg) (v : Word) : (k.wr r v).leaving = k.leaving := by simp [Core.wr]
@[simp] theorem Core.wr_marks (k : Core) (r : SReg) (v : Word) : (k.wr r v).marks = k.marks := by simp [Core.wr]
@[simp] theorem Core.wr_frozen (k : Core) (r : SReg) (v : Word) : (k.wr r v).frozen = k.frozen := by simp [Core.wr]

-- `Core.setPred`.
@[simp] theorem Core.setPred_crew (k : Core) (j : BitVec 3) (b : Bool) : (k.setPred j b).crew = k.crew := by unfold Core.setPred; split <;> rfl
@[simp] theorem Core.setPred_leg (k : Core) (j : BitVec 3) (b : Bool) : (k.setPred j b).leg = k.leg := by unfold Core.setPred; split <;> rfl
@[simp] theorem Core.setPred_origin (k : Core) (j : BitVec 3) (b : Bool) : (k.setPred j b).origin = k.origin := by unfold Core.setPred; split <;> rfl
@[simp] theorem Core.setPred_contained (k : Core) (j : BitVec 3) (b : Bool) : (k.setPred j b).contained = k.contained := by unfold Core.setPred; split <;> rfl
@[simp] theorem Core.setPred_s (k : Core) (j : BitVec 3) (b : Bool) : (k.setPred j b).s = k.s := by unfold Core.setPred; split <;> rfl
@[simp] theorem Core.setPred_defer (k : Core) (j : BitVec 3) (b : Bool) : (k.setPred j b).defer = k.defer := by unfold Core.setPred; split <;> rfl
@[simp] theorem Core.setPred_pc (k : Core) (j : BitVec 3) (b : Bool) : (k.setPred j b).pc = k.pc := by unfold Core.setPred; split <;> rfl
@[simp] theorem Core.setPred_ctx (k : Core) (j : BitVec 3) (b : Bool) : (k.setPred j b).ctx = k.ctx := by unfold Core.setPred; split <;> rfl
@[simp] theorem Core.setPred_saved (k : Core) (j : BitVec 3) (b : Bool) : (k.setPred j b).saved = k.saved := by unfold Core.setPred; split <;> rfl
@[simp] theorem Core.setPred_wait (k : Core) (j : BitVec 3) (b : Bool) : (k.setPred j b).wait = k.wait := by unfold Core.setPred; split <;> rfl
@[simp] theorem Core.setPred_retry (k : Core) (j : BitVec 3) (b : Bool) : (k.setPred j b).retry = k.retry := by unfold Core.setPred; split <;> rfl
@[simp] theorem Core.setPred_mcall (k : Core) (j : BitVec 3) (b : Bool) : (k.setPred j b).mcall = k.mcall := by unfold Core.setPred; split <;> rfl
@[simp] theorem Core.setPred_savedMcall (k : Core) (j : BitVec 3) (b : Bool) : (k.setPred j b).savedMcall = k.savedMcall := by unfold Core.setPred; split <;> rfl
@[simp] theorem Core.setPred_mcallFrom (k : Core) (j : BitVec 3) (b : Bool) : (k.setPred j b).mcallFrom = k.mcallFrom := by unfold Core.setPred; split <;> rfl
@[simp] theorem Core.setPred_micro (k : Core) (j : BitVec 3) (b : Bool) : (k.setPred j b).micro = k.micro := by unfold Core.setPred; split <;> rfl
@[simp] theorem Core.setPred_mdir (k : Core) (j : BitVec 3) (b : Bool) : (k.setPred j b).mdir = k.mdir := by unfold Core.setPred; split <;> rfl
@[simp] theorem Core.setPred_mode (k : Core) (j : BitVec 3) (b : Bool) : (k.setPred j b).mode = k.mode := by unfold Core.setPred; split <;> rfl
@[simp] theorem Core.setPred_fpcr (k : Core) (j : BitVec 3) (b : Bool) : (k.setPred j b).fpcr = k.fpcr := by unfold Core.setPred; split <;> rfl
@[simp] theorem Core.setPred_fpsr (k : Core) (j : BitVec 3) (b : Bool) : (k.setPred j b).fpsr = k.fpsr := by unfold Core.setPred; split <;> rfl
@[simp] theorem Core.setPred_slip (k : Core) (j : BitVec 3) (b : Bool) : (k.setPred j b).slip = k.slip := by unfold Core.setPred; split <;> rfl
@[simp] theorem Core.setPred_rrb (k : Core) (j : BitVec 3) (b : Bool) : (k.setPred j b).rrb = k.rrb := by unfold Core.setPred; split <;> rfl
@[simp] theorem Core.setPred_mskdepth (k : Core) (j : BitVec 3) (b : Bool) : (k.setPred j b).mskdepth = k.mskdepth := by unfold Core.setPred; split <;> rfl
@[simp] theorem Core.setPred_ccc (k : Core) (j : BitVec 3) (b : Bool) : (k.setPred j b).ccc = k.ccc := by unfold Core.setPred; split <;> rfl
@[simp] theorem Core.setPred_specstat (k : Core) (j : BitVec 3) (b : Bool) : (k.setPred j b).specstat = k.specstat := by unfold Core.setPred; split <;> rfl
@[simp] theorem Core.setPred_livemap (k : Core) (j : BitVec 3) (b : Bool) : (k.setPred j b).livemap = k.livemap := by unfold Core.setPred; split <;> rfl
@[simp] theorem Core.setPred_livebits (k : Core) (j : BitVec 3) (b : Bool) : (k.setPred j b).livebits = k.livebits := by unfold Core.setPred; split <;> rfl
@[simp] theorem Core.setPred_dlost (k : Core) (j : BitVec 3) (b : Bool) : (k.setPred j b).dlost = k.dlost := by unfold Core.setPred; split <;> rfl
@[simp] theorem Core.setPred_qstat (k : Core) (j : BitVec 3) (b : Bool) : (k.setPred j b).qstat = k.qstat := by unfold Core.setPred; split <;> rfl
@[simp] theorem Core.setPred_tvec (k : Core) (j : BitVec 3) (b : Bool) : (k.setPred j b).tvec = k.tvec := by unfold Core.setPred; split <;> rfl
@[simp] theorem Core.setPred_tcause (k : Core) (j : BitVec 3) (b : Bool) : (k.setPred j b).tcause = k.tcause := by unfold Core.setPred; split <;> rfl
@[simp] theorem Core.setPred_tpc (k : Core) (j : BitVec 3) (b : Bool) : (k.setPred j b).tpc = k.tpc := by unfold Core.setPred; split <;> rfl
@[simp] theorem Core.setPred_topc (k : Core) (j : BitVec 3) (b : Bool) : (k.setPred j b).topc = k.topc := by unfold Core.setPred; split <;> rfl
@[simp] theorem Core.setPred_titer (k : Core) (j : BitVec 3) (b : Bool) : (k.setPred j b).titer = k.titer := by unfold Core.setPred; split <;> rfl
@[simp] theorem Core.setPred_taddr (k : Core) (j : BitVec 3) (b : Bool) : (k.setPred j b).taddr = k.taddr := by unfold Core.setPred; split <;> rfl
@[simp] theorem Core.setPred_teng (k : Core) (j : BitVec 3) (b : Bool) : (k.setPred j b).teng = k.teng := by unfold Core.setPred; split <;> rfl
@[simp] theorem Core.setPred_tsrc (k : Core) (j : BitVec 3) (b : Bool) : (k.setPred j b).tsrc = k.tsrc := by unfold Core.setPred; split <;> rfl
@[simp] theorem Core.setPred_tstamp (k : Core) (j : BitVec 3) (b : Bool) : (k.setPred j b).tstamp = k.tstamp := by unfold Core.setPred; split <;> rfl
@[simp] theorem Core.setPred_asid (k : Core) (j : BitVec 3) (b : Bool) : (k.setPred j b).asid = k.asid := by unfold Core.setPred; split <;> rfl
@[simp] theorem Core.setPred_mcsw (k : Core) (j : BitVec 3) (b : Bool) : (k.setPred j b).mcsw = k.mcsw := by unfold Core.setPred; split <;> rfl
@[simp] theorem Core.setPred_readyw (k : Core) (j : BitVec 3) (b : Bool) : (k.setPred j b).readyw = k.readyw := by unfold Core.setPred; split <;> rfl
@[simp] theorem Core.setPred_watch (k : Core) (j : BitVec 3) (b : Bool) : (k.setPred j b).watch = k.watch := by unfold Core.setPred; split <;> rfl
@[simp] theorem Core.setPred_watchctl (k : Core) (j : BitVec 3) (b : Bool) : (k.setPred j b).watchctl = k.watchctl := by unfold Core.setPred; split <;> rfl
@[simp] theorem Core.setPred_saveptr (k : Core) (j : BitVec 3) (b : Bool) : (k.setPred j b).saveptr = k.saveptr := by unfold Core.setPred; split <;> rfl
@[simp] theorem Core.setPred_tlog (k : Core) (j : BitVec 3) (b : Bool) : (k.setPred j b).tlog = k.tlog := by unfold Core.setPred; split <;> rfl
@[simp] theorem Core.setPred_wseq (k : Core) (j : BitVec 3) (b : Bool) : (k.setPred j b).wseq = k.wseq := by unfold Core.setPred; split <;> rfl
@[simp] theorem Core.setPred_tpcWritten (k : Core) (j : BitVec 3) (b : Bool) : (k.setPred j b).tpcWritten = k.tpcWritten := by unfold Core.setPred; split <;> rfl
@[simp] theorem Core.setPred_wskip (k : Core) (j : BitVec 3) (b : Bool) : (k.setPred j b).wskip = k.wskip := by unfold Core.setPred; split <;> rfl
@[simp] theorem Core.setPred_secFault (k : Core) (j : BitVec 3) (b : Bool) : (k.setPred j b).secFault = k.secFault := by unfold Core.setPred; split <;> rfl
@[simp] theorem Core.setPred_kept (k : Core) (j : BitVec 3) (b : Bool) : (k.setPred j b).kept = k.kept := by unfold Core.setPred; split <;> rfl
@[simp] theorem Core.setPred_asyncPeer (k : Core) (j : BitVec 3) (b : Bool) : (k.setPred j b).asyncPeer = k.asyncPeer := by unfold Core.setPred; split <;> rfl
@[simp] theorem Core.setPred_asyncWatch (k : Core) (j : BitVec 3) (b : Bool) : (k.setPred j b).asyncWatch = k.asyncWatch := by unfold Core.setPred; split <;> rfl
@[simp] theorem Core.setPred_owed (k : Core) (j : BitVec 3) (b : Bool) : (k.setPred j b).owed = k.owed := by unfold Core.setPred; split <;> rfl
@[simp] theorem Core.setPred_partNo (k : Core) (j : BitVec 3) (b : Bool) : (k.setPred j b).partNo = k.partNo := by unfold Core.setPred; split <;> rfl
@[simp] theorem Core.setPred_secNo (k : Core) (j : BitVec 3) (b : Bool) : (k.setPred j b).secNo = k.secNo := by unfold Core.setPred; split <;> rfl
@[simp] theorem Core.setPred_cur (k : Core) (j : BitVec 3) (b : Bool) : (k.setPred j b).cur = k.cur := by unfold Core.setPred; split <;> rfl
@[simp] theorem Core.setPred_parts (k : Core) (j : BitVec 3) (b : Bool) : (k.setPred j b).parts = k.parts := by unfold Core.setPred; split <;> rfl
@[simp] theorem Core.setPred_begun (k : Core) (j : BitVec 3) (b : Bool) : (k.setPred j b).begun = k.begun := by unfold Core.setPred; split <;> rfl
@[simp] theorem Core.setPred_q (k : Core) (j : BitVec 3) (b : Bool) : (k.setPred j b).q = k.q := by unfold Core.setPred; split <;> rfl
@[simp] theorem Core.setPred_fly (k : Core) (j : BitVec 3) (b : Bool) : (k.setPred j b).fly = k.fly := by unfold Core.setPred; split <;> rfl
@[simp] theorem Core.setPred_busy (k : Core) (j : BitVec 3) (b : Bool) : (k.setPred j b).busy = k.busy := by unfold Core.setPred; split <;> rfl
@[simp] theorem Core.setPred_lastBegin (k : Core) (j : BitVec 3) (b : Bool) : (k.setPred j b).lastBegin = k.lastBegin := by unfold Core.setPred; split <;> rfl
@[simp] theorem Core.setPred_tok (k : Core) (j : BitVec 3) (b : Bool) : (k.setPred j b).tok = k.tok := by unfold Core.setPred; split <;> rfl
@[simp] theorem Core.setPred_tokRel (k : Core) (j : BitVec 3) (b : Bool) : (k.setPred j b).tokRel = k.tokRel := by unfold Core.setPred; split <;> rfl
@[simp] theorem Core.setPred_fmtq (k : Core) (j : BitVec 3) (b : Bool) : (k.setPred j b).fmtq = k.fmtq := by unfold Core.setPred; split <;> rfl
@[simp] theorem Core.setPred_outq (k : Core) (j : BitVec 3) (b : Bool) : (k.setPred j b).outq = k.outq := by unfold Core.setPred; split <;> rfl
@[simp] theorem Core.setPred_outcnt (k : Core) (j : BitVec 3) (b : Bool) : (k.setPred j b).outcnt = k.outcnt := by unfold Core.setPred; split <;> rfl
@[simp] theorem Core.setPred_masks (k : Core) (j : BitVec 3) (b : Bool) : (k.setPred j b).masks = k.masks := by unfold Core.setPred; split <;> rfl
@[simp] theorem Core.setPred_mskip (k : Core) (j : BitVec 3) (b : Bool) : (k.setPred j b).mskip = k.mskip := by unfold Core.setPred; split <;> rfl
@[simp] theorem Core.setPred_lrelSec (k : Core) (j : BitVec 3) (b : Bool) : (k.setPred j b).lrelSec = k.lrelSec := by unfold Core.setPred; split <;> rfl
@[simp] theorem Core.setPred_v (k : Core) (j : BitVec 3) (b : Bool) : (k.setPred j b).v = k.v := by unfold Core.setPred; split <;> rfl
@[simp] theorem Core.setPred_frames (k : Core) (j : BitVec 3) (b : Bool) : (k.setPred j b).frames = k.frames := by unfold Core.setPred; split <;> rfl
@[simp] theorem Core.setPred_view32 (k : Core) (j : BitVec 3) (b : Bool) : (k.setPred j b).view32 = k.view32 := by unfold Core.setPred; split <;> rfl
@[simp] theorem Core.setPred_engw (k : Core) (j : BitVec 3) (b : Bool) : (k.setPred j b).engw = k.engw := by unfold Core.setPred; split <;> rfl
@[simp] theorem Core.setPred_chans (k : Core) (j : BitVec 3) (b : Bool) : (k.setPred j b).chans = k.chans := by unfold Core.setPred; split <;> rfl
@[simp] theorem Core.setPred_bars (k : Core) (j : BitVec 3) (b : Bool) : (k.setPred j b).bars = k.bars := by unfold Core.setPred; split <;> rfl
@[simp] theorem Core.setPred_bufs (k : Core) (j : BitVec 3) (b : Bool) : (k.setPred j b).bufs = k.bufs := by unfold Core.setPred; split <;> rfl
@[simp] theorem Core.setPred_tlb (k : Core) (j : BitVec 3) (b : Bool) : (k.setPred j b).tlb = k.tlb := by unfold Core.setPred; split <;> rfl
@[simp] theorem Core.setPred_relFabric (k : Core) (j : BitVec 3) (b : Bool) : (k.setPred j b).relFabric = k.relFabric := by unfold Core.setPred; split <;> rfl
@[simp] theorem Core.setPred_answered (k : Core) (j : BitVec 3) (b : Bool) : (k.setPred j b).answered = k.answered := by unfold Core.setPred; split <;> rfl
@[simp] theorem Core.setPred_woken (k : Core) (j : BitVec 3) (b : Bool) : (k.setPred j b).woken = k.woken := by unfold Core.setPred; split <;> rfl
@[simp] theorem Core.setPred_leaving (k : Core) (j : BitVec 3) (b : Bool) : (k.setPred j b).leaving = k.leaving := by unfold Core.setPred; split <;> rfl
@[simp] theorem Core.setPred_marks (k : Core) (j : BitVec 3) (b : Bool) : (k.setPred j b).marks = k.marks := by unfold Core.setPred; split <;> rfl
@[simp] theorem Core.setPred_frozen (k : Core) (j : BitVec 3) (b : Bool) : (k.setPred j b).frozen = k.frozen := by unfold Core.setPred; split <;> rfl

-- `Core.countWord`.
@[simp] theorem Core.countWord_crew (k : Core) : (k.countWord).crew = k.crew := by unfold Core.countWord; split <;> rfl
@[simp] theorem Core.countWord_leg (k : Core) : (k.countWord).leg = k.leg := by unfold Core.countWord; split <;> rfl
@[simp] theorem Core.countWord_origin (k : Core) : (k.countWord).origin = k.origin := by unfold Core.countWord; split <;> rfl
@[simp] theorem Core.countWord_contained (k : Core) : (k.countWord).contained = k.contained := by unfold Core.countWord; split <;> rfl
@[simp] theorem Core.countWord_s (k : Core) : (k.countWord).s = k.s := by unfold Core.countWord; split <;> rfl
@[simp] theorem Core.countWord_defer (k : Core) : (k.countWord).defer = k.defer := by unfold Core.countWord; split <;> rfl
@[simp] theorem Core.countWord_p (k : Core) : (k.countWord).p = k.p := by unfold Core.countWord; split <;> rfl
@[simp] theorem Core.countWord_pc (k : Core) : (k.countWord).pc = k.pc := by unfold Core.countWord; split <;> rfl
@[simp] theorem Core.countWord_ctx (k : Core) : (k.countWord).ctx = k.ctx := by unfold Core.countWord; split <;> rfl
@[simp] theorem Core.countWord_saved (k : Core) : (k.countWord).saved = k.saved := by unfold Core.countWord; split <;> rfl
@[simp] theorem Core.countWord_wait (k : Core) : (k.countWord).wait = k.wait := by unfold Core.countWord; split <;> rfl
@[simp] theorem Core.countWord_retry (k : Core) : (k.countWord).retry = k.retry := by unfold Core.countWord; split <;> rfl
@[simp] theorem Core.countWord_mcall (k : Core) : (k.countWord).mcall = k.mcall := by unfold Core.countWord; split <;> rfl
@[simp] theorem Core.countWord_savedMcall (k : Core) : (k.countWord).savedMcall = k.savedMcall := by unfold Core.countWord; split <;> rfl
@[simp] theorem Core.countWord_mcallFrom (k : Core) : (k.countWord).mcallFrom = k.mcallFrom := by unfold Core.countWord; split <;> rfl
@[simp] theorem Core.countWord_micro (k : Core) : (k.countWord).micro = k.micro := by unfold Core.countWord; split <;> rfl
@[simp] theorem Core.countWord_mdir (k : Core) : (k.countWord).mdir = k.mdir := by unfold Core.countWord; split <;> rfl
@[simp] theorem Core.countWord_mode (k : Core) : (k.countWord).mode = k.mode := by unfold Core.countWord; split <;> rfl
@[simp] theorem Core.countWord_fpcr (k : Core) : (k.countWord).fpcr = k.fpcr := by unfold Core.countWord; split <;> rfl
@[simp] theorem Core.countWord_fpsr (k : Core) : (k.countWord).fpsr = k.fpsr := by unfold Core.countWord; split <;> rfl
@[simp] theorem Core.countWord_slip (k : Core) : (k.countWord).slip = k.slip := by unfold Core.countWord; split <;> rfl
@[simp] theorem Core.countWord_rrb (k : Core) : (k.countWord).rrb = k.rrb := by unfold Core.countWord; split <;> rfl
@[simp] theorem Core.countWord_mskdepth (k : Core) : (k.countWord).mskdepth = k.mskdepth := by unfold Core.countWord; split <;> rfl
@[simp] theorem Core.countWord_ccc (k : Core) : (k.countWord).ccc = k.ccc := by unfold Core.countWord; split <;> rfl
@[simp] theorem Core.countWord_specstat (k : Core) : (k.countWord).specstat = k.specstat := by unfold Core.countWord; split <;> rfl
@[simp] theorem Core.countWord_livemap (k : Core) : (k.countWord).livemap = k.livemap := by unfold Core.countWord; split <;> rfl
@[simp] theorem Core.countWord_livebits (k : Core) : (k.countWord).livebits = k.livebits := by unfold Core.countWord; split <;> rfl
@[simp] theorem Core.countWord_dlost (k : Core) : (k.countWord).dlost = k.dlost := by unfold Core.countWord; split <;> rfl
@[simp] theorem Core.countWord_qstat (k : Core) : (k.countWord).qstat = k.qstat := by unfold Core.countWord; split <;> rfl
@[simp] theorem Core.countWord_tvec (k : Core) : (k.countWord).tvec = k.tvec := by unfold Core.countWord; split <;> rfl
@[simp] theorem Core.countWord_tcause (k : Core) : (k.countWord).tcause = k.tcause := by unfold Core.countWord; split <;> rfl
@[simp] theorem Core.countWord_tpc (k : Core) : (k.countWord).tpc = k.tpc := by unfold Core.countWord; split <;> rfl
@[simp] theorem Core.countWord_topc (k : Core) : (k.countWord).topc = k.topc := by unfold Core.countWord; split <;> rfl
@[simp] theorem Core.countWord_titer (k : Core) : (k.countWord).titer = k.titer := by unfold Core.countWord; split <;> rfl
@[simp] theorem Core.countWord_taddr (k : Core) : (k.countWord).taddr = k.taddr := by unfold Core.countWord; split <;> rfl
@[simp] theorem Core.countWord_teng (k : Core) : (k.countWord).teng = k.teng := by unfold Core.countWord; split <;> rfl
@[simp] theorem Core.countWord_tsrc (k : Core) : (k.countWord).tsrc = k.tsrc := by unfold Core.countWord; split <;> rfl
@[simp] theorem Core.countWord_tstamp (k : Core) : (k.countWord).tstamp = k.tstamp := by unfold Core.countWord; split <;> rfl
@[simp] theorem Core.countWord_asid (k : Core) : (k.countWord).asid = k.asid := by unfold Core.countWord; split <;> rfl
@[simp] theorem Core.countWord_mcsw (k : Core) : (k.countWord).mcsw = k.mcsw := by unfold Core.countWord; split <;> rfl
@[simp] theorem Core.countWord_readyw (k : Core) : (k.countWord).readyw = k.readyw := by unfold Core.countWord; split <;> rfl
@[simp] theorem Core.countWord_watch (k : Core) : (k.countWord).watch = k.watch := by unfold Core.countWord; split <;> rfl
@[simp] theorem Core.countWord_watchctl (k : Core) : (k.countWord).watchctl = k.watchctl := by unfold Core.countWord; split <;> rfl
@[simp] theorem Core.countWord_saveptr (k : Core) : (k.countWord).saveptr = k.saveptr := by unfold Core.countWord; split <;> rfl
@[simp] theorem Core.countWord_tlog (k : Core) : (k.countWord).tlog = k.tlog := by unfold Core.countWord; split <;> rfl
@[simp] theorem Core.countWord_wseq (k : Core) : (k.countWord).wseq = k.wseq := by unfold Core.countWord; split <;> rfl
@[simp] theorem Core.countWord_tpcWritten (k : Core) : (k.countWord).tpcWritten = k.tpcWritten := by unfold Core.countWord; split <;> rfl
@[simp] theorem Core.countWord_wskip (k : Core) : (k.countWord).wskip = k.wskip := by unfold Core.countWord; split <;> rfl
@[simp] theorem Core.countWord_secFault (k : Core) : (k.countWord).secFault = k.secFault := by unfold Core.countWord; split <;> rfl
@[simp] theorem Core.countWord_kept (k : Core) : (k.countWord).kept = k.kept := by unfold Core.countWord; split <;> rfl
@[simp] theorem Core.countWord_asyncPeer (k : Core) : (k.countWord).asyncPeer = k.asyncPeer := by unfold Core.countWord; split <;> rfl
@[simp] theorem Core.countWord_asyncWatch (k : Core) : (k.countWord).asyncWatch = k.asyncWatch := by unfold Core.countWord; split <;> rfl
@[simp] theorem Core.countWord_owed (k : Core) : (k.countWord).owed = k.owed := by unfold Core.countWord; split <;> rfl
@[simp] theorem Core.countWord_partNo (k : Core) : (k.countWord).partNo = k.partNo := by unfold Core.countWord; split <;> rfl
@[simp] theorem Core.countWord_secNo (k : Core) : (k.countWord).secNo = k.secNo := by unfold Core.countWord; split <;> rfl
@[simp] theorem Core.countWord_cur (k : Core) : (k.countWord).cur = k.cur := by unfold Core.countWord; split <;> rfl
@[simp] theorem Core.countWord_begun (k : Core) : (k.countWord).begun = k.begun := by unfold Core.countWord; split <;> rfl
@[simp] theorem Core.countWord_q (k : Core) : (k.countWord).q = k.q := by unfold Core.countWord; split <;> rfl
@[simp] theorem Core.countWord_fly (k : Core) : (k.countWord).fly = k.fly := by unfold Core.countWord; split <;> rfl
@[simp] theorem Core.countWord_busy (k : Core) : (k.countWord).busy = k.busy := by unfold Core.countWord; split <;> rfl
@[simp] theorem Core.countWord_lastBegin (k : Core) : (k.countWord).lastBegin = k.lastBegin := by unfold Core.countWord; split <;> rfl
@[simp] theorem Core.countWord_tok (k : Core) : (k.countWord).tok = k.tok := by unfold Core.countWord; split <;> rfl
@[simp] theorem Core.countWord_tokRel (k : Core) : (k.countWord).tokRel = k.tokRel := by unfold Core.countWord; split <;> rfl
@[simp] theorem Core.countWord_fmtq (k : Core) : (k.countWord).fmtq = k.fmtq := by unfold Core.countWord; split <;> rfl
@[simp] theorem Core.countWord_outq (k : Core) : (k.countWord).outq = k.outq := by unfold Core.countWord; split <;> rfl
@[simp] theorem Core.countWord_outcnt (k : Core) : (k.countWord).outcnt = k.outcnt := by unfold Core.countWord; split <;> rfl
@[simp] theorem Core.countWord_masks (k : Core) : (k.countWord).masks = k.masks := by unfold Core.countWord; split <;> rfl
@[simp] theorem Core.countWord_mskip (k : Core) : (k.countWord).mskip = k.mskip := by unfold Core.countWord; split <;> rfl
@[simp] theorem Core.countWord_lrelSec (k : Core) : (k.countWord).lrelSec = k.lrelSec := by unfold Core.countWord; split <;> rfl
@[simp] theorem Core.countWord_v (k : Core) : (k.countWord).v = k.v := by unfold Core.countWord; split <;> rfl
@[simp] theorem Core.countWord_frames (k : Core) : (k.countWord).frames = k.frames := by unfold Core.countWord; split <;> rfl
@[simp] theorem Core.countWord_view32 (k : Core) : (k.countWord).view32 = k.view32 := by unfold Core.countWord; split <;> rfl
@[simp] theorem Core.countWord_engw (k : Core) : (k.countWord).engw = k.engw := by unfold Core.countWord; split <;> rfl
@[simp] theorem Core.countWord_chans (k : Core) : (k.countWord).chans = k.chans := by unfold Core.countWord; split <;> rfl
@[simp] theorem Core.countWord_bars (k : Core) : (k.countWord).bars = k.bars := by unfold Core.countWord; split <;> rfl
@[simp] theorem Core.countWord_bufs (k : Core) : (k.countWord).bufs = k.bufs := by unfold Core.countWord; split <;> rfl
@[simp] theorem Core.countWord_tlb (k : Core) : (k.countWord).tlb = k.tlb := by unfold Core.countWord; split <;> rfl
@[simp] theorem Core.countWord_relFabric (k : Core) : (k.countWord).relFabric = k.relFabric := by unfold Core.countWord; split <;> rfl
@[simp] theorem Core.countWord_answered (k : Core) : (k.countWord).answered = k.answered := by unfold Core.countWord; split <;> rfl
@[simp] theorem Core.countWord_woken (k : Core) : (k.countWord).woken = k.woken := by unfold Core.countWord; split <;> rfl
@[simp] theorem Core.countWord_leaving (k : Core) : (k.countWord).leaving = k.leaving := by unfold Core.countWord; split <;> rfl
@[simp] theorem Core.countWord_marks (k : Core) : (k.countWord).marks = k.marks := by unfold Core.countWord; split <;> rfl
@[simp] theorem Core.countWord_frozen (k : Core) : (k.countWord).frozen = k.frozen := by unfold Core.countWord; split <;> rfl

-- `Core.openPart`.
@[simp] theorem Core.openPart_crew (k : Core) : (k.openPart).crew = k.crew := by unfold Core.openPart; split <;> rfl
@[simp] theorem Core.openPart_leg (k : Core) : (k.openPart).leg = k.leg := by unfold Core.openPart; split <;> rfl
@[simp] theorem Core.openPart_origin (k : Core) : (k.openPart).origin = k.origin := by unfold Core.openPart; split <;> rfl
@[simp] theorem Core.openPart_contained (k : Core) : (k.openPart).contained = k.contained := by unfold Core.openPart; split <;> rfl
@[simp] theorem Core.openPart_s (k : Core) : (k.openPart).s = k.s := by unfold Core.openPart; split <;> rfl
@[simp] theorem Core.openPart_defer (k : Core) : (k.openPart).defer = k.defer := by unfold Core.openPart; split <;> rfl
@[simp] theorem Core.openPart_p (k : Core) : (k.openPart).p = k.p := by unfold Core.openPart; split <;> rfl
@[simp] theorem Core.openPart_pc (k : Core) : (k.openPart).pc = k.pc := by unfold Core.openPart; split <;> rfl
@[simp] theorem Core.openPart_ctx (k : Core) : (k.openPart).ctx = k.ctx := by unfold Core.openPart; split <;> rfl
@[simp] theorem Core.openPart_saved (k : Core) : (k.openPart).saved = k.saved := by unfold Core.openPart; split <;> rfl
@[simp] theorem Core.openPart_wait (k : Core) : (k.openPart).wait = k.wait := by unfold Core.openPart; split <;> rfl
@[simp] theorem Core.openPart_retry (k : Core) : (k.openPart).retry = k.retry := by unfold Core.openPart; split <;> rfl
@[simp] theorem Core.openPart_mcall (k : Core) : (k.openPart).mcall = k.mcall := by unfold Core.openPart; split <;> rfl
@[simp] theorem Core.openPart_savedMcall (k : Core) : (k.openPart).savedMcall = k.savedMcall := by unfold Core.openPart; split <;> rfl
@[simp] theorem Core.openPart_mcallFrom (k : Core) : (k.openPart).mcallFrom = k.mcallFrom := by unfold Core.openPart; split <;> rfl
@[simp] theorem Core.openPart_micro (k : Core) : (k.openPart).micro = k.micro := by unfold Core.openPart; split <;> rfl
@[simp] theorem Core.openPart_mdir (k : Core) : (k.openPart).mdir = k.mdir := by unfold Core.openPart; split <;> rfl
@[simp] theorem Core.openPart_mode (k : Core) : (k.openPart).mode = k.mode := by unfold Core.openPart; split <;> rfl
@[simp] theorem Core.openPart_fpcr (k : Core) : (k.openPart).fpcr = k.fpcr := by unfold Core.openPart; split <;> rfl
@[simp] theorem Core.openPart_fpsr (k : Core) : (k.openPart).fpsr = k.fpsr := by unfold Core.openPart; split <;> rfl
@[simp] theorem Core.openPart_slip (k : Core) : (k.openPart).slip = k.slip := by unfold Core.openPart; split <;> rfl
@[simp] theorem Core.openPart_rrb (k : Core) : (k.openPart).rrb = k.rrb := by unfold Core.openPart; split <;> rfl
@[simp] theorem Core.openPart_mskdepth (k : Core) : (k.openPart).mskdepth = k.mskdepth := by unfold Core.openPart; split <;> rfl
@[simp] theorem Core.openPart_ccc (k : Core) : (k.openPart).ccc = k.ccc := by unfold Core.openPart; split <;> rfl
@[simp] theorem Core.openPart_specstat (k : Core) : (k.openPart).specstat = k.specstat := by unfold Core.openPart; split <;> rfl
@[simp] theorem Core.openPart_livemap (k : Core) : (k.openPart).livemap = k.livemap := by unfold Core.openPart; split <;> rfl
@[simp] theorem Core.openPart_livebits (k : Core) : (k.openPart).livebits = k.livebits := by unfold Core.openPart; split <;> rfl
@[simp] theorem Core.openPart_dlost (k : Core) : (k.openPart).dlost = k.dlost := by unfold Core.openPart; split <;> rfl
@[simp] theorem Core.openPart_qstat (k : Core) : (k.openPart).qstat = k.qstat := by unfold Core.openPart; split <;> rfl
@[simp] theorem Core.openPart_tvec (k : Core) : (k.openPart).tvec = k.tvec := by unfold Core.openPart; split <;> rfl
@[simp] theorem Core.openPart_tcause (k : Core) : (k.openPart).tcause = k.tcause := by unfold Core.openPart; split <;> rfl
@[simp] theorem Core.openPart_tpc (k : Core) : (k.openPart).tpc = k.tpc := by unfold Core.openPart; split <;> rfl
@[simp] theorem Core.openPart_topc (k : Core) : (k.openPart).topc = k.topc := by unfold Core.openPart; split <;> rfl
@[simp] theorem Core.openPart_titer (k : Core) : (k.openPart).titer = k.titer := by unfold Core.openPart; split <;> rfl
@[simp] theorem Core.openPart_taddr (k : Core) : (k.openPart).taddr = k.taddr := by unfold Core.openPart; split <;> rfl
@[simp] theorem Core.openPart_teng (k : Core) : (k.openPart).teng = k.teng := by unfold Core.openPart; split <;> rfl
@[simp] theorem Core.openPart_tsrc (k : Core) : (k.openPart).tsrc = k.tsrc := by unfold Core.openPart; split <;> rfl
@[simp] theorem Core.openPart_tstamp (k : Core) : (k.openPart).tstamp = k.tstamp := by unfold Core.openPart; split <;> rfl
@[simp] theorem Core.openPart_asid (k : Core) : (k.openPart).asid = k.asid := by unfold Core.openPart; split <;> rfl
@[simp] theorem Core.openPart_mcsw (k : Core) : (k.openPart).mcsw = k.mcsw := by unfold Core.openPart; split <;> rfl
@[simp] theorem Core.openPart_readyw (k : Core) : (k.openPart).readyw = k.readyw := by unfold Core.openPart; split <;> rfl
@[simp] theorem Core.openPart_watch (k : Core) : (k.openPart).watch = k.watch := by unfold Core.openPart; split <;> rfl
@[simp] theorem Core.openPart_watchctl (k : Core) : (k.openPart).watchctl = k.watchctl := by unfold Core.openPart; split <;> rfl
@[simp] theorem Core.openPart_saveptr (k : Core) : (k.openPart).saveptr = k.saveptr := by unfold Core.openPart; split <;> rfl
@[simp] theorem Core.openPart_tlog (k : Core) : (k.openPart).tlog = k.tlog := by unfold Core.openPart; split <;> rfl
@[simp] theorem Core.openPart_wseq (k : Core) : (k.openPart).wseq = k.wseq := by unfold Core.openPart; split <;> rfl
@[simp] theorem Core.openPart_tpcWritten (k : Core) : (k.openPart).tpcWritten = k.tpcWritten := by unfold Core.openPart; split <;> rfl
@[simp] theorem Core.openPart_wskip (k : Core) : (k.openPart).wskip = k.wskip := by unfold Core.openPart; split <;> rfl
@[simp] theorem Core.openPart_secFault (k : Core) : (k.openPart).secFault = k.secFault := by unfold Core.openPart; split <;> rfl
@[simp] theorem Core.openPart_kept (k : Core) : (k.openPart).kept = k.kept := by unfold Core.openPart; split <;> rfl
@[simp] theorem Core.openPart_asyncPeer (k : Core) : (k.openPart).asyncPeer = k.asyncPeer := by unfold Core.openPart; split <;> rfl
@[simp] theorem Core.openPart_asyncWatch (k : Core) : (k.openPart).asyncWatch = k.asyncWatch := by unfold Core.openPart; split <;> rfl
@[simp] theorem Core.openPart_owed (k : Core) : (k.openPart).owed = k.owed := by unfold Core.openPart; split <;> rfl
@[simp] theorem Core.openPart_secNo (k : Core) : (k.openPart).secNo = k.secNo := by unfold Core.openPart; split <;> rfl
@[simp] theorem Core.openPart_parts (k : Core) : (k.openPart).parts = k.parts := by unfold Core.openPart; split <;> rfl
@[simp] theorem Core.openPart_begun (k : Core) : (k.openPart).begun = k.begun := by unfold Core.openPart; split <;> rfl
@[simp] theorem Core.openPart_q (k : Core) : (k.openPart).q = k.q := by unfold Core.openPart; split <;> rfl
@[simp] theorem Core.openPart_fly (k : Core) : (k.openPart).fly = k.fly := by unfold Core.openPart; split <;> rfl
@[simp] theorem Core.openPart_busy (k : Core) : (k.openPart).busy = k.busy := by unfold Core.openPart; split <;> rfl
@[simp] theorem Core.openPart_lastBegin (k : Core) : (k.openPart).lastBegin = k.lastBegin := by unfold Core.openPart; split <;> rfl
@[simp] theorem Core.openPart_tok (k : Core) : (k.openPart).tok = k.tok := by unfold Core.openPart; split <;> rfl
@[simp] theorem Core.openPart_tokRel (k : Core) : (k.openPart).tokRel = k.tokRel := by unfold Core.openPart; split <;> rfl
@[simp] theorem Core.openPart_fmtq (k : Core) : (k.openPart).fmtq = k.fmtq := by unfold Core.openPart; split <;> rfl
@[simp] theorem Core.openPart_outq (k : Core) : (k.openPart).outq = k.outq := by unfold Core.openPart; split <;> rfl
@[simp] theorem Core.openPart_outcnt (k : Core) : (k.openPart).outcnt = k.outcnt := by unfold Core.openPart; split <;> rfl
@[simp] theorem Core.openPart_masks (k : Core) : (k.openPart).masks = k.masks := by unfold Core.openPart; split <;> rfl
@[simp] theorem Core.openPart_mskip (k : Core) : (k.openPart).mskip = k.mskip := by unfold Core.openPart; split <;> rfl
@[simp] theorem Core.openPart_lrelSec (k : Core) : (k.openPart).lrelSec = k.lrelSec := by unfold Core.openPart; split <;> rfl
@[simp] theorem Core.openPart_v (k : Core) : (k.openPart).v = k.v := by unfold Core.openPart; split <;> rfl
@[simp] theorem Core.openPart_frames (k : Core) : (k.openPart).frames = k.frames := by unfold Core.openPart; split <;> rfl
@[simp] theorem Core.openPart_view32 (k : Core) : (k.openPart).view32 = k.view32 := by unfold Core.openPart; split <;> rfl
@[simp] theorem Core.openPart_engw (k : Core) : (k.openPart).engw = k.engw := by unfold Core.openPart; split <;> rfl
@[simp] theorem Core.openPart_chans (k : Core) : (k.openPart).chans = k.chans := by unfold Core.openPart; split <;> rfl
@[simp] theorem Core.openPart_bars (k : Core) : (k.openPart).bars = k.bars := by unfold Core.openPart; split <;> rfl
@[simp] theorem Core.openPart_bufs (k : Core) : (k.openPart).bufs = k.bufs := by unfold Core.openPart; split <;> rfl
@[simp] theorem Core.openPart_tlb (k : Core) : (k.openPart).tlb = k.tlb := by unfold Core.openPart; split <;> rfl
@[simp] theorem Core.openPart_relFabric (k : Core) : (k.openPart).relFabric = k.relFabric := by unfold Core.openPart; split <;> rfl
@[simp] theorem Core.openPart_answered (k : Core) : (k.openPart).answered = k.answered := by unfold Core.openPart; split <;> rfl
@[simp] theorem Core.openPart_woken (k : Core) : (k.openPart).woken = k.woken := by unfold Core.openPart; split <;> rfl
@[simp] theorem Core.openPart_leaving (k : Core) : (k.openPart).leaving = k.leaving := by unfold Core.openPart; split <;> rfl
@[simp] theorem Core.openPart_marks (k : Core) : (k.openPart).marks = k.marks := by unfold Core.openPart; split <;> rfl
@[simp] theorem Core.openPart_frozen (k : Core) : (k.openPart).frozen = k.frozen := by unfold Core.openPart; split <;> rfl

-- `Core.endPart`.
@[simp] theorem Core.endPart_crew (k : Core) : (k.endPart).crew = k.crew := by unfold Core.endPart; split <;> rfl
@[simp] theorem Core.endPart_leg (k : Core) : (k.endPart).leg = k.leg := by unfold Core.endPart; split <;> rfl
@[simp] theorem Core.endPart_origin (k : Core) : (k.endPart).origin = k.origin := by unfold Core.endPart; split <;> rfl
@[simp] theorem Core.endPart_contained (k : Core) : (k.endPart).contained = k.contained := by unfold Core.endPart; split <;> rfl
@[simp] theorem Core.endPart_s (k : Core) : (k.endPart).s = k.s := by unfold Core.endPart; split <;> rfl
@[simp] theorem Core.endPart_defer (k : Core) : (k.endPart).defer = k.defer := by unfold Core.endPart; split <;> rfl
@[simp] theorem Core.endPart_p (k : Core) : (k.endPart).p = k.p := by unfold Core.endPart; split <;> rfl
@[simp] theorem Core.endPart_pc (k : Core) : (k.endPart).pc = k.pc := by unfold Core.endPart; split <;> rfl
@[simp] theorem Core.endPart_ctx (k : Core) : (k.endPart).ctx = k.ctx := by unfold Core.endPart; split <;> rfl
@[simp] theorem Core.endPart_saved (k : Core) : (k.endPart).saved = k.saved := by unfold Core.endPart; split <;> rfl
@[simp] theorem Core.endPart_wait (k : Core) : (k.endPart).wait = k.wait := by unfold Core.endPart; split <;> rfl
@[simp] theorem Core.endPart_retry (k : Core) : (k.endPart).retry = k.retry := by unfold Core.endPart; split <;> rfl
@[simp] theorem Core.endPart_mcall (k : Core) : (k.endPart).mcall = k.mcall := by unfold Core.endPart; split <;> rfl
@[simp] theorem Core.endPart_savedMcall (k : Core) : (k.endPart).savedMcall = k.savedMcall := by unfold Core.endPart; split <;> rfl
@[simp] theorem Core.endPart_mcallFrom (k : Core) : (k.endPart).mcallFrom = k.mcallFrom := by unfold Core.endPart; split <;> rfl
@[simp] theorem Core.endPart_micro (k : Core) : (k.endPart).micro = k.micro := by unfold Core.endPart; split <;> rfl
@[simp] theorem Core.endPart_mdir (k : Core) : (k.endPart).mdir = k.mdir := by unfold Core.endPart; split <;> rfl
@[simp] theorem Core.endPart_mode (k : Core) : (k.endPart).mode = k.mode := by unfold Core.endPart; split <;> rfl
@[simp] theorem Core.endPart_fpcr (k : Core) : (k.endPart).fpcr = k.fpcr := by unfold Core.endPart; split <;> rfl
@[simp] theorem Core.endPart_fpsr (k : Core) : (k.endPart).fpsr = k.fpsr := by unfold Core.endPart; split <;> rfl
@[simp] theorem Core.endPart_slip (k : Core) : (k.endPart).slip = k.slip := by unfold Core.endPart; split <;> rfl
@[simp] theorem Core.endPart_rrb (k : Core) : (k.endPart).rrb = k.rrb := by unfold Core.endPart; split <;> rfl
@[simp] theorem Core.endPart_mskdepth (k : Core) : (k.endPart).mskdepth = k.mskdepth := by unfold Core.endPart; split <;> rfl
@[simp] theorem Core.endPart_ccc (k : Core) : (k.endPart).ccc = k.ccc := by unfold Core.endPart; split <;> rfl
@[simp] theorem Core.endPart_specstat (k : Core) : (k.endPart).specstat = k.specstat := by unfold Core.endPart; split <;> rfl
@[simp] theorem Core.endPart_livemap (k : Core) : (k.endPart).livemap = k.livemap := by unfold Core.endPart; split <;> rfl
@[simp] theorem Core.endPart_livebits (k : Core) : (k.endPart).livebits = k.livebits := by unfold Core.endPart; split <;> rfl
@[simp] theorem Core.endPart_dlost (k : Core) : (k.endPart).dlost = k.dlost := by unfold Core.endPart; split <;> rfl
@[simp] theorem Core.endPart_qstat (k : Core) : (k.endPart).qstat = k.qstat := by unfold Core.endPart; split <;> rfl
@[simp] theorem Core.endPart_tvec (k : Core) : (k.endPart).tvec = k.tvec := by unfold Core.endPart; split <;> rfl
@[simp] theorem Core.endPart_tcause (k : Core) : (k.endPart).tcause = k.tcause := by unfold Core.endPart; split <;> rfl
@[simp] theorem Core.endPart_tpc (k : Core) : (k.endPart).tpc = k.tpc := by unfold Core.endPart; split <;> rfl
@[simp] theorem Core.endPart_topc (k : Core) : (k.endPart).topc = k.topc := by unfold Core.endPart; split <;> rfl
@[simp] theorem Core.endPart_titer (k : Core) : (k.endPart).titer = k.titer := by unfold Core.endPart; split <;> rfl
@[simp] theorem Core.endPart_taddr (k : Core) : (k.endPart).taddr = k.taddr := by unfold Core.endPart; split <;> rfl
@[simp] theorem Core.endPart_teng (k : Core) : (k.endPart).teng = k.teng := by unfold Core.endPart; split <;> rfl
@[simp] theorem Core.endPart_tsrc (k : Core) : (k.endPart).tsrc = k.tsrc := by unfold Core.endPart; split <;> rfl
@[simp] theorem Core.endPart_tstamp (k : Core) : (k.endPart).tstamp = k.tstamp := by unfold Core.endPart; split <;> rfl
@[simp] theorem Core.endPart_asid (k : Core) : (k.endPart).asid = k.asid := by unfold Core.endPart; split <;> rfl
@[simp] theorem Core.endPart_mcsw (k : Core) : (k.endPart).mcsw = k.mcsw := by unfold Core.endPart; split <;> rfl
@[simp] theorem Core.endPart_readyw (k : Core) : (k.endPart).readyw = k.readyw := by unfold Core.endPart; split <;> rfl
@[simp] theorem Core.endPart_watch (k : Core) : (k.endPart).watch = k.watch := by unfold Core.endPart; split <;> rfl
@[simp] theorem Core.endPart_watchctl (k : Core) : (k.endPart).watchctl = k.watchctl := by unfold Core.endPart; split <;> rfl
@[simp] theorem Core.endPart_saveptr (k : Core) : (k.endPart).saveptr = k.saveptr := by unfold Core.endPart; split <;> rfl
@[simp] theorem Core.endPart_tlog (k : Core) : (k.endPart).tlog = k.tlog := by unfold Core.endPart; split <;> rfl
@[simp] theorem Core.endPart_wseq (k : Core) : (k.endPart).wseq = k.wseq := by unfold Core.endPart; split <;> rfl
@[simp] theorem Core.endPart_tpcWritten (k : Core) : (k.endPart).tpcWritten = k.tpcWritten := by unfold Core.endPart; split <;> rfl
@[simp] theorem Core.endPart_wskip (k : Core) : (k.endPart).wskip = k.wskip := by unfold Core.endPart; split <;> rfl
@[simp] theorem Core.endPart_secFault (k : Core) : (k.endPart).secFault = k.secFault := by unfold Core.endPart; split <;> rfl
@[simp] theorem Core.endPart_kept (k : Core) : (k.endPart).kept = k.kept := by unfold Core.endPart; split <;> rfl
@[simp] theorem Core.endPart_asyncPeer (k : Core) : (k.endPart).asyncPeer = k.asyncPeer := by unfold Core.endPart; split <;> rfl
@[simp] theorem Core.endPart_asyncWatch (k : Core) : (k.endPart).asyncWatch = k.asyncWatch := by unfold Core.endPart; split <;> rfl
@[simp] theorem Core.endPart_owed (k : Core) : (k.endPart).owed = k.owed := by unfold Core.endPart; split <;> rfl
@[simp] theorem Core.endPart_partNo (k : Core) : (k.endPart).partNo = k.partNo := by unfold Core.endPart; split <;> rfl
@[simp] theorem Core.endPart_secNo (k : Core) : (k.endPart).secNo = k.secNo := by unfold Core.endPart; split <;> rfl
@[simp] theorem Core.endPart_begun (k : Core) : (k.endPart).begun = k.begun := by unfold Core.endPart; split <;> rfl
@[simp] theorem Core.endPart_q (k : Core) : (k.endPart).q = k.q := by unfold Core.endPart; split <;> rfl
@[simp] theorem Core.endPart_fly (k : Core) : (k.endPart).fly = k.fly := by unfold Core.endPart; split <;> rfl
@[simp] theorem Core.endPart_busy (k : Core) : (k.endPart).busy = k.busy := by unfold Core.endPart; split <;> rfl
@[simp] theorem Core.endPart_lastBegin (k : Core) : (k.endPart).lastBegin = k.lastBegin := by unfold Core.endPart; split <;> rfl
@[simp] theorem Core.endPart_tok (k : Core) : (k.endPart).tok = k.tok := by unfold Core.endPart; split <;> rfl
@[simp] theorem Core.endPart_tokRel (k : Core) : (k.endPart).tokRel = k.tokRel := by unfold Core.endPart; split <;> rfl
@[simp] theorem Core.endPart_fmtq (k : Core) : (k.endPart).fmtq = k.fmtq := by unfold Core.endPart; split <;> rfl
@[simp] theorem Core.endPart_outq (k : Core) : (k.endPart).outq = k.outq := by unfold Core.endPart; split <;> rfl
@[simp] theorem Core.endPart_outcnt (k : Core) : (k.endPart).outcnt = k.outcnt := by unfold Core.endPart; split <;> rfl
@[simp] theorem Core.endPart_masks (k : Core) : (k.endPart).masks = k.masks := by unfold Core.endPart; split <;> rfl
@[simp] theorem Core.endPart_mskip (k : Core) : (k.endPart).mskip = k.mskip := by unfold Core.endPart; split <;> rfl
@[simp] theorem Core.endPart_lrelSec (k : Core) : (k.endPart).lrelSec = k.lrelSec := by unfold Core.endPart; split <;> rfl
@[simp] theorem Core.endPart_v (k : Core) : (k.endPart).v = k.v := by unfold Core.endPart; split <;> rfl
@[simp] theorem Core.endPart_frames (k : Core) : (k.endPart).frames = k.frames := by unfold Core.endPart; split <;> rfl
@[simp] theorem Core.endPart_view32 (k : Core) : (k.endPart).view32 = k.view32 := by unfold Core.endPart; split <;> rfl
@[simp] theorem Core.endPart_engw (k : Core) : (k.endPart).engw = k.engw := by unfold Core.endPart; split <;> rfl
@[simp] theorem Core.endPart_chans (k : Core) : (k.endPart).chans = k.chans := by unfold Core.endPart; split <;> rfl
@[simp] theorem Core.endPart_bars (k : Core) : (k.endPart).bars = k.bars := by unfold Core.endPart; split <;> rfl
@[simp] theorem Core.endPart_bufs (k : Core) : (k.endPart).bufs = k.bufs := by unfold Core.endPart; split <;> rfl
@[simp] theorem Core.endPart_tlb (k : Core) : (k.endPart).tlb = k.tlb := by unfold Core.endPart; split <;> rfl
@[simp] theorem Core.endPart_relFabric (k : Core) : (k.endPart).relFabric = k.relFabric := by unfold Core.endPart; split <;> rfl
@[simp] theorem Core.endPart_answered (k : Core) : (k.endPart).answered = k.answered := by unfold Core.endPart; split <;> rfl
@[simp] theorem Core.endPart_woken (k : Core) : (k.endPart).woken = k.woken := by unfold Core.endPart; split <;> rfl
@[simp] theorem Core.endPart_leaving (k : Core) : (k.endPart).leaving = k.leaving := by unfold Core.endPart; split <;> rfl
@[simp] theorem Core.endPart_marks (k : Core) : (k.endPart).marks = k.marks := by unfold Core.endPart; split <;> rfl
@[simp] theorem Core.endPart_frozen (k : Core) : (k.endPart).frozen = k.frozen := by unfold Core.endPart; split <;> rfl

-- `Core.advance`.
@[simp] theorem Core.advance_crew (k : Core) (n : Nat) : (k.advance n).crew = k.crew := by unfold Core.advance; dsimp only; split <;> (try split) <;> simp
@[simp] theorem Core.advance_leg (k : Core) (n : Nat) : (k.advance n).leg = k.leg := by unfold Core.advance; dsimp only; split <;> (try split) <;> simp
@[simp] theorem Core.advance_origin (k : Core) (n : Nat) : (k.advance n).origin = k.origin := by unfold Core.advance; dsimp only; split <;> (try split) <;> simp
@[simp] theorem Core.advance_contained (k : Core) (n : Nat) : (k.advance n).contained = k.contained := by unfold Core.advance; dsimp only; split <;> (try split) <;> simp
@[simp] theorem Core.advance_s (k : Core) (n : Nat) : (k.advance n).s = k.s := by unfold Core.advance; dsimp only; split <;> (try split) <;> simp
@[simp] theorem Core.advance_defer (k : Core) (n : Nat) : (k.advance n).defer = k.defer := by unfold Core.advance; dsimp only; split <;> (try split) <;> simp
@[simp] theorem Core.advance_p (k : Core) (n : Nat) : (k.advance n).p = k.p := by unfold Core.advance; dsimp only; split <;> (try split) <;> simp
@[simp] theorem Core.advance_saved (k : Core) (n : Nat) : (k.advance n).saved = k.saved := by unfold Core.advance; dsimp only; split <;> (try split) <;> simp
@[simp] theorem Core.advance_wait (k : Core) (n : Nat) : (k.advance n).wait = k.wait := by unfold Core.advance; dsimp only; split <;> (try split) <;> simp
@[simp] theorem Core.advance_savedMcall (k : Core) (n : Nat) : (k.advance n).savedMcall = k.savedMcall := by unfold Core.advance; dsimp only; split <;> (try split) <;> simp
@[simp] theorem Core.advance_micro (k : Core) (n : Nat) : (k.advance n).micro = k.micro := by unfold Core.advance; dsimp only; split <;> (try split) <;> simp
@[simp] theorem Core.advance_mdir (k : Core) (n : Nat) : (k.advance n).mdir = k.mdir := by unfold Core.advance; dsimp only; split <;> (try split) <;> simp
@[simp] theorem Core.advance_mode (k : Core) (n : Nat) : (k.advance n).mode = k.mode := by unfold Core.advance; dsimp only; split <;> (try split) <;> simp
@[simp] theorem Core.advance_fpcr (k : Core) (n : Nat) : (k.advance n).fpcr = k.fpcr := by unfold Core.advance; dsimp only; split <;> (try split) <;> simp
@[simp] theorem Core.advance_fpsr (k : Core) (n : Nat) : (k.advance n).fpsr = k.fpsr := by unfold Core.advance; dsimp only; split <;> (try split) <;> simp
@[simp] theorem Core.advance_slip (k : Core) (n : Nat) : (k.advance n).slip = k.slip := by unfold Core.advance; dsimp only; split <;> (try split) <;> simp
@[simp] theorem Core.advance_rrb (k : Core) (n : Nat) : (k.advance n).rrb = k.rrb := by unfold Core.advance; dsimp only; split <;> (try split) <;> simp
@[simp] theorem Core.advance_mskdepth (k : Core) (n : Nat) : (k.advance n).mskdepth = k.mskdepth := by unfold Core.advance; dsimp only; split <;> (try split) <;> simp
@[simp] theorem Core.advance_ccc (k : Core) (n : Nat) : (k.advance n).ccc = k.ccc := by unfold Core.advance; dsimp only; split <;> (try split) <;> simp
@[simp] theorem Core.advance_specstat (k : Core) (n : Nat) : (k.advance n).specstat = k.specstat := by unfold Core.advance; dsimp only; split <;> (try split) <;> simp
@[simp] theorem Core.advance_livemap (k : Core) (n : Nat) : (k.advance n).livemap = k.livemap := by unfold Core.advance; dsimp only; split <;> (try split) <;> simp
@[simp] theorem Core.advance_livebits (k : Core) (n : Nat) : (k.advance n).livebits = k.livebits := by unfold Core.advance; dsimp only; split <;> (try split) <;> simp
@[simp] theorem Core.advance_dlost (k : Core) (n : Nat) : (k.advance n).dlost = k.dlost := by unfold Core.advance; dsimp only; split <;> (try split) <;> simp
@[simp] theorem Core.advance_qstat (k : Core) (n : Nat) : (k.advance n).qstat = k.qstat := by unfold Core.advance; dsimp only; split <;> (try split) <;> simp
@[simp] theorem Core.advance_tvec (k : Core) (n : Nat) : (k.advance n).tvec = k.tvec := by unfold Core.advance; dsimp only; split <;> (try split) <;> simp
@[simp] theorem Core.advance_tcause (k : Core) (n : Nat) : (k.advance n).tcause = k.tcause := by unfold Core.advance; dsimp only; split <;> (try split) <;> simp
@[simp] theorem Core.advance_tpc (k : Core) (n : Nat) : (k.advance n).tpc = k.tpc := by unfold Core.advance; dsimp only; split <;> (try split) <;> simp
@[simp] theorem Core.advance_topc (k : Core) (n : Nat) : (k.advance n).topc = k.topc := by unfold Core.advance; dsimp only; split <;> (try split) <;> simp
@[simp] theorem Core.advance_titer (k : Core) (n : Nat) : (k.advance n).titer = k.titer := by unfold Core.advance; dsimp only; split <;> (try split) <;> simp
@[simp] theorem Core.advance_taddr (k : Core) (n : Nat) : (k.advance n).taddr = k.taddr := by unfold Core.advance; dsimp only; split <;> (try split) <;> simp
@[simp] theorem Core.advance_teng (k : Core) (n : Nat) : (k.advance n).teng = k.teng := by unfold Core.advance; dsimp only; split <;> (try split) <;> simp
@[simp] theorem Core.advance_tsrc (k : Core) (n : Nat) : (k.advance n).tsrc = k.tsrc := by unfold Core.advance; dsimp only; split <;> (try split) <;> simp
@[simp] theorem Core.advance_tstamp (k : Core) (n : Nat) : (k.advance n).tstamp = k.tstamp := by unfold Core.advance; dsimp only; split <;> (try split) <;> simp
@[simp] theorem Core.advance_asid (k : Core) (n : Nat) : (k.advance n).asid = k.asid := by unfold Core.advance; dsimp only; split <;> (try split) <;> simp
@[simp] theorem Core.advance_mcsw (k : Core) (n : Nat) : (k.advance n).mcsw = k.mcsw := by unfold Core.advance; dsimp only; split <;> (try split) <;> simp
@[simp] theorem Core.advance_readyw (k : Core) (n : Nat) : (k.advance n).readyw = k.readyw := by unfold Core.advance; dsimp only; split <;> (try split) <;> simp
@[simp] theorem Core.advance_watch (k : Core) (n : Nat) : (k.advance n).watch = k.watch := by unfold Core.advance; dsimp only; split <;> (try split) <;> simp
@[simp] theorem Core.advance_watchctl (k : Core) (n : Nat) : (k.advance n).watchctl = k.watchctl := by unfold Core.advance; dsimp only; split <;> (try split) <;> simp
@[simp] theorem Core.advance_saveptr (k : Core) (n : Nat) : (k.advance n).saveptr = k.saveptr := by unfold Core.advance; dsimp only; split <;> (try split) <;> simp
@[simp] theorem Core.advance_tlog (k : Core) (n : Nat) : (k.advance n).tlog = k.tlog := by unfold Core.advance; dsimp only; split <;> (try split) <;> simp
@[simp] theorem Core.advance_wseq (k : Core) (n : Nat) : (k.advance n).wseq = k.wseq := by unfold Core.advance; dsimp only; split <;> (try split) <;> simp
@[simp] theorem Core.advance_tpcWritten (k : Core) (n : Nat) : (k.advance n).tpcWritten = k.tpcWritten := by unfold Core.advance; dsimp only; split <;> (try split) <;> simp
@[simp] theorem Core.advance_secFault (k : Core) (n : Nat) : (k.advance n).secFault = k.secFault := by unfold Core.advance; dsimp only; split <;> (try split) <;> simp
@[simp] theorem Core.advance_kept (k : Core) (n : Nat) : (k.advance n).kept = k.kept := by unfold Core.advance; dsimp only; split <;> (try split) <;> simp
@[simp] theorem Core.advance_asyncPeer (k : Core) (n : Nat) : (k.advance n).asyncPeer = k.asyncPeer := by unfold Core.advance; dsimp only; split <;> (try split) <;> simp
@[simp] theorem Core.advance_asyncWatch (k : Core) (n : Nat) : (k.advance n).asyncWatch = k.asyncWatch := by unfold Core.advance; dsimp only; split <;> (try split) <;> simp
@[simp] theorem Core.advance_owed (k : Core) (n : Nat) : (k.advance n).owed = k.owed := by unfold Core.advance; dsimp only; split <;> (try split) <;> simp
@[simp] theorem Core.advance_partNo (k : Core) (n : Nat) : (k.advance n).partNo = k.partNo := by unfold Core.advance; dsimp only; split <;> (try split) <;> simp
@[simp] theorem Core.advance_secNo (k : Core) (n : Nat) : (k.advance n).secNo = k.secNo := by unfold Core.advance; dsimp only; split <;> (try split) <;> simp
@[simp] theorem Core.advance_cur (k : Core) (n : Nat) : (k.advance n).cur = k.cur := by unfold Core.advance; dsimp only; split <;> (try split) <;> simp
@[simp] theorem Core.advance_begun (k : Core) (n : Nat) : (k.advance n).begun = k.begun := by unfold Core.advance; dsimp only; split <;> (try split) <;> simp
@[simp] theorem Core.advance_q (k : Core) (n : Nat) : (k.advance n).q = k.q := by unfold Core.advance; dsimp only; split <;> (try split) <;> simp
@[simp] theorem Core.advance_fly (k : Core) (n : Nat) : (k.advance n).fly = k.fly := by unfold Core.advance; dsimp only; split <;> (try split) <;> simp
@[simp] theorem Core.advance_busy (k : Core) (n : Nat) : (k.advance n).busy = k.busy := by unfold Core.advance; dsimp only; split <;> (try split) <;> simp
@[simp] theorem Core.advance_lastBegin (k : Core) (n : Nat) : (k.advance n).lastBegin = k.lastBegin := by unfold Core.advance; dsimp only; split <;> (try split) <;> simp
@[simp] theorem Core.advance_tok (k : Core) (n : Nat) : (k.advance n).tok = k.tok := by unfold Core.advance; dsimp only; split <;> (try split) <;> simp
@[simp] theorem Core.advance_tokRel (k : Core) (n : Nat) : (k.advance n).tokRel = k.tokRel := by unfold Core.advance; dsimp only; split <;> (try split) <;> simp
@[simp] theorem Core.advance_fmtq (k : Core) (n : Nat) : (k.advance n).fmtq = k.fmtq := by unfold Core.advance; dsimp only; split <;> (try split) <;> simp
@[simp] theorem Core.advance_outq (k : Core) (n : Nat) : (k.advance n).outq = k.outq := by unfold Core.advance; dsimp only; split <;> (try split) <;> simp
@[simp] theorem Core.advance_outcnt (k : Core) (n : Nat) : (k.advance n).outcnt = k.outcnt := by unfold Core.advance; dsimp only; split <;> (try split) <;> simp
@[simp] theorem Core.advance_masks (k : Core) (n : Nat) : (k.advance n).masks = k.masks := by unfold Core.advance; dsimp only; split <;> (try split) <;> simp
@[simp] theorem Core.advance_mskip (k : Core) (n : Nat) : (k.advance n).mskip = k.mskip := by unfold Core.advance; dsimp only; split <;> (try split) <;> simp
@[simp] theorem Core.advance_lrelSec (k : Core) (n : Nat) : (k.advance n).lrelSec = k.lrelSec := by unfold Core.advance; dsimp only; split <;> (try split) <;> simp
@[simp] theorem Core.advance_v (k : Core) (n : Nat) : (k.advance n).v = k.v := by unfold Core.advance; dsimp only; split <;> (try split) <;> simp
@[simp] theorem Core.advance_frames (k : Core) (n : Nat) : (k.advance n).frames = k.frames := by unfold Core.advance; dsimp only; split <;> (try split) <;> simp
@[simp] theorem Core.advance_view32 (k : Core) (n : Nat) : (k.advance n).view32 = k.view32 := by unfold Core.advance; dsimp only; split <;> (try split) <;> simp
@[simp] theorem Core.advance_engw (k : Core) (n : Nat) : (k.advance n).engw = k.engw := by unfold Core.advance; dsimp only; split <;> (try split) <;> simp
@[simp] theorem Core.advance_chans (k : Core) (n : Nat) : (k.advance n).chans = k.chans := by unfold Core.advance; dsimp only; split <;> (try split) <;> simp
@[simp] theorem Core.advance_bars (k : Core) (n : Nat) : (k.advance n).bars = k.bars := by unfold Core.advance; dsimp only; split <;> (try split) <;> simp
@[simp] theorem Core.advance_bufs (k : Core) (n : Nat) : (k.advance n).bufs = k.bufs := by unfold Core.advance; dsimp only; split <;> (try split) <;> simp
@[simp] theorem Core.advance_tlb (k : Core) (n : Nat) : (k.advance n).tlb = k.tlb := by unfold Core.advance; dsimp only; split <;> (try split) <;> simp
@[simp] theorem Core.advance_woken (k : Core) (n : Nat) : (k.advance n).woken = k.woken := by unfold Core.advance; dsimp only; split <;> (try split) <;> simp
@[simp] theorem Core.advance_leaving (k : Core) (n : Nat) : (k.advance n).leaving = k.leaving := by unfold Core.advance; dsimp only; split <;> (try split) <;> simp
@[simp] theorem Core.advance_marks (k : Core) (n : Nat) : (k.advance n).marks = k.marks := by unfold Core.advance; dsimp only; split <;> (try split) <;> simp
@[simp] theorem Core.advance_frozen (k : Core) (n : Nat) : (k.advance n).frozen = k.frozen := by unfold Core.advance; dsimp only; split <;> (try split) <;> simp

end Sys2Proof.Machine
end

