-- ==== Sys2Proof/Laws/Store.lean ====
section
/-! SUPPORT. The laws of sparse maps and of memory: read after write, what a write leaves alone, and the canonical form. -/
namespace Sys2Proof.Machine

-- Sparse maps.

@[simp] theorem AMap.get_nil {α : Type} (d : α) (j : Nat) : AMap.get d ([] : AMap α) j = d := rfl
@[simp] theorem AMap.find_nil {α : Type} (j : Nat) : AMap.find ([] : AMap α) j = none := rfl

/-- A key reads as what was put there. -/
@[simp] theorem AMap.get_upd_same {α : Type} (d : α) (m : AMap α) (j : Nat) (w : α) :
    AMap.get d (AMap.upd m j w) j = w := by
  induction m with
  | nil => simp [AMap.upd, AMap.get]
  | cons e m ih =>
    obtain ⟨k, v⟩ := e
    unfold AMap.upd
    split
    · simp [AMap.get]
    · split
      · simp [AMap.get]
      · rename_i h1 h2
        simp [AMap.get, Ne.symm h2, ih]

/-- Every other key reads as before. -/
theorem AMap.get_upd_other {α : Type} (d : α) (m : AMap α) {j i : Nat} (w : α) (h : i ≠ j) :
    AMap.get d (AMap.upd m j w) i = AMap.get d m i := by
  induction m with
  | nil => simp [AMap.upd, AMap.get, Ne.symm h]
  | cons e m ih =>
    obtain ⟨k, v⟩ := e
    unfold AMap.upd
    split
    · simp [AMap.get, Ne.symm h]
    · split
      · rename_i h1 h2
        subst h2
        simp [AMap.get, Ne.symm h]
      · by_cases hk : k = i
        · simp [AMap.get, hk]
        · simp [AMap.get, hk, ih]

/-- What is found at the key that was put. -/
@[simp] theorem AMap.find_upd_same {α : Type} (m : AMap α) (j : Nat) (w : α) : AMap.find (AMap.upd m j w) j = some w := by
  induction m with
  | nil => simp [AMap.upd, AMap.find]
  | cons e m ih =>
    obtain ⟨k, v⟩ := e
    unfold AMap.upd
    split
    · simp [AMap.find]
    · split
      · simp [AMap.find]
      · rename_i h1 h2
        simp [AMap.find, Ne.symm h2, ih]

/-- The second of two writes of one key stands. -/
@[simp] theorem AMap.upd_upd {α : Type} (m : AMap α) (j : Nat) (v w : α) :
    AMap.upd (AMap.upd m j v) j w = AMap.upd m j w := by
  induction m with
  | nil => simp [AMap.upd]
  | cons e m ih =>
    obtain ⟨k, x⟩ := e
    by_cases h1 : j < k
    · simp [AMap.upd, h1]
    · by_cases h2 : j = k
      · simp [AMap.upd, h2]
      · simp [AMap.upd, h1, h2, ih]

-- Memory.

namespace Memory

/-- Raising the bound above the first key keeps the form below it. -/
theorem wfFrom_mono {lo : Option Nat} {m : Memory} {k : Nat} (hk : ∀ l, lo = some l → l < k)
    (h : wfFrom (some k) m = true) : wfFrom lo m = true := by
  cases m with
  | nil => rfl
  | cons e m =>
    obtain ⟨j, v⟩ := e
    simp only [wfFrom, Bool.and_eq_true, decide_eq_true_eq] at h ⊢
    refine ⟨⟨?_, h.1.2⟩, h.2⟩
    cases lo with
    | none => rfl
    | some l => simp only [decide_eq_true_eq]; exact lt_trans (hk l rfl) h.1.1

/-- A write keeps the form. -/
theorem wfFrom_set {lo : Option Nat} {m : Memory} (a : Nat) (b : Byte) (ha : ∀ l, lo = some l → l < a)
    (h : wfFrom lo m = true) : wfFrom lo (set m a b) = true := by
  induction m generalizing lo with
  | nil =>
    unfold set
    split
    · rfl
    · rename_i hb
      cases lo with
      | none => simp [wfFrom, hb]
      | some l => simp [wfFrom, hb, ha l rfl]
  | cons e m ih =>
    obtain ⟨k, v⟩ := e
    simp only [wfFrom, Bool.and_eq_true] at h
    unfold set
    split
    · rename_i hak
      split
      · simp only [wfFrom, Bool.and_eq_true]; exact h
      · rename_i hb
        simp only [wfFrom, Bool.and_eq_true, decide_eq_true_eq, bne_iff_ne]
        refine ⟨⟨?_, hb⟩, ⟨hak, bne_iff_ne.mp h.1.2⟩, h.2⟩
        cases lo with
        | none => rfl
        | some l => simp [ha l rfl]
    · split
      · rename_i hlt heq
        subst heq
        split
        · exact wfFrom_mono (k := a) ha h.2
        · rename_i hb
          simp only [wfFrom, Bool.and_eq_true, bne_iff_ne]
          exact ⟨⟨h.1.1, hb⟩, h.2⟩
      · rename_i hlt hne
        simp only [wfFrom, Bool.and_eq_true]
        refine ⟨h.1, ih ?_ h.2⟩
        intro l hl
        cases hl
        omega

/-- Writing a byte keeps the canonical form. -/
theorem wf_set {m : Memory} (a : Nat) (b : Byte) (h : m.wf = true) : (m.set a b).wf = true :=
  wfFrom_set a b (by simp) h

/-- Writing bytes keeps the canonical form. -/
theorem wf_setBytes {m : Memory} (a : Nat) (bs : List Byte) (h : m.wf = true) : (m.setBytes a bs).wf = true := by
  induction bs generalizing m a with
  | nil => exact h
  | cons b bs ih => exact ih _ (wf_set a b h)

/-- Writing a number keeps the canonical form. -/
theorem wf_setNat {m : Memory} (a n v : Nat) (h : m.wf = true) : (m.setNat a n v).wf = true := wf_setBytes _ _ h

/-- Leaving entries out keeps the form. -/
theorem wfFrom_filter {lo : Option Nat} {m : Memory} (p : Host.Cell → Bool) (h : wfFrom lo m = true) :
    wfFrom lo (m.filter p) = true := by
  induction m generalizing lo with
  | nil => rfl
  | cons e m ih =>
    obtain ⟨k, v⟩ := e
    simp only [wfFrom, Bool.and_eq_true] at h
    rw [List.filter_cons]
    split
    · simp only [wfFrom, Bool.and_eq_true]; exact ⟨h.1, ih h.2⟩
    · refine wfFrom_mono (k := k) ?_ (ih h.2)
      intro l hl
      subst hl
      simpa using h.1.1

/-- Clearing a range keeps the canonical form. -/
theorem wf_clear {m : Memory} (lo hi : Nat) (h : m.wf = true) : (m.clear lo hi).wf = true := wfFrom_filter _ h

/-- Below the first key nothing is listed. -/
theorem get_of_wfFrom {m : Memory} {l a : Nat} (h : wfFrom (some l) m = true) (ha : a ≤ l) : get m a = unlisted := by
  induction m generalizing l with
  | nil => rfl
  | cons e m ih =>
    obtain ⟨k, v⟩ := e
    simp only [wfFrom, Bool.and_eq_true, decide_eq_true_eq] at h
    have hk : k ≠ a := by omega
    simp only [get, hk, if_false]
    exact ih h.2 (by omega)

/-- Read after write, in a memory of canonical form. -/
theorem get_set_from {lo : Option Nat} {m : Memory} (a i : Nat) (b : Byte) (h : wfFrom lo m = true) :
    get (set m a b) i = if i = a then b else get m i := by
  induction m generalizing lo with
  | nil =>
    unfold set
    split
    · rename_i hb
      simp [get, hb]
    · simp [get, eq_comm]
  | cons e m ih =>
    obtain ⟨k, v⟩ := e
    have h2 := h
    simp only [wfFrom, Bool.and_eq_true] at h2
    unfold set
    split
    · rename_i hak
      have hg : get ((k, v) :: m) a = unlisted := by
        have hk : k ≠ a := by omega
        simp only [get, hk, if_false]
        exact get_of_wfFrom h2.2 (by omega)
      split
      · rename_i hb
        split
        · rename_i hi
          rw [hi, hg, hb]
        · rfl
      · by_cases hi : i = a
        · simp [get, hi]
        · simp [get, hi, Ne.symm hi]
    · split
      · rename_i hlt heq
        subst heq
        split
        · rename_i hb
          by_cases hi : i = a
          · rw [if_pos hi, hi, hb]; exact get_of_wfFrom h2.2 (le_refl _)
          · simp [get, hi, Ne.symm hi]
        · by_cases hi : i = a
          · simp [get, hi]
          · simp [get, hi, Ne.symm hi]
      · rename_i hlt hne
        by_cases hk : k = i
        · have : i ≠ a := by omega
          simp [get, hk, this]
        · simp only [get, hk, if_false]
          exact ih h2.2

/-- Read after write of one byte. -/
theorem get_set {m : Memory} (a i : Nat) (b : Byte) (h : m.wf = true) :
    (m.set a b).get i = if i = a then b else m.get i := get_set_from a i b h

/-- Bytes outside the ones written read as before. -/
theorem get_setBytes_out {m : Memory} (a i : Nat) (bs : List Byte) (h : m.wf = true) (hi : i < a ∨ a + bs.length ≤ i) :
    (m.setBytes a bs).get i = m.get i := by
  induction bs generalizing m a with
  | nil => rfl
  | cons b bs ih =>
    simp only [List.length_cons] at hi
    show (setBytes (m.set a b) (a + 1) bs).get i = m.get i
    rw [ih (m := m.set a b) (a + 1) (wf_set a b h) (by omega), get_set _ _ _ h, if_neg (by omega)]

/-- The bytes written read back. -/
theorem getBytes_setBytes {m : Memory} (a : Nat) (bs : List Byte) (h : m.wf = true) :
    (m.setBytes a bs).getBytes a bs.length = bs := by
  induction bs generalizing m a with
  | nil => rfl
  | cons b bs ih =>
    show (setBytes (m.set a b) (a + 1) bs).get a :: (setBytes (m.set a b) (a + 1) bs).getBytes (a + 1) bs.length = b :: bs
    rw [ih (m := m.set a b) (a + 1) (wf_set a b h),
      get_setBytes_out (m := m.set a b) _ _ _ (wf_set a b h) (by omega), get_set _ _ _ h]
    simp

/-- How many bytes a number takes. -/
@[simp] theorem leBytes_length (n v : Nat) : (leBytes n v).length = n := by
  induction n generalizing v with
  | zero => rfl
  | succ n ih => simp [leBytes, ih]

/-- The number whose bytes were taken, modulo their count. -/
theorem ofLeBytes_leBytes (n v : Nat) : ofLeBytes (leBytes n v) = v % 2 ^ (8 * n) := by
  induction n generalizing v with
  | zero => simp [leBytes, ofLeBytes, Nat.mod_one]
  | succ n ih =>
    simp only [leBytes, ofLeBytes, ih, BitVec.toNat_ofNat]
    rw [show 8 * (n + 1) = 8 + 8 * n by ring, pow_add, Nat.mod_mul]
    norm_num

/-- A number written reads back. -/
theorem getNat_setNat {m : Memory} (a n v : Nat) (h : m.wf = true) : (m.setNat a n v).getNat a n = v % 2 ^ (8 * n) := by
  have := getBytes_setBytes a (leBytes n v) h
  rw [leBytes_length] at this
  unfold getNat setNat
  rw [this, ofLeBytes_leBytes]

/-- Bytes outside a number written read as before. -/
theorem get_setNat_out {m : Memory} (a n v i : Nat) (h : m.wf = true) (hi : i < a ∨ a + n ≤ i) :
    (m.setNat a n v).get i = m.get i := get_setBytes_out a i _ h (by simpa using hi)

end Memory

end Sys2Proof.Machine
end

