-- ==== Sys2Proof/Laws/Ops.lean ====
section
/-! SUPPORT. What the shared operations can do, each said once: a core put back is the core read, how one word of the pacer ends
(`pacerWord`), how an engine word is pushed, and what taking an exception leaves in the core. -/
namespace Sys2Proof.Machine

-- Cores.

@[simp] theorem State.core_setCore (s : State) (c : Nat) (k : Core) : (s.setCore c k).core c = k := by
  simp [State.core, State.setCore]
theorem State.core_setCore_other (s : State) {c d : Nat} (k : Core) (h : d ≠ c) : (s.setCore c k).core d = s.core d := by
  simp [State.core, State.setCore, AMap.get_upd_other _ _ _ h]
@[simp] theorem State.setCore_setCore (s : State) (c : Nat) (j k : Core) : (s.setCore c j).setCore c k = s.setCore c k := by
  simp [State.setCore]
@[simp] theorem State.me_setMe (s : State) (k : Core) : (s.setMe k).me = k := by simp [State.me, State.setMe]
@[simp] theorem State.setMe_setMe (s : State) (j k : Core) : (s.setMe j).setMe k = s.setMe k := by simp [State.setMe]
@[simp] theorem State.team_setTeam (s : State) (n : Nat) (x : Team) : (s.setTeam n x).team n = x := by
  simp [State.team, State.setTeam]
@[simp] theorem State.die_setDie (s : State) (n : Nat) (x : Die) : (s.setDie n x).die n = x := by
  simp [State.die, State.setDie]
@[simp] theorem State.crew_setCrew (s : State) (n : Nat) (x : Crew) : (s.setCrew n x).crew n = x := by
  simp [State.crew, State.setCrew]
@[simp] theorem State.relay_setRelay (s : State) (n : Nat) (x : Relay) : (s.setRelay n x).relay n = x := by
  simp [State.relay, State.setRelay]
@[simp] theorem State.heat_setHeat (s : State) (n : Nat) (x : Heat) : (s.setHeat n x).heat n = x := by
  simp [State.heat, State.setHeat]
@[simp] theorem State.graph_setGraph (s : State) (n : Nat) (x : Graph) : (s.setGraph n x).graph n = x := by
  simp [State.graph, State.setGraph]
@[simp] theorem State.fwc_setFwc (s : State) (n : Nat) (x : FwCore) : (s.setFwc n x).fwc n = x := by
  simp [State.fwc, State.setFwc]
@[simp] theorem State.view_setView (s : State) (a : Nat) (v : View) : (s.setView a v).view a = v := by
  simp [State.view, State.setView]

-- Scalar registers and predicates.

@[simp] theorem Core.rdP_zero (k : Core) : k.rdP 0 = 0 := rfl
/-- A register reads as what was written, s0 excepted (R193). -/
theorem Core.rdP_wrP (k : Core) (p : Nat) (v : Word) (h : p ≠ 0) : (k.wrP p v).rdP p = v := by
  simp [Core.rdP, Core.wrP, h]
theorem Core.rdP_wrP_other (k : Core) {p q : Nat} (v : Word) (h : q ≠ p) : (k.wrP p v).rdP q = k.rdP q := by
  unfold Core.rdP Core.wrP
  by_cases hp : p = 0
  · simp [hp]
  · simp [hp, AMap.get_upd_other _ _ _ h]
/-- A write to s0 is discarded (R193). -/
@[simp] theorem Core.wrP_zero (k : Core) (v : Word) : k.wrP 0 v = k := rfl
@[simp] theorem Core.pred_zero (k : Core) : k.pred 0 = true := rfl

-- A word of the pacer.

@[simp] theorem State.entered_actor (s : State) (e : Bool) : (s.entered e).actor = s.actor := by
  unfold State.entered; split <;> simp
@[simp] theorem State.entered_mem (s : State) (e : Bool) : (s.entered e).mem = s.mem := by
  unfold State.entered; split <;> simp
@[simp] theorem State.entered_pred (s : State) (e : Bool) (p : BitVec 3) : (s.entered e).me.pred p = s.me.pred p := by
  unfold State.entered; split
  · rfl
  · rw [State.me_setMe]; split <;> simp [Core.pred]
@[simp] theorem State.entered_rd (s : State) (e : Bool) (r : SReg) : (s.entered e).me.rd r = s.me.rd r := by
  unfold State.entered; split
  · rfl
  · rw [State.me_setMe]; split <;> simp [Core.rd, Core.rdP]
@[simp] theorem State.entered_firstDef (s : State) (e : Bool) (l : List SReg) :
    (s.entered e).me.firstDef l = s.me.firstDef l := by
  have h : ∀ k k' : Core, k.rrb = k'.rrb → k.defer = k'.defer → k.firstDef l = k'.firstDef l := by
    intro k k' h1 h2
    have : k.isDef = k'.isDef := by funext p; simp [Core.isDef, h2]
    simp [Core.firstDef, h1, this]
  unfold State.entered; split
  · rfl
  · rw [State.me_setMe]; split <;> exact h _ _ (by simp) (by simp)

/-- How a word that issues ends: as its own effect ends. -/
theorem pacerWord_issues {s : State} {n : Ann} {srcs : List SReg} (h : s.Issues n srcs) (b : Nat) (e : Bool) (f : M Flow) :
    pacerWord n b srcs e f s =
      match f (s.entered e) with
      | .ok (.seq, t) => .next (t.setMe (t.me.advance b))
      | .ok (.set, t) => .next t
      | .error x => (s.entered e).finish s.actor (.error x) := by
  obtain ⟨h1, h2, h3⟩ := h
  have hs : (s.me.slipHeld && !s.me.retry) = false := by rcases h1 with h1 | h1 <;> simp [h1]
  unfold pacerWord
  simp only [hs, h2, State.entered_firstDef, h3, State.entered_actor]
  rfl

/-- A word whose effect ends at the next word. -/
theorem pacerWord_seq {s t : State} {n : Ann} {srcs : List SReg} (h : s.Issues n srcs) {b : Nat} {e : Bool} {f : M Flow}
    (hf : f (s.entered e) = .ok (.seq, t)) : pacerWord n b srcs e f s = .next (t.setMe (t.me.advance b)) := by
  rw [pacerWord_issues h, hf]

/-- A word that places the pacer itself. -/
theorem pacerWord_set {s t : State} {n : Ann} {srcs : List SReg} (h : s.Issues n srcs) {b : Nat} {e : Bool} {f : M Flow}
    (hf : f (s.entered e) = .ok (.set, t)) : pacerWord n b srcs e f s = .next t := by
  rw [pacerWord_issues h, hf]

/-- A word that traps: nothing of its own effect happens. -/
theorem pacerWord_trap {s : State} {n : Ann} {srcs : List SReg} (h : s.Issues n srcs) {b : Nat} {e : Bool} {f : M Flow}
    {t : TrapInfo} (hf : f (s.entered e) = .error (.trap t)) :
    pacerWord n b srcs e f s = .next ((s.entered e).preciseTrap s.actor t) := by
  rw [pacerWord_issues h, hf]; rfl

/-- A word that must wait is taken again. -/
theorem pacerWord_wait {s : State} {n : Ann} {srcs : List SReg} (h : s.Issues n srcs) {b : Nat} {e : Bool} {f : M Flow}
    (hf : f (s.entered e) = .error .wait) : pacerWord n b srcs e f s = .next (s.entered e) := by
  rw [pacerWord_issues h, hf]; rfl

/-- A word whose predicate is false only takes its place (R14). -/
theorem pacerWord_false {s : State} {n : Ann} (h : s.me.slipHeld = false ∨ s.me.retry = true) (hp : s.me.pred n.pr = false)
    (b : Nat) (srcs : List SReg) (e : Bool) (f : M Flow) : pacerWord n b srcs e f s = .next (s.skipped b e) := by
  have hs : (s.me.slipHeld && !s.me.retry) = false := by rcases h with h | h <;> simp [h]
  unfold pacerWord
  simp only [hs, hp]
  rfl

/-- Everything one word of the pacer can come to. -/
theorem pacerWord_cases {s t : State} {n : Ann} {b : Nat} {srcs : List SReg} {e : Bool} {f : M Flow}
    (h : pacerWord n b srcs e f s = .next t) :
    t = s ∨ t = s.skipped b e ∨
    (∃ p, s.me.firstDef srcs = some p ∧ t = (s.entered e).preciseTrap s.actor (tr cDFUSE p)) ∨
    (∃ u, f (s.entered e) = .ok (.seq, u) ∧ t = u.setMe (u.me.advance b)) ∨
    f (s.entered e) = .ok (.set, t) ∨
    (∃ x, f (s.entered e) = .error x ∧ (s.entered e).finish s.actor (.error x) = .next t) := by
  unfold pacerWord at h
  split at h
  · exact .inl (by simpa using h.symm)
  · split at h
    · exact .inr (.inl (by simpa using h.symm))
    · simp only [State.entered_firstDef, State.entered_actor] at h
      split at h
      · rename_i p hp
        exact .inr (.inr (.inl ⟨p, hp, by simpa using h.symm⟩))
      · split at h
        · rename_i u hu
          exact .inr (.inr (.inr (.inl ⟨u, hu, by simpa using h.symm⟩)))
        · rename_i u hu
          have : u = t := by simpa using h
          exact .inr (.inr (.inr (.inr (.inl (this ▸ hu)))))
        · rename_i x hx
          exact .inr (.inr (.inr (.inr (.inr ⟨x, hx, h⟩))))

/-- A unit's step that nothing holds back happens, and ends what the host has answered for it. -/
theorem State.attempt_done {s : State} {ags : List Nat} {f : State → State} (h : (f s.unheld).held = []) :
    s.attempt ags f = ags.foldl State.endSnoops { f s.unheld with held := s.held } := by
  exact if_pos (by simpa using h)
/-- One that is held changes nothing but what it asks of the host. -/
theorem State.attempt_held {s : State} {ags : List Nat} {f : State → State} (h : (f s.unheld).held ≠ []) :
    s.attempt ags f = s.askAll (f s.unheld).held :=
  if_neg (by simpa using h)
/-- The part of a word at a unit that nothing holds back. -/
theorem attemptM_done {α : Type} {f : M α} {s t : State} {x : α} (h : f s.unheld = .ok (x, t)) (hh : t.held = []) :
    attemptM f s = .ok (x, { t with held := s.held }) := by
  unfold attemptM
  rw [h]
  simp only [hh]
  rfl
/-- An event of a relay unit whose conditions do not hold. -/
@[simp] theorem State.rlyEvent_false (s : State) (u : Nat) (f : State → State) : s.rlyEvent u false f = s := rfl

end Sys2Proof.Machine
end

