-- ==== Sys2Proof/Tests/Slice0.lean ====
section
/-! SUPPORT. Tests: words written out from the manual's encodings (R11–R22 and each entry), ill-formed terms that the checks refuse,
single steps with results worked from the rules, and for every statement with hypotheses a state and operands that meet them. -/
set_option Elab.async false
namespace Sys2Proof.Tests
open Sys2Proof Sys2Proof.Machine Sys2Proof.Claims

-- Sample states. Core 0 of crew 0, user mode, in a section of 40 words at 0x10000; s63 is the sixteenth register of the window.

def hdr0 : Header :=
  { magic := 10, sec := 3, len := 40, afterVl := 0, afterVx := 0, afterVs := 0, afterMx := 0, afterCp := 0, flags := 2 }
def k0 : Core :=
  { Core.reset with
    crew := some 0, origin := 0, ctx := { SecCtx.none with hdr := hdr0, hdrAddr := 0x10000, ord := 1, atHdr := false },
    pc := 0x10020, partNo := 1, secNo := 1, p := 3,
    s := [(1, 5), (2, 0xFFFFFFFFFFFFFFFB), (3, 0x80000000), (4, 0x123456789ABCDEF0), (5, 0x8000000000000000)] }
def st (k : Core) : State := { State.reset with cores := [(0, k)], gtc := 1000, now := 6000, bias := [(0, true)] }
def regs (l : List (Nat × Word)) : State := st { k0 with s := l }
def part (i sec since : Nat) (sq : Bool) : Part :=
  { id := i, sec := sec, first := true, hdr := { hdr0 with flags := if sq then 4 else 0 }, hdrAddr := 0x10000, since := since,
    fmts := 0, vcmps := 0, mpops := 0, voqs := 0 }
def ent (g : Eng) (i : Instr) (p : Nat) : Entry :=
  { eng := g, i := i, addr := 0x10008, iter := 0, resid := false, sec := 1, part := p, pred := true, rm := .rne, en := 0, vb := 0,
    sb := 0, x0 := 0, x1 := 0, blk := none, slots := 0, withdrawn := 0, rel := [] }
def en : EAnn := { bt := false, pr := 0, pa := false, pb := false, sa := false, sb := false }
def an : Ann := { bt := false, pr := 0 }
def cr0 : Crew := { Crew.reset with live := true, gen := 1, legs := [(0, .running 0)] }
-- Pages: 0x100000 HBM at 0x200000, 0x110000 read-only, 0x120000 bulk, 0x130000 host, 0x140000 quay, 0x150000 not for user mode.
def leaf (apt pfn : Nat) : BitVec 64 := BitVec.ofNat 64 ((if apt = 0 then 0xE17 else 0x617) + apt * 32 + pfn * 65536)
def tl (va apt pfn : Nat) : Tlb := { asid := 0, level := 0, vpn := va / 65536, leaf := leaf apt pfn, lines := [] }
def tlbs : List Tlb :=
  [tl 0x100000 0 0x20, { tl 0x110000 0 0x21 with leaf := leaf 0 0x21 &&& ~~~ 4 }, tl 0x120000 1 0x30, tl 0x130000 2 0x30,
   tl 0x140000 4 0x1, { tl 0x10000 0 0x10 with leaf := leaf 0 0x10 ||| 8 }, { tl 0x150000 0 0x25 with leaf := leaf 0 0x25 &&& ~~~ 0x10 }]
def km : Core :=
  { k0 with
    tlb := tlbs, slip := 32,
    s := [(1, 0x100000), (2, 0x100008), (3, 0x110010), (4, 0x120040), (5, 0x123456789ABCDEF0), (6, 0x100003), (7, 0x150000)] }
def mm : Memory := Memory.setNat [] 0x200000 16 0xFFEEDDCCBBAA99887766554433221100
def sm (k : Core) : State := { st k with mem := mm, crews := [(0, cr0)] }
def rq (id : Nat) (ph : ReqPhase) : Req :=
  { id := id, core := 0, agent := 0, kind := .read, key := 0x200000, size := 8, va := 0x100000, apt := 0, ordinary := true,
    posted := false, devBias := true, snooped := false, cp := 0, chan := none, acq := false, sec := 0, tag := 0, rels := [], ar := none, phase := ph, heldAt := 0,
    crc := (0, 0), tries := 0,
    old := 0xFFEEDDCC80808180, msgs := [] }
-- The same pages in tables that start at 0xFFC000000.
def pte (m : Memory) (va : Nat) (e : BitVec 64) : Memory := m.setNat (0xFFC020000 + 8 * (va / 65536)) 8 e.toNat
def tblm : Memory :=
  let m := mm.setNat 0xFFC000000 8 (0xFFC010000 + 1)
  let m := m.setNat 0xFFC010000 8 (0xFFC020000 + 1)
  let m := pte m 0x10000 (leaf 0 0x10 ||| 8)
  let m := pte m 0x100000 (leaf 0 0x20)
  let m := pte m 0x130000 (leaf 2 0x30)
  let m := pte m 0x140000 (leaf 4 0x1)
  let m := pte m 0x150000 (leaf 0 0x25 &&& ~~~ 0x10)
  let m := pte m 0x160000 (leaf 0 0x26 &&& ~~~ 0x200)
  pte m 0x180000 (leaf 0 0x28)
def die0 : Die := { Die.reset with roots := [(0, 0xFFC000001)] }
def smt (k : Core) : State := { sm k with mem := tblm, dies := [(0, die0)], ready := BitVec.allOnes 736 }
/-- A read of the pacer has been answered. -/
def got (s : State) (va n key v : Nat) : State :=
  { s with reqs := s.reqs ++ [{ rq s.nextReq .performed with va := va, size := n, key := key, old := v }], nextReq := s.nextReq + 1 }
def put (s : State) (a n v : Nat) : State := { s with mem := s.mem.setNat a n v }
def crewOf (s : State) (x : Crew) : State := { s with crews := [(0, x)] }
def two (s : State) (k : Core) : State := { s with cores := s.cores ++ [(1, k)] }

-- Hypotheses as tests.

def issues (s : State) (n : Ann) (l : List SReg) : Bool :=
  (!s.me.slipHeld || s.me.retry) && s.me.pred n.pr && (s.me.firstDef l).isNone
theorem issues_sound {s : State} {n : Ann} {l : List SReg} (h : issues s n l = true) : s.Issues n l := by
  simpa [issues, State.Issues, and_assoc] using h
def pushes (s : State) (n : EAnn) (e : Eng) (l : List SReg) : Bool :=
  !s.me.slipHeld && !s.me.mode && s.me.pred n.pr && (s.me.firstDef l).isNone &&
    decide ((s.me.q.filter fun x => x.eng == e).length < queueDepth e)
theorem pushes_sound {s : State} {n : EAnn} {e : Eng} {l : List SReg} (h : pushes s n e l = true) : s.Pushes n e l := by
  simpa [pushes, State.Pushes, and_assoc] using h
def released (s : State) (sc : Nat) : Bool :=
  (s.reqs.all fun r => r.core != s.actor || !s.relWaits sc r) && (s.die (dieOf s.actor)).jobs.all fun j => j.core != s.actor
theorem released_sound {s : State} {o : Ord} {sc : BitVec 4} (h : released s sc.toNat = true) : Released s o sc := by
  simp only [released, Bool.and_eq_true, List.all_eq_true, Bool.or_eq_true, bne_iff_ne, Bool.not_eq_true'] at h
  exact fun _ => ⟨fun r hr hc => (h.1 r hr).resolve_left (fun q => q hc), h.2⟩
/-- The operation answers, and leaves the state `u`. -/
def okTo {ε α : Type} (o : Except ε (α × State)) (u : State) : Bool := match o with | .ok p => p.2 == u | .error _ => false
def okay {ε α : Type} (o : Except ε α) : Bool := match o with | .ok _ => true | .error _ => false
def okIs {ε α : Type} (o : Except ε α) (p : α → Bool) : Bool := match o with | .ok x => p x | .error _ => false
def traps {α : Type} (o : Except Stop α) : Bool := match o with | .error (.trap _) => true | _ => false
def someIs {α : Type} (o : Option α) (p : α → Bool) : Bool := match o with | some x => p x | none => false
def noSnoop {α : Type} (o : Except Stop α) : Bool := match o with | .error (.snoop _ _) => false | _ => true
def goes (o : Host.Outcome State Fault Refusal) (p : State → Bool) : Bool := match o with | .next t => p t | _ => false


-- The words of R11-R22 and of each instruction's entry, written out from its encoding.

/-- The word decodes to the instruction, and the instruction encodes to the word. -/
def reads (w : IWord) (i : Instr) : Bool :=
  match decodeWord w with
  | .ok j => j == i && encode i == some w
  | .error _ => false

theorem test_decode_int_1 : ([
  (0x0003830FC3000000FFFFFFFD, .add ⟨true, 3⟩ ⟨true, 63, 48, .imm 0xFFFFFFFD⟩),
  (0x0100000140601C0000000000, .sub ⟨false, 0⟩ ⟨false, 5, 6, .reg 7⟩),
  (0x0203830FC3000000FFFFFFFD, .mul ⟨true, 3⟩ ⟨true, 63, 48, .imm 0xFFFFFFFD⟩),
  (0x0300000140601C0000000000, .mulh ⟨false, 0⟩ ⟨false, 5, 6, .reg 7⟩),
  (0x0403830FC3000000FFFFFFFD, .mulhn ⟨true, 3⟩ ⟨true, 63, 48, .imm 0xFFFFFFFD⟩),
  (0x0500000140601C0000000000, .div ⟨false, 0⟩ ⟨false, 5, 6, .reg 7⟩),
  (0x0603830FC3000000FFFFFFFD, .divn ⟨true, 3⟩ ⟨true, 63, 48, .imm 0xFFFFFFFD⟩),
  (0x0700000140601C0000000000, .rem ⟨false, 0⟩ ⟨false, 5, 6, .reg 7⟩),
  (0x0803830FC3000000FFFFFFFD, .remn ⟨true, 3⟩ ⟨true, 63, 48, .imm 0xFFFFFFFD⟩),
  (0x0900000140601C0000000000, .and ⟨false, 0⟩ ⟨false, 5, 6, .reg 7⟩),
  (0x0A03830FC3000000FFFFFFFD, .or ⟨true, 3⟩ ⟨true, 63, 48, .imm 0xFFFFFFFD⟩),
  (0x0B00000140601C0000000000, .xor ⟨false, 0⟩ ⟨false, 5, 6, .reg 7⟩)] : List (IWord × Instr)).all (fun x => reads x.1 x.2) = true := by
  decide +kernel

theorem test_decode_int_2 : ([
  (0x0C03830FC3000000FFFFFFFD, .andn ⟨true, 3⟩ ⟨true, 63, 48, .imm 0xFFFFFFFD⟩),
  (0x0D00000140601C0000000000, .shl ⟨false, 0⟩ ⟨false, 5, 6, .reg 7⟩),
  (0x0E03830FC3000000FFFFFFFD, .shr ⟨true, 3⟩ ⟨true, 63, 48, .imm 0xFFFFFFFD⟩),
  (0x0F00000140601C0000000000, .sar ⟨false, 0⟩ ⟨false, 5, 6, .reg 7⟩),
  (0x1003830FC3000000FFFFFFFD, .rot ⟨true, 3⟩ ⟨true, 63, 48, .imm 0xFFFFFFFD⟩),
  (0x1100000140601C0000000000, .min ⟨false, 0⟩ ⟨false, 5, 6, .reg 7⟩),
  (0x1203830FC3000000FFFFFFFD, .max ⟨true, 3⟩ ⟨true, 63, 48, .imm 0xFFFFFFFD⟩),
  (0x1300000140601C0000000000, .minn ⟨false, 0⟩ ⟨false, 5, 6, .reg 7⟩),
  (0x1403830FC3000000FFFFFFFD, .maxn ⟨true, 3⟩ ⟨true, 63, 48, .imm 0xFFFFFFFD⟩),
  (0x1514000040200C0000000000, .sel ⟨false, 0⟩ 5 ⟨false, 1, 2, .reg 3⟩),
  (0x1603000140000000FFFFFFFD, .li ⟨false, 0⟩ true 5 0 0xFFFFFFFD),
  (0x170100024000000000000010, .lea ⟨false, 0⟩ false 9 (.imm 0x10))] : List (IWord × Instr)).all (fun x => reads x.1 x.2) = true := by
  decide +kernel

theorem test_decode_int_3 : ([
  (0x180500024090000000000209, .bfx ⟨false, 0⟩ true ⟨false, 9, 9, .imm 0x209⟩),
  (0x1900000240801C0000000000, .bfi ⟨false, 0⟩ ⟨false, 9, 8, .reg 7⟩),
  (0x1A0200004020000000000000, .clz ⟨false, 0⟩ ⟨true, 1, 2⟩),
  (0x1B0000004020000000000000, .ctz ⟨false, 0⟩ ⟨false, 1, 2⟩),
  (0x1C0000004020000000000000, .popc ⟨false, 0⟩ ⟨false, 1, 2⟩),
  (0x1D1F0001C040000000000001, .pset ⟨false, 0⟩ .ntst true 7 4 (.imm 1)),
  (0x1E18000040200C0000000000, .plog ⟨false, 0⟩ .pnor 1 2 3)] : List (IWord × Instr)).all (fun x => reads x.1 x.2) = true := by
  decide +kernel

theorem test_decode_control : ([
  (0x2080000000000000FFFFFFF8, .br ⟨false, 0⟩ true 0xFFFFFFF8),
  (0x200083000000000000000004, .br ⟨true, 3⟩ false 4),
  (0x210000000070000000000002, .jmp ⟨false, 0⟩ 7 2),
  (0x228000000070000000000010, .jmpr ⟨false, 0⟩ 7 16),
  (0x238000078000000000000064, .call ⟨false, 0⟩ 30 100),
  (0x2400000001E0000000000000, .ret ⟨false, 0⟩ 30),
  (0x25870005004000000000003C, .loop ⟨false, 0⟩ true true 3 20 4 60),
  (0x250100050000000000000002, .loop ⟨false, 0⟩ false false 1 20 0 2),
  (0x260100000000000000000009, .brq ⟨false, 0⟩ false true 9),
  (0x2780000000000000000000C8, .squash ⟨false, 0⟩ 200),
  (0x281100FFD2C0083200000007, .mcall ⟨false, 0⟩ 17 1023 300 2 50 7),
  (0x290000000000000000000000, .exit ⟨false, 0⟩)] : List (IWord × Instr)).all (fun x => reads x.1 x.2) = true := by
  decide +kernel

theorem test_decode_memory_1 : ([
  (0x30400000C0400005FFFFFFF0, .ld ⟨false, 0⟩ true .i16 3 4 0xFFFFFFF0),
  (0x318000000040140100000008, .st ⟨false, 0⟩ .ncp .n16 4 5 8),
  (0x320000000090000000000000, .chkd ⟨false, 0⟩ 9),
  (0x33130001C090000300000000, .lda ⟨false, 0⟩ .acq 3 .d64 7 9 0),
  (0x342300000090280300000000, .str ⟨false, 0⟩ .rel 3 .d64 9 10 0),
  (0x3523000140601C0000000029, .atom ⟨false, 0⟩ .fadd .f32 .rel 3 5 6 7),
  (0x353F000140601C0000000038, .atom ⟨false, 0⟩ .maxn .w64 .ar 15 5 6 7),
  (0x3500000140601C000000063B, .atom ⟨false, 0⟩ .fmax .a48 .rlx 0 5 6 7),
  (0x36F2000140601C0800000000, .cas ⟨false, 0⟩ true true .ar 2 5 6 7 8),
  (0x373F00000000000000000000, .fence ⟨false, 0⟩ .ar 15),
  (0x3813000140601C0800000C23, .waita ⟨false, 0⟩ .ge false .acq 3 2 12 5 6 7 8),
  (0x39000000000000000000003F, .bufuse ⟨false, 0⟩ 63)] : List (IWord × Instr)).all (fun x => reads x.1 x.2) = true := by
  decide +kernel

theorem test_decode_memory_2 : ([
  (0x3A0000000000000000000001, .bufrel ⟨false, 0⟩ 1)] : List (IWord × Instr)).all (fun x => reads x.1 x.2) = true := by
  decide +kernel

theorem test_decode_system_1 : ([
  (0x40000002400000000000000B, .csrr ⟨false, 0⟩ 9 0x00B),
  (0x410000000090000000000102, .csrw ⟨false, 0⟩ 9 0x102),
  (0x420200024080000000000001, .csrx ⟨false, 0⟩ .clr 9 8 0x001),
  (0x430000000000000000000005, .trap ⟨false, 0⟩ 5),
  (0x440000000000000000000000, .eret ⟨false, 0⟩),
  (0x450000000000000000000001, .bkpt ⟨false, 0⟩ 1),
  (0x4600000000C0000000000000, .fmt ⟨false, 0⟩ 12),
  (0x47010000C040000000000000, .launch ⟨false, 0⟩ true 3 4),
  (0x48010000C040000000000000, .waitch ⟨false, 0⟩ true 3 4),
  (0x490000054040140000000000, .feed ⟨false, 0⟩ 21 4 5),
  (0x4A0000050040000100000000, .popw ⟨false, 0⟩ 20 4 1),
  (0x4B0000000040500000000000, .ackw ⟨false, 0⟩ 4 20)] : List (IWord × Instr)).all (fun x => reads x.1 x.2) = true := by
  decide +kernel

theorem test_decode_system_2 : ([
  (0x4C0100000000000000000000, .bar ⟨false, 0⟩ true),
  (0x4D0000004020000300000000, .tickw ⟨false, 0⟩ false 1 2 3),
  (0x4D0100004000000300000000, .tickw ⟨false, 0⟩ true 1 0 3)] : List (IWord × Instr)).all (fun x => reads x.1 x.2) = true := by
  decide +kernel

theorem test_decode_units_1 : ([
  (0x500000004020000000000000, .rlyOpen ⟨false, 0⟩ 1 2),
  (0x500100004020000300000000, .rlyTake ⟨false, 0⟩ 1 2 3),
  (0x500200028080240B00000000, .rlyPost ⟨false, 0⟩ 10 8 9 11),
  (0x500300004020000300000000, .rlyGtake ⟨false, 0⟩ 1 2 3),
  (0x5004000040200C0000000000, .rlyGpost ⟨false, 0⟩ 1 2 3),
  (0x500500004020000000000000, .rlyStat ⟨false, 0⟩ 1 2),
  (0x500600004020000300000000, .rlyWait ⟨false, 0⟩ 1 2 3),
  (0x500700000020000000000000, .rlyClose ⟨false, 0⟩ 2),
  (0x5100000040200C0000000000, .heatJoin ⟨false, 0⟩ 1 2 3),
  (0x510100028080240B00000000, .heatGive ⟨false, 0⟩ 10 8 9 11),
  (0x5102000040200C0400000000, .heatWait ⟨false, 0⟩ 1 2 3 4),
  (0x510300000020000000000000, .heatClose ⟨false, 0⟩ 2)] : List (IWord × Instr)).all (fun x => reads x.1 x.2) = true := by
  decide +kernel

theorem test_decode_units_2 : ([
  (0x520000004020000000000000, .collLoad ⟨false, 0⟩ 1 2),
  (0x520800000020000000000000, .collLoadDrop ⟨false, 0⟩ 2),
  (0x5201000040200C0400000000, .collRun ⟨false, 0⟩ 1 2 3 4),
  (0x520200004020000300000000, .collWait ⟨false, 0⟩ 1 2 3),
  (0x5203000040200C0400000000, .collClaim ⟨false, 0⟩ 1 2 3 4),
  (0x520B000000200C0000000000, .collClaimSeal ⟨false, 0⟩ 2 3)] : List (IWord × Instr)).all (fun x => reads x.1 x.2) = true := by
  decide +kernel

theorem test_decode_engineMemory : ([
  (0x6080000A0030000000000000, .vld ⟨false, 0, false, false, false, false⟩ true 40 3 0),
  (0x600049FFC0300000FFFFFF80, .vld ⟨false, 1, true, false, false, true⟩ false 1023 3 0xFFFFFF80),
  (0x611100017FE01C0000000000, .vldg ⟨false, 0, false, false, false, false⟩ .bf16 true 5 1022 7),
  (0x620C00014060000000000001, .vldb ⟨false, 0, false, false, false, false⟩ .n8 5 6 1),
  (0x63010007C0601C0000000080, .sld ⟨false, 0, false, false, false, false⟩ true 31 6 7 128),
  (0x68000000003AF00000000080, .vst ⟨false, 0, false, false, false, false⟩ false 3 700 128),
  (0x690000001F49600700000000, .vsts ⟨false, 0, false, false, false, false⟩ .f32 500 600 7),
  (0x6A090000003962BC00000002, .vstm ⟨false, 0, false, false, false, false⟩ .i16 3 600 700 2)] : List (IWord × Instr)).all (fun x => reads x.1 x.2) = true := by
  decide +kernel

theorem test_decode_vector_1 : ([
  (0x800049AF2BDAF80000000000, .vadd ⟨false, 1, true, false, false, true⟩ ⟨.f32, .rne, false, 700, 701, 702⟩),
  (0x819100AF2BDAF80000000000, .vsub ⟨false, 0, false, false, false, false⟩ ⟨.bf16, .rtz, true, 700, 701, 702⟩),
  (0x822200AF2BDAF80000000000, .vmul ⟨false, 0, false, false, false, false⟩ ⟨.f16, .rdn, false, 700, 701, 702⟩),
  (0x83B000AF2BDAFABF00000000, .vfma ⟨false, 0, false, false, false, false⟩ ⟨.f32, .rup, true, 700, 701, 702, 703⟩),
  (0x844149AF2BDAFABF00000000, .vfms ⟨false, 1, true, false, false, true⟩ ⟨.bf16, .rna, false, 700, 701, 702, 703⟩),
  (0x85D200AF2BDAFABF00000000, .vfnma ⟨false, 0, false, false, false, false⟩ ⟨.f16, .dyn, true, 700, 701, 702, 703⟩),
  (0x860000AF2BDAF80000000000, .vmin ⟨false, 0, false, false, false, false⟩ ⟨.f32, .rne, false, 700, 701, 702⟩),
  (0x879100AF2BDAF80000000000, .vmax ⟨false, 0, false, false, false, false⟩ ⟨.bf16, .rtz, true, 700, 701, 702⟩),
  (0x882249AF2BD0000000000000, .vabs ⟨false, 1, true, false, false, true⟩ ⟨.f16, .rdn, false, 700, 701⟩),
  (0x89B000AF2BD0000000000000, .vneg ⟨false, 0, false, false, false, false⟩ ⟨.f32, .rup, true, 700, 701⟩),
  (0x8A4100AF2BDAF80000000000, .vdiv ⟨false, 0, false, false, false, false⟩ ⟨.bf16, .rna, false, 700, 701, 702⟩),
  (0x8BD200AF2BD0000000000000, .vsqrt ⟨false, 0, false, false, false, false⟩ ⟨.f16, .dyn, true, 700, 701⟩)] : List (IWord × Instr)).all (fun x => reads x.1 x.2) = true := by
  decide +kernel

theorem test_decode_vector_2 : ([
  (0x8C0049AF2BD0000000000000, .vrsq ⟨false, 1, true, false, false, true⟩ ⟨.f32, .rne, false, 700, 701⟩),
  (0x8D9100AF2BD0000000000000, .vrcp ⟨false, 0, false, false, false, false⟩ ⟨.bf16, .rtz, true, 700, 701⟩),
  (0x8E0200AF2BD0000000000000, .vexp2 ⟨false, 0, false, false, false, false⟩ ⟨.f16, .rne, false, 700, 701⟩),
  (0x8F8000AF2BD0000000000000, .vlog2 ⟨false, 0, false, false, false, false⟩ ⟨.f32, .rne, true, 700, 701⟩),
  (0x9087000040200C0000000000, .viadd ⟨false, 0, false, false, false, false⟩ ⟨.i32, true, 1, 2, 3⟩),
  (0x9188000040200C0000000000, .visub ⟨false, 0, false, false, false, false⟩ ⟨.n32, true, 1, 2, 3⟩),
  (0x9289000040200C0000000000, .vimul ⟨false, 0, false, false, false, false⟩ ⟨.i16, true, 1, 2, 3⟩),
  (0x938A000040200C0400000000, .vimad ⟨false, 0, false, false, false, false⟩ ⟨.n16, true, 1, 2, 3, 4⟩),
  (0x940B000040200C0000000000, .vimin ⟨false, 0, false, false, false, false⟩ ⟨.i8, false, 1, 2, 3⟩),
  (0x950C000040200C0000000000, .vimax ⟨false, 0, false, false, false, false⟩ ⟨.n8, false, 1, 2, 3⟩),
  (0x9607000040200C0000000000, .vand ⟨false, 0, false, false, false, false⟩ ⟨.i32, false, 1, 2, 3⟩),
  (0x9708000040200C0000000000, .vor ⟨false, 0, false, false, false, false⟩ ⟨.n32, false, 1, 2, 3⟩)] : List (IWord × Instr)).all (fun x => reads x.1 x.2) = true := by
  decide +kernel

theorem test_decode_vector_3 : ([
  (0x9809000040200C0000000000, .vxor ⟨false, 0, false, false, false, false⟩ ⟨.i16, false, 1, 2, 3⟩),
  (0x990A000040200C0000000000, .vshl ⟨false, 0, false, false, false, false⟩ ⟨.n16, false, 1, 2, 3⟩),
  (0x9A0B000040200C0000000000, .vshr ⟨false, 0, false, false, false, false⟩ ⟨.i8, false, 1, 2, 3⟩),
  (0x9B0C000040200C0000000000, .vsar ⟨false, 0, false, false, false, false⟩ ⟨.n8, false, 1, 2, 3⟩),
  (0x9C0700004020000000000000, .vclz ⟨false, 0, false, false, false, false⟩ ⟨.i32, 1, 2⟩),
  (0x9D0800004020000000000000, .vpopc ⟨false, 0, false, false, false, false⟩ ⟨.n32, 1, 2⟩),
  (0xA89000004020000000000001, .vred ⟨false, 0, false, false, false, false⟩ ⟨.max, .f32, .rtz, true, 1, 2⟩),
  (0xA90A00004020000000000002, .vscan ⟨false, 0, false, false, false, false⟩ ⟨.min, .n16, .rne, false, 1, 2⟩)] : List (IWord × Instr)).all (fun x => reads x.1 x.2) = true := by
  decide +kernel

theorem test_decode_moves_1 : ([
  (0xA0E0000000200C0000000000, .vcmp ⟨false, 0, false, false, false, false⟩ .un .f32 true 2 3),
  (0xA100000040200C0000000000, .vsel ⟨false, 0, false, false, false, false⟩ 1 2 3),
  (0xA2B100004020000000000010, .vcvt ⟨false, 0, false, false, false, false⟩ .bf16 .rup true 1 2 .f32 1),
  (0xA30000004020000000000000, .vmov ⟨false, 0, false, false, false, false⟩ 1 2),
  (0xA40600004050000000000000, .vbcast ⟨false, 0, false, false, false, false⟩ .a48 1 (.reg 5)),
  (0xA4800000400000003F800000, .vbcast ⟨false, 0, false, false, false, false⟩ .f32 1 (.imm 0x3F800000)),
  (0xA50C0000402FF00300000000, .vperm ⟨false, 0, false, false, false, false⟩ .n8 1 2 1020 3),
  (0xA6000000402000000000017F, .vrot ⟨false, 0, false, false, false, false⟩ .f32 1 2 383),
  (0xA73700FF8020000300000000, .vsort ⟨false, 0, false, false, false, false⟩ .i32 true true 1022 2 3),
  (0xAA0000000000000000000000, .minv ⟨false, 0, false, false, false, false⟩),
  (0xAB0000000000000000000000, .mpop ⟨false, 0, false, false, false, false⟩),
  (0xAC0000000000000000000040, .mskip ⟨false, 0, false, false, false, false⟩ 64)] : List (IWord × Instr)).all (fun x => reads x.1 x.2) = true := by
  decide +kernel

theorem test_decode_moves_2 : ([
  (0xAD0200003840000000000000, .voq ⟨false, 0, false, false, false, false⟩ .lane0 900),
  (0xAE8B00004070140000000001, .vacr ⟨false, 0, false, false, false, false⟩ .i8 .rne true true 1 7 5),
  (0xAF060001C010140000000001, .vacw ⟨false, 0, false, false, false, false⟩ .a48 true 7 1 5)] : List (IWord × Instr)).all (fun x => reads x.1 x.2) = true := by
  decide +kernel

theorem test_decode_tiles : ([
  (0xC0000001C1F0780000000080, .mma ⟨false, 0, false, false, false, false⟩ 7 31 30 128),
  (0xC1000001C1F0000500000002, .mmag ⟨false, 0, false, false, false, false⟩ 7 31 5 2),
  (0xC200000001F0000000000000, .sclaim ⟨false, 0, false, false, false, false⟩ (.one 31)),
  (0xC201000003F0000000000000, .sclaim ⟨false, 0, false, false, false, false⟩ (.mask 63)),
  (0xC30000000030000000000000, .srls ⟨false, 0, false, false, false, false⟩ (.one 3)),
  (0xC30100000090000000000000, .srls ⟨false, 0, false, false, false, false⟩ (.mask 9)),
  (0xC40000018000000000000000, .fzero ⟨false, 0, false, false, false, false⟩ 6),
  (0xC50000000000000000000000, .lrel ⟨false, 0, false, false, false, false⟩)] : List (IWord × Instr)).all (fun x => reads x.1 x.2) = true := by
  decide +kernel

theorem test_decode_copies : ([
  (0xC80000024020100500000000, .cpgo ⟨false, 0⟩ 9 2 4 5),
  (0xC91F00024070100500001000, .cpone ⟨false, 0⟩ false true 15 9 7 4 5 4096),
  (0xCA0000004020000000000000, .cpcan ⟨false, 0⟩ 1 2),
  (0xCB000000001008000000004D, .cphint ⟨false, 0⟩ false 1 2 77),
  (0xCC0100004070000000000000, .cpwait ⟨false, 0⟩ true 1 7),
  (0xD010000280B0300000000002, .qop ⟨false, 0⟩ .sub .f32 false 10 11 12 2),
  (0xD150000340A0000000000002, .qred ⟨false, 0⟩ .linf .f32 true 13 10 2),
  (0xD20300004020000000FFFFFF, .qfill ⟨false, 0⟩ 3 1 2 0xFFFFFF)] : List (IWord × Instr)).all (fun x => reads x.1 x.2) = true := by
  decide +kernel


/-- R381: `wx.gtc x10`, `wx.send x10, x11, x12`, and the section header of R22. -/
theorem test_decode_firmware_and_header :
    ((match decodeFirmware 0x0000050B with | .ok i => i == .wxGtc 10 | .error _ => false) &&
     (match decodeFirmware 0x00C5950B with | .ok i => i == .wxSend 10 11 12 | .error _ => false) &&
     decodeTableWord 32 0x0000050B == some (.wxGtc 10) &&
     decodeTableWord 96 0x440000000000000000000000 == some (.eret an) &&
     (match decodeTableWord 64 0xA00500C000040001 with | some (.sectionHeader h) => h.magic == 10 && h.bits == 0xA00500C000040001 | _ => false)) = true := by
  decide +kernel
/-- A word placed for the next fetch is the one that runs: R353's ERET in user mode, and R207's EXIT. -/
theorem test_placed_words_run :
    ([(96, 0x440000000000000000000000), (96, 0x2E0000000000000000000000), (32, 0x0000050B), (64, 0xA00500C000040001)] : List (Nat × Nat)).all
      (fun x => goes (step (State.reset.withFetchWord x.1 x.2)) fun _ => true) = true := by
  decide +kernel

-- Ill-formed terms: one for each check of `Instr.wf`. A word laid out for one, where there is one, does not decode.

def refusedTerm (i : Instr) : Bool :=
  !i.wf && (match encode i with | some w => !okay (decodeWord w) | none => true)

def illFormed : List Instr := [
  .bfx an false { w := true, d := 1, a := 2, b := .imm 0x2001 }, .bfx an true { w := false, d := 1, a := 2, b := .imm 0 },
  .bfi an { w := false, d := 1, a := 2, b := .imm 0x4001 }, .bfi an { w := false, d := 1, a := 2, b := .imm 0x440 },
  .loop an false true 0 0 4 1, .loop an false true 0 48 4 1, .loop an false false 0 20 4 1,
  .st an .none .i8 4 5 8, .lda an .rel 3 .d64 7 9 0, .str an .acq 3 .d64 9 10 0, .str an .rel 3 .i32 9 10 0, .fence an .rlx 3,
  .atom an .fadd .w64 .rel 3 5 6 7,
  .waita an .ge false .rel 3 2 12 5 6 7 8, .waita an .ge false .acq 3 2 13 5 6 7 8,
  .csrr an 9 0x028, .csrw an 9 0x109, .csrx an .clr 9 8 0x11A, .tickw an true 1 2 3]
def illFormedEngine : List Instr := [
  .vld en true 40 3 8, .vldg en .a48 true 5 6 7, .vldg en .bf16 true 5 1023 7, .vldb en .e8m0 5 6 1,
  .vst en true 3 700 128, .vst { en with pb := true } false 3 700 128, .vsts en .n8 1021 600 7, .vsts { en with sb := true } .f32 500 600 7,
  .vstm en .a48 3 600 700 2, .vadd en ⟨.i32, .rne, false, 1, 2, 3⟩, .vfma en ⟨.d8, .rne, false, 1, 2, 3, 4⟩, .vabs en ⟨.a48, .rne, false, 1, 2⟩,
  .vexp2 en ⟨.f16, .rup, false, 1, 2⟩, .viadd en ⟨.f32, false, 1, 2, 3⟩, .vimad en ⟨.f32, false, 1, 2, 3, 4⟩, .vimin en ⟨.i8, true, 1, 2, 3⟩,
  .vclz en ⟨.bf16, 1, 2⟩, .vcmp en .un .i32 true 2 3, .vcmp en .lt .bf16 true 2 3, .vcvt en .a48 .rne true 1 2 .f32 0,
  .vcvt en .i8 .rup true 1 2 .i16 0, .vcvt en .bf16 .rup true 1 2 .f32 2, .vbcast en .e8m0 1 (.reg 5), .vbcast en .a48 1 (.imm 5),
  .vperm en .n8 1 2 1021 3, .vrot en .e8m0 1 2 3, .vsort en .i16 true true 10 2 3, .vsort en .i32 true true 1023 2 3, .vsort en .i32 true false 10 2 3,
  .vred en ⟨.max, .a48, .rne, true, 1, 2⟩, .vscan en ⟨.min, .n16, .rtz, false, 1, 2⟩, .mskip en 0, .mskip en 65, .voq en .any 900,
  .vacr en .n8 .rne true true 1 7 5, .vacw en .i8 true 7 1 5, .mma en 7 31 30 1, .mma en 7 31 30 129, .mmag en 7 31 5 0]
def illFormedOther : List Instr := [
  .cpone an true true 15 9 7 4 5 4096, .cphint an true 1 0 77, .qop an .sub .i16 false 10 11 12 2, .qop an .sub .f32 true 10 11 12 2,
  .qop an .scal .i32 false 10 11 12 2, .qop an .cpy .f32 false 10 11 12 2, .qred an .linf .i32 true 13 10 2]
/-- Steps of the machine that name no core, die, unit or channel of the package. -/
def noSuchPlace : List Instr := [
  .instanceEnd 640, .watchctlWrite 0 4 0, .registerWrite (.csr 0 0x109) 0, .registerWrite (.csr 640 1) 0, .chainStart 0 8,
  .tick 8, .relaySweepBegin 32]
theorem test_ill_formed : illFormed.all refusedTerm = true := by decide +kernel
theorem test_ill_formed_engine : illFormedEngine.all refusedTerm = true := by decide +kernel
theorem test_ill_formed_other : illFormedOther.all refusedTerm = true := by decide +kernel
/-- R233: ADD has no floating-point type. -/
theorem test_ill_formed_atom : (Instr.atom an .add .f32 .rel 3 5 6 7).wf = false := by decide +kernel
theorem test_no_such_place : noSuchPlace.all (fun i => !i.wf) = true := by decide +kernel
/-- R16–R20: a reserved OP, a nonzero reserved bit of the word and a nonzero unused field are rejected. -/
theorem test_rejected_words : ([0x1F0000000000000000000000, 0x440100000000000000000000, 0x440000000000000000000001, 0x440000000000000000000400,
  0x440000000000000100000000, 0x000400000000000000000000] : List IWord).all (fun w => !okay (decodeWord w)) = true := by decide +kernel

-- Single instructions, with results worked by hand from the rules.

def after (i : Instr) (s : State) (p : Core → Bool) : Bool := goes (exec i s) fun t => p t.me
def add3 (w : Bool) (a : SReg) (b : SrcB) : IntOp := { w := w, d := 3, a := a, b := b }

/-- R196: 2^64 − 1 plus 1 is 0, and the pacer goes to the next word. -/
theorem test_add_wraps : after (.add an (add3 false 1 (.imm 1))) (regs [(1, 0xFFFFFFFFFFFFFFFF)]) (fun k => k.rd 3 == 0 && k.pc == 0x1002C) = true := by
  decide +kernel
/-- R196: the 32-bit form sign-extends its result. -/
theorem test_add_w : after (.add an (add3 true 1 (.imm 1))) (regs [(1, 0x17FFFFFFF)]) (fun k => k.rd 3 == 0xFFFFFFFF80000000) = true := by
  decide +kernel
/-- R196: the immediate is sign-extended; −5 − (−1) = −4. -/
theorem test_sub_imm : after (.sub an (add3 false 2 (.imm 0xFFFFFFFF))) (st k0) (fun k => k.rd 3 == 0xFFFFFFFFFFFFFFFC) = true := by decide +kernel
/-- R196: the high half of 2^63 · 2 as unsigned numbers is 1. -/
theorem test_mulhn : after (.mulhn an (add3 false 5 (.imm 2))) (st k0) (fun k => k.rd 3 == 1) = true := by decide +kernel
/-- R196: the high half of −2^63 · 2 as signed numbers is −1. -/
theorem test_mulh : after (.mulh an (add3 false 5 (.imm 2))) (st k0) (fun k => k.rd 3 == 0xFFFFFFFFFFFFFFFF) = true := by decide +kernel
/-- R196: division truncates; −5 ÷ 2 = −2, and the remainder is −1. -/
theorem test_div : (after (.div an (add3 false 2 (.imm 2))) (st k0) (fun k => k.rd 3 == 0xFFFFFFFFFFFFFFFE) &&
    after (.rem an (add3 false 2 (.imm 2))) (st k0) (fun k => k.rd 3 == 0xFFFFFFFFFFFFFFFF)) = true := by decide +kernel
/-- R196: an arithmetic shift keeps the sign. -/
theorem test_sar : after (.sar an (add3 false 5 (.imm 60))) (st k0) (fun k => k.rd 3 == 0xFFFFFFFFFFFFFFF8) = true := by decide +kernel
/-- R197: four bits from bit 4 of a number that ends in F0 are F, which S extends to −1. -/
theorem test_bfx : (after (.bfx an false (add3 false 4 (.imm 0x404))) (st k0) (fun k => k.rd 3 == 15) &&
    after (.bfx an true (add3 false 4 (.imm 0x404))) (st k0) (fun k => k.rd 3 == 0xFFFFFFFFFFFFFFFF)) = true := by decide +kernel
/-- R198: −5 is below 5 as a signed number and above it as an unsigned one. -/
theorem test_pset : (after (.pset an .lt false 2 2 (.reg 1)) (st k0) (fun k => k.pred 2) &&
    after (.pset an .ltn false 2 2 (.reg 1)) (st k0) (fun k => !k.pred 2)) = true := by decide +kernel
/-- R14: a word whose predicate is false has no effect but to go to the next word. -/
theorem test_predicate_false : after (.add { bt := false, pr := 2 } (add3 false 1 (.imm 1))) (st k0) (fun k => k.rd 3 == 0x80000000 && k.pc == 0x1002C) = true := by
  decide +kernel
/-- R193: a write of s0 is discarded. -/
theorem test_s0 : after (.add an { w := false, d := 0, a := 1, b := .imm 1 }) (st k0) (fun k => k.rd 0 == 0) = true := by decide +kernel
/-- R200: the section of 40 words at 0x10000 is followed by a header at 0x10000 + 8 + 480. -/
theorem test_call : after (.call an 3 2) (st k0) (fun k => k.rd 3 == 0x101E8) = true := by decide +kernel
/-- R208: byte 8 of the page is 0x88, which the signed form extends. -/
theorem test_ld : (goes (exec (.ld an false .i8 3 1 8) (sm km)) fun t => t.reqs.any fun r => r.key == 0x200008 && r.size == 1) = true := by decide +kernel
/-- R209: a load that its home has performed writes its register, sign-extended. -/
theorem test_load_data : (let s : State := { sm { km with wait := .data 3 .i8 0 none false } with reqs := [rq 0 .performed], nextReq := 1 }
    after (.loadDataReturn 0 .none) s fun k => k.rd 3 == 0xFFFFFFFFFFFFFF80) = true := by decide +kernel
/-- R196, R346: division by zero traps DIVZ (0x12), enters the handler with the word's address saved, and leaves s3. -/
theorem test_div_zero : (let s := st { k0 with tvec := 0x9001 }
    goes (exec (.div an (add3 false 1 (.imm 0))) s) fun t =>
      t.me.mode && t.me.tpc == 0x10020 && fld t.me.tcause 0 8 == 0x12 && t.me.rd 3 == 0x80000000) = true := by decide +kernel
/-- R346, R348: TRAPI (0x17) saves the address of the word after itself. -/
theorem test_trap_next_word : (let s := st { k0 with tvec := 0x9001 }
    goes (exec (.trap an 5) s) fun t => t.me.mode && t.me.tpc == 0x1002C && fld t.me.tcause 0 8 == 0x17) = true := by decide +kernel
/-- R214, R215: `.set` reads the old SLIP into s3 and writes it OR s1. -/
theorem test_csrx_set : after (.csrx an .set 3 1 3) (st { k0 with slip := 32 }) (fun k => k.rd 3 == 32 && k.slip == 37) = true := by decide +kernel
/-- R136, R137: 1.5 + 3.25 = 4.75, and 1.5 · (−2) = −3, in FP32. -/
theorem test_fp32 : ((roundFl .f32 (exactSum false [decodeF .f32 0x3FC00000, decodeF .f32 0x40500000]) .rne false).1 == 0x40980000 &&
    (roundFl .f32 (fmul (decodeF .f32 0x3FC00000) (decodeF .f32 0xC0000000)) .rne false).1 == 0xC0400000) = true := by decide +kernel
/-- R138: FP32 1 + 2^-8 lies halfway between two BF16 numbers and rounds to the even one, upwards when asked. -/
theorem test_bf16_rounding : ((convert 0x3F808000 .f32 .bf16 .rne false).1 == 0x3F80 && (convert 0x3F808000 .f32 .bf16 .rup false).1 == 0x3F81) = true := by
  decide +kernel
/-- R155: 1 ÷ 0 is infinity. -/
theorem test_fp_div_zero : (roundFl .f32 (fdiv (decodeF .f32 0x3F800000) (decodeF .f32 0)) .rne false).1 = 0x7F800000 := by decide +kernel

-- For each statement with hypotheses: a state and operands that meet them, clause by clause.

theorem test_meets_IntegerArithmetic : (
    (issues (st k0) an [1, 2]) &&
    (issues (st k0) an [63])) = true := by decide +kernel
theorem test_meets_IntegerDivision : (
    (issues (regs [(2, 0x100000000)]) an [1, 2]) &&
    (uns false (BitVec.ofNat 64 0x100000000) != 0) &&
    (uns true (BitVec.ofNat 64 0x100000000) == 0)) = true := by decide +kernel
theorem test_meets_IntegerLogicAndShifts : (
    (issues (st k0) an [1])) = true := by decide +kernel
theorem test_meets_CountsAndPredicates : (
    (issues (st k0) an [1]) &&
    (issues (st k0) an [1, 2]) &&
    (issues (st k0) an [])) = true := by decide +kernel
theorem test_meets_BitFields : (
    (issues (st k0) an [1, 2, 3]) &&
    bfLegal 64 0x13F &&
    bfLegal 64 0x4000 &&
    bfLegal 32 0x2000 &&
    !bfLegal 32 0x2001 &&
    !bfLegal 64 0x3F) = true := by decide +kernel
theorem test_meets_IntegerFrame : (
    ((intWords an { w := false, d := 1, a := 2, b := .reg 3 }).contains (.add an { w := false, d := 1, a := 2, b := .reg 3 })) &&
    (goes (exec (.add an { w := false, d := 1, a := 2, b := .reg 3 }) (st k0)) fun t => t != st k0)) = true := by decide +kernel
theorem test_meets_ScalarRegisters : (
    ((48 : SReg) != 0) &&
    (decide (48 ≤ (48 : SReg).toNat)) &&
    (physS 0xF00 63 != physS 0xF00 48)) = true := by decide +kernel
theorem test_meets_WordsThatDoNotIssue : (
    ((st { k0 with slip := 1, parts := [part 1 1 1 true] }).me.slipHeld) &&
    (!(st { k0 with slip := 2, parts := [part 1 1 1 true] }).me.slipHeld) &&
    !k0.retry &&
    !k0.pred 2 &&
    k0.pred 1 &&
    (({ k0 with defer := [(3, (0x100, .d64))] } : Core).firstDef [3] == some 3)) = true := by decide +kernel
theorem test_meets_BranchesAndCalls : (
    (issues (st k0) an []) &&
    (issues (st k0) an [1]) &&
    (decide (0 ≤ (0 : BitVec 32).toInt)) &&
    (decide ((39 : BitVec 32).toInt < (k0.ctx.hdr.len.toNat : Int))) &&
    (decide (¬ (40 : BitVec 32).toInt < (k0.ctx.hdr.len.toNat : Int))) &&
    (decide (¬ 0 ≤ (0xFFFFFFFF : BitVec 32).toInt))) = true := by decide +kernel
theorem test_meets_CountedLoops : (
    (issues (st k0) an [1]) &&
    (decide ((47 : SReg).toNat < 48)) &&
    (decide ((0x80000001 : Word).toInt > 2 ^ 31)) &&
    (decide ((0x8000000000000000 : Word).toInt ≤ 0)) &&
    (decide (0 < (0x80000000 : Word).toInt ∧ (0x80000000 : Word).toInt ≤ 2 ^ 31)) &&
    (let x : Word := 0x100000000; x != 0 && fld x 0 32 == 0) &&
    (let x : Word := 0x400000004; decide (fld x 0 32 + 1 ≤ fld x 32 32 + 1)) &&
    (let x : Word := 0x200000004; decide (fld x 32 32 + 2 < fld x 0 32 + 1)) &&
    (let x : Word := 0x300000004; decide (fld x 32 32 + 2 = fld x 0 32 + 1)) &&
    (decide (0 ≤ (39 : BitVec 32).toInt ∧ (39 : BitVec 32).toInt < (k0.ctx.hdr.len.toNat : Int))) &&
    (decide (¬ (40 : BitVec 32).toInt < (k0.ctx.hdr.len.toNat : Int)))) = true := by decide +kernel
theorem test_meets_OutcomesAndSquash : (
    (issues (st k0) an [] && !k0.retry && k0.outcnt == 0) &&
    ((st { k0 with outcnt := 1, outq := [] }).me.outcnt != 0) &&
    (({ k0 with outcnt := 2, outq := [false, true] } : Core).outq == [false, true]) &&
    (((st { k0 with parts := [part 1 1 0 false] }).entered true).me.parts.any fun p => !p.hdr.sqok) &&
    (!((st { k0 with parts := [part 1 1 0 true], cur := some (part 2 1 0 true) }).entered true).me.parts.any fun p => !p.hdr.sqok) &&
    (({ k0 with outcnt := 2, outq := [false, true] } : Core).outcnt != 0 && decide (0 ≤ (39 : BitVec 32).toInt ∧ (39 : BitVec 32).toInt < (k0.ctx.hdr.len.toNat : Int))) &&
    (decide (¬ (40 : BitVec 32).toInt < (k0.ctx.hdr.len.toNat : Int)))) = true := by decide +kernel
theorem test_meets_Microprograms : (
    (issues (st k0) an []) &&
    (k0.mdir.find 7 == none) &&
    (({ k0 with mdir := [(0, (3, 0)), (255, (2, 1))] } : Core).mdir.find 0 == some (3, 0)) &&
    (({ k0 with mdir := [(0, (3, 0)), (255, (2, 1))] } : Core).mdir.find 255 == some (2, 1)) &&
    (({ k0 with mdir := [(0, (3, 2))], mcallFrom := 1 } : Core).mdir.find 0 == some (3, 2))) = true := by decide +kernel
theorem test_meets_ExitAndInstanceEnd : (
    (issues (st k0) an [] && !k0.retry) &&
    (let s := crewOf (st { k0 with wait := .exit }) cr0; let k := s.core 0; s.exitQuiet 0 && k.crew == some 0 && !k.contained && k.wait == .exit && !k.frozen && k.secFault.isNone && ((List.range 8).all fun ch => (k.chan ch).fault.isNone) && k.asyncPeer.isNone && k.asyncWatch.isEmpty && s.reqs.isEmpty)) = true := by decide +kernel
theorem test_meets_LoadsAndStores : (
    (issues (sm km) an [1] && issues (sm km) an [1, 5]) &&
    (decide ((sm km).logCount 0 < 256)) &&
    (okTo (xlate 0x100000 8 8 .rd ((sm km).entered false)) ((sm km).entered false)) &&
    (okTo (xlate 0x10FFF8 8 8 .wr ((sm km).entered false)) ((sm km).entered false)) &&
    (traps (xlate 0x100003 8 8 .rd ((sm km).entered false))) &&
    (traps (xlate 0x110010 8 8 .wr ((sm km).entered false))) &&
    (let u := (sm km).entered false; traps (xlate 0x100003 8 8 .rd (u.setMe { u.me with wskip := true }))) &&
    (let u := (sm km).entered false; let x := u.setMe { u.me with wskip := true }; okTo (xlate 0x130000 8 8 .rd x) x && (okIs (xlate 0x130000 8 8 .rd x) fun g => g.1.apt == 2) && okTo (xlate 0x100000 8 8 .rd x) x && (okIs (xlate 0x100000 8 8 .rd x) fun g => g.1.apt == 0) && physS km.rrb 3 != 0)) = true := by decide +kernel
theorem test_meets_DeferredLoads : (
    (issues (sm km) an []) &&
    (km.defer.find 3 == none) &&
    (okTo (xlate 0x100000 8 8 .rd ((sm km).entered false)) ((sm km).entered false)) &&
    (traps (xlate 0x150000 8 8 .rd ((sm km).entered false))) &&
    (({ km with defer := [(3, (0x100000, .d64))] } : Core).defer.find 3 == some (0x100000, .d64))) = true := by decide +kernel
theorem test_meets_ScopedAccesses : (
    (issues (sm km) an [1]) &&
    (issues (sm km) an [1, 2]) &&
    (issues (sm km) an [1, 2, 5]) &&
    (decide ((sm km).logCount 0 < 256)) &&
    (released (sm km) 15) &&
    (okTo (xlate 0x100000 8 8 .rd ((sm km).entered false)) ((sm km).entered false)) &&
    (okTo (xlate 0x100000 4 4 .wr ((sm km).entered false)) ((sm km).entered false)) &&
    (okTo (xlate 0x10FFF8 8 8 .atomic ((sm km).entered false)) ((sm km).entered false)) &&
    (traps (xlate 0x110010 4 4 .atomic ((sm km).entered false)))) = true := by decide +kernel
def answered (wt : Wait) : State := { sm { km with wait := wt } with reqs := [rq 0 .performed], nextReq := 1 }
theorem test_meets_LoadAnswers : (
    (let s := answered (.data 3 .i8 0 none false); !(s.core 0).frozen && s.req 0 == some (rq 0 .performed) && (s.core 0).wait == .data 3 .i8 0 none false) &&
    (let s := answered (.rmw 3 true 0 (some 3) true 7 3); s.req 0 == some (rq 0 .performed) && (s.core 0).wait == .rmw 3 true 0 (some 3) true 7 3) &&
    (let m : Msg := { Msg.none with agent := srcOf 1 0, scope := 15, k := [(0x40000, 7)] }; let r : Req := { rq 0 .performed with ordinary := false, msgs := [m] }; let s : State := { answered (.data 0 .d64 0 (some 3) false) with reqs := [r] }; s.req 0 == some r && (s.core 0).wait == .data 0 .d64 0 (some 3) false && !(s.core 0).frozen && covers m.scope m.agent (srcOf 0 0) && covers (scopeAt (srcOf 0 0) 3) (srcOf 0 0) m.agent)) = true := by decide +kernel
theorem test_meets_Fences : (
    (issues (sm km) an []) &&
    (let s : State := { sm km with reqs := [{ rq 0 .sent with kind := .write 7 }], nextReq := 1 }; issues s an [] && s.reqs.all (fun r => r.phase != .failed && r.phase != .dead) && s.reqs.any fun r => r.core == s.actor && s.relWaits 0 r && s.relWaits 15 r) &&
    (released (sm km) 0) &&
    (released (sm km) 15)) = true := by decide +kernel
def polling (r : Option Nat) : Wait :=
  .waita 3 .eq false true 3 2 4 0x100000 { apt := 0, key := 0x200000, leaf := leaf 0 0x20 } 0xFFEEDDCC80808180 0 r 3 100 0
theorem test_meets_WaitsOnMemory : (
    (issues (sm km) an [1, 5, 0]) &&
    (decide ((sm km).logCount 0 < 256)) &&
    (km.owed == []) &&
    (okTo (xlate 0x100000 8 8 .rd ((sm km).entered false)) ((sm km).entered false)) &&
    (let s := sm { km with wait := polling none }; (s.core 0).wait == polling none && (s.core 0).owed == [] && decide (100 + 64 * 2 ^ Nat.min (3 - 1) 4 ≤ s.gtc)) &&
    (let s := answered (polling (some 0)); s.req 0 == some (rq 0 .performed) && (s.core 0).wait == polling (some 0) && condW false .eq (BitVec.ofNat 64 (rq 0 .performed).old) 0xFFEEDDCC80808180)) = true := by decide +kernel
theorem test_meets_CsrReads : (
    (issues (sm km) an []) &&
    (csrAssigned 0 && csrAssigned 0x119 && !km.mode) &&
    km.quiet &&
    (!({ km with q := [ent .vx (.vmov en 1 2) 7] } : Core).quiet) &&
    ((sm { km with mode := true }).me.mode) &&
    (let k := (sm { km with ctx := { km.ctx with hdr := Header.ofBits 0x4 } }).me; k.ctx.hdr.sqok && !k.mode)) = true := by decide +kernel
def watching (va v : Nat) : State :=
  smt { km with mode := true, watch := [(0, BitVec.ofNat 64 va)], s := [(1, BitVec.ofNat 64 v)] }
def armable (s : State) : Bool :=
  let v := s.me.rd 1
  fld v 8 56 == 0 && fld v 4 3 != 7 && fld (s.me.watch.get 0 0) 0 55 % 2 ^ fld v 4 3 == 0
def lookedUp (s : State) : Except Nat Found :=
  let u := s.entered false
  ({ u with watchers := u.watchers.filter fun w => !(w.1 == s.actor && w.2.1 == 0) } : State).walkTables 0 s.me.asid (fld (s.me.watch.get 0 0) 0 55)
theorem test_meets_CsrWrites : (
    (issues (sm km) an [1]) &&
    (issues (sm { km with mode := true }) an [1]) &&
    csrRO 0x007 &&
    (decide (0x119 ≥ 0x100) && !km.mode) &&
    (coreCsrs.any fun e => decide (e.num.toNat < 0x100) && e.ok km 4 && (4 : Word) &&& ~~~ e.bits == 0) &&
    (({ km with mode := true } : Core).quiet && !({ km with q := [ent .vx (.vmov en 1 2) 7] } : Core).quiet) &&
    (issues (watching 0x100000 0x100) an [1] && !armable (watching 0x100000 0x100)) &&
    (issues (watching 0x100000 4) an [1] && armable (watching 0x100000 4) && !bit (4 : Word) 0) &&
    (let s := watching 0x100000 0x21; issues s an [1] && armable s && bit (0x21 : Word) 0 && !bit (0x21 : Word) 1 && okIs (lookedUp s) fun w => (leafCheck s w.level w.leaf 0x100000 .rd false).isNone) &&
    (let s := watching 0x900000 0x21; issues s an [1] && armable s && !okay (lookedUp s))) = true := by decide +kernel
theorem test_meets_RegisterWriteSteps : (
    ptbaseOk 0xFFC000001 &&
    !ptbaseOk 2 &&
    (fld (0x3E7000003E8 : Word) 62 2 == 0 && decide (1000 ≤ fld (0x3E7000003E8 : Word) 0 32 ∧ fld (0x3E7000003E8 : Word) 32 30 < fld (0x3E7000003E8 : Word) 0 32)) &&
    (((sm km).core 0).quiet) &&
    (decide ((31 : Word).toNat < 32)) &&
    (fld (0x7FFFFFFFFFF001 : Word) 1 11 == 0 && fld (0x7FFFFFFFFFF001 : Word) 55 9 == 0) &&
    (let v : Word := 0x66; fld v 8 56 == 0 && !bit v 0 && fld v 4 3 != 7 && fld (((sm km).core 0).watch.get 0 3) 0 55 % 2 ^ fld v 4 3 == 0) &&
    (decide ((0xFFF : Word).toNat < 2 ^ 12)) &&
    ((sm km).cdone == (sm km).doorv) &&
    (let s : State := { sm km with doorv := 1 }; s.cdone != s.doorv)) = true := by decide +kernel
theorem test_meets_TakingATrap : (
    (let k := (sm { km with tvec := 0x9001 }).core 0; bit k.tvec 0 && !k.mode && decide (k.pc + 12 < 2 ^ 63) && decide ((tr 255).code < 256))) = true := by decide +kernel
theorem test_meets_TrapsThatContain : (
    (!bit ((sm km).core 0).tvec 0) &&
    (((sm { km with tvec := 1, mode := true }).core 0).mode)) = true := by decide +kernel
theorem test_meets_TrapWords : (
    (let w : IWord := 0x430000000000000000000005; w.extractLsb' 88 8 == 0x43 && w.extractLsb' 80 8 == 0 && w.extractLsb' 75 4 == 0 && w.extractLsb' 32 40 == 0 && w.extractLsb' 16 16 == 0) &&
    (let w : IWord := 0x450000000000000000010000; w.extractLsb' 88 8 == 0x45 && w.extractLsb' 16 16 != 0) &&
    (issues (sm { km with tvec := 1 }) an [] && !km.mode && km.mcall.isNone) &&
    (issues (sm { km with mode := true }) an []) &&
    (!km.slipHeld && !km.pred 7)) = true := by decide +kernel
theorem test_meets_ReturnFromTrap : (
    (issues (sm km) an [] && !km.mode) &&
    (issues (sm { km with mode := true }) an [])) = true := by decide +kernel
theorem test_meets_FormatWords : (
    (issues (sm km) an [1]) &&
    fwOk 0x100 &&
    !fwOk 0 &&
    (decide (32 ≤ ({ km with fmtq := List.replicate 32 0 } : Core).fmtq.length)) &&
    (decide (({ km with fmtq := List.replicate 31 0 } : Core).fmtq.length < 32))) = true := by decide +kernel
theorem test_meets_PendingTraps : (
    (let s := sm { km with tvec := 0x9001, secFault := some { code := 0x0B, eng := 2, addr := 0x10050, iter := 0, sec := 1, detail := 0, start := 1 } }; s.interruptible 0 && bit (s.core 0).tvec 0 && (s.core 0).secFault.isSome && (s.core 0).wait == .none) &&
    (let s := sm { km with tvec := 0x9001, asyncPeer := some (0x1000, 0x2F000) }; s.interruptible 0 && (s.core 0).asyncPeer == some (0x1000, 0x2F000)) &&
    (let k := ({ km with wait := .drain none } : Core); k.wait == .drain none && !k.frozen && !k.contained && k.drained none)) = true := by decide +kernel
def bufs (c : Nat) (l : List (Nat × Nat × Nat × Nat)) : State :=
  { sm km with
    crews := [(0, { cr0 with buf := [(1, (0, 128)), (63, (128, 128))] })]
    teams := [(0, { Team.reset with counts := [(63, c)], landings := l })] }
theorem test_meets_BufferCounts : (
    (issues (sm km) an []) &&
    (cr0.buf.find 1 == none) &&
    (let s := bufs 255 []; (s.crew 0).buf.find 63 == some (128, 128) && (s.team 0).counts.get 0 63 == 255) &&
    (let s := bufs 254 [(0, 0, 0, 128)]; (s.team 0).landings.all fun l => !(decide (l.2.2.1 < 256) && decide (128 < l.2.2.2))) &&
    (let s := bufs 1 []; (s.team 0).counts.get 0 63 != 0 && s.me.quiet && released s 1) &&
    (((bufs 0 []).team 0).counts.get 0 63 == 0)) = true := by decide +kernel
def rec0 : Nat := 0x10000 + 32 * 2 ^ 279 + 3 * 2 ^ 274 + 2 ^ 288 + 5 * 2 ^ 512
def launching : State :=
  { put (put (smt km) 0x200000 128 rec0) 0x200080 128 (rec0 + 3) with crews := [(0, { cr0 with limit := 8 })] }
theorem test_meets_LaunchAccepted : (
    (issues launching an [1] && released launching 3 && decide (launching.actor < 640)) &&
    (okTo (xlate 0x100000 128 128 .rd (launching.entered false)) (launching.entered false)) &&
    (okIs (xlate 0x100000 128 128 .rd (launching.entered false)) fun p => okIs (launching.readAnswer 0 (0x100000, 128, p.1)) (fun r => r == none) && decide (launching.logBusy 0 < 256)) &&
    (okIs (xlate 0x100000 128 128 .rd (launching.entered false)) fun p => [rec0, rec0 + 3].all fun v => let s := got launching 0x100000 128 0x200000 v; okIs (s.readAnswer 0 (0x100000, 128, p.1)) (fun r => r == some v) && issues s an [1] && released s 3 && okTo (xlate 0x100000 128 128 .rd (s.entered false)) (s.entered false)) &&
    (!recordOk (BitVec.ofNat 1024 (rec0 + 3))) &&
    (let s := (got launching 0x100000 128 0x200000 rec0).entered false; let x := BitVec.ofNat 1024 rec0; recordOk x && placeOk x && launching.me.asid == rAsid x && okIs (s.launchTables (srcOf 0 0) 0 x) fun p => decide ((p.2.crew 0).depth + 1 ≤ (p.2.crew 0).limit) && !(p.2.crew 1).live && (p.2.crew 0).live)) = true := by decide +kernel
def parent : State :=
  let k : Core := { km with crew := some 5, s := [(1, 0x100000000), (2, 0x200020000), (3, 0x300030100)] }
  { sm k with
    cores := [(0, k), (1, { k with wait := .waitch 3 2 2 })]
    crews := [(0, { cr0 with parent := some 5 }), (2, { cr0 with gen := 2, parent := some 5, status := some 7 }),
      (5, cr0)] }
theorem test_meets_CollectingChildren : (
    (issues parent an [1] && parent.me.crew == some 5) &&
    ((parent.crew 0).parent == some 5 && (parent.crew 0).gen == fld (parent.me.rd 1) 32 32 && (parent.crew 0).live && !(parent.crew 0).det && (parent.crew 0).status == none && !parent.preemptPending 0) &&
    ((parent.crew 2).gen == fld (parent.me.rd 2) 32 32 && (parent.crew 2).status == some 7) &&
    ((parent.crew 3).gen != fld (parent.me.rd 3) 32 32 && fld (parent.me.rd 3) 8 3 * 256 + fld (parent.me.rd 3) 16 8 == 259) &&
    ((parent.core 1).wait == .waitch 3 2 2 && !(parent.core 1).frozen)) = true := by decide +kernel
def waitingCrew : Crew := { cr0 with rcd := BitVec.ofNat 1024 (rec0 + 2 ^ 256 + 2 ^ 258), legs := [], order := 3 }
def starting : State := { smt km with cores := [], crews := [(0, { waitingCrew with rcd := BitVec.ofNat 1024 (rec0 + 2 ^ 256) })], gtc := 1000000 }
theorem test_meets_ReplicasAndCrewEnds : (
    (starting.nextStart 0 == some (0, [(0, 0)])) &&
    (let x := starting.crew 0; x.legs.get .waiting 0 == .waiting && x.specOwed [(0, 0)] == []) &&
    (let x := starting.crew 0; x.waits && decide (x.cls < 3) && decide (x.cls0 ≤ x.cls) && decide (x.waitFrom + 1000000 * (x.cls - x.cls0 + 1) ≤ starting.gtc)) &&
    (let x : Crew := { waitingCrew with legs := [(0, .ended), (1, .ended)] }; let s : State := { starting with crews := [(0, x)] }; okay (s.unheld.writeDone 0 0 (s.unheld.endMsgsOf 0)) && (s.unheld.crewDone 0).held == [] && x.live && x.status == none && !x.killed && (List.range (rLegs x.rcd)).all fun l => x.legs.get .waiting l == .ended)) = true := by decide +kernel
def shadow0 : Nat := 0x100040 + 0x180000 * 2 ^ 64 + 2 * 2 ^ 128 + 3 * 2 ^ 152 + 2 ^ 156
/-- A feed queue, word 5: four slots of 64 bytes at 0x180000, and its counts at 0x100040. -/
def withQ (s : State) (head tail acked : Nat) : State :=
  put (put s (kQuay (0x3FFC000 + 64 * 5)) 64 shadow0) 0x200040 24 (head + tail * 2 ^ 64 + acked * 2 ^ 128)
def withH (s : State) (t h : Nat) : State := put s (0x280000 + 64 * t) 8 h
def kq : Core :=
  { km with s := [(1, 5), (2, 0x100080), (3, 0x180008), (4, 0x180048), (5, 0x800), (6, 500)] }
def queueIs (s : State) (p : Queue → State → Bool) : Bool := okIs ((s.entered false).queue 5 0 true) fun r => p r.1 r.2
theorem test_meets_FeedAndPop : (
    (issues (smt kq) an [1, 2]) &&
    (decide (2 ^ 11 ≤ (kq.rd 5).toNat)) &&
    (queueIs (withQ (smt kq) 0 4 0) fun q _ => cntDiff q.tail q.acked == q.slots) &&
    (queueIs (got (withQ (smt kq) 0xFFFFFFFF 0xFFFFFFFF 0xFFFFFFFE) 0x100080 56 0x200080 7) fun q u1 => cntDiff q.tail q.acked != q.slots &&
      okTo (accessRuns 0x100080 (q.size - 8) .rd true u1) u1 && okIs (accessRuns 0x100080 (q.size - 8) .rd true u1) fun p =>
        okIs (slotPages q (q.slot q.tail) q.size .wr u1) fun r => okTo (ownStores r.2) r.2 && okTo (readRuns p.1 r.2) r.2 &&
          okTo (relWait q.scope 0x100080 r.2) r.2 && okay (r.2.feedRecord q 7 (srcOf r.2.actor 0) (r.2.view (srcOf r.2.actor 0)).k true)) &&
    (queueIs (withQ (smt kq) 1 2 0) fun q _ => q.head != q.tail) &&
    (queueIs (withQ (smt kq) 1 1 0) fun q u1 => q.head == q.tail && decide (500 ≤ u1.gtc) && !u1.preemptPending 0) &&
    (let s := two (withQ (smt kq) 0 1 0) { kq with wait := .popw 3 5 0 0 }; (s.core 1).wait == .popw 3 5 0 0 && !(s.core 1).frozen && okIs (s.queue 5 0 true) fun q => q.1.head != q.1.tail) &&
    (!((withQ (smt kq) 1 2 0).entered false).wokenOn 5) &&
    (let s := two (withQ (smt kq) 0 1 0) { kq with wait := .popw 3 5 0 0, woken := true }; issues s an [1, 2] && (s.entered false).wokenOn 5)) = true := by decide +kernel
theorem test_meets_QueueCounts : (
    ((withQ (smt kq) 0xFFFFFFFF 0xFFFFFFFF 0xFFFFFFFE).mem.wf) &&
    ((withQ (smt kq) 0 0 0).watchers.isEmpty) &&
    (queueIs (withQ (smt kq) 0xFFFFFFFF 0xFFFFFFFF 0xFFFFFFFE) fun q u1 => q.half.key % 8 == 0 && okay (u1.feedRecord q 7 0 [] true) && okIs (u1.unitRuns (launchSrc (queueDie q.word)) (queueDie q.word) q.asid (q.slot 0) 8 .wr true) fun p => match p.1 with | [(a, n, g)] => a == q.slot 0 && n == 8 && g.key % 8 == 0 && decide (q.half.key + 24 ≤ g.key) && okay (p.2.ackSlot q (q.slot 0) 1 0 [] true) | _ => false) &&
    (queueIs (withQ (smt kq) 0 1 0) fun q u1 => okIs (u1.writeVa (launchSrc (queueDie q.word)) (queueDie q.word) q.asid (q.slot 0) 8 (1 + 2 ^ 32) true [{ agent := 0, scope := q.scope, k := u1.carried 0 q.scope [] }]) fun w => okIs (w.walkTables (queueDie q.word) q.asid 0x100000) fun f => !needsAD f.leaf .rd)) = true := by decide +kernel
theorem test_meets_Acknowledgements : (
    (issues (smt kq) an [1, 3]) &&
    (decide (2 ^ 11 ≤ (kq.rd 5).toNat)) &&
    (queueIs (withQ (smt kq) 1 2 0) fun q _ => !q.payload 0x100080) &&
    (queueIs (withH (withQ (smt kq) 1 2 0) 0 0) fun q u1 => q.payload 0x180008 &&
      okIs (u1.ackCheck q 0x180008 true) fun r =>
        okTo (relWait q.scope 0x180008 r.2) r.2 && okay (r.2.ackSlot q 0x180000 r.1 (srcOf r.2.actor 0) (r.2.view (srcOf r.2.actor 0)).k true))) = true := by decide +kernel
def cosched : Crew := { cr0 with rcd := BitVec.ofNat 1024 (2 ^ 287 + 2 ^ 256) }
def atBar : State :=
  { sm km with
    cores := [(0, { km with wait := .ended }), (1, { km with wait := .bar 1 false }), (2, { km with leg := 1 })]
    crews := [(0, { cr0 with arrivals := [(false, 0, 1, 1, Msg.none)] })] }
theorem test_meets_Barriers : (
    (issues (sm km) an [] && km.crew == some 0 && !rCosched cr0.rcd) &&
    (rCosched cosched.rcd && cosched.barLost true 0 (km.bars + 1) == none && cosched.arrivals.isEmpty && released (crewOf (sm km) cosched) 3) &&
    ((atBar.core 1).crew == some 0 && (atBar.core 1).wait == .bar 1 false && !(atBar.core 1).frozen && (atBar.crew 0).barLost false 0 1 == none) &&
    (atBar.cores.all fun y => y.2.leg != 0 || y.2.wait == .ended || (atBar.crew 0).arrivals.any fun r => r.2.2.2.1 == y.1)) = true := by decide +kernel
def ticking (cfg no : Nat) (w : Wait) : State :=
  { sm { km with wait := w, s := [(2, 1), (3, 2)] } with dies := [(0, { Die.reset with tickcfg := BitVec.ofNat 64 cfg, tickno := no })] }
theorem test_meets_Ticks : (
    (issues (ticking 1000 1 .none) an [2, 0]) &&
    (let s := ticking 1000 1 .none; (s.gtc - 0) / 1000 + 1 == 2 && decide ((s.me.rd 3).toNat ≤ 2)) &&
    (let s := ticking 0 0 .none; fld (s.die 0).tickcfg 0 32 == 0) &&
    (let s := ticking (1000 + 500 * 2 ^ 32) 0 .none; decide ((s.gtc - 500) / 1000 + 1 < (s.me.rd 3).toNat) && fld (s.die 0).tickcfg 0 32 != 0 && !s.preemptPending 0) &&
    (let s := ticking 1000 1 (.tickw 3 3 1000); s.me.wait == .tickw 3 3 1000 && decide (1000 ≤ s.gtc) && decide ((s.die 0).tickno < 2)) &&
    (let s := ticking (1000 + 500 * 2 ^ 32) 0 .none; issues s an [0] && fld (s.die 0).tickcfg 0 32 != 0) &&
    (let s := crewOf (ticking (1000 + 500 * 2 ^ 32) 0 .none) { cr0 with preempt := true }; issues s an [0] && s.preemptPending 0)) = true := by decide +kernel
def hd (dl : Nat) (ws : Nat := 0) : BitVec 1024 :=
  BitVec.ofNat 1024 (0x100000 + 0x100800 * 2 ^ 64 + 3 * 2 ^ 128 + 3 * 2 ^ 156 + 2 * 2 ^ 160 + 2 ^ 176 + 2 ^ 192 + ws * 2 ^ 196 + 2 ^ 200 +
    2 ^ 202 + 5 * 2 ^ 224 + 64 * 2 ^ 256 + dl * 2 ^ 320)
def mb (no : Nat) (lft : Bool) (gave : List Nat) : Member := { no := no, core := 0, inst := 1, left_ := lft, gave := gave }
def ct (m tag lag : Nat) : Contrib :=
  { member := m, tag := tag, lag := lag, vals := [0x3F800000, 0x40000000 + m, 0xC0400000], msg := { Msg.none with agent := 0, scope := 3 } }
def h0 : Heat :=
  { Heat.reset with
    gen := 4, live := true, key := 0x200100, desc := hd 0, pages := [(16, leaf 0 0x20)], openTag := 7, opened := 3, nrej := 1,
    members := [mb 0 false [6], mb 2 true [], mb 1 false []], contribs := [ct 1 6 1, ct 0 7 0] }
def hnd (gen m : Nat) : Nat := 2 ^ 8 + 8 * 2 ^ 10 + m * 2 ^ 24 + gen * 2 ^ 52
def cfg0 : CfgRecord := { device := 0, minver := 0, threshold := 1, tickPeriod := 1, hostBias := [], spares := [], coreThreshold := 1, signature := [] }
def sh (k : Core) (h : Heat) : State := { smt k with heats := [(8192, h)], cfgs := [cfg0] }
def joining (l : AMap Heat) : State :=
  { put (sh { km with s := [(1, 0x100100), (3, 2), (4, 3), (6, 0x100040)] } h0) 0x200100 128 (hd 0).toNat with heats := l }
theorem test_meets_HeatJoins : (
    (issues (joining []) an [1, 3]) &&
    (okTo (checkVa 0x100100 .rd ((joining [(8192, h0)]).entered false)) ((joining [(8192, h0)]).entered false) && okIs (checkVa 0x100100 .rd ((joining [(8192, h0)]).entered false)) fun p => p.1.key == 0x200100 && heatHomeOf p.1 == 8) &&
    (okTo (ownStores ((joining [(8192, h0)]).entered false)) ((joining [(8192, h0)]).entered false) && okay (heatArrive 8 8192 ((joining [(8192, h0)]).entered false))) &&
    (okIs (checkVa 0x100100 .rd ((joining [(8192, h0)]).entered false)) fun p => ((joining [(8192, h0)]).entered false).heatAt p.1 == some (8192, h0)) &&
    (decide (hMembers h0.desc < 3)) &&
    (decide (2 ≤ hMembers h0.desc) && h0.members.all (fun y => y.no != 2 || y.left_) && h0.members.any fun y => y.no == 1 && !y.left_) &&
    (let s := got (joining []) 0x100100 128 0x200100 (hd 0).toNat; let u := s.entered false; issues s an [1, 3] && heatDescOk (hd 0) && u.heatLevelOk (hd 0) 8 && !heatDescOk 0 && u.me.localHit 0x100100 128 true false == none && okIs (checkVa 0x100100 .rd u) fun p => u.heatAt p.1 == none && okTo (readRuns [(0x100100, 128, p.1)] u) u && okIs (heatArrive 8 0 u) fun q => okIs (q.2.heatPages 0 0 (hd 0) true) fun p => decide (0 < homeSlots 8) && !(p.2.heat 8192).live && decide (p.2.stagingUsed 8 + heatStaging (hd 0) ≤ homeStaging 8)) &&
    (let x := hd 0 + 0xF0000; let u := (joining []).entered false; heatDescOk x && u.heatLevelOk x 8 && (match u.heatPages 0 0 x true with | .error e => e.refuses | _ => false)) &&
    (let s := joining []; let s := s.setMe { s.me with watchctl := [(0, 0x75)], watch := [(0, 0x100100)] }; let u := s.entered false; issues s an [1, 3] && (u.me.localHit 0x100100 128 true false).isSome && okTo (checkVa 0x100100 .rd u) u && okIs (checkVa 0x100100 .rd u) fun p => u.heatAt p.1 == none && okTo (ownStores u) u && okay (heatArrive 8 0 u))) = true := by decide +kernel
def kg : Core :=
  { km with
    s := [(1, BitVec.ofNat 64 (hnd 4 0)), (2, BitVec.ofNat 64 (hnd 4 1)), (3, BitVec.ofNat 64 (hnd 5 0)), (4, 0x100000), (5, 0x100002),
          (6, 7), (7, 6), (8, 5), (9, 8)] }
def giving (h : Heat) (p : Heat → Bool) : Bool :=
  let z := hN h.desc * sumBytes (hCfmt h.desc)
  let s := got (sh kg h) 0x100000 z 0x200000 5
  let u := s.entered false
  issues s an [2, 4, 6] && s.heatOf 0 (s.me.rd 2) == some (8192, 1) && okTo (accessRuns 0x100000 z .rd true u) u &&
    okIs (accessRuns 0x100000 z .rd true u) fun q =>
      okTo (relWait (hScope h.desc) 0x100000 u) u && okTo (readRuns q.1 u) u && okay (heatArrive 8 8192 u) && p (s.heat 8192)
theorem test_meets_HeatGives : (
    (issues (sh kg h0) an [2, 4, 6]) &&
    ((sh kg h0).heatOf 0 ((sh kg h0).me.rd 3) == none) &&
    (0x100002 % sumBytes (hCfmt h0.desc) != 0) &&
    (giving h0 fun x => tagAfter 8 x.openTag) &&
    (giving h0 fun x => !tagAfter 5 x.openTag && decide (hLag x.desc < tagDiff x.openTag 5)) &&
    (giving { h0 with members := [mb 1 false [7]] } fun x => x.members.any fun y => y.no == 1 && y.gave.contains 7) &&
    (giving h0 fun x => tagDiff x.openTag 6 == hLag x.desc && !x.members.any fun y => y.no == 1 && y.gave.contains 6) &&
    (giving { h0 with contribs := [] } fun x => tagDiff x.openTag 7 == 0 && decide (x.admitted.length + 1 < x.bound)) &&
    (giving h0 fun x => decide (x.bound ≤ x.admitted.length + 1)) &&
    (let s := got (sh kg h0) 0x100000 (hN h0.desc * sumBytes (hCfmt h0.desc)) 0x200000 5; okIs (heatArrive 8 8192 (s.entered false)) fun p =>
    (p.2.unheld.heatGive 0 8192 1 7 (splitBits (8 * sumBytes (hCfmt h0.desc)) (hN h0.desc) 5) (s.release (srcOf 0 0) (hScope h0.desc))).2.held == [])) = true := by decide +kernel
theorem test_meets_HeatResults : (
    (let s := sh kg { h0 with contribs := [ct 2 7 0, ct 1 6 1, ct 1 7 0] }; s.mem.wf && s.watchers.isEmpty && heatDescOk (s.heat 8192).desc) &&
    (let x := h0; let slot := x.openTag % 2 ^ hRlog x.desc; let va := hDest x.desc + slot * hRstride x.desc; let len := hN x.desc * sumBytes (hFmt x.desc); decide (va % 65536 + len ≤ 65536) && !leafSpread 0 (x.pages.get 0 (va / 65536)) va && decide (x.keyOf va + len ≤ x.keyOf (hHdr x.desc + 256 * slot)) && (let s := sh kg x; [(va, len), (hHdr x.desc + 256 * slot, 4), (hHdr x.desc + 256 * slot + 4, 252)].all fun r => (s.keptWaits (heatAgent 8) x.pages r.1 r.2).isNone && (keptRuns x.pages r.1 r.2).all fun p => (s.runFails .wr p).isNone))) = true := by decide +kernel
def withTag (h : Heat) (t : Nat) : State :=
  put (sh { kg with s := [(1, BitVec.ofNat 64 (hnd 4 0)), (2, BitVec.ofNat 64 (hnd 5 0)), (3, 5), (7, 500), (9, 2000)] } h)
    (0x200800 + 256 * (t % 2)) 4 t
def hwt : Wait := .heatWait 3 8192 0 4 5 0
theorem test_meets_HeatWaits : (
    (issues (withTag h0 5) an [1, 3, 7] && (withTag h0 5).me.owed == []) &&
    ((withTag h0 5).heatOf 0 ((withTag h0 5).me.rd 2) == none) &&
    ((withTag h0 5).heatOf 0 ((withTag h0 5).me.rd 1) == some (8192, 0)) &&
    (let s := withTag h0 5; s.mem.getNat (h0.keyOf (hHdr h0.desc + 256 * (5 % 2 ^ hRlog h0.desc))) 4 == 5 && tagAfter h0.openTag 5) &&
    (tagAfter 5 3 && 5 % 2 ^ hRlog h0.desc == 3 % 2 ^ hRlog h0.desc) &&
    (!tagAfter h0.openTag 7 && decide (500 ≤ (withTag h0 5).gtc) && decide ((withTag h0 5).gtc < 2000)) &&
    ((withTag h0 5).preemptPending 0 == false) &&
    ((crewOf (withTag h0 5) { cr0 with preempt := true }).preemptPending 0) &&
    (((two (withTag h0 5) { kg with wait := hwt }).core 1).wait == hwt && h0.members.any fun y => y.no == 0 && !y.left_) &&
    !Heat.reset.live) = true := by decide +kernel
theorem test_meets_HeatLeaves : (
    (issues (sh kg h0) an [1]) &&
    ((sh kg h0).heatOf 0 ((sh kg h0).me.rd 1) == some (8192, 0) && released (sh kg h0) (hScope h0.desc) && okIs (heatArrive 8 8192 ((sh kg h0).entered false)) (fun p => (p.2.unheld.heatLeave 8192 0 (p.2.ext (srcOf 0 0))).held == [])) &&
    (h0.members.any fun y => y.no != 0 && !y.left_) &&
    (let x : Heat := { h0 with members := [mb 0 false [], mb 2 true [], mb 1 true []] }; let s := sh kg x; issues s an [1] && s.heatOf 0 (s.me.rd 1) == some (8192, 0) && x.members.all (fun y => y.no == 0 || y.left_) && okIs (heatArrive 8 8192 (s.entered false)) fun p => (p.2.unheld.heatLeave 8192 0 (p.2.ext (srcOf 0 0))).held == []) &&
    (let x : Heat := { h0 with desc := hd 997 }; x.live && hDeadline x.desc != 0 && decide (x.opened + hDeadline x.desc ≤ (sh kg x).gtc) && ((sh kg x).unheld.heatShort 8192).held == []) &&
    (hDeadline h0.desc == 0) &&
    (decide ((sh kg h0).gtc < h0.opened + hDeadline (hd 998)))) = true := by decide +kernel
def ghdr : BitVec 512 := BitVec.ofNat 512 (77 + 2 * 2 ^ 64 + 2 * 2 ^ 80 + 3 * 2 ^ 89)
/-- Step 0 sums three FP32 elements, and step 1, an A2A of capacity 4, follows it. -/
def gst0 : BitVec 512 := BitVec.ofNat 512 (2 ^ 36 + 3 * 2 ^ 192 + (1 + 0xFFFFFF * 2 ^ 8) * 2 ^ 256)
def gst1 : BitVec 512 :=
  BitVec.ofNat 512 (4 + 2 ^ 8 + 2 * 2 ^ 36 + 4 * 2 ^ 192 + 64 * 2 ^ 224 + 0xFFFFFFFF * 2 ^ 256)
def gimg : Nat := ghdr.toNat + gst0.toNat * 2 ^ 1024 + gst1.toNat * 2 ^ 1536
def crun (run rank : Nat) : CollRun :=
  { run := run, rank := rank, core := 0, inst := 1, base := [0x100000, 0x100400, 0x100800] ++ List.replicate 13 0, asid := 0, user := true,
    msg := Msg.none, cnt := [(0, 0), (1, 1)], ph := [], src := [], held := [], flags := 0, lost := none, done := false }
def g0 : Graph :=
  { Graph.reset with
    gen := 3, live := true, gkey := 77, inst := 1, hdr := ghdr, ranks := [(0, 0), (0, 0)], steps := [gst0, gst1],
    runs := [crun 1 0, crun 1 1], started := [(0, 1), (1, 1)], plan := [(1, 5)] }
def gbases : Nat := 0x100000 + 0x100400 * 2 ^ 64 + 0x100800 * 2 ^ 128
def kcl : Core :=
  { km with s := [(1, 0x100200), (2, 0x300000000), (3, 0x300000001), (4, 0x100300), (5, 0x100201), (6, 1), (7, 2), (8, 0)] }
def sg (k : Core) (gs : AMap Graph) : State :=
  { put (put (smt k) 0x200200 256 gimg) 0x200300 128 gbases with graphs := gs, cfgs := [cfg0] }
def imageRead (gs : AMap Graph) (img : Nat) (p : State → Bool) : Bool :=
  let hdr := BitVec.ofNat 512 (img % 2 ^ 512)
  let v := img / 2 ^ 512
  let u := (got (got (sg kcl gs) 0x100200 64 0x200200 hdr.toNat) 0x100240 192 0x200240 v).entered false
  let ranks := splitBits 32 (gNrank hdr) v
  let steps := (splitBits 512 (gNstep hdr) (v / 2 ^ (8 * ((4 * gNrank hdr + 63) / 64 * 64)))).map (BitVec.ofNat 512)
  imageLen hdr == 256 && okTo (ownStores u) u && (gs.all fun e => decide (e.1 < 128)) && issues u an [1] &&
    (okIs (readMem 0x100200 64 true u) fun r => r.1 == hdr.toNat) && (okIs (readMem 0x100240 192 true u) fun r => r.1 == v) &&
    graphOk hdr ranks steps && p u
theorem test_meets_CollectiveGraphs : (
    (issues (sg kcl [(0, g0)]) an [1]) &&
    ([(0, g0)].all fun e => decide (e.1 < 128) && (sg kcl [(0, g0)]).graph e.1 == e.2) &&
    (0x100201 % 64 != 0) &&
    (okTo (ownStores ((sg kcl [(0, g0)]).entered false)) ((sg kcl [(0, g0)]).entered false)) &&
    (issues (sg { kcl with s := [(1, 0x150000)] } []) an [1] && traps (readMem 0x150000 64 true ((sg kcl []).entered false))) &&
    (let u := (got (sg kcl []) 0x14FFC0 64 (kQuay 0x1FFC0) ghdr.toNat).entered false; okTo (readMem 0x14FFC0 64 true u) u && traps (readMem 0x150000 (imageLen ghdr - 64) true u)) &&
    (let u := (got (got (sg kcl []) 0x100200 64 0x200200 ghdr.toNat) 0x100240 192 0x200240 (gimg / 2 ^ 512)).entered false; imageLen ghdr == 256 && graphHdrOk ghdr && !graphHdrOk (ghdr ||| 0xFFFF) || okTo (readMem 0x100200 64 true u) u && okTo (readMem 0x100240 192 true u) u) &&
    ((sg kcl [(0, g0)]).graphOf (kcl.rd 3) == none) &&
    ((sg kcl [(0, g0)]).graphOf (kcl.rd 2) == some 0) &&
    ((List.range 128).all fun i => (({ sg kcl [] with graphs := (List.range 128).map fun i => (i, g0) } : State).graph i).live) &&
    (imageRead [(3, { g0 with asid := kcl.asid })] gimg fun u => (u.graph 3).live && (u.graph 3).gkey == 77 && (u.graph 3).asid == u.me.asid) &&
    (imageRead [(0, { g0 with gkey := 78 })] gimg fun u => (u.graph 0).gkey != 77 && !u.graphFree 0 && u.graphFree 1) &&
    (imageRead ((List.range 128).map fun i => (i, { g0 with gkey := 78 })) gimg fun u => (List.range 128).all fun i => !u.graphFree i) &&
    (let hdr := BitVec.ofNat 512 (gimg % 2 ^ 512); let v := gimg / 2 ^ 512 + 2 ^ 15; let u := (got (got (sg kcl []) 0x100200 64 0x200200 hdr.toNat) 0x100240 192 0x200240 v).entered false; okTo (readMem 0x100200 64 true u) u && okTo (readMem 0x100240 192 true u) u && !graphOk hdr (splitBits 32 2 v) ((splitBits 512 2 (v / 2 ^ 512)).map (BitVec.ofNat 512)))) = true := by decide +kernel
theorem test_meets_CollectiveRuns : (
    (issues (sg kcl [(0, g0)]) an [2, 4, 6]) &&
    ((sg kcl [(0, g0)]).graphOf (kcl.rd 3) == none) &&
    ((sg kcl [(0, g0)]).graphOf (kcl.rd 2) == some 0) &&
    (0x100201 % 8 != 0) &&
    (let s := got (sg kcl [(0, g0)]) 0x100300 128 0x200300 gbases; let u := s.entered false; issues s an [2, 4, 6] && okTo (accessRuns 0x100300 128 .rd true u) u && okIs (accessRuns 0x100300 128 .rd true u) fun p => okTo (relWait (gScope g0.hdr) 0x100300 u) u && okTo (readRuns p.1 u) u && okay (u.basesOk 0 g0 1 (splitBits 64 16 gbases)) && decide (g0.inFlight 1 < 4)) &&
    ((g0.runs.filter fun r => r.rank == 1 && !r.done).length == 1) &&
    (g0.ranks[1]? == some (0, 0) && (sg kcl []).dev == 0) &&
    (g0.ranks[2]? != some (0, 0)) &&
    (match ((sg kcl [(0, g0)]).entered false).basesOk 0 g0 1 (splitBits 64 16 (gbases + 0x200000)) with | .error e => e.refuses | _ => false)) = true := by decide +kernel
def runs (l : List CollRun) (seals : List (Nat × Nat × Nat × Msg)) : State := sg kcl [(0, { g0 with runs := l, seals := seals })]
def begun (st : Nat) (l : List Nat) (r : CollRun) : CollRun := { r with ph := [(st, .begun)], src := [(st, l)] }
theorem test_meets_CollectiveSteps : (
    ((runs [crun 1 0, crun 1 1] []).runAt 0 1 0 == some (crun 1 0)) &&
    ((crun 1 0).ph.get .waiting 0 == .waiting && (crun 1 0).cnt.get 0 0 == 0) &&
    ((crun 1 0).cnt.get 0 1 != 0) &&
    (let s := runs [crun 1 0, crun 1 1] []; let r := crun 1 0; let rng := stRanges 2 0 r.base gst0; rng.1.2 == 12 && s.rankHere (s.graph 0) 0 && !s.rankHere { s.graph 0 with ranks := [(5, 0), (0, 0)] } 0 && noSnoop ((s.acquire seqSrc (gScope ghdr) [r.msg]).readVa seqSrc 0 r.asid rng.1.1 rng.1.2 r.user)) &&
    ((crun 2 0).run == 2 && [{ crun 1 0 with done := true }].all fun y => y.done) &&
    (let s := runs [begun 0 [1, 2, 3] (crun 1 0), begun 0 [0x3F800000, 2, 3] (crun 1 1)] []; someIs (s.runAt 0 1 0) fun r => r.ph.get .waiting 0 == .begun && r.ph.get .waiting 1 != .complete && (s.collResult 0 r 0).isSome && noSnoop (s.unitRuns seqSrc 0 r.asid (stRanges 2 0 r.base gst0).2.1 (stBytes gst0 * ((s.collResult 0 r 0).getD []).length) .wr r.user)) &&
    (stKind gst0 != 4 && stKind gst1 == 4) &&
    (let l := [(1, 1, 0, Msg.none), (1, 1, 1, Msg.none)]; ((List.range (gNrank ghdr)).all fun q => l.any fun u => u.1 == 1 && u.2.1 == 1 && u.2.2.1 == q) && noSnoop ((runs [begun 1 [] (crun 1 0), crun 1 1] l).unitRuns seqSrc 0 0 (stRanges 2 0 (crun 1 0).base gst1).2.1 64 .wr true)) &&
    (let r : CollRun := { crun 1 0 with cnt := [(0, 0), (1, 0)] }; let s : State := sg kcl [(0, { g0 with runs := [r, crun 1 1], ranks := [(5, 0), (0, 0)] })]; s.runAt 0 1 0 == some r && r.ph.get .waiting 1 == .waiting && stKind gst1 == 4 && !s.rankHere (s.graph 0) 0)) = true := by decide +kernel
/-- R304: a part that its home's chunk buffers hold, and one that they do not. -/
theorem test_meets_CollectiveSteps_buffers :
    (runs [crun 1 0, crun 1 1] []).stagingUsed 8 + chunksFor 12 ≤ homeStaging 8 ∧
      homeStaging 8 < (runs [{ crun 1 0 with held := [(0, 2 ^ 28)] }] []).stagingUsed 8 + chunksFor 12 := by
  have h0 : (runs [crun 1 0, crun 1 1] []).stagingUsed 8 = 0 := by decide +kernel
  have h1 : homeStaging 8 < (runs [{ crun 1 0 with held := [(0, 2 ^ 28)] }] []).stagingUsed 8 := by decide +kernel
  refine ⟨?_, Nat.lt_of_lt_of_le h1 (Nat.le_add_right _ _)⟩
  rw [h0, Nat.zero_add]
  exact Nat.min_le_right _ _
/-- R8, R314: the claims of a rank on another device come in no order that an arrival here has fixed. -/
theorem test_meets_CollectiveSteps_elsewhere (k : Nat) :
    (runs [crun 1 0, crun 1 1] []).mayArrive ((runs [crun 1 0, crun 1 1] []).ext seqSrc) (5 * 65536 + k) = true := by
  have h : (runs [crun 1 0, crun 1 1] []).arrived.get (0, 0) ((runs [crun 1 0, crun 1 1] []).ext seqSrc) = (0, 0) := by decide +kernel
  have g : (runs [crun 1 0, crun 1 1] []).gtc = 1000 := by decide +kernel
  simp [State.mayArrive, h, g]
def kw : Core := { kcl with s := [(1, 0x100000000), (2, 0x100010000), (3, 0x200000000), (5, 500), (6, 2000)] }
def cwait (r : CollRun) : State :=
  { runs [r, crun 1 1] [] with cores := [(0, kw), (1, { kw with wait := .collWait 3 0 1 0 0 })] }
theorem test_meets_CollectiveWaits : (
    (issues (cwait (crun 1 0)) an [1, 5] && kw.owed == []) &&
    ((cwait (crun 1 0)).runOf (kw.rd 3) == none) &&
    ((cwait (crun 1 0)).runOf (kw.rd 1) == some (0, crun 1 0) && (cwait (crun 1 0)).collLost 0 (crun 1 0) == none) &&
    (((runs [crun 1 0, { crun 1 1 with lost := some 0x2F }] []).collLost 0 (crun 1 0)).isSome) &&
    ((cwait { crun 1 0 with done := true }).runOf (kw.rd 1) == some (0, { crun 1 0 with done := true })) &&
    (decide (500 ≤ (cwait (crun 1 0)).gtc)) &&
    (!(cwait (crun 1 0)).preemptPending 0 && (crewOf (cwait (crun 1 0)) { cr0 with preempt := true }).preemptPending 0) &&
    (((cwait { crun 1 0 with done := true }).core 1).wait == .collWait 3 0 1 0 0)) = true := by decide +kernel
theorem test_meets_CollectiveClaims : (
    (let s := cwait (crun 1 0); issues s an [1, 2, 3] && s.runOf (kw.rd 1) == some (0, crun 1 0)) &&
    (g0.isA2a 1 && !g0.isA2a 0) &&
    (let v : Word := 0x101; (let s := cwait (crun 1 0); s.mayArrive (s.ext seqSrc) (s.ext (srcOf 0 0))) && fld v 20 44 == 0 && fld v 0 8 == 1 && decide (fld v 8 12 < gNrank g0.hdr)) &&
    (let v : Word := 0x201; decide (gNrank g0.hdr ≤ fld v 8 12)) &&
    (!g0.sealed 1 1 0 && ({ g0 with seals := [(1, 1, 0, Msg.none)] } : Graph).sealed 1 1 0) &&
    (released (cwait (crun 1 0)) (gScope g0.hdr))) = true := by decide +kernel
def rdesc (dl : Nat := 0) (canc : Nat := 0) : RDesc :=
  BitVec.ofNat 2048 (0x140000 + 0x141000 * 2 ^ 64 + 0x100000 * 2 ^ 128 + 0x102000 * 2 ^ 192 + 64 * 2 ^ 256 + 3 * 2 ^ 320 + canc * 2 ^ 345 +
    2 ^ 352 + 3 * 2 ^ 360 + 3 * 2 ^ 384 + 0x3F800000 * 2 ^ 416 + 5 * 2 ^ 448 + 6 * 2 ^ 464 + dl * 2 ^ 512)
/-- The queue of word 5, and a second, word 6, of four slots at 0x181000. -/
def withQs (s : State) (h t a h6 t6 a6 : Nat) : State :=
  put (put (withQ s h t a) (kQuay (0x3FFC000 + 64 * 6)) 64 (0x100060 + 0x181000 * 2 ^ 64 + 2 * 2 ^ 128 + 3 * 2 ^ 152 + 2 ^ 156))
    0x200060 24 (h6 + t6 * 2 ^ 64 + a6 * 2 ^ 128)
def lg (n : Nat) (f : LegFate) (ver fver gver hver : Nat) (run held : Bool) : Leg :=
  { Leg.new n with
    st := f, ver := ver, fver := fver, gver := gver, hver := hver, run := run, held := held, exact := f == .settled, iter := 1,
    jump := 0x40000000 }
def r0 : Relay :=
  { Relay.reset with
    gen := 9, st := .running, user := true, inst := 1, desc := rdesc, pages := [(16, leaf 0 0x20), (20, leaf 4 0x1)],
    slots := [(0, lg 0 .settled 1 0 0 0 false false)], sp := 1, top := 1 }
def kr : Core :=
  { km with
    s := [(1, 0x900000000), (2, 0xA00000000), (3, 0), (4, 500), (5, 2000), (6, 0x100300), (7, 0x180008), (8, 0x181008), (9, 0x100301)] }
def sr (r : Relay) (h t a h6 t6 a6 : Nat) : State :=
  { put (withQs (smt kr) h t a h6 t6 a6) 0x200300 256 rdesc.toNat with relays := [(0, r)], cfgs := [cfg0] }
theorem test_meets_RelayOpens : (
    (issues (sr r0 0 0 0 0 0 0) an [6]) &&
    (0x100301 % 256 != 0) &&
    (okTo (ownStores ((sr r0 0 0 0 0 0 0).entered false)) ((sr r0 0 0 0 0 0 0).entered false)) &&
    (traps (readMem 0x150000 256 true ((sr r0 0 0 0 0 0 0).entered false))) &&
    (let u := (got (got (sr r0 0 0 0 0 0 0) 0x100300 256 0x200300 rdesc.toNat) 0x100000 (yBytes rdesc) 0x200000 5).entered false; okTo (readMem 0x100300 256 true u) u && okIs (u.rlyCheck 0 rdesc) (fun p => p.1 == 0 && (p.2.2.relay 1).st == .free && okTo (readMem (yInit rdesc) (yBytes rdesc) true p.2.2) p.2.2) && (match u.rlyCheck 0 (rdesc + 2 ^ 576) with | .error (.snoop _ _) => false | .error _ => true | _ => false)) &&
    (((sr r0 0 0 0 0 0 0).relay 1).st == .free && ((sr r0 0 0 0 0 0 0).relay 0).st != .free) &&
    (let u := (got (got (sr r0 0 0 0 0 0 0) 0x100300 256 0x200300 rdesc.toNat) 0x100000 (yBytes rdesc) 0x200000 5).entered false
    okIs (u.rlyCheck 0 rdesc) fun p => okIs (readMem (yInit rdesc) (yBytes rdesc) true p.2.2) fun q =>
      okIs (rlyGoM 1 (p.2.2.unheld.rlySetup 0 1 rdesc p.2.1 q.1).2) fun v => v.2.held == []) &&
    (let u := (got (sr r0 0 0 0 0 0 0) 0x100300 256 0x200300 (rdesc + 2 ^ 576).toNat).entered false; okTo (readMem 0x100300 256 true u) u && (match u.rlyCheck 0 (rdesc + 2 ^ 576) with | .error e => e.refuses | _ => false)) &&
    (let s : State := { got (sr r0 0 0 0 0 0 0) 0x100300 256 0x200300 rdesc.toNat with relays := [(0, r0), (1, r0), (2, r0), (3, r0)] }; okIs (s.entered false |>.rlyCheck 0 rdesc) fun p => p.1 == 0 && (List.range 4).all fun i => (p.2.2.relay i).st != .free)) = true := by decide +kernel
theorem test_meets_Batons : (
    (let s := sr r0 0 0 0 0 0 0; s.mem.wf && s.watchers.isEmpty && relayDescOk (s.relay 0).desc && (keptRuns r0.pages (r0.batonVa 0) 64 ++ keptRuns r0.pages (r0.batonVa 0 + 96) 32).all fun p => s.reaches p.2.2.key && s.inService p.2.2.key)) = true := by decide +kernel
def r1 : Relay := { r0 with slots := [(0, lg 0 .settled 1 0 0 0 false false), (1, lg 1 .live 3 1 2 0 false true)], top := 2, sweepOn := true, sweepAt := 1, sweepTop := 2, sweepNo := 1 }
def taking (r : Relay) (t : Nat) : State := put (sr r 0 t 0 0 t 0) 0x280008 8 1
def taken (u : State) (q : Queue) : Bool :=
  okIs (u.homeVa (relaySrc 0) (queueDie q.word) q.asid (q.slot q.head + 8) 8 true) fun h =>
    someIs (r1.leg? (h.1 % 2 ^ 32)) fun l => l.st == .live &&
      okIs ((h.2.popRecord q 0).2.rlyBind 0 0 false (q.slot q.head + 8) l) fun w => (w.rlyDrain 0).held == []
def named (s : State) (p : State → Bool) : Bool :=
  issues s an [1, 3] && s.relayOf 0 (kr.rd 1) == some 0 && okIs (rlyArrive 0 (s.entered false)) fun v => p v.2
def takingQ (s : State) (p : Queue → State → Bool) : Bool :=
  named s fun v => !(s.entered false).wokenOn (s.relayQueue 0 false) && (s.relay 0).st == .running && !s.preemptPending 0 &&
    okIs (v.unheld.queue (s.relayQueue 0 false) 0 true) fun q => p q.1 q.2
def free (w : State) : Bool := (w.unheld.rlyDrain 0).held == []
theorem test_meets_RelayTakes : (
    (named (taking r1 1) fun v => free v) &&
    ((taking r1 1).relayOf 0 (kr.rd 2) == none) &&
    (named (taking { r1 with st := .stopped } 1) fun v => free v && !((taking { r1 with st := .stopped } 1).entered false).wokenOn 5) &&
    (named (crewOf (taking r1 1) { cr0 with preempt := true }) fun v => free v && (crewOf (taking r1 1) { cr0 with preempt := true }).preemptPending 0) &&
    (takingQ (taking r1 0) fun q u1 => q.head == q.tail && decide (500 ≤ u1.gtc) && decide (u1.gtc < 2000)) &&
    (takingQ (taking r1 1) fun q u1 => q.head != q.tail && taken u1 q) &&
    (let s := two (taking r1 1) { kr with wait := .rlyTake 3 0 9 false 0 0, woken := true }; named s fun _ => (s.entered false).wokenOn (s.relayQueue 0 false)) &&
    (let s := two (taking r1 1) { kr with wait := .rlyTake 3 0 9 false 0 0 }; (s.core 1).wait == .rlyTake 3 0 9 false 0 0 && !(s.core 1).frozen && !s.rlyDue 0 && !s.preemptPending 1 && r1.gen == 9 && okIs (s.unheld.queue (s.relayQueue 0 false) 0 true) fun q => taken q.2 q.1) &&
    (let s := two (taking { r1 with gen := 10 } 1) { kr with wait := .rlyTake 3 0 9 false 0 0 }; (s.relay 0).gen != 9 && !s.rlyDue 0 && free s)) = true := by decide +kernel
def work (leg ver : Nat) (coarse canc : Bool) : RlyWork :=
  { core := 0, inst := 1, payload := if coarse then 0x181008 else 0x180008, leg := leg, coarse := coarse, ver := ver, cancelled := canc }
def posting (f : RlyState) (l : List RlyWork) (legs : List Leg) : State :=
  sr { r0 with st := f, work := l, slots := legs.map fun x => (x.leg % 2, x), top := 2, sweepOn := true, sweepAt := 1, sweepTop := 2, sweepNo := 1 } 1 2 0 1 2 0
def lgs : List Leg := [lg 0 .settled 1 0 0 0 true false, lg 1 .live 3 1 2 0 true true]
def postGoes (s : State) (coarse : Bool) (va st : Nat) (w : RlyWork) : Bool :=
  let u := s.entered false
  okTo (relWait (yScope r0.desc) va u) u && okIs (u.queue (s.relayQueue 0 coarse) 0 true) fun q =>
    okIs (q.2.ackCheck q.1 va true) fun h => okIs (rlyArrive 0 h.2) fun a => let v3 := a.2.unheld
      okTo (relWait q.1.scope va v3) v3 && okIs (v3.ackSlot q.1 (va - 8) h.1 (srcOf v3.actor 0) (v3.view (srcOf v3.actor 0)).k true) fun v4 =>
        let y := v4.setRelay 0 { v4.relay 0 with work := (v4.relay 0).work.filter fun y => y != w }
        let m := u.release (srcOf 0 0) (yScope r0.desc)
        let r := if coarse then y.rlyGpost 0 w m else y.rlyPost 0 0 w st m
        okIs (rlyGoM 0 (r.2.setMe (r.2.me.wr 9 (BitVec.ofNat 64 r.1)))) fun v5 => v5.2.held == []
def fine (f : RlyState) (w : RlyWork) (l : Leg → Bool) : Bool :=
  let s := posting f [w] lgs
  issues s an [1, 7, 3] && s.workOf 0 0 0x180008 false == some w && postGoes s false 0x180008 0 w && postGoes s false 0x180008 7 w &&
    (match (s.relay 0).leg? w.leg with | some x => l x | none => l (Leg.new 9))
def coarse (f : RlyState) (w : RlyWork) (l : Leg → Bool) : Bool :=
  let s := posting f [w] lgs
  issues s an [1, 8] && s.workOf 0 0 0x181008 true == some w && postGoes s true 0x181008 0 w &&
    (match (s.relay 0).leg? w.leg with | some x => l x | none => l (Leg.new 9))
theorem test_meets_RelayPosts : (
    (let s := posting .running [work 1 2 false false] lgs; issues s an [1, 7, 3] && issues s an [1, 8] && s.relayOf 0 (kr.rd 1) == some 0 && s.workOf 0 0 0x180018 false == none && s.workOf 0 0 0x180008 true == none) &&
    (fine .stopped (work 1 2 false false) fun _ => true) &&
    (fine .running (work 1 2 false true) fun _ => true) &&
    (fine .running (work 2 2 false false) fun l => l.leg == 9) &&
    (fine .running (work 1 3 false false) fun l => l.st == .live) &&
    (fine .running (work 0 1 false false) fun l => l.st == .settled && l.ver == 1) &&
    (coarse .stopped (work 1 3 true false) fun _ => true) &&
    (coarse .running (work 1 2 true false) fun l => l.ver != 2) &&
    (coarse .running (work 1 3 true false) fun l => l.st == .live && l.ver == 3)) = true := by decide +kernel
def asked (s : State) : Bool :=
  issues s an [1, 4] && s.relayOf 0 (kr.rd 1) == some 0 && okIs (rlyArrive 0 (s.entered false)) fun v =>
    (v.2.unheld.rlyDrain 0).held == [] && (v.2.unheld.rlyClose 0).held == []
theorem test_meets_RelayStatus : (
    (let s := posting .running [] lgs; asked s && s.relayOf 0 (kr.rd 2) == none && decide (500 ≤ s.gtc) && decide (s.gtc < 2000) && !s.preemptPending 0) &&
    (asked (posting .done [] lgs)) &&
    (asked (posting .faulted [] lgs)) &&
    (asked (posting .stopped [] lgs)) &&
    (asked (crewOf (posting .running [] lgs) { cr0 with preempt := true }) && (crewOf (posting .running [] lgs) { cr0 with preempt := true }).preemptPending 0) &&
    (let s := two (posting .done [] lgs) { kr with wait := .rlyWait 3 0 9 0 }; (s.core 1).wait == .rlyWait 3 0 9 0 && !(s.core 1).frozen && (s.relay 0).gen == 9 && (s.relay 0).st == .done) &&
    (let s := two (posting .done [] lgs) { kr with wait := .rlyWait 3 0 8 0 }; (s.core 1).wait == .rlyWait 3 0 8 0 && (s.relay 0).gen != 8)) = true := by decide +kernel
def acting (f : Relay → Relay) (l : List Leg) : State := sr (f { r0 with slots := l.map fun x => (x.leg % 2, x) }) 1 2 0 1 2 0
def legA : Leg := lg 0 .settled 1 1 1 0 false false
def legB : Leg := lg 1 .live 3 1 3 0 false false
theorem test_meets_RelayActions : (
    (((acting id [legA]).relay 0).canSeed && ((acting id [legA]).relay 0).top == 1) &&
    (!((acting id [lg 0 .settled 1 1 0 0 false false]).relay 0).canSeed) &&
    (((acting (fun r => { r with top := 2 }) [legA, legB]).relay 0).canSweep) &&
    (((acting (fun r => { r with top := 2, sp := 2, sweepNo := 1 }) [legA, lg 1 .settled 3 3 3 0 false false]).relay 0).canRetire.isSome) &&
    (((acting (fun r => { r with top := 3, sp := 3, sweepNo := 1 }) [lg 1 .settled 1 1 1 0 false false, lg 2 .settled 3 3 3 0 false false]).relay 0).canEnd) &&
    (!(acting id [legA]).rlyDue 0 && (acting (fun r => { r with desc := rdesc 1000 }) [legA]).rlyDue 0) &&
    (let s := acting (fun r => { r with owed := [(false, 1)] }) [legA]; (s.relay 0).owed == [(false, 1)] && (s.rlyFeed1 0 false 1).1) &&
    (((acting id [legA]).unheld.seedAct 0 1).held == []) &&
    (((acting (fun r => { r with top := 2 }) [legA, legB]).unheld.sweepAct 0).held == []) &&
    ([RlyState.running, .faulted, .stopped].all fun f => ((acting (fun r => { r with st := f, top := 2, sp := 2, sweepNo := 1 }) [legA, lg 1 .settled 3 3 3 0 false false]).unheld.retireAct 0 0).held == []) &&
    (((acting (fun r => { r with top := 3, sp := 3, sweepNo := 1 }) [lg 1 .settled 1 1 1 0 false false, lg 2 .settled 3 3 3 0 false false]).unheld.endAct 0).held == []) &&
    (((acting (fun r => { r with desc := rdesc 1000 }) [legA]).unheld.stopAct 0).held == []) &&
    (((acting (fun r => { r with owed := [(false, 1)] }) [legA]).unheld.rlyFeed1 0 false 1).2.held == [])) = true := by decide +kernel
theorem test_meets_RelaySteps : (
    (let s := acting (fun r => { r with top := 2, sweepOn := true, sweepAt := 1, sweepTop := 2, sweepNo := 1 }) [legA, legB]; let x := s.relay 0; x.st == .running && x.canStep && x.leg? (x.sweepAt - 1) == some legA && x.leg? x.sweepAt == some legB && ((s.rlyOwn 0).rlyStart 0 legA).2.1) &&
    (!((acting id [legA]).relay 0).canStep) &&
    (((acting (fun r => { r with top := 2, sweepOn := true, sweepAt := 1, sweepTop := 2, sweepNo := 1 }) [legA, legB]).unheld.stepAct 0).held == [])) = true := by decide +kernel
def kv : Core :=
  { km with
    s := [(1, 16000), (3, 16001), (4, 128), (5, 0x7FFA00), (6, 0x7FFA80), (7, 130), (8, 0x800000), (9, 0x800)], view32 := 3 }
def fullQ : Core := { kv with q := List.replicate 64 (ent .vx (.vmov en 1 2) 7) }
def fullOf (g : Eng) (mode : Bool) (begun : List (Nat × Nat)) : Core :=
  { kv with
    mode := mode, begun := begun, ctx := { kv.ctx with hdr := { hdr0 with flags := 1 } }
    q := List.replicate (queueDepth g) (ent g (.vmov en 1 2) 7) }
def fulls (mode : Bool) (begun : List (Nat × Nat)) (p : Core → Eng → Bool) : Bool :=
  [Eng.vl, .vx, .vs, .mx].all fun g => let k := fullOf g mode begun
    !k.slipHeld && !k.retry && k.mode == mode && decide (queueDepth g ≤ (k.q.filter fun z => z.eng == g).length) && p k g
theorem test_meets_VectorPushes : (
    (pushes (sm kv) en .vx [] && pushes (sm kv) en .vx [1] && !kv.retry) &&
    (({ kv with mskdepth := 32, outcnt := 16 } : Core).mskdepth == 32 && kv.mskdepth == 0 && kv.outcnt != 16) &&
    (decide ((kv.rd 1).toNat + 1536 / Fmt.f32.bytes ≤ 16384)) &&
    (decide (16384 < (kv.rd 3).toNat + 1536 / Fmt.f32.bytes)) &&
    (!kv.slipHeld && (sm { kv with mode := true }).me.mode && kv.pred 0) &&
    (decide (64 ≤ (fullQ.q.filter fun z => z.eng == .vx).length) && fullQ.begun.isEmpty && !fullQ.mode) &&
    (fulls true [] fun _ _ => true) &&
    (fulls false [] fun k _ => !k.pred 2 && k.begun.all fun w => w.1 != 7) &&
    (fulls false [(7, 1)] fun k g => !k.pred 2 && k.q.any fun z => z.eng == g && k.begun.any fun w => w.1 == z.part) &&
    (fulls false [] fun k _ => k.pred 0 && k.ctx.hdr.lease && !k.ctx.lrel && decide (k.ctx.tiles < 16)) &&
    (fulls false [(7, 1)] fun k g => k.pred 0 && k.q.any fun z => z.eng == g && k.begun.any fun w => w.1 == z.part)) = true := by decide +kernel
def blockAt (b : Nat) : State := put (smt kv) 0x10002C 48 b
def owned (o : AMap Nat) : State := { sm kv with teams := [(0, { Team.reset with owner := o })] }
theorem test_meets_EngineMemoryPushes : (
    (pushes (sm kv) en .vl [5] && pushes (sm kv) en .vs [4] && pushes (sm kv) en .vl [4, 9]) &&
    (decide ((kv.rd 5).toInt % 128 = 0 ∧ (kv.rd 5).toInt + 1536 ≤ 2 ^ 23)) &&
    (decide (2 ^ 23 < (kv.rd 6).toInt + 1536)) &&
    (decide ((kv.rd 7).toInt % 128 ≠ 0)) &&
    (decide (2 ^ 23 ≤ (kv.rd 8).toNat) && decide ((kv.rd 6).toNat < 2 ^ 23)) &&
    (kv.view32.getLsbD 1 && !kv.view32.getLsbD 2 && ((owned []).team 0).owner.find 2 == none && ((owned [(2, 1)]).team 0).owner.find 2 == some 1) &&
    (okIs (readBlock ((blockAt (4 + 4 * 2 ^ 36 + 2 ^ 92 + 2 ^ 148 + 2 ^ 204 + 256 * 2 ^ 280)).entered false)) fun p => okTo (blockCheck p.1 (128 + p.1.base) false p.2) p.2) &&
    (okIs (readBlock ((blockAt (4 + 4 * 2 ^ 36 + 2 ^ 92 + 2 ^ 148 + 2 ^ 204 + 2 ^ 264 + 0xFFFFFFFFF0 * 2 ^ 280)).entered false)) fun p => traps (blockCheck p.1 (128 + p.1.base) true p.2))) = true := by decide +kernel
def kx : Core :=
  { kv with
    ctx := { kv.ctx with hdr := { hdr0 with flags := 1 } }
    s := [(2, 1), (3, 0xFFFFFFFF), (4, 0x8180808080808081), (5, 2), (7, 0x60), (8, 0x100000000)] }
def tiles (k : Core) (o : AMap Nat) : State := { sm k with teams := [(0, { Team.reset with owner := o })] }
theorem test_meets_TilePushes : (
    (pushes (tiles kx []) en .mx [] && pushes (tiles kx []) en .mx [4] && !kx.retry) &&
    (kx.ctx.hdr.lease && !kx.ctx.lrel && decide (kx.ctx.tiles < 16) && !kv.ctx.hdr.lease) &&
    (kx.view32.getLsbD 0 && kx.view32.getLsbD 1 && !kx.view32.getLsbD 2 && ((tiles kx []).team 0).owner.find 2 == none) &&
    ((List.range 8).all (fun j => fld (kx.rd 4) (8 * j + 5) 2 == 0 && (bit (kx.rd 4) (8 * j + 7) || kx.view32.getLsbD (fld (kx.rd 4) (8 * j) 5)))) &&
    (fld (kx.rd 7) 5 2 != 0) &&
    (decide (2 ^ 32 ≤ (kx.rd 8).toNat)) &&
    ((List.range 32).all fun j => ((tiles kx [(0, 0)]).team 0).owner.find j == none || ((tiles kx [(0, 0)]).team 0).owner.find j == some 0) &&
    (({ kx with view32 := 0xFFFFFFFF } : Core).view32.getLsbD 31) &&
    (((tiles kx [(2, 1)]).team 0).owner.find 2 == some 1 && ((tiles kx [(2, 1)]).core 1).crew != kx.crew)) = true := by decide +kernel
def kE : Core := { km with ccc := 100, begun := [(0, 1)] }
def add1 : Instr := .vadd en { fmt := .f32, rm := .rne, sat := false, d := 3, a := 1, b := 2 }
def flying (e : Entry) (vws : List VWrite) (sws : List (Nat × Byte)) : Flight :=
  { e := e, start := 90, land := 100, active := true, push := false, vws := vws, sws := sws, flags := 3, mop := none, out := none, fw := none,
    samp := [], src := 0, msk := 0, rel := [] }
def guarded : Core :=
  { kE with
    q := [{ ent .vl (.vld en false 4 1 0) 0 with x0 := 0x100 }]
    chans := [(0, { Chan.reset with act := true, lo := 0, hi := 0x1000, wm := 0x100 })] }
theorem test_meets_EngineEntries : (
    (!kE.frozen && !kE.contained && kE.crew != none) &&
    ((sm { kE with crew := none }).me.crew == none) &&
    (guarded.freezers != []) &&
    (let k : Core := { kE with q := [ent .vx add1 0] }; decide (k.busy.get 0 (engCode .vx) ≤ k.ccc) && k.freezers == [] && k.q.find? (fun e => e.eng == .vx) == some (ent .vx add1 0) && k.mskip == 0 && popQueues (ent .vx add1 0) == []) &&
    (popQueues (ent .vx (.vmov { en with pa := true } 1 2) 0) != [] && kE.tok.get 0 0 == 0) &&
    (kE.begun.all fun b => b.1 != 5) &&
    (let f := flying (ent .vx add1 0) [{ reg := 3, mask := 0xFF00, val := 0xABCD }] []; [f].filter (fun x => decide (x.land ≤ kE.ccc) && (x.e.eng == .vx && !landsLate x.e)) == [f] && f.active && !f.push && !isTile f.e.i && !isAcc f.e.i) &&
    (let f := flying (ent .vs (.vst en false 1 2 0) 0) [] [(kSpad 0 5, 3), (kSpad 0 9, 7)]; [f].filter (fun x => decide (x.land ≤ kE.ccc) && landsLate x.e) == [f] && rising f.sws && (sm kE).mem.wf)) = true := by decide +kernel
theorem test_meets_VectorResults : (
    (decide (383 < 1536 / Fmt.f32.bytes)) &&
    (decide (767 < 1536 / Fmt.bf16.bytes)) &&
    (decide (1535 < 1536 / Fmt.i8.bytes)) &&
    (decide (383 < 384)) &&
    (decide (1 * min Fmt.f32.bytes Fmt.bf16.bytes < max Fmt.f32.bytes Fmt.bf16.bytes)) &&
    (decide (1535 < 1536 / Fmt.i8.bytes) && !elemOn (0 : Mask) 4 7 && elemOn (BitVec.allOnes 384) 4 7 && decide (1536 / 4 ≤ 384)) &&
    (decide (127 < 128)) &&
    (let f : Flight := { flying (ent .mx (.mma en 0 1 2 100) 0) [] [] with fw := some 0x100, start := 0 }; let k : Core := { kE with ccc := 200, fly := [f] }
    !k.frozen && !k.contained && k.crew != none && isTile f.e.i && f.active && !f.push && decide (f.start + interval f.e.i ≤ k.ccc) &&
      k.fly.filter (fun g => decide (g.land ≤ k.ccc) && (g.e.eng == .mx && !landsLate g.e)) == [f]) &&
    (decide (16384 ≤ 1 * 16384) && mmagSkip 0x80 0 && !mmagSkip 0x80 1)) = true := by decide +kernel
def leasing (p : List Part) (q : List Entry) (t : Team) : State := { sm { kE with parts := p, q := q } with teams := [(0, t)] }
def lpart : Part := { part 1 1 0 true with hdr := { hdr0 with flags := 1 } }
theorem test_meets_PartsAndLeases : (
    (hdr0.magic == 0xA && hdr0.len != 0 && hdr0.flags.toNat / 8 == 0 && !km.mode && km.headerFault hdr0.afterCp.toNat == none) &&
    (({ hdr0 with flags := 8 } : Header).flags.toNat / 8 != 0) &&
    ((leasing [] [] Team.reset).me.parts == []) &&
    (let s := leasing [part 1 1 0 true] [ent .vx add1 1] Team.reset; s.partReady 0 (part 1 1 0 true) && !(part 1 1 0 true).hdr.lease) &&
    (let s := leasing [lpart] [] Team.reset; s.partReady 0 lpart && lpart.hdr.lease && (s.team 0).lease == none && (s.team 0).reqs == []) &&
    (((leasing [lpart] [] { Team.reset with lease := some (0, 1) }).team 0).lease == some (0, 1)) &&
    (((leasing [lpart] [] { Team.reset with lease := some (1, 1) }).team 0).lease == some (1, 1)) &&
    (kE.busy.get 0 8 ≤ kE.ccc && (leasing [] [ent .mx (.lrel en) 1] { Team.reset with lease := some (0, 1) }).me.q.any fun e => e.eng == .mx && e.sec == 1)) = true := by decide +kernel
def ch0 : Chan := { Chan.reset with gen := 7, phase := .idle, act := true, lo := 0, hi := 0x1000, wm := 0x80 }
def copying (x : Chan) (r : List (Nat × Word)) : State := sm { km with chans := [(1, x)], s := r }
def cregs : List (Nat × Word) :=
  [(1, 0x100000), (2, 0x100044), (4, 0x100000080), (5, 0x80000080), (6, 0x1000000000000080), (7, 0x1000000000000081),
   (8, BitVec.ofNat 64 (1 + srcOf 0 5 * 2 ^ 8 + 7 * 2 ^ 24)), (9, BitVec.ofNat 64 (1 + srcOf 0 5 * 2 ^ 8 + 8 * 2 ^ 24))]
theorem test_meets_CopyWords : (
    (let s := copying ch0 cregs; !s.me.mode && !s.me.ctx.hdr.sqok && issues s an [1, 4] && issues s an [8] && issues s an [] && issues s an [1, 6]) &&
    (({ ch0 with fault := some (tr 4 3 1 5) } : Chan).fault.isSome) &&
    (({ ch0 with phase := .moving } : Chan).phase != .idle && ch0.phase == .idle && ch0.fault.isNone) &&
    (let v : Word := 0x100000080; fld v 48 16 == 0 && fld v 0 24 % 128 == 0 && fld v 24 24 % 128 == 0 && decide (fld v 0 24 < fld v 24 24)) &&
    (!(let v : Word := 0x80000080; decide (fld v 0 24 < fld v 24 24))) &&
    (0x100044 % 64 != 0) &&
    (okay (checkVa 0x100000 .rd ((copying ch0 cregs).entered true))) &&
    (addrWord 0x100000 == some (0, 0x100000) && addrWord 0x1000000000000080 == some (1, 0x80) && addrWord 0x4000000000000000 == none) &&
    (0x80 % 128 == 0 && 0x81 % 128 != 0) &&
    ((copying ch0 cregs).chanPosted 0 1 == []) &&
    (let s := copying ch0 cregs; let h := s.me.rd 8; fld h 56 8 == fld s.me.dlost 32 8 && fld h 3 5 == 0 && fld h 8 16 == srcOf (coreOfSrc (fld h 8 16)) 5 && fld h 24 32 == 7) &&
    ((sm { km with mode := true }).me.mode) &&
    (let k := (sm { km with ctx := { km.ctx with hdr := Header.ofBits 0x4 } }).me; k.ctx.hdr.sqok && !k.mode) &&
    (let s := copying { ch0 with phase := .moving } cregs; let u := s.entered true; issues s an [8] && (u.cancelWaits 0 1).isNone && s.chanPosted 0 1 == [] && (let h := s.me.rd 8; fld h 0 3 == 1 && fld h 24 32 == 7 && (s.me.chan 1).phase != .idle)) &&
    (let s := smt { km with s := [(1, 0x100000), (2, 64)] }; let v := s.entered false; issues s an [1, 2] && !s.me.ctx.hdr.sqok && (match v.hintRuns 0 (srcOf 0 0) [(0x100000, 64)] with | .ok (some _, _) => true | _ => false)) &&
    (let s := smt { km with s := [(1, 0x160000), (2, 64)] }; let v := s.entered false; issues s an [1, 2] && (match v.hintRuns 0 (srcOf 0 0) [(0x160000, 64)] with | .error _ => true | _ => false))) = true := by decide +kernel
def z0 : Xfer := { mkXfer (0, 0x100000) (1, 0x80) [200] [1] 1 0 with teams := [0], checked := [0] }
def events (ph : ChPhase) (z : Option Xfer) (f : Chan → Chan := id) : State :=
  smt { km with chans := [(1, f { ch0 with phase := ph, cur := z, lo := 0x80, hi := 0x180, part := 1, recVa := 0x7700000 })] }
def kpeer : Core :=
  { km with tlb := { tl 0x170000 3 0x20 with leaf := leaf 3 0x20 ||| 0x10000000002000 } :: tlbs }
/-- A transfer of the scratchpad's bytes from 0x1000 up to memory at `va`. -/
def toMem (va done : Nat) : Xfer := { mkXfer (1, 0x1000) (0, va) [200] [1] 1 0 with done := done }
def movingMem (z : Xfer) (p : Target → Xfer → Bool) : Bool :=
  let s : State :=
    { smt { kpeer with chans := [(1, { ch0 with phase := .moving, cur := some z, part := 1 })] } with discovered := true, peers := [1] }
  decide (s.logCount 0 < 255) && s.chanPosted 0 1 == [] && !z.hint && z.checked == z.teams && z.failed == [] && !z.lchk && s.cpLanded == [] &&
    z.dstSpace == 0 && z.teams == [] && z.rdReq == none && z.srcSpace == 1 &&
    (match s.look 0 (srcOf 0 5) (z.at z.done).2 .wr true with | .hit g => p g z | _ => false)
def putting (p : RecPut) (l : List Req) (q : State → Xfer → Bool) : Bool :=
  let z : Xfer := { z0 with recVa := 0x100080, words := [1, 2, 3, 4, 5, 6, 7, 8], put := some p }
  let s : State := { events .ending (some z) with reqs := l, nextReq := 1 }
  z.lines == [] && decide (s.logCount 0 < 256) && q s z
theorem test_meets_CopyEvents : (
    (let s := events .awaiting none; let k := s.core 0; k.parts.isEmpty && k.cur.isNone && !k.contained && (s.die 0).jobs.isEmpty && s.reqs.isEmpty && (k.chan 1).one.isNone) &&
    ((let s := events .fetch none; s.look 0 (srcOf 0 5) 0x150000 .rd true == .bad cPERM) && cPERM != cECCU) &&
    ((match (events .fetch none).look 0 (srcOf 0 5) 0x100000 .rd true with | .hit _ => true | _ => false) && ((events .fetch none).core 0).chan 1 == { ((events .fetch none).core 0).chan 1 with rdReq := none } && (events .fetch none).logCount 0 < 256) &&
    (someIs (((events .notBefore (some { z0 with notBefore := 1000 })).core 0).chan 1).cur fun z => decide (z.notBefore ≤ 1000)) &&
    (someIs (((events .notBefore (some { z0 with notBefore := 1001 })).core 0).chan 1).cur fun z => decide (1000 < z.notBefore)) &&
    (let s := events .moving (some z0); z0.dstSpace == 1 && z0.srcSpace == 0 && z0.failed == [] && !z0.lchk && z0.rdReq == none && s.cpLanded == [] && s.chanPosted 0 1 == [] &&
      decide (s.logCount 0 < 255) && s.mem.wf && (match s.look 0 (srcOf 0 5) (z0.at z0.done).1 .rd true with | .hit _ => true | _ => false)) &&
    (({ z0 with srcSpace := 1, srcAddr := 0x1000 } : Xfer).srcSpace == 1 && z0.rdReq == none) &&
    (let s : State := { events .moving (some { z0 with rdReq := some (0, 8) }) with reqs := [{ rq 0 .performed with chan := some (1, 7), old := 5 }], nextReq := 1 }
    s.chanPosted 0 1 == [] && s.cpLanded == [] && s.req 0 == some { rq 0 .performed with chan := some (1, 7), old := 5 } && decide ((z0.at z0.done).2 % 8 + 8 ≤ 8)) &&
    (let s := events .ending (some { z0 with recVa := 0x100080, words := [1, 2, 3, 4, 5, 6, 7, 8] }); s.mem.wf && s.watchers.isEmpty && someIs ((s.core 0).chan 1).cur fun z => decide (z.scope ≤ 3) && z.endStatus == 0 && z.words != [] && z.lines == [] && s.chanPosted 0 1 == [] && okIs (s.xlateNow 0 0 z.recVa .wr true) fun g => g.1.key % 64 == 0 && s.snoopsDue (srcOf 0 5) g.1 64 == []) &&
    (({ z0 with status := 4 } : Xfer).endStatus != cECCU && ({ z0 with status := 4 } : Xfer).endStatus != 0) &&
    (movingMem (toMem 0x100100 0) fun g _ => g.apt == 0) &&
    (movingMem (toMem 0x170000 0) fun g z => g.apt == 3 && lCp g.leaf == 2 && z.later ((z.at z.done).2 / 64) (z.done + z.run 8 z.done)) &&
    (movingMem (toMem 0x170000 56) fun g z => g.apt == 3 && lCp g.leaf == 2 && !z.later ((z.at z.done).2 / 64) (z.done + z.run 8 z.done)) &&
    (let z : Xfer := { z0 with teams := [0, 1], checked := [0, 1] }; let m := z.run 8 z.done; let key (tm : Nat) := dstKey z tm (z.at z.done).2; z.dstSpace != 0 && decide z.teams.Nodup && decide (key 0 + m ≤ key 1)) &&
    (let z : Xfer := { z0 with dstSpace := 0, dstAddr := 0x100100, teams := [], checked := [] }; movingMem { z with srcSpace := 1 } fun g _ => g.apt == 0) &&
    (let s := events .ending (some { z0 with words := [] }); s.chanPosted 0 1 == [] && someIs ((s.core 0).chan 1).cur fun z => z.put == none && z.words == [] && z.lines == [] && z.endStatus == 0 && z.last) &&
    (let r : Req := { rq 0 .sent with kind := .write 7, chan := some (1, 7) }; let s : State := { events .ending (some z0) with reqs := [r], nextReq := 1 }; z0.put == none && (s.chanPosted 0 1).any fun x => s.endWaits z0.scope x) &&
    (putting { st := 0, src := none, own := false, req := none } [] fun s z => match s.look 0 (srcOf 0 5) z.recVa .wr true with | .hit _ => true | _ => false) &&
    (putting { st := 0, src := none, own := true, req := none } [] fun s z => match s.look 0 (srcOf 0 5) z.recVa .wr true with | .hit _ => true | _ => false) &&
    (putting { st := 0, src := none, own := false, req := some 0 } [rq 0 .sent] fun s _ => someIs (s.req 0) fun r => r.pending) &&
    (putting { st := 0, src := none, own := true, req := some 0 } [rq 0 .performed] fun s _ => someIs (s.req 0) fun r => r.phase == .performed) &&
    (putting { st := 0, src := none, own := false, req := some 0 } [] fun s _ => s.req 0 == none) &&
    (putting { st := 0, src := none, own := false, req := some 0 } [rq 0 .performed] fun s _ => someIs (s.req 0) fun r => r.phase == .performed) &&
    (putting { st := 0, src := none, own := true, req := some 0 } [] fun s _ => s.req 0 == none)) = true := by decide +kernel
def job (i : Instr) (done n : Nat) : QJob :=
  { id := 3, core := 0, i := i, d := 0x140000, a := 0x140100, b := 0x140200, fill := 0x3F800000, pages := [(0x14, kQuay 0x10000)], n := n,
    done := done, acc := 0, flags := 5, entry := none }
def quays (l : List QJob) : State :=
  let s := smt { km with s := [(1, 0x140000), (2, 0x140100), (3, 0x140200)] }
  { s with dies := [(0, { s.die 0 with jobs := l })] }
theorem test_meets_QuayWords : (
    (let s := quays []; issues s an [1, 2, 3] && !s.me.mode && !s.me.ctx.hdr.sqok && okay (quayAll [{ va := 0x140100, z := 4, len := 8, acc := .rd }, { va := 0x140200, z := 4, len := 8, acc := .rd }, { va := 0x140000, z := 4, len := 8, acc := .wr }] (s.entered false)) && decide (s.pend 0 < 64)) &&
    (decide (64 ≤ (quays ((List.range 64).map fun i => { job (.qfill an 1 1 2 2) 0 2 with id := i })).pend 0)) &&
    ((sm { km with mode := true }).me.mode) &&
    (let k := (sm { km with ctx := { km.ctx with hdr := Header.ofBits 0x4 } }).me; k.ctx.hdr.sqok && !k.mode) &&
    (([.qop an .add .f32 false 1 2 3 2, .qred an .sum .f32 true 1 2 2, .qfill an 3 1 2 2] : List Instr).all fun i => (quays [job i 0 2]).quayJob 0 3 == some (job i 0 2) && (quays [job i 2 2]).quayJob 0 3 == some (job i 2 2)) &&
    ((quays []).quayJob 0 3 == none && (quays []).watchers.isEmpty) &&
    (let j : QJob := { job (.qfill an 1 1 2 2) 0 2 with entry := some 9 }; let s := quays [j]; s.quayJob 0 3 == some j && decide (j.done < j.n) && dieOf j.core == 0 && decide (s.logCount 0 < 256)) &&
    (let j := job (.qfill an 1 1 2 2) 0 2; let s : State := { quays [j] with reqs := (List.range 256).map fun i => { rq i .sent with kind := .write 7 } }; s.quayJob 0 3 == some j && decide (256 ≤ s.logCount 0)) &&
    (let s := quays []; issues s an [1, 2] && okay (quayAll [{ va := 0x140000, z := 4, len := 8, acc := .wr }] (s.entered false)))) = true := by decide +kernel
def homeOf (r : Req) : State := { smt km with reqs := [r], nextReq := 1 }
def rdy (r : Req) : Bool := let s := homeOf r; r.pending && s.inOrder r && s.inService r.key && s.reaches r.key && !s.repairing r.key && (s.deviceBias r.devBias r.key || r.snooped) && decide (kSpace r.key < 7) && s.mem.wf
theorem test_meets_Homes : (
    ((homeOf (rq 0 .sent)).req 0 == some (rq 0 .sent) && !(rq 0 .performed).pending) &&
    (let r : Req := { rq 0 .sent with devBias := false }; let s := homeOf r; r.pending && s.inOrder r && s.inService r.key && !s.repairing r.key && r.apt == 0 && !s.deviceBias r.devBias r.key && !r.snooped) &&
    (([.read, .write 7, .atom .add .w64 7, .cas 1 2] : List ReqKind).all fun kd => rdy { rq 0 .sent with kind := kd, snooped := true, ordinary := false }) &&
    (rdy { rq 0 .sent with snooped := true }) &&
    ((rq 0 .held).phase == .held && (rq 0 .snoop).phase == .snoop) &&
    ((let r : Req := { rq 0 .sent with apt := 3, tries := 8 }; r.pending && (homeOf r).inOrder r && decide (8 ≤ r.tries)) && decide ((rq 0 .sent).tries < 8)) &&
    (let r : Req := { rq 0 .sent with apt := 3 }; let r2 : Req := { rq 0 .sent with apt := 3, crc := (2, 16) }; (homeOf r).reqs == [r] && (r.crc.1 == 0 && decide (r.crc.2 < 16)) && decide (16 ≤ r2.crc.2)) &&
    (let s : State := { homeOf (rq 0 .sent) with corrected := [(rowKey 0 3, 100)], cfgs := [cfg0] }; decide (s.rowThreshold < s.corrected.get 0 (rowKey 0 3)) && s.repairs == []) &&
    (let r := rq 0 .held; stackOf r.key == 0) &&
    (let a : Req := { rq 0 .failed with kind := .line 1 1, apt := 3, posted := true, chan := some (1, 7), tag := 1 }; let b : Req := { rq 1 .sent with kind := .line 1 1, apt := 3, posted := true, chan := some (1, 7), tag := 2 }; let s : State := { smt km with reqs := [a, b], nextReq := 2 }; b.pending && s.inOrder b && s.lineLost b) &&
    (let r := rq 0 .sent; !(homeOf r).lineLost r) &&
    ((let r : Req := { rq 0 .sent with apt := 3, kind := .write 7 }; r.stores && r.pending) && (let r : Req := { rq 0 .performed with kind := .write 7 }; r.stores))) = true := by decide +kernel
theorem test_meets_Homes_repaired :
    (let s : State := { homeOf { rq 0 .sent with snooped := true } with repairs := [(stackOf 0x200000, Config.rowOf 0x200000)] }
     s.repairs.contains (stackOf 0x200000, Config.rowOf 0x200000) && decide (kSpace 0x200000 < 2)) = true := by
  simp; decide
def walking (va : Nat) (a : Acc) : State :=
  let s := smt km
  { s with dies := [(0, { s.die 0 with walks := [{ stamp := 0, src := 0, core := 0, asid := 0, va := va, acc := a, user := true, slot := true, level := 0, out := none }] })] }
theorem test_meets_TableWalks : (
    ((walking 0x100000 .rd).mem.wf && ((walking 0x100000 .rd).die 0).walks.length == 1 && (walking 0x100000 .rd).watchers.isEmpty && ((walking 0x100000 .rd).walkReads 0 0 0x100000).all fun a => (walking 0x100000 .rd).inService (kHbm a)) &&
    (!(({ walking 0x100000 .rd with ready := 0 } : State).walkReads 0 0 0x100000).all fun a => ({ walking 0x100000 .rd with ready := 0 } : State).inService (kHbm a)) &&
    (match (walking 0x190000 .rd).walkTables 0 0 0x190000 with | .error _ => true | _ => false) &&
    (okIs ((walking 0x150000 .rd).walkTables 0 0 0x150000) fun f => (leafCheck (walking 0x150000 .rd) f.level f.leaf 0x150000 .rd true).isSome) &&
    (okIs ((walking 0x160000 .rd).walkTables 0 0 0x160000) fun f => (leafCheck (walking 0x160000 .rd) f.level f.leaf 0x160000 .rd true).isNone && needsAD f.leaf .rd) &&
    (okIs ((walking 0x100000 .rd).walkTables 0 0 0x100000) fun f => (leafCheck (walking 0x100000 .rd) f.level f.leaf 0x100000 .rd true).isNone && !needsAD f.leaf .rd) &&
    (!(walking 0x100000 .rd).walkHeld ((walking 0x100000 .rd).walkReads 0 0 0x100000))) = true := by decide +kernel
/-- R387: a walk whose first table lies in a row in repair. -/
theorem test_meets_TableWalks_held :
    ({ walking 0x100000 .rd with repairs := [(stackOf (kHbm 0xFFC000000), Config.rowOf (kHbm 0xFFC000000))] } : State).walkHeld
      ((walking 0x100000 .rd).walkReads 0 0 0x100000) = true := by
  simp only [State.walkHeld, List.any_eq_true]
  refine ⟨0xFFC000000, by decide +kernel, ?_⟩
  have h : kSpace (kHbm 0xFFC000000) < 2 := by decide
  simp [State.repairing, h]
def lastParts : Core := { kE with parts := [part 1 1 0 true] }
theorem test_meets_Containment : (
    (((two (sm lastParts) km).core 1).crew == some 0 && ((two (sm lastParts) km).core 1).wait != .ended && !((two (sm lastParts) km).core 1).contained) &&
    (((sm lastParts).core 0).crew == some 0 && !lastParts.contained && lastParts.wait != .ended) &&
    (((sm km).core 1).crew == none && ({ km with contained := true } : Core).contained && ({ km with wait := .ended } : Core).wait == .ended) &&
    (let k : Core := { km with contained := true, leaving := true }; (sm k).me.crew != none && k.leaving) &&
    (({ km with contained := true } : Core).leaving == false)) = true := by decide +kernel
def kp (w : Wait) : Core := { km with wait := w, parts := [part 1 1 0 true], saveptr := 0x2000001 }
def pre (l : AMap Core) : State := { smt km with cores := l, crews := [(0, { cr0 with preempt := true })] }
def resumes : State :=
  { starting with crews := [(0, { waitingCrew with rcd := BitVec.ofNat 1024 (rec0 + 2 ^ 256), legs := [(0, .saved 0)], saved := [(0, kp .preempt)] })] }
theorem test_meets_Preemption : (
    (((pre [(0, kp .none)]).core 0).crew == some 0 && (kp .none).wait != .preempt && (pre [(0, kp .none)]).preemptNow 0) &&
    (let s := pre [(0, kp .preempt)]; let k := s.core 0; k.wait == .preempt && !k.frozen && !k.contained && (s.crew 0).saved.find (k.leg * 1024) == none && s.preemptQuiet 0 && s.cores.all fun y => y.1 == 0 && decide (y.1 < 640)) &&
    (let s := pre [(0, kp .preempt), (1, kp .none)]; s.preemptQuiet 0 && decide (s.cores.map fun y => y.1).Nodup && s.cores.any fun y => y.2.crew == some 0 && y.1 != 0 && !s.hasSaved 0 y.1) &&
    (resumes.nextStart 0 == some (0, [(0, 0)]) && (resumes.crew 0).legs.find 0 == some (.saved 0)) &&
    (let s := pre [(0, kp .preempt), (1, kp .preempt)]; let s : State := { s with crews := [(0, { cr0 with preempt := true, saved := [(1, kp .preempt)] })] }; s.preemptQuiet 0 && (s.crew 0).saved.find 0 == none && s.hasSaved 0 1 && (s.core 0).origin == (s.core 1).origin) &&
    ((resumes.crew 0).saved.all fun y => !resumes.areaHeld y.2.area)) = true := by decide +kernel
def cmdW (opc a0 a1 : Nat) : Nat := opc + 0xBEEF * 2 ^ 16 + a0 * 2 ^ 64 + a1 * 2 ^ 128
/-- The command stands in slot 3 of a ring of sixteen, and is the last written. -/
def ring (opc a0 a1 : Nat) (mode : Nat := 0) (m : Memory := []) : State :=
  { put { smt km with mem := m } (kHost (0x1000 + 64 * 3)) 64 (cmdW opc a0 a1) with crbase := 0x1000, cpbase := 0x2000, crsize := 4, cdone := 2, doorv := 3, barMode := mode }
def heads (s : State) (opc a0 a1 : Nat) : Bool :=
  s.outstanding && fld s.headWord 0 8 == opc && (s.hostRead (s.crbase.toNat + 64 * s.cmdSlot) 64).1 == cmdW opc a0 a1 &&
    (let w := BitVec.ofNat 512 (cmdW opc a0 a1)
     fld w 8 8 == 0 && fld w 32 32 == 0 && fld w 256 256 == 0 && fld w 64 64 == a0 && fld w 128 64 == a1)
theorem heads_sound {s : State} {opc a0 a1 : Nat} (h : heads s opc a0 a1 = true) :
    Heads s (s.hostRead (s.crbase.toNat + 64 * s.cmdSlot) 64).2 opc a0 a1 := by
  simp only [heads, Bool.and_eq_true, beq_iff_eq, and_assoc] at h
  obtain ⟨ho, hh, hw, hf⟩ := h
  refine ⟨ho, hh, cmdW opc a0 a1, ?_, hf⟩
  rw [← hw]
theorem test_meets_SettingCommands : (
    (([(4, 63, 0x100001), (4, 64, 1), (5, 63, 0xFFC000001), (5, 64, 0xFFC000001), (6, 511, 1), (6, 512, 0), (7, 0xFFFF, 0), (7, 64, 0), (10, 3, 23), (10, 0, 0), (10, 4, 0), (11, 0x4000, 4096), (11, 0, 4097), (12, 63, 0), (12, 5, 0x10000), (12, 5, 0x10001), (0, 0, 0), (255, 0, 0)] : List (Nat × Nat × Nat)).all fun c => heads (ring c.1 c.2.1 c.2.2) c.1 c.2.1 c.2.2) &&
    ((ring 4 0 0).retireDue == none && (ring 4 0 0).barMode == 0 && (ring 4 0 0 1).barMode == 1) &&
    ptbaseOk 0xFFC000001 &&
    (0x10000 / 2 ^ 36 == (0x10000 + 640 * Config.saveSize - 1) / 2 ^ 36) &&
    ((((ring 10 0 0).hostRead 0 64).2.core 0).crew == some 0) &&
    ((ring 4 0 0).mem.wf && (ring 4 0 0).watchers.isEmpty) &&
    ((let s := ring 10 0 5; s.cfgs != [] || true) && (([(10, 0, 5)] : List (Nat × Nat × Nat)).all fun c => heads { ring c.1 c.2.1 c.2.2 with cfgs := [cfg0] } c.1 c.2.1 c.2.2) && (((ring 10 0 5).hostRead 0 64).2.core 5).crew == none && ((ring 10 0 5).spare.find 0) == none)) = true := by decide +kernel
theorem test_meets_CrewAndImageCommands : (
    (([(1, 0x100100, 64), (1, 0x100100, 0), (1, 0x900000, 0), (2, 2 ^ 32, 0), (2, 2 ^ 33, 0), (3, 2 ^ 32, 0), (3, 2 ^ 33, 0), (8, 0x5000, 24), (9, 0, 0)] : List (Nat × Nat × Nat)).all fun c => heads (ring c.1 c.2.1 c.2.2) c.1 c.2.1 c.2.2) &&
    (let u := ((ring 1 0x100100 0 0 tblm).hostRead (0x1000 + 192) 64).2; okay (u.readVa cmdSrc 0 0 0x100100 128 true) && traps (u.readVa cmdSrc 0 0 0x900000 128 true) && !noSnoop (({ u with bias := [] } : State).readVa cmdSrc 0 0 0x100100 128 true)) &&
    (let u := ((ring 1 0x100100 0 0 (tblm.setNat 0x200100 128 rec0)).hostRead (0x1000 + 192) 64).2; okIs (u.readVa cmdSrc 0 0 0x100100 128 true) fun p => let x := BitVec.ofNat 1024 p.1; rAsid x == 0 && (let v := p.2.setView (launchSrc 0) ((p.2.view (launchSrc 0)).join (p.2.view cmdSrc).k); okay (v.accept (launchSrc 0) 0 none none false Msg.none x))) &&
    (let s := ring 2 (2 ^ 32) 0; s.handleEntry (2 ^ 32) == some 0 && s.handleEntry (2 ^ 33) == none && s.crewCores 0 == [0] && (s.crew 0).live && (s.crew 0).status == none && !(s.crew 0).preempt && !bit (s.core 0).saveptr 0 && bit ({ km with saveptr := 1 } : Core).saveptr 0) &&
    (!(ring 9 0 0).slotValid ((ring 9 0 0).slots.get FwSlot.reset 1)) &&
    (decide (({ ring 9 0 0 with fwChange := some 5 } : State).gtc < 5 + 10 ^ 9) && decide (5 + 10 ^ 9 ≤ ({ ring 9 0 0 with gtc := 10 ^ 10 } : State).gtc))) = true := by decide +kernel
def fws (m : Bool) (a b : Word) : State := (smt km).setFwc 0 { FwCore.reset with x := [(1, a), (2, b)], machine := m }
theorem test_meets_FirmwareWords : (
    (!((fws false 0 0).fwc 0).machine && ((fws true 0 0).fwc 0).machine) &&
    (decide ((((fws true 15 0).fwc 0).rd 1).toNat < 16) && decide (16 ≤ (((fws true 16 0).fwc 0).rd 1).toNat)) &&
    (decide ((((fws true 721 0).fwc 0).rd 1).toNat ≤ 721) && decide (721 < (((fws true 722 0).fwc 0).rd 1).toNat)) &&
    ((((fws true 65 0).fwc 0).rd 1).toNat % 64 != 0) &&
    (unitBit (fld (((fws true 64 2).fwc 0).rd 2) 0 16) == none && unitBit (29 * 128 + 24) == some (some 713) && (fws true 64 0).ready.getLsbD 713) &&
    ((((fws true 64 2).fwc 0).rd 1).toNat % 64 == 0 && (fws true 64 2).inService (kHbm (hbmLocal 64)) && !(fws true 64 2).repairing (kHbm (hbmLocal 64))) &&
    (!({ fws true 64 2 with ready := 0 } : State).inService (kHbm (hbmLocal 64)))) = true := by decide +kernel
/-- Every core is free, the firmware runs, and the configuration record allows no error of a core (R388). -/
def worn : State := { smt km with cores := [], cfgs := [{ cfg0 with coreThreshold := 0 }], booted := true }
theorem test_meets_BootHostAndFabric : (
    (worn.retireDue == none && !worn.outstanding && worn.cfg == some { cfg0 with coreThreshold := 0 } && worn.booted && worn.barMode == 0 && worn.retiring == [] && worn.ready == BitVec.allOnes 736 && decide (0 ≤ worn.gtc)) &&
    (let s := smt km; s.hostReaches 0x200000 && s.hostReaches (kHost 4) && !s.hostReaches (kQuay 4) && s.watchers.isEmpty && s.mem.wf) &&
    (!State.reset.booted && ({ State.reset with booted := true } : State).booted) &&
    (!State.reset.slotValid (State.reset.slots.get FwSlot.reset 0) && !State.reset.slotValid (State.reset.slots.get FwSlot.reset 1)) &&
    ((smt km).linked == false && !(smt km).repairing 0x200000) &&
    ([0, 1].all fun k => !State.reset.readFlash.slotValid ((State.reset.slots).get FwSlot.reset k))) = true := by decide +kernel
/-- R388: the core that firmware looks at is free, ready and at its threshold, whatever the errors counted are. -/
theorem test_meets_BootHostAndFabric_worn :
    let c := (Config.coreErrors worn.count).1 % 640
    worn.ready.getLsbD c = true ∧ 0 ≤ (Config.coreErrors worn.count).2 ∧ (worn.core c).crew = none ∧ c ∉ worn.retiring := by
  have h : worn.ready = BitVec.allOnes 736 := by decide +kernel
  have l : (Config.coreErrors worn.count).1 % 640 < 736 := Nat.lt_trans (Nat.mod_lt _ (by decide)) (by decide)
  exact ⟨by rw [h, BitVec.getLsbD_allOnes]; exact decide_eq_true l, Nat.zero_le _, rfl, by simp [worn, smt, sm, st, State.reset]⟩
def specs : State := { starting with crews := [(0, { waitingCrew with rcd := BitVec.ofNat 1024 (rec0 + 2 ^ 256 + 2 ^ 286), hasTbl := true, tbl := BitVec.ofNat 1024 (2 ^ 512) })] }
theorem test_meets_Specialising : (
    (specs.nextStart 0 == some (0, [(0, 0)]) && (specs.crew 0).specOwed [(0, 0)] == [0]) &&
    ((sm km).nextStart 1 == none)) = true := by decide +kernel
def linkDown : Req := { rq 3 .sent with apt := 3, crc := (7, 0) }
theorem test_meets_AccessesAndUnitStepsComplete : (
    (issues (sm km) an [1] && issues (sm km) an [1, 2] && issues (sm km) an [1, 2, 5] && released (sm km) 15 && decide ((sm km).logCount 0 < 256) && !km.frozen && physS km.rrb 3 != 0 && (sm km).reqs.isEmpty) &&
    (okTo (xlate 0x100000 1 1 .rd ((sm km).entered false)) ((sm km).entered false)) &&
    (okTo (xlate 0x100000 8 8 .wr ((sm km).entered false)) ((sm km).entered false)) &&
    (okTo (xlate 0x100000 4 4 .atomic ((sm km).entered false)) ((sm km).entered false) && okTo (xlate 0x100000 8 8 .atomic ((sm km).entered false)) ((sm km).entered false)) &&
    (issues (smt kq) an [1, 3] && decide ((kq.rd 1).toNat < 2 ^ 11)) &&
    (queueIs (withH (withQ (smt kq) 1 2 0) 0 0) fun q u1 => q.payload 0x180008 && okIs (u1.ackCheck q 0x180008 true) fun r =>
      okTo (relWait q.scope 0x180008 r.2) r.2 && okay (r.2.ackSlot q 0x180000 r.1 (srcOf r.2.actor 0) (r.2.view (srcOf r.2.actor 0)).k true)) &&
    ((runs [crun 1 0, crun 1 1] []).runAt 0 1 0 == some (crun 1 0) && (crun 1 0).ph.get .waiting 0 == .waiting && (crun 1 0).cnt.get 0 0 == 0 && (crun 1 0).run == 1 && (crun 1 0).rank == 0 && decide (0 < g0.steps.length)) &&
    (let s := runs [begun 0 [1, 2, 3] (crun 1 0), begun 0 [0x3F800000, 2, 3] (crun 1 1)] []; someIs (s.runAt 0 1 0) fun r => r.ph.get .waiting 0 == .begun && r.ph.get .waiting 1 != .complete && (s.collResult 0 r 0).isSome && noSnoop (s.unitRuns seqSrc 0 r.asid (stRanges 2 0 r.base gst0).2.1 (stBytes gst0 * ((s.collResult 0 r 0).getD []).length) .wr r.user)) &&
    (let l := [(1, 1, 0, Msg.none), (1, 1, 1, Msg.none)]; ((List.range (gNrank ghdr)).all fun q => l.any fun u => u.1 == 1 && u.2.1 == 1 && u.2.2.1 == q) && stKind gst1 == 4 && noSnoop ((runs [begun 1 [] (crun 1 0), crun 1 1] l).unitRuns seqSrc 0 0 (stRanges 2 0 (crun 1 0).base gst1).2.1 64 .wr true)) &&
    (((fws true 15 0).fwc 0).machine && decide ((((fws true 15 0).fwc 0).rd 1).toNat < 16)) &&
    (decide ((((fws true 721 0).fwc 0).rd 1).toNat ≤ 721)) &&
    ((((fws true 64 0).fwc 0).rd 1).toNat % 64 == 0 && unitBit 0xE98 == some (some 713) && (fws true 64 0).ready.getLsbD 713) &&
    (({ sm km with reqs := [linkDown] } : State).reqs == [linkDown] && linkDown.apt == 3 && linkDown.phase == .sent && linkDown.crc == (7, 0))) = true := by decide +kernel
theorem test_meets_DecodeAndEncodeAgree : (
    ((Instr.exit an).wf && (encode (.exit an)).isSome && okay (decodeWord ((encode (.exit an)).getD 0))) &&
    ((encodeFirmware (.wxGtc 10)).isSome && okay (decodeFirmware 0x0000050B))) = true := by decide +kernel
def turnAt (k : Core) : State := { sm k with forced := some (.pacer 0) }
def fetching (k : Core) : State :=
  { put { smt k with forced := some (.pacer 0) } 0x100020 12 (((encode (.exit an)).getD 0).toNat) with agenda := [] }
/-- A CSRR of this register stands at the pc, and has waited for the entry whose fault ends its section. -/
def fpsrAt (num : Nat) (p : State → Bool) : Bool :=
  let k : Core :=
    { km with
      retry := true, tvec := 1,
      secFault := some { code := 0x0B, eng := 2, addr := 0x10050, iter := 0, sec := 1, detail := 0, start := 1 } }
  let s := put (fetching k) 0x100020 12 (((encode (.csrr an 5 (BitVec.ofNat 12 num))).getD 0).toNat)
  p { s.begin with forced := none, actor := 0 }
def fetched (k : Core) (w : Nat) (p : Nat → Bool) : Bool :=
  let s := fetching k
  let u : State := { s.begin with forced := none, actor := 0 }
  (s.core 0).runs && !(s.core 0).frozen && (s.core 0).wait == .none && (u.owes 0).isNone && !(s.core 0).slipHeld && (s.core 0).mcall.isNone &&
    okIs (u.fetch 0 k.pc w) fun r => p r.1
theorem test_meets_StepRunsTheDecodedWord : (
    (fetched km 12 fun x => okIs (decodeWord (BitVec.ofNat 96 x)) fun i => i == .exit an) &&
    (fetched { km with pc := 0x10024 } 12 fun x => !okay (decodeWord (BitVec.ofNat 96 x))) &&
    (fetched { km with ctx := { km.ctx with atHdr := true } } 8 fun _ => true) &&
    (({ sm km with agenda := [.boot] } : State).agenda == [.boot] && (sm km).forced == none) &&
    (!(turnAt { km with crew := none }).me.runs) &&
    (let u : State := { (turnAt { km with tvec := 1, asyncPeer := some (1, 1) }).begin with forced := none, actor := 0 }; u.owes 0 == some (.asyncTrap 0) && !u.fpsrWaits 0) &&
    (fpsrAt 0x002 fun u => u.fpsrWaits 0 && (u.owes 0).isSome && okIs (u.choice.2.fetch 0 0x10020 12) fun r => okay (decodeWord (BitVec.ofNat 96 r.1))) &&
    (fpsrAt 0x003 fun u => !u.fpsrWaits 0) &&
    (let u : State := { fetching km with forced := none, actor := 0 }; (match ({ u with cores := [(0, { km with tlb := [] })] } : State).fetch 0 0x10020 12 with | .error (.walk _) => true | _ => false) && traps (u.fetch 0 0x10021 12) && !noSnoop (({ u with bias := [] } : State).fetch 0 0x10020 12)) &&
    (let s : State := { put (smt km) (hbmLocal 0) 4 0x0000050B with forced := some (.firmware 0) }; okIs s.rvFetch fun w => okIs (decodeFirmware w) fun i => i == .wxGtc 10) &&
    (let s : State := { put (smt km) (hbmLocal 0) 4 0x00000513 with forced := some (.firmware 0) }; okIs s.rvFetch fun w => match decodeFirmware w with | .error .notWx => true | _ => false) &&
    (let s : State := { put (smt km) (hbmLocal 0) 4 0x0010050B with forced := some (.firmware 0) }; okIs s.rvFetch fun w => match decodeFirmware w with | .error .notWx => false | .error _ => true | _ => false) &&
    (match ((sm km).setFwc 0 { FwCore.reset with pc := 0xFFFFFFFFFFFF0000 }).rvFetch with | .error _ => true | _ => false) &&
    (({ sm km with agenda := [] } : State).forced == none) &&
    (let s : State := { put (smt km) (hbmLocal 0) 4 0x0000050B with forced := some (.firmware 0) }; !s.rvHeld (s.fwc 0).pc.toNat 4)) = true := by decide +kernel
theorem test_meets_MemoryKept : (
    ((fetching km).mem.wf && goes (step (fetching km)) fun _ => true)) = true := by decide +kernel
theorem test_meets_TimeNeverRunsBack : (
    (goes (step (fetching km)) fun t => decide ((fetching km).now ≤ t.now))) = true := by decide +kernel
end Sys2Proof.Tests
end

section
/-! The words that place the pacer (R25, R199, R200): where `gotoWord` and `gotoHeader` leave it, what BR, JMP, JMPR, CALL and RET do
with them, and the statement about the five. -/
namespace Sys2Proof.Machine

-- Where a word's own effect starts: at the word's address, in its section.

@[simp] theorem State.entered_pc (s : State) (e : Bool) : (s.entered e).me.pc = s.me.pc := by
  unfold State.entered; split
  · rfl
  · rw [State.me_setMe]; split <;> simp
@[simp] theorem State.entered_ctx (s : State) (e : Bool) : (s.entered e).me.ctx = s.me.ctx := by
  unfold State.entered; split
  · rfl
  · rw [State.me_setMe]; split <;> simp

-- What the two ways of leaving a word change, and what they leave alone.

/-- A header takes 8 bytes and each word 12 (R12). -/
@[simp] theorem State.atWord_pc (s : State) (k : Nat) : (s.atWord k).me.pc = s.me.ctx.hdrAddr + 8 + 12 * k := by
  simp [State.atWord, Core.goto]
@[simp] theorem State.atWord_mem (s : State) (k : Nat) : (s.atWord k).mem = s.mem := rfl
@[simp] theorem State.atWord_s (s : State) (k : Nat) : (s.atWord k).me.s = s.me.s := by simp [State.atWord]
@[simp] theorem State.atHeader_pc (s : State) (a : Nat) : (s.atHeader a).me.pc = a := by
  simp [State.atHeader, Core.gotoHdr]
@[simp] theorem State.atHeader_atHdr (s : State) (a : Nat) : (s.atHeader a).me.ctx.atHdr = true := by
  simp [State.atHeader, Core.gotoHdr]
@[simp] theorem State.atHeader_mem (s : State) (a : Nat) : (s.atHeader a).mem = s.mem := rfl
@[simp] theorem State.atHeader_s (s : State) (a : Nat) : (s.atHeader a).me.s = s.me.s := by simp [State.atHeader]

-- The targets.

/-- Does the section have a word `k` (R25)? -/
def SecCtx.HasWord (x : SecCtx) (k : Int) : Prop := 0 ≤ k ∧ k < x.hdr.len.toNat

/-- The trap of a branch to word `k`, which its section does not have (R25): TADDR is where that word would stand. -/
def SecCtx.wordTrap (x : SecCtx) (k : Int) : TrapInfo := tr cSECT (BitVec.ofInt 64 (x.hdrAddr + 8 + 12 * k)).toNat

theorem gotoWord_of_hasWord {s : State} {k : Int} (h : s.me.ctx.HasWord k) :
    gotoWord k s = .ok (.set, s.atWord k.toNat) := by
  obtain ⟨hlo, hhi⟩ := h
  exact if_neg (by omega)

theorem gotoWord_of_not_hasWord {s : State} {k : Int} (h : ¬ s.me.ctx.HasWord k) :
    gotoWord k s = .error (.trap (s.me.ctx.wordTrap k)) := by
  unfold SecCtx.HasWord at h
  exact if_pos (by omega)

/-- The header is checked on arrival (R25), and so is the alignment of its address, at the fetch there (R12; log entry 16: the model's
reading of R199): a jump to any address completes. -/
theorem gotoHeader_eq (a : Nat) (s : State) : gotoHeader a s = .ok (.set, s.atHeader a) := rfl

@[simp] theorem State.entered_hdrTarget (s : State) (e : Bool) (imm : BitVec 32) :
    (s.entered e).me.hdrTarget imm = s.me.hdrTarget imm := by simp [Core.hdrTarget]
@[simp] theorem State.entered_effAddr (s : State) (e : Bool) (a : SReg) (imm : BitVec 32) :
    (s.entered e).me.effAddr a imm = s.me.effAddr a imm := by simp [Core.effAddr]

-- Words that issue and go to a word of their section, or to a header.

section
variable {s : State} {n : Ann} {srcs : List SReg} (h : s.Issues n srcs) {b : Nat} {e : Bool} {f : M Flow}
include h

theorem pacerWord_goes_to_word {k : Int} (hf : f (s.entered e) = gotoWord k (s.entered e)) (hk : s.me.ctx.HasWord k) :
    pacerWord n b srcs e f s = .next ((s.entered e).atWord k.toNat) :=
  pacerWord_set h (hf.trans (gotoWord_of_hasWord (by rwa [State.entered_ctx])))

theorem pacerWord_traps_sect {k : Int} (hf : f (s.entered e) = gotoWord k (s.entered e)) (hk : ¬ s.me.ctx.HasWord k) :
    pacerWord n b srcs e f s = .next (s.trapped e (s.me.ctx.wordTrap k)) := by
  have hg : f (s.entered e) = .error (.trap (s.me.ctx.wordTrap k)) := by
    rw [hf, gotoWord_of_not_hasWord (by rwa [State.entered_ctx]), State.entered_ctx]
  exact pacerWord_trap h hg

theorem pacerWord_goes_to_header {a : Nat} {t : State} (hf : f (s.entered e) = gotoHeader a t) :
    pacerWord n b srcs e f s = .next (t.atHeader a) :=
  pacerWord_set h (hf.trans (gotoHeader_eq a t))

end

-- The five words, each as a word of the pacer that goes to its target.

theorem exec_br (n : Ann) (hdr : Bool) (imm : BitVec 32) (s : State) :
    exec (.br n hdr imm) s = pacerWord n 12 [] false (branchTo hdr imm) s := rfl
theorem exec_jmp (n : Ann) (a : SReg) (imm : BitVec 32) (s : State) :
    exec (.jmp n a imm) s =
      pacerWord n 12 [a] false (fun t => gotoWord ((t.me.rd a).toInt + imm.toInt) t) s := rfl
theorem exec_jmpr (n : Ann) (a : SReg) (imm : BitVec 32) (s : State) :
    exec (.jmpr n a imm) s = pacerWord n 12 [a] false (fun t => gotoHeader (t.me.effAddr a imm).toNat t) s := rfl
/-- The target of a CALL is taken before its link is written (R200). -/
theorem exec_call (n : Ann) (d : SReg) (imm : BitVec 32) (s : State) :
    exec (.call n d imm) s =
      pacerWord n 12 [] false (fun t => gotoHeader (t.me.hdrTarget imm)
        (t.setMe (t.me.wr d (BitVec.ofNat 64 t.me.ctx.endAddr)))) s := rfl
theorem exec_ret (n : Ann) (a : SReg) (s : State) :
    exec (.ret n a) s = pacerWord n 12 [a] false (fun t => gotoHeader (t.me.rd a).toNat t) s := rfl

section
variable {s : State} {n : Ann} (h : s.Issues n []) {imm : BitVec 32}
include h

theorem exec_br_of_hasWord (hk : s.me.ctx.HasWord imm.toInt) :
    exec (.br n false imm) s = .next ((s.entered false).atWord imm.toInt.toNat) := by
  rw [exec_br]
  exact pacerWord_goes_to_word h rfl hk

theorem exec_br_of_not_hasWord (hk : ¬ s.me.ctx.HasWord imm.toInt) :
    exec (.br n false imm) s = .next (s.trapped false (s.me.ctx.wordTrap imm.toInt)) := by
  rw [exec_br]
  exact pacerWord_traps_sect h rfl hk

theorem exec_br_header :
    exec (.br n true imm) s = .next ((s.entered false).atHeader (s.me.hdrTarget imm)) := by
  rw [exec_br, ← State.entered_hdrTarget s false]
  exact pacerWord_goes_to_header h rfl

/-- The link register holds the address after the section's last word (R200). -/
theorem exec_call_links (d : SReg) :
    exec (.call n d imm) s =
      .next (((s.entered false).setMe ((s.entered false).me.wr d (BitVec.ofNat 64 s.me.ctx.endAddr))).atHeader
        (s.me.hdrTarget imm)) := by
  rw [exec_call]
  exact pacerWord_goes_to_header h (by simp only [State.entered_hdrTarget, State.entered_ctx])

end

section
variable {s : State} {n : Ann} {a : SReg} (h : s.Issues n [a]) {imm : BitVec 32}
include h

theorem exec_jmp_of_hasWord (hk : s.me.ctx.HasWord ((s.me.rd a).toInt + imm.toInt)) :
    exec (.jmp n a imm) s = .next ((s.entered false).atWord ((s.me.rd a).toInt + imm.toInt).toNat) := by
  rw [exec_jmp]
  exact pacerWord_goes_to_word h (by simp only [State.entered_rd]) hk

theorem exec_jmp_of_not_hasWord (hk : ¬ s.me.ctx.HasWord ((s.me.rd a).toInt + imm.toInt)) :
    exec (.jmp n a imm) s = .next (s.trapped false (s.me.ctx.wordTrap ((s.me.rd a).toInt + imm.toInt))) := by
  rw [exec_jmp]
  exact pacerWord_traps_sect h (by simp only [State.entered_rd]) hk

theorem exec_jmpr_header :
    exec (.jmpr n a imm) s = .next ((s.entered false).atHeader (s.me.effAddr a imm).toNat) := by
  rw [exec_jmpr]
  exact pacerWord_goes_to_header h (by simp only [State.entered_effAddr])

theorem exec_ret_header : exec (.ret n a) s = .next ((s.entered false).atHeader (s.me.rd a).toNat) := by
  rw [exec_ret]
  exact pacerWord_goes_to_header h (by simp only [State.entered_rd])

end

/-- Settles O6: a word index inside the section is gone to and one outside it traps SECT in place of the effect; the header forms
go to their target, CALL with the address after its section as the link. -/
theorem branchesAndCalls : Obligations.BranchesAndCalls := by
  unfold Obligations.BranchesAndCalls
  intro s n d a imm
  refine ⟨fun h => ⟨?brIn, ?brOut, ?brHeader, ?call⟩, fun h => ⟨⟨?jmpIn, ?jmpOut⟩, ?jmpr, ?ret⟩, fun t k => ?places⟩
  case brIn => exact exec_br_of_hasWord h
  case brOut => exact exec_br_of_not_hasWord h
  case brHeader => exact exec_br_header h
  case call => exact ⟨_, exec_call_links h d, rfl⟩
  case jmpIn => exact exec_jmp_of_hasWord h
  case jmpOut => exact exec_jmp_of_not_hasWord h
  case jmpr => exact exec_jmpr_header h
  case ret => exact exec_ret_header h
  case places =>
    exact ⟨t.atWord_pc k, t.atWord_mem k, t.atWord_s k, t.atHeader_pc k, t.atHeader_atHdr k, t.atHeader_mem k, t.atHeader_s k⟩

end Sys2Proof.Machine
end

section
/-! What the accesses of a unit and the chains it cancels leave alone: a write at its home, a walk, a record fed and a chain given up
change memory, views, requests, watchpoints and channels, but no relay unit and no scalar register (R222, R238, R96). -/
namespace Sys2Proof.Machine

/-- A map of the entries that keeps keys and what `p` sees of a value keeps what `p` sees at each key. -/
theorem AMap.get_map {α β : Type} (p : α → β) {f : Nat × α → Nat × α} (hkey : ∀ e, (f e).1 = e.1)
    (hval : ∀ e, p (f e).2 = p e.2) (d : α) (m : AMap α) (j : Nat) : p (AMap.get d (m.map f) j) = p (AMap.get d m j) := by
  induction m with
  | nil => rfl
  | cons e m ih =>
    rw [List.map_cons]
    unfold AMap.get
    rw [hkey]
    split
    · exact hval e
    · exact ih

/-- What comes of units' accesses to memory: the relay units, the acting core's number and the scalar registers stay. -/
structure State.Traffic (s t : State) : Prop where
  relays : t.relays = s.relays
  actor : t.actor = s.actor
  regs : ∀ c, (t.core c).s = (s.core c).s

namespace State.Traffic
variable {s t u : State}

theorem refl : s.Traffic s := ⟨rfl, rfl, fun _ => rfl⟩
theorem trans (h : s.Traffic t) (h' : t.Traffic u) : s.Traffic u :=
  ⟨h'.relays.trans h.relays, h'.actor.trans h.actor, fun c => (h'.regs c).trans (h.regs c)⟩
theorem of_cores (hr : t.relays = s.relays) (ha : t.actor = s.actor) (hc : t.cores = s.cores) : s.Traffic t :=
  ⟨hr, ha, fun c => by simp only [State.core, hc]⟩
theorem setCore {c : Nat} {k : Core} (h : k.s = (s.core c).s) : s.Traffic (s.setCore c k) where
  relays := rfl
  actor := rfl
  regs d := by
    by_cases hd : d = c
    · rw [hd, State.core_setCore, h]
    · rw [State.core_setCore_other _ _ hd]
theorem ite {p : Prop} [Decidable p] (ht : s.Traffic t) (hu : s.Traffic u) : s.Traffic (if p then t else u) := by
  split
  · exact ht
  · exact hu
theorem relay (h : s.Traffic t) (u : Nat) : t.relay u = s.relay u := by simp only [State.relay, h.relays]
theorem me_s (h : s.Traffic t) : t.me.s = s.me.s := by rw [State.me, State.me, h.actor, h.regs]

/-- A fold whose every step is traffic; `π` takes the state out of what is folded. -/
theorem foldl_of {α β : Type} (π : β → State) {f : β → α → β} (h : ∀ b a, (π b).Traffic (π (f b a))) (l : List α)
    (b : β) : (π b).Traffic (π (l.foldl f b)) := by
  induction l generalizing b with
  | nil => exact refl
  | cons a l ih => exact (h b a).trans (ih (f b a))
theorem foldl {α : Type} {f : State → α → State} (h : ∀ (s : State) a, s.Traffic (f s a)) (l : List α) : s.Traffic (l.foldl f s) :=
  foldl_of id h l s
/-- A fold that stops at the first error. -/
theorem foldl_except {α β ε : Type} {f : Except ε (β × State) → α → Except ε (β × State)}
    (he : ∀ e a, f (.error e) a = .error e) (hf : ∀ b s a b' s', f (.ok (b, s)) a = .ok (b', s') → s.Traffic s')
    {l : List α} {b b' : β} (h : l.foldl f (.ok (b, s)) = .ok (b', t)) : s.Traffic t := by
  induction l generalizing b s with
  | nil =>
    cases h
    exact refl
  | cons a l ih =>
    rw [List.foldl_cons] at h
    match hs : f (.ok (b, s)) a with
    | .ok (c, r) =>
      rw [hs] at h
      exact (hf b s a c r hs).trans (ih h)
    | .error e =>
      rw [hs, List.foldl_fixed' (he e)] at h
      cases h

end State.Traffic

-- Homes, watchpoints and walks.

namespace State

theorem traffic_setView (s : State) (a : Nat) (v : View) : s.Traffic (s.setView a v) := .of_cores rfl rfl rfl
theorem traffic_setDie (s : State) (d : Nat) (x : Die) : s.Traffic (s.setDie d x) := .of_cores rfl rfl rfl
theorem traffic_setReq (s : State) (r : Req) : s.Traffic (s.setReq r) := .of_cores rfl rfl rfl
theorem traffic_dropReq (s : State) (n : Nat) : s.Traffic (s.dropReq n) := .of_cores rfl rfl rfl
theorem traffic_issue (s : State) (r : Req) : s.Traffic (s.issue r) := .of_cores rfl rfl rfl
theorem traffic_choice (s : State) : s.Traffic s.choice.2 := .of_cores rfl rfl rfl
theorem traffic_noteLines (s : State) (d : Nat) (l : List Nat) : s.Traffic (s.noteLines d l) := .of_cores rfl rfl rfl
theorem traffic_setWalks (s : State) (d : Nat) (l : List Walk) : s.Traffic (s.setWalks d l) := s.traffic_setDie d _
theorem traffic_endWalks (s : State) (c src : Nat) : s.Traffic (s.endWalks c src) :=
  .ite (s.traffic_setWalks _ _) .refl
theorem traffic_hold (s : State) (e : Stop) : s.Traffic (s.hold e) := by
  unfold hold
  split <;> exact .of_cores rfl rfl rfl

theorem traffic_acquire (s : State) (b n : Nat) (ms : List Msg) : s.Traffic (s.acquire b n ms) :=
  .ite .refl (s.traffic_setView _ _)

theorem traffic_purge (s : State) (d : Nat) (drop : Tlb → Bool) : s.Traffic (s.purge d drop) := by
  unfold purge
  refine .trans (.ite (s.traffic_setWalks _ _) .refl) ⟨rfl, rfl, fun c => ?_⟩
  refine AMap.get_map Core.s (fun e => ?_) (fun e => ?_) _ _ c <;> split <;> rfl
theorem traffic_purgeLine (s : State) (key : Nat) : s.Traffic (s.purgeLine key) := by
  unfold purgeLine
  dsimp only
  split
  · exact (Traffic.foldl (fun s d => s.traffic_purge d _) _).trans (.of_cores rfl rfl rfl)
  · exact .refl
theorem traffic_homeWord (s : State) (ag key size v : Nat) (atomic : Bool) (rels : List Msg) :
    s.Traffic (s.homeWord ag key size v atomic rels) :=
  have hpurge : s.Traffic (if kSpace key = 0 then s.purgeLine key else s) := .ite (s.traffic_purgeLine key) .refl
  hpurge.trans (.of_cores rfl rfl rfl)
theorem traffic_rawWrite (s : State) (ag key size v : Nat) (rels : List Msg) : s.Traffic (s.rawWrite ag key size v rels) :=
  .foldl (fun s _ => s.traffic_homeWord ..) _

theorem traffic_walkNow {s t : State} {d asid va : Nat} {a : Acc} {user : Bool} {f : Found}
    (h : s.walkNow d asid va a user = .ok (f, t)) : s.Traffic t := by
  unfold walkNow at h
  split at h
  · cases h
  · split at h
    · cases h
    · cases h
      exact .ite ((s.traffic_noteLines d _).trans (traffic_homeWord ..)) (s.traffic_noteLines d _)

theorem traffic_logWatch (s : State) (c : Nat) (e : WatchEv) : s.Traffic (s.logWatch c e) := by
  unfold logWatch
  have hseq : s.Traffic (s.setCore c { s.core c with wseq := (s.core c).wseq + 1 }) := .setCore rfl
  dsimp only
  split
  · exact hseq
  · split
    · exact hseq
    · rename_i hw
      exact (hseq.trans (traffic_walkNow hw)).trans (.trans (.ite (traffic_rawWrite ..) (traffic_issue ..)) (.setCore rfl))
theorem traffic_watchHome (s : State) (ag key size : Nat) (rd wr atomic : Bool) :
    s.Traffic (s.watchHome ag key size rd wr atomic) := by
  refine .foldl (fun s x => ?_) _
  exact .ite (.ite ((s.traffic_logWatch ..).trans (.setCore rfl)) (s.traffic_logWatch ..)) .refl
theorem traffic_homeWrite (s : State) (ag key size v : Nat) (rels : List Msg) : s.Traffic (s.homeWrite ag key size v rels) :=
  .foldl (fun s _ => (s.traffic_homeWord ..).trans (traffic_watchHome ..)) _
theorem traffic_watchRead (s : State) (ag key size : Nat) : s.Traffic (s.watchRead ag key size) :=
  .foldl (fun s _ => s.traffic_watchHome ..) _

theorem traffic_phasePick (s : State) (a w : Nat) : s.Traffic (s.phasePick a w).2 := by
  unfold phasePick
  dsimp only
  split
  · exact .refl
  · split
    · exact s.traffic_setView _ _
    · split
      · exact s.traffic_setView _ _
      · exact s.traffic_choice.trans (traffic_setView ..)
theorem traffic_seenRead (s : State) (a key size : Nat) : s.Traffic (s.seenRead a key size).2 := by
  have hphase : s.Traffic (s.phaseRead a key size).2 := by
    unfold phaseRead
    refine Traffic.foldl_of Prod.snd (fun r p => ?_) (splitWords key size) ((0, s) : Nat × State)
    exact r.2.traffic_phasePick a (p.1 / 8)
  exact hphase.trans (traffic_watchRead ..)
theorem traffic_scopedRead (s : State) (a key size : Nat) : s.Traffic (s.scopedRead a key size).2.2 := by
  unfold scopedRead
  dsimp only
  split
  · exact .refl
  · exact s.traffic_setView _ _

theorem traffic_walked (s : State) (d : Nat) (l : List Nat) : s.Traffic (s.walked d l) :=
  .foldl (fun s _ => (((s.traffic_scopedRead ..).trans (traffic_acquire ..)).trans (traffic_noteLines ..)).trans
    (traffic_watchHome ..)) _
theorem traffic_walkSeen {s t : State} {d asid va : Nat} {a : Acc} {user : Bool} {f : Found}
    (h : s.walkSeen d asid va a user = .ok (f, t)) : s.Traffic t := by
  unfold walkSeen at h
  split at h
  · cases h
  · split at h
    · cases h
    · cases h
      have hwalk := s.traffic_walked d (s.walkReads d asid va)
      exact .ite ((hwalk.trans (traffic_homeWord ..)).trans (traffic_watchHome ..)) hwalk
theorem traffic_xlateNow {s t : State} {d asid va : Nat} {a : Acc} {user : Bool} {x : Target}
    (h : s.xlateNow d asid va a user = .ok (x, t)) : s.Traffic t := by
  unfold xlateNow at h
  split at h
  · cases h
  · rename_i hw
    cases h
    exact traffic_walkSeen hw
theorem traffic_xlateRange {s t : State} {d asid va n : Nat} {a : Acc} {user : Bool} {ps : List (Nat × Nat × Target)}
    (h : s.xlateRange d asid va n a user = .ok (ps, t)) : s.Traffic t := by
  refine Traffic.foldl_except (fun _ _ => rfl) (fun b s p b' s' hp => ?_) h
  dsimp only at hp
  split at hp
  · cases hp
  · rename_i hw
    cases hp
    exact traffic_walkSeen hw

-- Accesses of units.

theorem traffic_touchHost (s : State) (cp key : Nat) (w : Bool) : s.Traffic (s.touchHost cp key w) :=
  .ite (.of_cores rfl rfl rfl) (.ite .refl (.of_cores rfl rfl rfl))
theorem traffic_touchRun (s : State) (x : Target) (n : Nat) (w : Bool) : s.Traffic (s.touchRun x n w) :=
  .ite (.foldl (fun s _ => s.traffic_touchHost ..) _) .refl
theorem traffic_runsMade (s : State) (ag : Nat) (a : Acc) (ps : List (Nat × Nat × Target)) : s.Traffic (s.runsMade ag a ps) := by
  refine .foldl (fun s p => ?_) _
  exact .ite ((s.traffic_touchRun ..).trans (.of_cores rfl rfl rfl)) (s.traffic_touchRun ..)

section
variable {s t : State} {ag d asid va n : Nat} {a : Acc} {user : Bool} {ps : List (Nat × Nat × Target)}

theorem traffic_unitFind (h : s.unitFind ag d asid va n a user = .ok (ps, t)) : s.Traffic t := by
  unfold unitFind at h
  split at h
  · cases h
  · split at h
    · cases h
    · rename_i hx
      dsimp only at h
      split at h
      · cases h
      · split at h
        · cases h
        · split at h <;> cases h
          exact traffic_xlateRange hx
theorem traffic_unitRuns (h : s.unitRuns ag d asid va n a user = .ok (ps, t)) : s.Traffic t := by
  unfold unitRuns at h
  split at h
  · cases h
  · rename_i hf
    cases h
    exact (traffic_unitFind hf).trans (traffic_runsMade ..)
theorem traffic_writeVa {v : Nat} {rels : List Msg} (h : s.writeVa ag d asid va n v user rels = .ok t) : s.Traffic t := by
  unfold writeVa at h
  split at h
  · cases h
  · rename_i hr
    cases h
    exact (traffic_unitRuns hr).trans (.foldl (fun s _ => s.traffic_homeWrite ..) _)

end

-- Feed queues (R258–R261).

theorem traffic_queue {s t : State} {n asid : Nat} {user : Bool} {q : Queue} (h : s.queue n asid user = .ok (q, t)) :
    s.Traffic t := by
  unfold queue at h
  dsimp only at h
  split at h
  · cases h
  · split at h
    · split at h <;> cases h
    · rename_i hf
      split at h <;> cases h
      exact (((traffic_unitFind hf).trans (traffic_watchRead ..)).trans (traffic_runsMade ..)).trans (traffic_watchRead ..)
theorem traffic_putCount (s : State) (q : Queue) (off v : Nat) (rels : List Msg) : s.Traffic (s.putCount q off v rels) :=
  (s.traffic_runsMade ..).trans (traffic_homeWrite ..)
/-- A record is noted as fed, and the sleepers of its queue wake. -/
theorem traffic_noteFed (s : State) (q : Nat) (x : Nat × Nat × Msg) :
    s.Traffic (({ s with fed := s.fed ++ [x] } : State).wakeQueue q) := .of_cores rfl rfl rfl
theorem traffic_feedRecord {s t : State} {q : Queue} {payload ag : Nat} {k : KMap} {user : Bool}
    (h : s.feedRecord q payload ag k user = .ok t) : s.Traffic t := by
  unfold feedRecord at h
  dsimp only at h
  split at h
  · cases h
  · rename_i hf
    split at h
    · cases h
    · rename_i hpayload
      split at h
      · cases h
      · rename_i hheader
        cases h
        have hslot := ((traffic_unitFind hf).trans (traffic_writeVa hpayload)).trans (traffic_writeVa hheader)
        exact (hslot.trans (traffic_putCount ..)).trans (traffic_noteFed ..)

-- Copy traffic that a cancel brings to its end (R96).

theorem traffic_noteWrote (s : State) (c ch gen sec key size : Nat) : s.Traffic (s.noteWrote c ch gen sec key size) :=
  .setCore rfl
theorem traffic_watchCopy (s : State) (c va n : Nat) (rd : Bool) (v : Nat) : s.Traffic (s.watchCopy c va n rd v) :=
  .foldl (fun s _ => .ite (s.traffic_logWatch ..) .refl) _
theorem traffic_noteCopy (s : State) (r : Req) (key size : Nat) : s.Traffic (s.noteCopy r key size) := by
  unfold noteCopy
  split
  · exact .refl
  · have hnote := fun c ch gen sec va rd x => (s.traffic_noteWrote c ch gen sec key size).trans (traffic_watchCopy _ c va size rd x)
    exact .ite ((hnote ..).trans (traffic_setView ..)) (hnote ..)
theorem traffic_noteStore (s : State) (r : Req) : s.Traffic (s.noteStore r) := by
  refine .ite .refl (.foldl (fun s ch => ?_) _)
  exact .ite (.setCore rfl) .refl
theorem traffic_lineWord (s : State) (r : Req) (mask v i : Nat) : s.Traffic (s.lineWord r mask v i) := by
  unfold lineWord
  split
  · exact .refl
  · exact (s.traffic_homeWrite ..).trans (traffic_noteCopy ..)
theorem traffic_lineStep (s : State) (r : Req) (mask v : Nat) : s.Traffic (s.lineStep r mask v) :=
  have hword := fun i => s.traffic_choice.trans (s.choice.2.traffic_lineWord r mask v i)
  .ite s.traffic_choice (.ite ((hword _).trans (traffic_setReq ..))
    (.ite ((hword _).trans (traffic_setReq ..)) ((hword _).trans (traffic_dropReq ..))))

theorem traffic_perform (s : State) (r : Req) : s.Traffic (s.perform r) := by
  have hhost : s.Traffic (if r.apt = 2 then s.touchHost r.cp r.key r.writes else s) := .ite (s.traffic_touchHost ..) .refl
  unfold perform
  refine hhost.trans ?_
  generalize (if r.apt = 2 then s.touchHost r.cp r.key r.writes else s) = t
  cases r.kind with
  | read =>
    dsimp only
    split
    · have hread := t.traffic_seenRead r.agent r.key r.size
      split
      · exact (hread.trans (traffic_watchCopy ..)).trans (traffic_setReq ..)
      · exact hread.trans (traffic_setReq ..)
    · exact ((t.traffic_scopedRead ..).trans (traffic_watchHome ..)).trans (traffic_setReq ..)
  | write v =>
    have hwrite := ((t.traffic_homeWrite r.agent r.key r.size v r.rels).trans (traffic_noteCopy _ r r.key r.size)).trans
      (traffic_noteStore _ r)
    exact .ite (hwrite.trans (traffic_setReq ..)) (hwrite.trans (traffic_dropReq ..))
  | line mask v => exact t.traffic_lineStep ..
  | atom op ty b =>
    exact (((t.traffic_scopedRead ..).trans (traffic_homeWord ..)).trans (traffic_watchHome ..)).trans (traffic_setReq ..)
  | cas exp new =>
    have hread := t.traffic_scopedRead r.agent r.key r.size
    exact .ite (((hread.trans (traffic_homeWord ..)).trans (traffic_watchHome ..)).trans (traffic_setReq ..))
      ((hread.trans (traffic_watchHome ..)).trans (traffic_setReq ..))

theorem traffic_writeRecord (s : State) (c ch va w0 w7 : Nat) : s.Traffic (s.writeRecord c ch va w0 w7) := by
  unfold writeRecord
  split
  · exact .refl
  · rename_i hx
    refine (traffic_xlateNow hx).trans
      (.trans ?status (.ite .refl (((traffic_runsMade ..).trans (traffic_homeWrite ..)).trans (traffic_noteCopy ..))))
    exact .ite .refl (((traffic_runsMade ..).trans (traffic_homeWrite ..)).trans (traffic_noteCopy ..))
theorem traffic_cancelRecord (s : State) (c ch va : Nat) : s.Traffic (s.cancelRecord c ch va) := by
  unfold cancelRecord
  split
  · exact .refl
  · exact s.traffic_writeRecord ..
theorem traffic_endLandings (s : State) (c ch : Nat) : s.Traffic (s.endLandings c ch) := .of_cores rfl rfl rfl
/-- A chain ends with no fault. -/
theorem traffic_chainEnd (s : State) (c ch : Nat) : s.Traffic (s.chainEnd c ch none) :=
  (s.traffic_endLandings c ch).trans (.setCore rfl)
theorem traffic_dropChain (s : State) (c ch : Nat) : s.Traffic (s.dropChain c ch) := by
  refine .trans ?_ (traffic_chainEnd ..)
  refine .trans ?_ (traffic_endWalks ..)
  exact .of_cores rfl rfl rfl
theorem traffic_cancelChain (s : State) (c ch : Nat) : s.Traffic (s.cancelChain c ch) :=
  .ite .refl (.trans (.foldl (fun s _ => s.traffic_cancelRecord ..) _) (traffic_dropChain ..))

end State

end Sys2Proof.Machine
end

section
/-! A relay unit's batons, chains and owed records, as STAT, WAIT and CLOSE meet them (R323, R328, R334, R340–R342). -/
namespace Sys2Proof.Machine

-- Cancelling the chains of a run leaves every relay and every scalar register (R328).

namespace State

theorem traffic_landPosted (s : State) (c ch : Nat) : s.Traffic (s.landPosted c ch) := by
  refine .foldl (fun s r => .trans (.foldl (fun s _ => ?_) _) (traffic_dropReq ..)) _
  split
  · exact .ite (s.traffic_perform _) .refl
  · exact .refl
theorem traffic_cancelFull (s : State) (c ch : Nat) : s.Traffic (s.cancelFull c ch) := by
  unfold cancelFull
  split
  · exact s.traffic_hold _
  · exact (s.traffic_landPosted c ch).trans (traffic_cancelChain ..)
theorem traffic_rlyCancelHandle (s : State) (crew : Option Nat) (h : Nat) : s.Traffic (s.rlyCancelHandle crew h) :=
  .ite .refl (s.traffic_cancelFull ..)
theorem traffic_rlyChains (s : State) (u leg : Nat) : s.Traffic (s.rlyChains u leg) := by
  unfold rlyChains
  dsimp only
  split
  · exact .refl
  · exact (s.traffic_watchRead ..).trans (.foldl (fun s _ => s.traffic_rlyCancelHandle ..) _)

-- Feeding owed records changes nothing of a relay but what stays owed (R323).

theorem traffic_rlyFeed1 (s : State) (u : Nat) (coarse : Bool) (leg : Nat) : s.Traffic (s.rlyFeed1 u coarse leg).2 := by
  unfold rlyFeed1
  dsimp only
  split
  · exact s.traffic_hold _
  · rename_i hq
    split
    · exact traffic_queue hq
    · split
      · exact s.traffic_hold _
      · rename_i hfed
        exact (traffic_queue hq).trans (traffic_feedRecord hfed)
theorem traffic_rlyDrainList (u : Nat) (l : List (Bool × Nat)) (stuckF stuckG : Bool) (s : State) :
    s.Traffic (rlyDrainList u l stuckF stuckG s).2 := by
  induction l generalizing stuckF stuckG s with
  | nil => exact .refl
  | cons o l ih =>
    have htry : ∀ stuck : Bool, s.Traffic (if stuck then (false, s) else s.rlyFeed1 u o.1 o.2).2
      | true => .refl
      | false => s.traffic_rlyFeed1 ..
    specialize htry (if o.1 then stuckG else stuckF)
    unfold rlyDrainList
    dsimp only
    generalize (if (if o.1 then stuckG else stuckF) then (false, s) else s.rlyFeed1 u o.1 o.2) = r at htry ⊢
    split
    · exact htry.trans (ih ..)
    · exact htry.trans (ih ..)

end State

end Sys2Proof.Machine
end

section
/-! STAT, WAIT and CLOSE of a relay (R334, R340–R342): the word's arrival at the unit, the owed records tried again there, the status
word that is given, and the unit freed; the statement about the three. -/
namespace Sys2Proof.Machine

-- Scalar registers of a word that goes on.

theorem physS_ne_zero (rrb : BitVec 64) {d : SReg} (h : d ≠ 0) : physS rrb d ≠ 0 := by
  have hd : d.toNat ≠ 0 := fun h0 => h (BitVec.eq_of_toNat_eq h0)
  unfold physS
  split <;> omega
theorem Core.rd_wr (k : Core) {d : SReg} (v : Word) (h : d ≠ 0) : (k.wr d v).rd d = v := by
  rw [Core.rd, Core.wr_rrb]
  exact Core.rdP_wrP k _ v (physS_ne_zero k.rrb h)
@[simp] theorem Core.advance_rdP (k : Core) (n p : Nat) : (k.advance n).rdP p = k.rdP p := by
  simp only [Core.rdP, Core.advance_s]
@[simp] theorem Core.advance_rd (k : Core) (n : Nat) (r : SReg) : (k.advance n).rd r = k.rd r := by
  simp only [Core.rd, Core.advance_rdP, Core.advance_rrb]

/-- The state after a word that writes a register and goes on at the next word. -/
def State.wrote (s : State) (d : SReg) (v : Word) : State := s.setMe ((s.me.wr d v).advance 12)

@[simp] theorem State.wrote_mem (s : State) (d : SReg) (v : Word) : (s.wrote d v).mem = s.mem := rfl
@[simp] theorem State.wrote_relays (s : State) (d : SReg) (v : Word) : (s.wrote d v).relays = s.relays := rfl
theorem State.wrote_rd (s : State) {d : SReg} (v : Word) (h : d ≠ 0) : (s.wrote d v).me.rd d = v := by
  rw [State.wrote, State.me_setMe, Core.advance_rd, Core.rd_wr _ _ h]

theorem pacerWord_wrote {s t : State} {n : Ann} {srcs : List SReg} (h : s.Issues n srcs) {e : Bool} {f : M Flow} {d : SReg} {v : Word}
    (hf : f (s.entered e) = .ok (.seq, t.setMe (t.me.wr d v))) : pacerWord n 12 srcs e f s = .next (t.wrote d v) := by
  rw [pacerWord_seq h hf, State.me_setMe, State.setMe_setMe, State.wrote]

theorem bind_of_ok {α β : Type} {m : M α} {f : α → M β} {s t : State} {x : α} (h : m s = .ok (x, t)) : (m >>= f) s = f x t := by
  change StateT.bind m f s = f x t
  rw [StateT.bind, h]
  rfl

-- A word's entry leaves the units and the registers.

@[simp] theorem State.entered_relays (s : State) (e : Bool) : (s.entered e).relays = s.relays := by
  unfold State.entered; split <;> rfl
@[simp] theorem State.entered_relay (s : State) (e : Bool) (u : Nat) : (s.entered e).relay u = s.relay u := by
  simp only [State.relay, State.entered_relays]
@[simp] theorem State.entered_gtc (s : State) (e : Bool) : (s.entered e).gtc = s.gtc := by
  unfold State.entered; split <;> rfl
@[simp] theorem State.entered_crew (s : State) (e : Bool) (i : Nat) : (s.entered e).crew i = s.crew i := by
  unfold State.entered; split <;> rfl
@[simp] theorem State.entered_rrb (s : State) (e : Bool) : (s.entered e).me.rrb = s.me.rrb := by
  unfold State.entered; split
  · rfl
  · rw [State.me_setMe]; split <;> simp
/-- A word that does not end its part changes of the cores no more than that the acting one's part is open. -/
theorem State.entered_core {α : Type} (p : Core → α) (hopen : ∀ k : Core, p k.openPart = p k) (s : State) (c : Nat) :
    p ((s.entered false).core c) = p (s.core c) := by
  unfold State.entered
  split
  · rfl
  · by_cases hc : c = s.actor
    · rw [hc, State.setMe, State.core_setCore]
      exact hopen s.me
    · rw [State.setMe, State.core_setCore_other _ _ hc]
theorem State.entered_relayOf (s : State) (c : Nat) (w : Word) : (s.entered false).relayOf c w = s.relayOf c w := by
  simp only [State.relayOf, State.entered_relay, State.entered_core Core.asid Core.openPart_asid]
theorem State.entered_preemptPending (s : State) (c : Nat) : (s.entered false).preemptPending c = s.preemptPending c := by
  simp only [State.preemptPending, State.entered_crew, State.entered_core Core.crew Core.openPart_crew]
theorem State.traffic_entered (s : State) : s.Traffic (s.entered false) :=
  .ite .refl (.setCore (Core.openPart_s s.me))

-- A unit that has tried its owed records (R323).

/-- From `s` to `t` unit `u` has tried its owed records again: of the relay only what stays owed has changed; where nothing was owed,
nothing of the units or of memory has. -/
structure State.Retried (u : Nat) (s t : State) : Prop where
  me_s : t.me.s = s.me.s
  relay : ∃ owed seen, t.relay u = { s.relay u with owed := owed, ackSeen := seen }
  still : (s.relay u).owed = [] → t.mem = s.mem ∧ t.relays = s.relays

namespace State.Retried
variable {s t r : State} {u : Nat}

/-- Traffic that writes nothing, before the records are tried. -/
theorem of_traffic (h : s.Traffic t) (hm : t.mem = s.mem) (h' : t.Retried u r) : s.Retried u r where
  me_s := h'.me_s.trans h.me_s
  relay := h.relay u ▸ h'.relay
  still ho := by
    obtain ⟨hmem, hrelays⟩ := h'.still (by rwa [h.relay u])
    exact ⟨hmem.trans hm, hrelays.trans h.relays⟩

end State.Retried

theorem State.rlyDrain_of_owed_nil {s : State} {u : Nat} (h : (s.relay u).owed = []) : s.rlyDrain u = s :=
  if_pos (.inr (by rw [h]; rfl))

theorem State.rlyDrain_retried (s : State) (u : Nat) : s.Retried u (s.rlyDrain u) := by
  by_cases ho : (s.relay u).owed = []
  · rw [State.rlyDrain_of_owed_nil ho]
    exact ⟨rfl, ⟨_, _, rfl⟩, fun _ => ⟨rfl, rfl⟩⟩
  · have hlist := State.traffic_rlyDrainList u (s.relay u).owed false false s
    unfold State.rlyDrain
    dsimp only
    split
    · exact ⟨rfl, ⟨_, _, rfl⟩, fun h => absurd h ho⟩
    · split
      · exact ⟨hlist.me_s, ⟨_, _, by rw [State.relay_setRelay, hlist.relay]⟩, fun h => absurd h ho⟩
      · exact ⟨hlist.me_s, ⟨_, _, by rw [State.relay_setRelay, State.relay_setRelay, hlist.relay]⟩, fun h => absurd h ho⟩

-- The arrival of a word at the unit (R315).

theorem rlyArrive_eq {u : Nat} {s v : State} (h : rlyArrive u s = .ok ((), v)) :
    v = s.arrive (s.rlyExt u) (s.ext (srcOf s.actor 0)) := by
  unfold rlyArrive arriveM at h
  dsimp only at h
  split at h
  · cases h
  · split at h <;> cases h
    rfl

section
variable {s v : State} {u : Nat} (hv : rlyArrive u (s.entered false) = .ok ((), v))
include hv

theorem traffic_of_rlyArrive : s.Traffic v.unheld := by
  rw [rlyArrive_eq hv]
  exact s.traffic_entered.trans (.of_cores rfl rfl rfl)
theorem mem_of_rlyArrive : v.unheld.mem = s.mem := by
  rw [rlyArrive_eq hv]
  exact s.entered_mem false

/-- The word's owed records are tried: the state in which it goes on. -/
theorem rlyArrive_drain (hd : (v.unheld.rlyDrain u).held = []) :
    ∃ w, s.Retried u w ∧ attemptM (modify fun s : State => s.rlyDrain u) v = .ok ((), w) := by
  have hw := State.Retried.of_traffic (traffic_of_rlyArrive hv) (mem_of_rlyArrive hv) (v.unheld.rlyDrain_retried u)
  exact ⟨{ v.unheld.rlyDrain u with held := v.held }, ⟨hw.me_s, hw.relay, hw.still⟩, attemptM_done rfl hd⟩

end

-- The status word (R340, R341).

/-- SP, a state and a result in the bits of R340 and R341. -/
def Relay.statusWord (x : Relay) (st res : Nat) : Word := BitVec.ofNat 64 (x.sp % 2 ^ 24 + st * 2 ^ 24 + res * 2 ^ 32)
/-- What a WAIT gives beside WSTAT: the faulted leg under 1, else the residual (R341). -/
def Relay.waitRes (x : Relay) (wstat : Nat) : Nat := if wstat = 1 then x.faultLeg else x.residual
/-- The relay has ended, as WSTAT `w` says (R341). -/
def Relay.EndedAs (x : Relay) (w : Nat) : Prop := x.st = .done ∧ w = 0 ∨ x.st = .faulted ∧ w = 1 ∨ x.st = .stopped ∧ w = 2

/-- The residual is the largest jump of the legs from SP on that have not retired, or the default NaN where one of them is a NaN (R334). -/
theorem Relay.residual_eq (x : Relay) :
    x.residual =
      let js := (x.slots.filter fun e => x.sp ≤ e.2.leg && e.2.st != .retired).map fun e => e.2.jump
      if ∃ j ∈ js, 0x7F800000 < j then 0x7FC00000 else js.foldl max 0 := by
  have hnan : nanBits .f32 = 0x7FC00000 := by decide
  simp only [Relay.residual, List.any_eq_true, decide_eq_true_eq, hnan]

/-- Trying the owed records changes no status. -/
theorem State.Retried.statusWord_eq {s t : State} {u : Nat} (h : s.Retried u t) (st : Nat) :
    (t.relay u).statusWord st ((t.relay u).waitRes st) = (s.relay u).statusWord st ((s.relay u).waitRes st) := by
  obtain ⟨owed, seen, hx⟩ := h.relay
  rw [hx]
  rfl

section
variable {s : State} {u gen dl w : Nat}

theorem State.rlyWaitStatus_of_ended {c : Nat} (hg : (s.relay u).gen = gen) (h : (s.relay u).EndedAs w) :
    s.rlyWaitStatus c u gen dl = some w := by
  obtain ⟨hst, rfl⟩ | ⟨hst, rfl⟩ | ⟨hst, rfl⟩ := h <;> simp [State.rlyWaitStatus, hg, hst]
theorem State.rlyWaitStatus_of_stale {c : Nat} (hg : (s.relay u).gen ≠ gen) : s.rlyWaitStatus c u gen dl = some 4 :=
  if_pos hg
/-- A relay that goes on: the deadline comes before a pending pre-emption. -/
theorem State.rlyWaitStatus_of_running {c : Nat} (hg : (s.relay u).gen = gen) (hst : (s.relay u).st = .running) :
    s.rlyWaitStatus c u gen dl =
      if dl ≠ 0 ∧ dl ≤ s.gtc then some 3 else if s.preemptPending c then some 0xFE else none := by
  simp only [State.rlyWaitStatus, hg, hst, ne_eq, not_true_eq_false, if_false]
theorem State.entered_rlyWaitStatus (c : Nat) : (s.entered false).rlyWaitStatus c u gen dl = s.rlyWaitStatus c u gen dl := by
  simp only [State.rlyWaitStatus, State.entered_relay, State.entered_gtc, State.entered_preemptPending]

end

@[simp] theorem State.acquire_mem (s : State) (b n : Nat) (ms : List Msg) : (s.acquire b n ms).mem = s.mem := by
  unfold State.acquire; dsimp only; split <;> rfl
@[simp] theorem State.acquire_core (s : State) (b n : Nat) (ms : List Msg) (c : Nat) : (s.acquire b n ms).core c = s.core c := by
  unfold State.acquire; dsimp only; split <;> rfl

theorem State.rlyWaitEnd_word (s : State) (c u w : Nat) :
    (s.rlyWaitEnd c u w).1 = (s.relay u).statusWord w ((s.relay u).waitRes w) := rfl
@[simp] theorem State.rlyWaitEnd_mem (s : State) (c u w : Nat) : (s.rlyWaitEnd c u w).2.mem = s.mem := by
  unfold State.rlyWaitEnd; dsimp only; split <;> simp
@[simp] theorem State.rlyWaitEnd_core (s : State) (c u w k : Nat) : (s.rlyWaitEnd c u w).2.core k = s.core k := by
  unfold State.rlyWaitEnd; dsimp only; split <;> simp
@[simp] theorem State.rlyWaitEnd_relays (s : State) (c u w : Nat) : (s.rlyWaitEnd c u w).2.relays = s.relays :=
  Traffic.relays (.ite (s.traffic_acquire ..) .refl)

-- The words at the unit, and a handle that names no relay (R336).

theorem exec_rlyStat (n : Ann) (d a : SReg) (s : State) : exec (.rlyStat n d a) s = execRlyStat n d a s := rfl
theorem exec_rlyWait (n : Ann) (d a c : SReg) (s : State) : exec (.rlyWait n d a c) s = execRlyWait n d a c s := rfl
theorem exec_rlyClose (n : Ann) (a : SReg) (s : State) : exec (.rlyClose n a) s = execRlyClose n a s := rfl
theorem exec_rlyWaitReturn (k : Nat) (s : State) : exec (.rlyWaitReturn k) s = .next (s.rlyWaitReturn k) := rfl

section
variable {s : State} {n : Ann} {a : SReg} (h : s.Issues n [a]) (hr : s.relayOf s.actor (s.me.rd a) = none)
include h hr

theorem exec_rlyStat_range (d : SReg) : exec (.rlyStat n d a) s = .next (s.trapped false (tr cRANGE)) := by
  rw [exec_rlyStat, execRlyStat]
  exact pacerWord_trap h (by simp only [State.entered_actor, State.entered_rd, State.entered_relayOf, hr])
theorem exec_rlyClose_range : exec (.rlyClose n a) s = .next (s.trapped false (tr cRANGE)) := by
  rw [exec_rlyClose, execRlyClose]
  exact pacerWord_trap h (by simp only [State.entered_actor, State.entered_rd, State.entered_relayOf, hr])

end

-- STAT and WAIT (R340, R341).

/-- The state of a relay as STAT gives it (R340). -/
def RlyState.code : RlyState → Nat
  | .running => 1
  | .done => 2
  | .faulted => 3
  | .stopped => 4
  | .free => 0

/-- A word has written its result, and beside it no more than the unit's try of its owed records has changed. -/
def State.Gives (s : State) (u : Nat) (d : SReg) (x : Word) (o : Host.Outcome State Fault Refusal) : Prop :=
  ∃ t, o = .next t ∧ t.me.rd d = x ∧ ((s.relay u).owed = [] → t.mem = s.mem ∧ t.relays = s.relays)

theorem State.Retried.gives {s w r : State} {u : Nat} {d : SReg} {x : Word} (hw : s.Retried u w) (hd : d ≠ 0)
    (hm : r.mem = w.mem) (hr : r.relays = w.relays) : s.Gives u d x (.next (r.wrote d x)) := by
  refine ⟨_, rfl, r.wrote_rd x hd, fun ho => ?_⟩
  obtain ⟨hmem, hrelays⟩ := hw.still ho
  exact ⟨hm.trans hmem, hr.trans hrelays⟩

section
variable {s v : State} {n : Ann} {d a : SReg} {u : Nat} (hu : s.relayOf s.actor (s.me.rd a) = some u)
  (hv : rlyArrive u (s.entered false) = .ok ((), v)) (hheld : (v.unheld.rlyDrain u).held = [])
include hu hv hheld

theorem exec_rlyStat_gives (h : s.Issues n [a]) (hd : d ≠ 0) :
    s.Gives u d ((s.relay u).statusWord (s.relay u).st.code (s.relay u).residual) (exec (.rlyStat n d a) s) := by
  obtain ⟨w, hw, hdrain⟩ := rlyArrive_drain hv hheld
  have hexec : exec (.rlyStat n d a) s =
      .next (w.wrote d ((s.relay u).statusWord (s.relay u).st.code (s.relay u).residual)) := by
    rw [exec_rlyStat, execRlyStat]
    refine pacerWord_wrote h ?_
    simp only [State.entered_actor, State.entered_rd, State.entered_relayOf, hu, State.entered_relay]
    rw [bind_of_ok hv, bind_of_ok hdrain]
    rfl
  rw [hexec]
  exact hw.gives hd rfl rfl

variable {c : SReg} (h : s.Issues n [a, c])
include h

theorem exec_rlyWait_gives (hd : d ≠ 0) {st : Nat}
    (hst : s.rlyWaitStatus s.actor u (s.relay u).gen (s.me.rd c).toNat = some st) :
    s.Gives u d ((s.relay u).statusWord st ((s.relay u).waitRes st)) (exec (.rlyWait n d a c) s) := by
  obtain ⟨w, hw, hdrain⟩ := rlyArrive_drain hv hheld
  have hexec : exec (.rlyWait n d a c) s =
      .next ((w.rlyWaitEnd w.actor u st).2.wrote d (w.rlyWaitEnd w.actor u st).1) := by
    rw [exec_rlyWait, execRlyWait]
    refine pacerWord_wrote h ?_
    simp only [State.entered_actor, State.entered_rd, State.entered_relayOf, hu, State.entered_relay, State.entered_rlyWaitStatus, hst]
    rw [bind_of_ok hv, bind_of_ok hdrain]
    rfl
  rw [hexec, State.rlyWaitEnd_word, hw.statusWord_eq]
  exact hw.gives hd (w.rlyWaitEnd_mem ..) (w.rlyWaitEnd_relays ..)

/-- A WAIT that finds nothing stalls at the unit. -/
theorem exec_rlyWait_stalls (hst : s.rlyWaitStatus s.actor u (s.relay u).gen (s.me.rd c).toNat = none) :
    ∃ w, s.Retried u w ∧ exec (.rlyWait n d a c) s =
      .next (w.setMe { w.me with wait := .rlyWait (physS s.me.rrb d) u (s.relay u).gen (s.me.rd c).toNat }) := by
  obtain ⟨w, hw, hdrain⟩ := rlyArrive_drain hv hheld
  refine ⟨w, hw, ?_⟩
  rw [exec_rlyWait, execRlyWait]
  refine pacerWord_set h ?_
  simp only [State.entered_actor, State.entered_rd, State.entered_rrb, State.entered_relayOf, hu, State.entered_relay,
    State.entered_rlyWaitStatus, hst]
  rw [bind_of_ok hv, bind_of_ok hdrain]
  rfl

end

theorem State.answer_core {s : State} {c : Nat} (h : (s.core c).frozen = false) (p : Nat) (v : Word) :
    (s.answer c p v).core c = (s.core c).complete p v := by
  simp [State.answer, h]
@[simp] theorem State.answer_mem (s : State) (c p : Nat) (v : Word) : (s.answer c p v).mem = s.mem := rfl
@[simp] theorem Core.complete_wait (k : Core) (p : Nat) (v : Word) : (k.complete p v).wait = .none := by simp [Core.complete]
theorem Core.complete_rdP (k : Core) {p : Nat} (v : Word) (h : p ≠ 0) : (k.complete p v).rdP p = v := by
  rw [Core.complete, Core.advance_rdP]
  exact k.rdP_wrP p v h

/-- A stalled WAIT that finds a status returns it (R341). -/
theorem exec_rlyWaitReturn_of_status {s : State} {k p u gen dl st : Nat} (hp : p ≠ 0) (hwait : (s.core k).wait = .rlyWait p u gen dl)
    (hfrozen : (s.core k).frozen = false) (hst : s.rlyWaitStatus k u gen dl = some st) :
    ∃ t, exec (.rlyWaitReturn k) s = .next t ∧ (t.core k).wait = .none ∧
      (t.core k).rdP p = (s.relay u).statusWord st ((s.relay u).waitRes st) ∧ t.mem = s.mem := by
  refine ⟨(s.rlyWaitEnd k u st).2.answer k p (s.rlyWaitEnd k u st).1, ?_, ?_⟩
  · rw [exec_rlyWaitReturn, State.rlyWaitReturn]
    simp only [hwait, hst]
  · rw [State.answer_core (by rw [State.rlyWaitEnd_core, hfrozen])]
    exact ⟨Core.complete_wait .., Core.complete_rdP _ _ hp, by rw [State.answer_mem, State.rlyWaitEnd_mem]⟩

-- CLOSE (R342).

theorem State.relay_setRelay_other (s : State) {u v : Nat} (x : Relay) (h : v ≠ u) : (s.setRelay u x).relay v = s.relay v :=
  AMap.get_upd_other _ _ _ h

/-- A relay's unit once it is closed: free, with GEN one higher, no work and nothing owed. -/
def Relay.closed (x : Relay) : Relay := { x with gen := (x.gen + 1) % 2 ^ 32, st := .free, sweepOn := false, owed := [], work := [] }

/-- The chains of the relay's runs are cancelled; then the unit is freed, and who waits at it wakes. -/
theorem State.rlyClose_eq (s : State) (u : Nat) :
    ∃ t, s.Traffic t ∧ s.rlyClose u = (t.setRelay u (s.relay u).closed).rlyWake u := by
  have hchains : s.Traffic ((s.relay u).running.foldl (fun s n => s.rlyChains u n) s) := .foldl (fun s n => s.traffic_rlyChains u n) _
  refine ⟨_, hchains, ?_⟩
  unfold State.rlyClose
  dsimp only
  rw [hchains.relay u]
  rfl

theorem State.rlyClose_relay (s : State) (u : Nat) : (s.rlyClose u).relay u = (s.relay u).closed := by
  obtain ⟨t, _, ht⟩ := s.rlyClose_eq u
  rw [ht]
  exact t.relay_setRelay u _
theorem State.rlyClose_relay_other (s : State) {u v : Nat} (h : v ≠ u) : (s.rlyClose u).relay v = s.relay v := by
  obtain ⟨t, htraffic, ht⟩ := s.rlyClose_eq u
  rw [ht, ← htraffic.relay v]
  exact t.relay_setRelay_other _ h
theorem State.rlyClose_me_s (s : State) (u : Nat) : (s.rlyClose u).me.s = s.me.s := by
  obtain ⟨t, htraffic, ht⟩ := s.rlyClose_eq u
  rw [ht]
  exact htraffic.me_s

section
variable {s v : State} {u : Nat} (hv : rlyArrive u (s.entered false) = .ok ((), v)) (hheld : (v.unheld.rlyClose u).held = [])
include hv hheld

/-- The word has closed the relay: the other units and the scalar registers stay. -/
theorem rlyArrive_close : ∃ w, attemptM (modify fun s : State => s.rlyClose u) v = .ok ((), w) ∧
    w.relay u = (s.relay u).closed ∧ w.me.s = s.me.s ∧ ∀ i, i ≠ u → w.relay i = s.relay i := by
  have harrive := traffic_of_rlyArrive hv
  refine ⟨{ v.unheld.rlyClose u with held := v.held }, attemptM_done rfl hheld, ?_, ?_, fun i hi => ?_⟩
  · rw [← harrive.relay u]
    exact v.unheld.rlyClose_relay u
  · rw [← harrive.me_s]
    exact v.unheld.rlyClose_me_s u
  · rw [← harrive.relay i]
    exact v.unheld.rlyClose_relay_other hi

theorem exec_rlyClose_closes {n : Ann} {a : SReg} (h : s.Issues n [a]) (hu : s.relayOf s.actor (s.me.rd a) = some u) :
    ∃ t, exec (.rlyClose n a) s = .next t ∧
      t.relay u = (s.relay u).closed ∧ t.me.s = s.me.s ∧ ∀ i, i ≠ u → t.relay i = s.relay i := by
  obtain ⟨w, hclose, hrelay, hregs, hothers⟩ := rlyArrive_close hv hheld
  have hexec : exec (.rlyClose n a) s = .next (w.setMe (w.me.advance 12)) := by
    rw [exec_rlyClose, execRlyClose]
    refine pacerWord_seq h ?_
    simp only [State.entered_actor, State.entered_rd, State.entered_relayOf, hu]
    rw [bind_of_ok hv, bind_of_ok hclose]
    rfl
  exact ⟨_, hexec, hrelay, by rw [State.me_setMe, Core.advance_s, hregs], hothers⟩

end

/-- Settles O35: the word arrives, the unit tries its owed records, and STAT and WAIT give the status word of the relay, which that
try does not change; a WAIT of a relay that goes on looks at its deadline, then at a pending pre-emption, and else stalls; CLOSE cancels
the chains of the runs, which is traffic that leaves the units and the registers, and frees its unit. -/
theorem relayStatus : Obligations.RelayStatus := by
  unfold Obligations.RelayStatus
  intro s v n d a c u hd x dl js residual word code open_ drained still ended res
  have hres : x.residual = residual := x.residual_eq
  have hword : ∀ w, x.statusWord w (x.waitRes w) = word w (res w) := fun w => by
    change x.statusWord w (if w = 1 then x.faultLeg else x.residual) = _
    rw [hres]
    rfl
  refine ⟨fun h hr => ⟨exec_rlyStat_range h hr d, exec_rlyClose_range h hr⟩, ?stat, ?wait, ?waitReturn, ?close⟩
  case stat =>
    rintro h ⟨⟨hu, hv⟩, hheld⟩
    rw [← hres]
    exact exec_rlyStat_gives hu hv hheld h hd
  case wait =>
    rintro h ⟨⟨hu, hv⟩, hheld⟩
    have hgives : ∀ w, s.rlyWaitStatus s.actor u x.gen dl = some w → s.Gives u d (word w (res w)) (exec (.rlyWait n d a c) s) :=
      fun w hst => hword w ▸ exec_rlyWait_gives hu hv hheld h hd hst
    refine ⟨fun w he => hgives w (State.rlyWaitStatus_of_ended rfl he), fun hrun h0 hdl => ?_, fun hrun hdl hpre => ?_,
      fun hrun hdl hpre => ?_⟩
    · exact hgives 3 (by rw [State.rlyWaitStatus_of_running rfl hrun, if_pos ⟨h0, hdl⟩])
    · exact hgives 0xFE (by rw [State.rlyWaitStatus_of_running rfl hrun, if_neg (by omega), if_pos hpre])
    · obtain ⟨w, hw, hexec⟩ := exec_rlyWait_stalls (d := d) hu hv hheld h
        (by rw [State.rlyWaitStatus_of_running rfl hrun, if_neg (by omega), if_neg (by simp [hpre])])
      exact ⟨_, hexec, by rw [State.me_setMe], hw.still, by rw [State.me_setMe]; exact hw.me_s⟩
  case waitReturn =>
    intro k p gen dl' w hp hwait hfrozen hcase
    have hst : s.rlyWaitStatus k u gen dl' = some w := by
      obtain ⟨hg, he⟩ | ⟨hg, rfl⟩ := hcase
      · exact State.rlyWaitStatus_of_ended hg he
      · exact State.rlyWaitStatus_of_stale hg
    rw [← hword]
    exact exec_rlyWaitReturn_of_status hp hwait hfrozen hst
  case close =>
    rintro h ⟨hu, hv⟩ hheld
    obtain ⟨t, hexec, hrelay, hregs, hothers⟩ := exec_rlyClose_closes hv hheld h hu
    refine ⟨t, hexec, ?_⟩
    rw [hrelay]
    exact ⟨rfl, rfl, rfl, rfl, rfl, hregs, hothers⟩

end Sys2Proof.Machine
end

section
/-! TRAP and BKPT (R352): which words they are, what a trap that goes to a handler records and what one that contains the core owes
(R345), and the statement about the two. -/
namespace Sys2Proof.Machine

-- The words: OP, an annotation and a 16-bit number.

theorem append_eq_zero_iff {m n : Nat} {x : BitVec m} {y : BitVec n} : x ++ y = 0#(m + n) ↔ x = 0#m ∧ y = 0#n := by
  constructor
  · intro h
    rw [← BitVec.zero_append_zero] at h
    exact ⟨by rw [← BitVec.extractLsb'_append_eq_left (a := x) (b := y), h, BitVec.extractLsb'_append_eq_left],
      by rw [← BitVec.extractLsb'_append_eq_right (a := x) (b := y), h, BitVec.extractLsb'_append_eq_right]⟩
  · rintro ⟨rfl, rfl⟩
    exact BitVec.zero_append_zero

/-- A field of two parts side by side is zero when both are. -/
theorem extract_eq_zero_iff {n : Nat} (w : BitVec n) (start hi lo : Nat) :
    w.extractLsb' start (hi + lo) = 0#(hi + lo) ↔ w.extractLsb' (start + lo) hi = 0#hi ∧ w.extractLsb' start lo = 0#lo := by
  rw [← BitVec.extractLsb'_append_extractLsb'_eq_extractLsb' rfl, append_eq_zero_iff]

/-- A number in the low half of an immediate is the immediate when the high half is zero. -/
theorem zero_append_low_eq_iff (x : BitVec 32) : 0#16 ++ x.extractLsb' 0 16 = x ↔ x.extractLsb' 16 16 = 0#16 := by
  have hsplit : x.extractLsb' 16 16 ++ x.extractLsb' 0 16 = x := BitVec.extractLsb'_append_extractLsb' (w := 16) (len := 16)
  calc 0#16 ++ x.extractLsb' 0 16 = x
      ↔ 0#16 ++ x.extractLsb' 0 16 = x.extractLsb' 16 16 ++ x.extractLsb' 0 16 := by rw [hsplit]
    _ ↔ x.extractLsb' 16 16 = 0#16 := by rw [BitVec.append_left_inj, eq_comm]

/-- The mould of R352: FN, the token bits, the operand fields and IMM<31:16> are zero. -/
def PlainWord (r : RawWord) : Prop :=
  r.fn = 0 ∧ r.tk = 0 ∧ (r.d = 0 ∧ r.a = 0 ∧ r.b = 0 ∧ r.c = 0) ∧ r.imm.extractLsb' 16 16 = 0#16

/-- The four operand fields stand side by side (R11). -/
theorem operands_eq_zero_iff (w : IWord) :
    ((RawWord.ofBits w).d = 0 ∧ (RawWord.ofBits w).a = 0 ∧ (RawWord.ofBits w).b = 0 ∧ (RawWord.ofBits w).c = 0) ↔
      w.extractLsb' 32 40 = 0 := by
  have hc := extract_eq_zero_iff w 32 10 10
  have hbc := (extract_eq_zero_iff w 32 10 20).trans (and_congr_right' hc)
  exact ((extract_eq_zero_iff w 32 10 30).trans (and_congr_right' hbc)).symm

/-- A field of the immediate is a field of the word. -/
theorem imm_extract (w : IWord) {k len : Nat} (h : k + len ≤ 32) :
    (RawWord.ofBits w).imm.extractLsb' k len = w.extractLsb' k len := by
  ext i hi
  simp [RawWord.ofBits]
  omega

theorem plainWord_ofBits_iff (w : IWord) :
    PlainWord (RawWord.ofBits w) ↔
      w.extractLsb' 80 8 = 0 ∧ w.extractLsb' 75 4 = 0 ∧ w.extractLsb' 32 40 = 0 ∧ w.extractLsb' 16 16 = 0 := by
  rw [PlainWord, operands_eq_zero_iff, imm_extract w (by decide)]
  rfl

/-- The word of an annotation and a number gives back exactly the fields of R352's mould. -/
theorem numberWord_eq_iff (r : RawWord) :
    { r.ann.raw r.op 0 with imm := 0#16 ++ r.imm.extractLsb' 0 16 } = r ↔ PlainWord r := by
  rw [PlainWord, ← zero_append_low_eq_iff]
  obtain ⟨op, fn, bt, tk, pr, d, a, b, c, imm⟩ := r
  simp only [Ann.raw, RawWord.ann, RawWord.mk.injEq, true_and, and_assoc, @eq_comm (BitVec _) 0]

section
variable {r : RawWord} {f : Ann → BitVec 16 → Instr} (hx : extract r = some (f r.ann (r.imm.extractLsb' 0 16)))
  (he : ∀ n num, encodeRaw (f n num) = some { n.raw r.op 0 with imm := 0#16 ++ num }) (hwf : ∀ n num, (f n num).wf = true)
include hx he hwf

/-- A word that names an instruction of R352's mould is one when it has that mould, and has a nonzero field otherwise. -/
theorem decodeRaw_number :
    (PlainWord r → decodeRaw r = .ok (f r.ann (r.imm.extractLsb' 0 16))) ∧ (¬ PlainWord r → decodeRaw r = .error .nonzeroField) := by
  have hback : encodeRaw (f r.ann (r.imm.extractLsb' 0 16)) = some r ↔ PlainWord r := by
    rw [he, Option.some_inj, numberWord_eq_iff]
  have hdecode : decodeRaw r = if encodeRaw (f r.ann (r.imm.extractLsb' 0 16)) = some r then
      .ok (f r.ann (r.imm.extractLsb' 0 16)) else .error .nonzeroField := by
    simp only [decodeRaw, hx, hwf, if_true]
  exact ⟨fun h => by rw [hdecode, if_pos (hback.mpr h)], fun h => by rw [hdecode, if_neg (mt hback.mp h)]⟩

end

theorem extract_trap {r : RawWord} (h : r.op = 0x43) : extract r = some (.trap r.ann (r.imm.extractLsb' 0 16)) := by
  rw [extract, h]
  rfl
theorem extract_bkpt {r : RawWord} (h : r.op = 0x45) : extract r = some (.bkpt r.ann (r.imm.extractLsb' 0 16)) := by
  rw [extract, h]
  rfl

/-- The two instructions of R352, each named by its OP. -/
theorem decodeRaw_trapWord {r : RawWord} {op : BitVec 8} {f : Ann → BitVec 16 → Instr}
    (hf : (op, f) ∈ [((0x43 : BitVec 8), Instr.trap), (0x45, Instr.bkpt)]) (hop : r.op = op) :
    (PlainWord r → decodeRaw r = .ok (f r.ann (r.imm.extractLsb' 0 16))) ∧ (¬ PlainWord r → decodeRaw r = .error .nonzeroField) := by
  simp only [List.mem_cons, Prod.mk.injEq, List.not_mem_nil, or_false] at hf
  obtain ⟨rfl, rfl⟩ | ⟨rfl, rfl⟩ := hf
  · exact decodeRaw_number (extract_trap hop) (fun _ _ => by rw [hop]; rfl) fun _ _ => rfl
  · exact decodeRaw_number (extract_bkpt hop) (fun _ _ => by rw [hop]; rfl) fun _ _ => rfl

theorem decodeWord_trapWord {w : IWord} {op : BitVec 8} {f : Ann → BitVec 16 → Instr}
    (hf : (op, f) ∈ [((0x43 : BitVec 8), Instr.trap), (0x45, Instr.bkpt)]) (hop : w.extractLsb' 88 8 = op) :
    let plain := w.extractLsb' 80 8 = 0 ∧ w.extractLsb' 75 4 = 0 ∧ w.extractLsb' 32 40 = 0 ∧ w.extractLsb' 16 16 = 0
    (plain → decodeWord w = .ok (f { bt := w.getLsbD 79, pr := w.extractLsb' 72 3 } (w.extractLsb' 0 16))) ∧
    (¬ plain → decodeWord w = .error .nonzeroField) := by
  have h := decodeRaw_trapWord (r := RawWord.ofBits w) hf hop
  rwa [plainWord_ofBits_iff, imm_extract w (by decide)] at h

-- Taking a trap (R345).

namespace State

@[simp] theorem endWalks_core (s : State) (c src d : Nat) : (s.endWalks c src).core d = s.core d := by
  unfold endWalks
  dsimp only
  split <;> rfl
@[simp] theorem endWalks_agenda (s : State) (c src : Nat) : (s.endWalks c src).agenda = s.agenda := by
  unfold endWalks
  dsimp only
  split <;> rfl

/-- Of the core only its cached translations change (R69). -/
theorem core_dropFailed (s : State) (c va : Nat) :
    (s.dropFailed c va).core c = { s.core c with tlb := dropTlb (s.core c).asid va (s.core c).tlb } := by
  rw [dropFailed, endWalks_core]
  exact s.core_setCore c _
@[simp] theorem dropFailed_agenda (s : State) (c va : Nat) : (s.dropFailed c va).agenda = s.agenda := by
  rw [dropFailed, endWalks_agenda]
  rfl
@[simp] theorem dropFailed_actor (s : State) (c va : Nat) : (s.dropFailed c va).actor = s.actor := by
  rw [dropFailed, (traffic_endWalks _ _ _).actor]
  rfl
@[simp] theorem dropFailed_handles (s : State) (c va : Nat) : ((s.dropFailed c va).core c).handles = (s.core c).handles := by
  rw [core_dropFailed]
  rfl

section
variable {s : State} {c : Nat} {x : TrapInfo} {tpc iter stamp : Nat} {async : Bool} {send : Option Nat}

/-- With TVEC.EN = 0 or MODE = 1 containment comes next (R357). -/
theorem takeTrap_of_not_handles (h : (s.core c).handles = false) :
    (s.takeTrap c x tpc iter async send stamp).agenda = .containment c x.code :: s.agenda := by
  simp [takeTrap, h]

/-- What the record says of the cause and of the place (R347). -/
theorem takeTrap_records (h : (s.core c).handles = true) :
    let t := s.takeTrap c x tpc iter async send stamp
    t.actor = s.actor ∧ (t.core c).taddr = BitVec.ofNat 64 x.addr ∧ (t.core c).tpc = BitVec.ofNat 64 tpc ∧
      (t.core c).tcause = BitVec.ofNat 64 (x.code + async.toNat * 256 + x.detail * 65536) := by
  simp [takeTrap, h, record]

end

end State

/-- TCAUSE<7:0> is the trap's code (R346, R347). -/
theorem fld_tcause {code : Nat} (h : code < 256) (async : Bool) (detail : Nat) :
    fld (BitVec.ofNat 64 (code + async.toNat * 256 + detail * 65536)) 0 8 = code := by
  simp only [fld, BitVec.toNat_ofNat, Nat.shiftRight_zero]
  omega

-- A word that traps precisely.

@[simp] theorem Core.openPart_handles (k : Core) : k.openPart.handles = k.handles := by simp [Core.handles]

@[simp] theorem State.entered_agenda (s : State) (e : Bool) : (s.entered e).agenda = s.agenda := by
  unfold State.entered; split <;> rfl

section
variable {s : State} {x : TrapInfo}

/-- In supervisor mode a trap contains the pacer (R345). -/
theorem State.trapped_of_mode (h : s.me.mode = true) :
    (s.trapped false x).agenda = .containment s.actor x.code :: s.agenda := by
  have hin : ((s.entered false).core s.actor).handles = false := by
    rw [s.entered_core Core.handles Core.openPart_handles, ← State.me, Core.handles, h, Bool.not_true, Bool.and_false]
  rw [State.trapped, State.preciseTrap, State.takeTrap_of_not_handles hin, State.entered_agenda]

/-- In user mode with TVEC.EN = 1 it is recorded: TRAP's and BKPT's with TPC at the word after, but in an MCALL's expansion
(R348, log entry 16). -/
theorem State.trapped_records (hmode : s.me.mode = false) (hen : bit s.me.tvec 0 = true) (hcode : x.code < 256) :
    (s.trapped false x).me.taddr = BitVec.ofNat 64 x.addr ∧
      ((x.code = cTRAPI ∨ x.code = cBKPT) → s.me.mcall = none →
        (s.trapped false x).me.tpc = BitVec.ofNat 64 (s.me.pc + 12)) ∧
      fld (s.trapped false x).me.tcause 0 8 = x.code := by
  have hin : ((s.entered false).core s.actor).handles = true := by
    rw [s.entered_core Core.handles Core.openPart_handles, ← State.me, Core.handles, hmode, Bool.not_false, Bool.and_true]
    exact hen
  obtain ⟨hactor, haddr, htpc, hcause⟩ : (s.trapped false x).actor = _ ∧ _ := State.takeTrap_records hin
  have hme : (s.trapped false x).me = (s.trapped false x).core s.actor := by rw [State.me, hactor, State.entered_actor]
  rw [hme]
  refine ⟨haddr, fun hword hcall => ?_, hcause ▸ fld_tcause hcode false x.detail⟩
  have hpc : ((s.entered false).core s.actor).pc = s.me.pc := s.entered_core Core.pc Core.openPart_pc s.actor
  have hmcall : ((s.entered false).core s.actor).mcall = none := (s.entered_core Core.mcall Core.openPart_mcall s.actor).trans hcall
  exact htpc.trans (by rw [hmcall, if_pos ⟨hword, rfl⟩, hpc])

end

-- The two words.

/-- TRAP and BKPT as words of the pacer: each has no effect but its trap. -/
theorem exec_trap (n : Ann) (num : BitVec 16) (s : State) :
    exec (.trap n num) s = pacerWord n 12 [] false (fun _ => .error (.trap (tr cTRAPI num.toNat))) s := rfl
theorem exec_bkpt (n : Ann) (num : BitVec 16) (s : State) :
    exec (.bkpt n num) s = pacerWord n 12 [] false (fun _ => .error (.trap (tr cBKPT num.toNat))) s := rfl

theorem exec_trapWord {n : Ann} {num : BitVec 16} {i : Instr} {code : Nat}
    (hi : (i, code) ∈ [(Instr.trap n num, 0x17), (Instr.bkpt n num, 0x16)]) (s : State) :
    (code = cTRAPI ∨ code = cBKPT) ∧
      exec i s = pacerWord n 12 [] false (fun _ => .error (.trap (tr code num.toNat))) s := by
  simp only [List.mem_cons, Prod.mk.injEq, List.not_mem_nil, or_false] at hi
  obtain ⟨rfl, rfl⟩ | ⟨rfl, rfl⟩ := hi
  · exact ⟨.inl rfl, exec_trap n num s⟩
  · exact ⟨.inr rfl, exec_bkpt n num s⟩

/-- Settles O17: the decoder takes OP 0x43 and 0x45 in the mould of R352 alone; such a word that issues traps in place of an effect,
which user mode records with the number and the word after and supervisor mode answers with containment, and one whose predicate is
false only takes its place. -/
theorem trapWords : Obligations.TrapWords := by
  unfold Obligations.TrapWords
  refine ⟨fun w op f hf hop => ?decode, ?trap5, ?bkpt1, fun s n num i code hi => ?exec⟩
  case decode =>
    obtain ⟨hplain, hother⟩ := decodeWord_trapWord hf hop
    exact ⟨hplain, fun h => ⟨_, hother h⟩⟩
  case trap5 => exact (decodeWord_trapWord (.head _) rfl).1 (by decide)
  case bkpt1 => exact (decodeWord_trapWord (.tail _ (.head _)) rfl).1 (by decide)
  case exec =>
    obtain ⟨hcode, hexec⟩ := exec_trapWord hi s
    rw [hexec]
    refine ⟨fun h => ?issues, fun hslip hp => pacerWord_false (.inl hslip) hp 12 [] false _⟩
    have htrap := pacerWord_trap h (b := 12) (e := false) (f := fun _ => .error (.trap (tr code num.toNat))) rfl
    refine ⟨htrap, fun hmode hen => ⟨_, htrap, ?record⟩, fun hmode => ⟨_, htrap, State.trapped_of_mode hmode⟩⟩
    have hsmall : code < 256 := by obtain rfl | rfl := hcode <;> decide
    obtain ⟨haddr, htpc, hcause⟩ := State.trapped_records (x := tr code num.toNat) hmode hen hsmall
    exact ⟨haddr.trans (BitVec.ofNat_toNat 64 num), htpc hcode, hcause⟩

end Sys2Proof.Machine
end
